-- ==== Sys2Proof/Word.lean ====
section
/-!
DEFINITION. The word types of the FV-960 and their plainest operations (spec/00 R3: little-endian
bytes; spec/00 R2: numbers of bits).
-/
namespace Sys2Proof

/-- One byte. -/
abbrev Byte := BitVec 8
/-- A 16-bit word. -/
abbrev W16 := BitVec 16
/-- A 32-bit word: a shelf entry, a named register, an instruction word (R166, R168, R313). -/
abbrev W32 := BitVec 32
/-- A 64-bit word: a uniform register, a control register (R169). -/
abbrev W64 := BitVec 64

/-- Bits `lo + n - 1 .. lo` of a number, as a number. -/
def bits (v lo n : Nat) : Nat := (v / 2 ^ lo) % 2 ^ n

/-- Bit `i` of a number. -/
def bit (v i : Nat) : Bool := v.testBit i

/-- The number 1 for true and 0 for false. -/
def b2n (b : Bool) : Nat := if b then 1 else 0

/-- The value of `v` read as an `n`-bit two's complement number (AsS of R312). -/
def asS (v n : Nat) : Int :=
  let u := v % 2 ^ n
  if u < 2 ^ (n - 1) then (u : Int) else (u : Int) - (2 ^ n : Nat)

/-- An integer modulo 2^n, as a number. -/
def wrap (v : Int) (n : Nat) : Nat := (v % (2 ^ n : Nat)).toNat

/-- `v` rounded down to a multiple of `a`. -/
def alignDown (v a : Nat) : Nat := v - v % a

/-- `v` rounded up to a multiple of `a`. -/
def alignUp (v a : Nat) : Nat := alignDown (v + (a - 1)) a

/-- The `n` little-endian bytes of a number (R3). -/
def toBytes : Nat → Nat → List Byte
  | 0, _ => []
  | n + 1, v => BitVec.ofNat 8 v :: toBytes n (v / 256)

/-- The number whose little-endian bytes these are (R3). -/
def ofBytes : List Byte → Nat
  | [] => 0
  | b :: bs => b.toNat + 256 * ofBytes bs

/-- A 64-bit value from its low and high words. -/
def pair64 (lo hi : Nat) : Nat := lo % 2 ^ 32 + 2 ^ 32 * (hi % 2 ^ 32)

/-- The low 32 bits of a number. -/
def lo32 (v : Nat) : Nat := v % 2 ^ 32

/-- Bits 63:32 of a number. -/
def hi32 (v : Nat) : Nat := v / 2 ^ 32 % 2 ^ 32

end Sys2Proof
end

