-- ==== Sys2Proof/Config.lean ====
section
/-!
DEFINITION. What an implementation fixes and the spec leaves open: constants without a body, of which nothing can
be proved but that they are what they are (log 4). Each is applied to the operands it depends on, or to the counter
`freeCtr` of the state where every use may give another value.
-/
namespace Sys2Proof.Config

/-- The security version number that the Obsis controller enforces at reset (R82, log 5). -/
opaque svnAtReset : Nat

/-- The predicate of xmeet for a malformed operand, by the endpoints (R384 gives none). -/
opaque meetPredicate : Nat → Nat → Nat → Nat → Bool

/-- The bits that ftrn returns for a function and an operand, within the bound of R370. -/
opaque ftrnPick : Nat → Nat → Nat

/-- Which faithful neighbour frsq returns for an operand: the upper one (R369). -/
opaque frsqUpper : Nat → Bool

/-- The bits that fdiv.apx returns for its operands, within the bound of R369. -/
opaque fdivApxPick : Nat → Nat → Nat

/-- The high word of a 64-bit operand read from a pipe, whose elements have 32 bits (R172 states none), and the
element that a 64-bit result pushes to a pipe. -/
opaque pipeHigh : Nat → W32
opaque pipeElement : W64 → Nat → W32

/-- Whether a block that L1 does not hold is in L2 when run-ahead asks (R237), by block and free counter. -/
opaque l2Holds : Nat → Nat → Bool

/-- The L2 slice that serves a block (R16: not architectural). -/
opaque sliceOf : Nat → Nat

/-- The sectors, codec and first sector that a compressed or moved block takes (R33). -/
opaque compressedSize : Nat → Nat
opaque codec : Nat → Nat
opaque runBase : Nat → Nat

/-- The number from which the handles of suspended rays count (R267, R277 give no values). -/
opaque rayHandleBase : W32

/-- The depth key of a point whose clip_w is 0 or whose matrix is not finite, for which R266 states none. -/
opaque depthKey : Nat → W32

/-- R279: the words U and V of a triangle hit, which the spec does not define. -/
opaque triU : Nat → W32
opaque triV : Nat → W32

/-- Whether the front face of a triangle is the one with positive area in the window (R281 and R284 do not say). -/
opaque frontPositive : Bool

/-- The colour of a sample, by component (the spec does not say how it follows from the attributes, R285). -/
opaque sampleColor : Nat → Nat → W32

/-- The entries of a table of callables beyond the first, by its address: the spec gives no length (R267, R450). -/
opaque callTableRest : Nat → Nat

/-- The words of a mesh vertex that was never emitted (R433). -/
opaque meshWord : Nat → W32

/-- The nanoseconds that the boot chain takes, and after a hot reset the start of the firmware; at most 200 ms and 100 ms count (R99). -/
opaque bootTime : Nat
opaque firmwareTime : Nat

/-- The power of the module over a millisecond, in watts (R15), by the number of the millisecond. -/
opaque modulePower : Nat → W16

/-- The fuses and the flash of the Obsis controller (R100, R101): the private identity key of 57 bytes and its certificate
chain, the digest of the signing key, the fused security version, and the image of the Obsis firmware. -/
opaque identitySeed : List Byte
opaque certChain : List Byte
opaque fusedKeyDigest : List Byte
opaque fusedSvn : Nat
opaque obsisImage : List Byte

/-- The parts of a firmware image, whose layout the spec does not give (R100): signing key, signature, body, security version. -/
opaque imageKey : List Byte → List Byte
opaque imageSig : List Byte → List Byte
opaque imageBody : List Byte → List Byte
opaque imageSvn : List Byte → Nat

/-- The source number of a message that a device sends to itself over the fabric, which comes over no link (R93). -/
opaque loopSource : Nat

end Sys2Proof.Config
end

