-- ==== Sys2Proof/Syntax.lean ====
section
/-!
DEFINITION. The abstract syntax: one constructor of `Instr` for each row of spec/opcode_table.json. The first
286 are the forms of wave instructions (spec/13 R313 to R333), which carry the fields of their words; the other
103 are the steps of the other agents (spec/95), which carry what arrives from outside or which of several
waiting things moves.
-/
namespace Sys2Proof

/-- The guard of an instruction: GE = 1 with depth GP and negate GN (R161). No guard means GE = GP = GN = 0. -/
structure Guard where
  /-- GP -/
  depth : BitVec 3
  /-- GN -/
  neg : Bool
  deriving DecidableEq, Repr

/-- The controls of word 0 that every form has (R314). -/
structure Ctl where
  /-- SY: wait for all six tokens -/
  sy : Bool
  guard : Option Guard
  /-- STL: the stall count -/
  stl : BitVec 4
  deriving DecidableEq, Repr

/-- A short form: LEN 00, or LEN 10 with its literal (R313, R316). The operand fields hold the codes of R318. -/
structure ShortF where
  ctl : Ctl
  a : BitVec 6
  b : BitVec 6
  lit : Option W64
  deriving DecidableEq, Repr

/-- A long form: LEN 01, or LEN 11 with its literal (R313, R315). The operand fields hold the codes of R319 and
R320, or the raw numbers of R322. -/
structure LongF where
  ctl : Ctl
  /-- MOD: X1 bits 31:22 (R323) -/
  md : BitVec 10
  sub : BitVec 8
  c : BitVec 7
  d : BitVec 7
  imm9 : BitVec 9
  tw : BitVec 6
  ts : BitVec 3
  lb : BitVec 7
  la : BitVec 7
  lit : Option W64
  deriving DecidableEq, Repr

/-- The short form of br and call: a 12-bit count of words (R317). -/
structure ShortBr where
  ctl : Ctl
  disp : BitVec 12
  deriving DecidableEq, Repr

/-- The other forms of br and call (R317): with extension words (LEN 01, 11), or word 0 and the literal (LEN 10). -/
inductive BrF where
  | long (f : LongF)
  | lit (ctl : Ctl) (disp : W64)
  deriving DecidableEq, Repr

/-- The watermark registers that THRESHOLD_WRITE names (R40, R41). -/
inductive Threshold where
  | low | crit | hyst | exh
  deriving DecidableEq, Repr

/-- A write packet of a put (R63, R71): nodes, number, target window, key, offset and length of the put, where the packet's
bytes lie in it, and the bytes. -/
structure WritePacket where
  src : Nat
  dst : Nat
  id : Nat
  win : Nat
  key : Nat
  off : Nat
  total : Nat
  pos : Nat
  data : List Byte
  deriving DecidableEq, Repr
/-- An acknowledgement (R63, R73): nodes, the number of the put or message, and the reason of a refusal, 0 for none. -/
structure AckPacket where
  src : Nat
  dst : Nat
  id : Nat
  reason : Nat
  deriving DecidableEq, Repr
/-- A fence packet (R66): its source node. -/
structure FencePacket where
  src : Nat
  deriving DecidableEq, Repr
/-- A message packet (R63, R74). -/
structure MsgPacket where
  src : Nat
  dst : Nat
  id : Nat
  data : List Byte
  deriving DecidableEq, Repr
/-- What the two ends of the host link agree on beside the rate: the width, and whether the other end supports flit mode (R18). -/
structure LinkMode where
  width : BitVec 5
  flits : Bool
  deriving DecidableEq, Repr
/-- A packet that comes in, and the link that it comes over (R63). -/
structure Arrived (α : Type) where
  link : Nat
  packet : α
  deriving DecidableEq, Repr
/-- What a scrub finds at a place (R24). -/
inductive ScrubOutcome where
  | clean | corrected | uncorrectable
  deriving DecidableEq, Repr
/-- A packet that leaves the device (R63). -/
inductive FabPacket where
  | write (p : WritePacket) | ack (a : AckPacket) | fence (p : FencePacket) | msg (p : MsgPacket) | fenceDone (node : Nat)
  deriving DecidableEq, Repr


/-- One constructor for each row of the opcode table. -/
inductive Instr where
  /-- NOP (R329) -/
  | nop (f : LongF)
  /-- NOP_SHORT (R329) -/
  | nopShort (f : ShortF)
  /-- BR (R342) -/
  | br (f : BrF)
  /-- BR_SHORT (R342) -/
  | brShort (f : ShortBr)
  /-- BRI (R343) -/
  | bri (f : LongF)
  /-- BRI_SHORT (R343) -/
  | briShort (f : ShortF)
  /-- CALL (R344) -/
  | call (f : BrF)
  /-- CALL_SHORT (R344) -/
  | callShort (f : ShortBr)
  /-- CALLI (R343) -/
  | calli (f : LongF)
  /-- CALLI_SHORT (R343) -/
  | calliShort (f : ShortF)
  /-- RET (R345) -/
  | ret (f : LongF)
  /-- RET_SHORT (R345) -/
  | retShort (f : ShortF)
  /-- EXIT (R346) -/
  | exit (f : LongF)
  /-- EXIT_SHORT (R346) -/
  | exitShort (f : ShortF)
  /-- YIELDL (R159) -/
  | yieldl (f : LongF)
  /-- YIELDL_SHORT (R159) -/
  | yieldlShort (f : ShortF)
  /-- TFENCE (R347) -/
  | tfence (f : LongF)
  /-- TFENCE_SHORT (R347) -/
  | tfenceShort (f : ShortF)
  /-- TRAP (R348) -/
  | trap (f : LongF)
  /-- TRAP_SHORT (R348) -/
  | trapShort (f : ShortF)
  /-- BRK (R348) -/
  | brk (f : LongF)
  /-- BRK_SHORT (R348) -/
  | brkShort (f : ShortF)
  /-- IADD (R349) -/
  | iadd (f : LongF)
  /-- IADD_SHORT (R349) -/
  | iaddShort (f : ShortF)
  /-- ISUB (R349) -/
  | isub (f : LongF)
  /-- ISUB_SHORT (R349) -/
  | isubShort (f : ShortF)
  /-- IMUL (R349) -/
  | imul (f : LongF)
  /-- IMUL_SHORT (R349) -/
  | imulShort (f : ShortF)
  /-- IMAD (R349) -/
  | imad (f : LongF)
  /-- IDIV (R350) -/
  | idiv (f : LongF)
  /-- IMIN (R349) -/
  | imin (f : LongF)
  /-- IMIN_SHORT (R349) -/
  | iminShort (f : ShortF)
  /-- IMAX (R349) -/
  | imax (f : LongF)
  /-- IMAX_SHORT (R349) -/
  | imaxShort (f : ShortF)
  /-- IABS (R349) -/
  | iabs (f : LongF)
  /-- IABS_SHORT (R349) -/
  | iabsShort (f : ShortF)
  /-- ICMP (R351) -/
  | icmp (f : LongF)
  /-- ICMP_SHORT (R351) -/
  | icmpShort (f : ShortF)
  /-- IADDSAT (R349) -/
  | iaddsat (f : LongF)
  /-- IADDSAT_SHORT (R349) -/
  | iaddsatShort (f : ShortF)
  /-- LEA (R352) -/
  | lea (f : LongF)
  /-- LEA_SHORT (R352) -/
  | leaShort (f : ShortF)
  /-- SEL (R352) -/
  | sel (f : LongF)
  /-- SEL_SHORT (R352) -/
  | selShort (f : ShortF)
  /-- MOV (R352) -/
  | mov (f : LongF)
  /-- MOV_SHORT (R352) -/
  | movShort (f : ShortF)
  /-- IADD64 (R349) -/
  | iadd64 (f : LongF)
  /-- IADD64_SHORT (R349) -/
  | iadd64Short (f : ShortF)
  /-- IMAD64 (R349) -/
  | imad64 (f : LongF)
  /-- ISUB64 (R349) -/
  | isub64 (f : LongF)
  /-- ISUB64_SHORT (R349) -/
  | isub64Short (f : ShortF)
  /-- AND (R353) -/
  | and (f : LongF)
  /-- AND_SHORT (R353) -/
  | andShort (f : ShortF)
  /-- OR (R353) -/
  | or (f : LongF)
  /-- OR_SHORT (R353) -/
  | orShort (f : ShortF)
  /-- XOR (R353) -/
  | xor (f : LongF)
  /-- XOR_SHORT (R353) -/
  | xorShort (f : ShortF)
  /-- NOT (R353) -/
  | not (f : LongF)
  /-- NOT_SHORT (R353) -/
  | notShort (f : ShortF)
  /-- SHL (R353) -/
  | shl (f : LongF)
  /-- SHL_SHORT (R353) -/
  | shlShort (f : ShortF)
  /-- SHR (R353) -/
  | shr (f : LongF)
  /-- SHR_SHORT (R353) -/
  | shrShort (f : ShortF)
  /-- SAR (R353) -/
  | sar (f : LongF)
  /-- SAR_SHORT (R353) -/
  | sarShort (f : ShortF)
  /-- ROT (R353) -/
  | rot (f : LongF)
  /-- ROT_SHORT (R353) -/
  | rotShort (f : ShortF)
  /-- POPC (R353) -/
  | popc (f : LongF)
  /-- POPC_SHORT (R353) -/
  | popcShort (f : ShortF)
  /-- CLZ (R353) -/
  | clz (f : LongF)
  /-- CLZ_SHORT (R353) -/
  | clzShort (f : ShortF)
  /-- CTZ (R353) -/
  | ctz (f : LongF)
  /-- CTZ_SHORT (R353) -/
  | ctzShort (f : ShortF)
  /-- BREV (R353) -/
  | brev (f : LongF)
  /-- BREV_SHORT (R353) -/
  | brevShort (f : ShortF)
  /-- BFX (R354) -/
  | bfx (f : LongF)
  /-- BFI (R354) -/
  | bfi (f : LongF)
  /-- SHF64 (R355) -/
  | shf64 (f : LongF)
  /-- BSEL (R355) -/
  | bsel (f : LongF)
  /-- PAND (R356) -/
  | pand (f : LongF)
  /-- PAND_SHORT (R356) -/
  | pandShort (f : ShortF)
  /-- POR (R356) -/
  | por (f : LongF)
  /-- POR_SHORT (R356) -/
  | porShort (f : ShortF)
  /-- PXOR (R356) -/
  | pxor (f : LongF)
  /-- PXOR_SHORT (R356) -/
  | pxorShort (f : ShortF)
  /-- PNOT (R356) -/
  | pnot (f : LongF)
  /-- PNOT_SHORT (R356) -/
  | pnotShort (f : ShortF)
  /-- PPUSH (R356) -/
  | ppush (f : LongF)
  /-- PPUSH_SHORT (R356) -/
  | ppushShort (f : ShortF)
  /-- PDROP (R356) -/
  | pdrop (f : LongF)
  /-- PDROP_SHORT (R356) -/
  | pdropShort (f : ShortF)
  /-- PGET (R356) -/
  | pget (f : LongF)
  /-- PGET_SHORT (R356) -/
  | pgetShort (f : ShortF)
  /-- RDSP (R357) -/
  | rdsp (f : LongF)
  /-- RDSP_SHORT (R357) -/
  | rdspShort (f : ShortF)
  /-- WRSP (R357) -/
  | wrsp (f : LongF)
  /-- WRSP_SHORT (R357) -/
  | wrspShort (f : ShortF)
  /-- RDLANE (R358) -/
  | rdlane (f : LongF)
  /-- RDLANE_SHORT (R358) -/
  | rdlaneShort (f : ShortF)
  /-- WRLANE (R358) -/
  | wrlane (f : LongF)
  /-- WRLANE_SHORT (R358) -/
  | wrlaneShort (f : ShortF)
  /-- FADD (R366) -/
  | fadd (f : LongF)
  /-- FADD_SHORT (R366) -/
  | faddShort (f : ShortF)
  /-- FSUB (R366) -/
  | fsub (f : LongF)
  /-- FSUB_SHORT (R366) -/
  | fsubShort (f : ShortF)
  /-- FMUL (R366) -/
  | fmul (f : LongF)
  /-- FMUL_SHORT (R366) -/
  | fmulShort (f : ShortF)
  /-- FMA (R366) -/
  | fma (f : LongF)
  /-- FMIN (R367) -/
  | fmin (f : LongF)
  /-- FMIN_SHORT (R367) -/
  | fminShort (f : ShortF)
  /-- FMAX (R367) -/
  | fmax (f : LongF)
  /-- FMAX_SHORT (R367) -/
  | fmaxShort (f : ShortF)
  /-- FCMP (R368) -/
  | fcmp (f : LongF)
  /-- FCMP_SHORT (R368) -/
  | fcmpShort (f : ShortF)
  /-- FDIV (R369) -/
  | fdiv (f : LongF)
  /-- FDIV_APX (R369) -/
  | fdivApx (f : LongF)
  /-- FSQRT (R369) -/
  | fsqrt (f : LongF)
  /-- FRCP (R369) -/
  | frcp (f : LongF)
  /-- FRSQ (R369) -/
  | frsq (f : LongF)
  /-- FTRN (R370) -/
  | ftrn (f : LongF)
  /-- FRND (R371) -/
  | frnd (f : LongF)
  /-- FRND_SHORT (R371) -/
  | frndShort (f : ShortF)
  /-- FFRACT (R371) -/
  | ffract (f : LongF)
  /-- FFRACT_SHORT (R371) -/
  | ffractShort (f : ShortF)
  /-- FCLASS (R371) -/
  | fclass (f : LongF)
  /-- FCLASS_SHORT (R371) -/
  | fclassShort (f : ShortF)
  /-- FSCALE (R372) -/
  | fscale (f : LongF)
  /-- FSCALE_SHORT (R372) -/
  | fscaleShort (f : ShortF)
  /-- HADD2 (R374) -/
  | hadd2 (f : LongF)
  /-- HADD2_SHORT (R374) -/
  | hadd2Short (f : ShortF)
  /-- HMUL2 (R374) -/
  | hmul2 (f : LongF)
  /-- HMUL2_SHORT (R374) -/
  | hmul2Short (f : ShortF)
  /-- HFMA2 (R374) -/
  | hfma2 (f : LongF)
  /-- HMIN2 (R374) -/
  | hmin2 (f : LongF)
  /-- HMIN2_SHORT (R374) -/
  | hmin2Short (f : ShortF)
  /-- HMAX2 (R374) -/
  | hmax2 (f : LongF)
  /-- HMAX2_SHORT (R374) -/
  | hmax2Short (f : ShortF)
  /-- HCMP2 (R375) -/
  | hcmp2 (f : LongF)
  /-- HCMP2_SHORT (R375) -/
  | hcmp2Short (f : ShortF)
  /-- HDOT2 (R374) -/
  | hdot2 (f : LongF)
  /-- CVT (R376) -/
  | cvt (f : LongF)
  /-- CVT_SHORT (R376) -/
  | cvtShort (f : ShortF)
  /-- CVTN (R378) -/
  | cvtn (f : LongF)
  /-- CVTW (R379) -/
  | cvtw (f : LongF)
  /-- SGNPK (R380) -/
  | sgnpk (f : LongF)
  /-- SGNPK_SHORT (R380) -/
  | sgnpkShort (f : ShortF)
  /-- SGNEX (R380) -/
  | sgnex (f : LongF)
  /-- SGNEX_SHORT (R380) -/
  | sgnexShort (f : ShortF)
  /-- SCL (R381) -/
  | scl (f : LongF)
  /-- SCL_32 (R381) -/
  | scl32 (f : LongF)
  /-- RNGL (R377) -/
  | rngl (f : LongF)
  /-- RNGL_SHORT (R377) -/
  | rnglShort (f : ShortF)
  /-- XADD (R383) -/
  | xadd (f : LongF)
  /-- XADD_SHORT (R383) -/
  | xaddShort (f : ShortF)
  /-- XSUB (R383) -/
  | xsub (f : LongF)
  /-- XSUB_SHORT (R383) -/
  | xsubShort (f : ShortF)
  /-- XMUL (R383) -/
  | xmul (f : LongF)
  /-- XMUL_SHORT (R383) -/
  | xmulShort (f : ShortF)
  /-- XDIV (R383) -/
  | xdiv (f : LongF)
  /-- XSQR (R383) -/
  | xsqr (f : LongF)
  /-- XSQR_SHORT (R383) -/
  | xsqrShort (f : ShortF)
  /-- XSQRT (R383) -/
  | xsqrt (f : LongF)
  /-- XMIN (R383) -/
  | xmin (f : LongF)
  /-- XMIN_SHORT (R383) -/
  | xminShort (f : ShortF)
  /-- XMAX (R383) -/
  | xmax (f : LongF)
  /-- XMAX_SHORT (R383) -/
  | xmaxShort (f : ShortF)
  /-- XABS (R383) -/
  | xabs (f : LongF)
  /-- XABS_SHORT (R383) -/
  | xabsShort (f : ShortF)
  /-- XHULL (R383) -/
  | xhull (f : LongF)
  /-- XHULL_SHORT (R383) -/
  | xhullShort (f : ShortF)
  /-- XMEET (R384) -/
  | xmeet (f : LongF)
  /-- XMEET_SHORT (R384) -/
  | xmeetShort (f : ShortF)
  /-- XTEST (R384) -/
  | xtest (f : LongF)
  /-- XTEST_SHORT (R384) -/
  | xtestShort (f : ShortF)
  /-- XMK (R384) -/
  | xmk (f : LongF)
  /-- XMK_SHORT (R384) -/
  | xmkShort (f : ShortF)
  /-- XMID (R384) -/
  | xmid (f : LongF)
  /-- XMID_SHORT (R384) -/
  | xmidShort (f : ShortF)
  /-- SHFL (R359) -/
  | shfl (f : LongF)
  /-- SHFL_SHORT (R359) -/
  | shflShort (f : ShortF)
  /-- BCAST (R359) -/
  | bcast (f : LongF)
  /-- BCAST_SHORT (R359) -/
  | bcastShort (f : ShortF)
  /-- VOTE (R360) -/
  | vote (f : LongF)
  /-- VOTE_SHORT (R360) -/
  | voteShort (f : ShortF)
  /-- REDUX (R361) -/
  | redux (f : LongF)
  /-- REDUX_SHORT (R361) -/
  | reduxShort (f : ShortF)
  /-- SCAN (R361) -/
  | scan (f : LongF)
  /-- SCAN_SHORT (R361) -/
  | scanShort (f : ShortF)
  /-- DDX (R362) -/
  | ddx (f : LongF)
  /-- DDX_SHORT (R362) -/
  | ddxShort (f : ShortF)
  /-- DDY (R362) -/
  | ddy (f : LongF)
  /-- DDY_SHORT (R362) -/
  | ddyShort (f : ShortF)
  /-- REGROUP (R164) -/
  | regroup (f : LongF)
  /-- MCOUNT (R360) -/
  | mcount (f : LongF)
  /-- MCOUNT_SHORT (R360) -/
  | mcountShort (f : ShortF)
  /-- LANES (R360) -/
  | lanes (f : LongF)
  /-- LANES_SHORT (R360) -/
  | lanesShort (f : ShortF)
  /-- LD (R389) -/
  | ld (f : LongF)
  /-- ST (R389) -/
  | st (f : LongF)
  /-- LDS (R389) -/
  | lds (f : LongF)
  /-- STS (R389) -/
  | sts (f : LongF)
  /-- LDW (R391) -/
  | ldw (f : LongF)
  /-- LDK (R389) -/
  | ldk (f : LongF)
  /-- STK (R389) -/
  | stk (f : LongF)
  /-- LDFUT (R393) -/
  | ldfut (f : LongF)
  /-- STFILL (R393) -/
  | stfill (f : LongF)
  /-- STRESET (R393) -/
  | streset (f : LongF)
  /-- PREF (R392) -/
  | pref (f : LongF)
  /-- CFLUSH (R392) -/
  | cflush (f : LongF)
  /-- CINV (R392) -/
  | cinv (f : LongF)
  /-- CRESIZE (R394) -/
  | cresize (f : LongF)
  /-- RROT (R394) -/
  | rrot (f : LongF)
  /-- WSYNC (R394) -/
  | wsync (f : LongF)
  /-- ATOM (R396) -/
  | atom (f : LongF)
  /-- ATOMS (R396) -/
  | atoms (f : LongF)
  /-- RED (R396) -/
  | red (f : LongF)
  /-- REDS (R396) -/
  | reds (f : LongF)
  /-- CAS (R397) -/
  | cas (f : LongF)
  /-- CASS (R397) -/
  | cass (f : LongF)
  /-- FENCE (R221) -/
  | fence (f : LongF)
  /-- FENCE_UN (R221) -/
  | fenceUn (f : LongF)
  /-- BAR (R399) -/
  | bar (f : LongF)
  /-- BAR_SHORT (R399) -/
  | barShort (f : ShortF)
  /-- BAR_CNT (R399) -/
  | barCnt (f : LongF)
  /-- BARINIT (R201) -/
  | barinit (f : LongF)
  /-- BARRIVE (R201) -/
  | barrive (f : LongF)
  /-- BARWAIT (R201) -/
  | barwait (f : LongF)
  /-- BARTEST (R201) -/
  | bartest (f : LongF)
  /-- WADDR (R403) -/
  | waddr (f : LongF)
  /-- ICINV (R405) -/
  | icinv (f : LongF)
  /-- ISYNC (R405) -/
  | isync (f : LongF)
  /-- ISYNC_SHORT (R405) -/
  | isyncShort (f : ShortF)
  /-- WTOK (R404) -/
  | wtok (f : LongF)
  /-- WTOK_SHORT (R404) -/
  | wtokShort (f : ShortF)
  /-- EBAR (R400) -/
  | ebar (f : LongF)
  /-- EBAR_SHORT (R400) -/
  | ebarShort (f : ShortF)
  /-- CPY (R407) -/
  | cpy (f : LongF)
  /-- CPY2D (R407) -/
  | cpy2d (f : LongF)
  /-- CPYB (R407) -/
  | cpyb (f : LongF)
  /-- QPUT (R408) -/
  | qput (f : LongF)
  /-- QSEQ (R408) -/
  | qseq (f : LongF)
  /-- PUT (R407) -/
  | put (f : LongF)
  /-- MSG (R407) -/
  | msg (f : LongF)
  /-- CPWAIT (R408) -/
  | cpwait (f : LongF)
  /-- MXACQ (R411) -/
  | mxacq (f : LongF)
  /-- MXACQ_SHORT (R411) -/
  | mxacqShort (f : ShortF)
  /-- MXREL (R411) -/
  | mxrel (f : LongF)
  /-- MXREL_SHORT (R411) -/
  | mxrelShort (f : ShortF)
  /-- MXWAIT (R411) -/
  | mxwait (f : LongF)
  /-- MXWAIT_SHORT (R411) -/
  | mxwaitShort (f : ShortF)
  /-- MMA (R413) -/
  | mma (f : LongF)
  /-- MMA_SG1 (R413) -/
  | mmaSg1 (f : LongF)
  /-- MMAS (R414) -/
  | mmas (f : LongF)
  /-- MMAS_32 (R414) -/
  | mmas32 (f : LongF)
  /-- ACCZERO (R410) -/
  | acczero (f : LongF)
  /-- ACCRD (R416) -/
  | accrd (f : LongF)
  /-- ACCST (R415) -/
  | accst (f : LongF)
  /-- ACCLD (R415) -/
  | accld (f : LongF)
  /-- TSPAWN (R418) -/
  | tspawn (f : LongF)
  /-- TARG (R419) -/
  | targ (f : LongF)
  /-- TQRY (R420) -/
  | tqry (f : LongF)
  /-- PCLOSE (R421) -/
  | pclose (f : LongF)
  /-- PCLOSE_SHORT (R421) -/
  | pcloseShort (f : ShortF)
  /-- LAUNCH (R422) -/
  | launch (f : LongF)
  /-- MCH (R424) -/
  | mch (f : LongF)
  /-- MCH_AFF (R424) -/
  | mchAff (f : LongF)
  /-- MCHRES (R425) -/
  | mchres (f : LongF)
  /-- RAYQ (R426) -/
  | rayq (f : LongF)
  /-- RAYRES (R425) -/
  | rayres (f : LongF)
  /-- RAYSUS (R427) -/
  | raysus (f : LongF)
  /-- RAYSUS_MARCH (R427) -/
  | raysusMarch (f : LongF)
  /-- LANT (R428) -/
  | lant (f : LongF)
  /-- BFETCH (R429) -/
  | bfetch (f : LongF)
  /-- FBRUN (R431) -/
  | fbrun (f : LongF)
  /-- PRUNE (R430) -/
  | prune (f : LongF)
  /-- TEMIT (R432) -/
  | temit (f : LongF)
  /-- MEMIT_VERT (R433) -/
  | memitVert (f : LongF)
  /-- MEMIT_PRIM (R433) -/
  | memitPrim (f : LongF)
  /-- TRET (R434) -/
  | tret (f : LongF)
  /-- TRET_SHORT (R434) -/
  | tretShort (f : ShortF)
  /-- HALT (R435) -/
  | halt (f : LongF)
  /-- HALT_SHORT (R435) -/
  | haltShort (f : ShortF)
  /-- DBGMK (R436) -/
  | dbgmk (f : LongF)
  /-- DBGMK_SHORT (R436) -/
  | dbgmkShort (f : ShortF)
  /-- PERFRD (R437) -/
  | perfrd (f : LongF)
  /-- PERFRD_SHORT (R437) -/
  | perfrdShort (f : ShortF)
  /-- POWER_LIMIT_WRITE (R15) -/
  | powerLimitWrite (lim : W16)
  /-- CORE_CLOCK_STEP (R14) -/
  | coreClockStep (up : Bool)
  /-- TIMESTAMP_TICK (R26) -/
  | timestampTick
  /-- TS_NOW_WRITE (R27) -/
  | tsNowWrite (v : W64)
  /-- COLD_RESET (R99) -/
  | coldReset
  /-- WARM_RESET (R99) -/
  | warmReset
  /-- HOT_RESET (R99) -/
  | hotReset
  /-- FUNCTION_LEVEL_RESET (R99) -/
  | functionLevelReset
  /-- LOADFW (R102) -/
  | loadfw
  /-- EXTEND (R102) -/
  | extend
  /-- ATTEST (R103) -/
  | attest
  /-- GETKEY (R102) -/
  | getkey
  /-- MAILBOX_COMPLETE (R102) -/
  | mailboxComplete
  /-- HOST_LINK_TRAINING (R18) -/
  | hostLinkTraining (rate : BitVec 3) (mode : LinkMode)
  /-- WAFOLO_LINK_TRAINING (R19) -/
  | wafoloLinkTraining (link lanes peer : Nat)
  /-- FLIT_RECEIVE (R20) -/
  | flitReceive (link : Nat) (crcOk : Bool)
  /-- FLIT_REPLAY (R20) -/
  | flitReplay (link : Nat)
  /-- LINK_DOWN (R20) -/
  | linkDown (link : Nat)
  /-- COUNTER_READ_CLEAR (R5) -/
  | counterReadClear (off : Nat)
  /-- REGISTER_WRITE (R6) -/
  | registerWrite (off : Nat) (v : W64)
  /-- MEM_CFG_WRITE (R30) -/
  | memCfgWrite (v : W64)
  /-- MEM_REFORMAT (R30) -/
  | memReformat
  /-- THRESHOLD_WRITE (R41) -/
  | thresholdWrite (which : Threshold) (v : W64)
  /-- WCB_WAIT_EXPIRE (R37) -/
  | wcbWaitExpire (block : Nat)
  /-- BLN_STATE_OBSERVE (R42) -/
  | blnStateObserve (core : Nat)
  /-- BLN_EVALUATE (R49) -/
  | blnEvaluate
  /-- SWEEP_VISIT (R46) -/
  | sweepVisit
  /-- UNCHECKED_WRITE_RESUME (R44) -/
  | uncheckedWriteResume
  /-- BLN_KICK (R59) -/
  | blnKick
  /-- DONOR_LIMIT_WRITE (R53) -/
  | donorLimitWrite (v : W64)
  /-- DONOR_BASE_WRITE (R61) -/
  | donorBaseWrite (v : W64)
  /-- WINDOW_TABLE_WRITE (R70) -/
  | windowTableWrite (win : Nat) (word : Nat) (v : W64)
  /-- WRITE_PACKET_RECEIVE (R72) -/
  | writePacketReceive (p : Arrived WritePacket)
  /-- ACKNOWLEDGE_RECEIVE (R72) -/
  | acknowledgeReceive (a : Arrived AckPacket)
  /-- FENCE_PACKET_RECEIVE (R66) -/
  | fencePacketReceive (link : Nat) (p : FencePacket)
  /-- FENCE_DONE_RECEIVE (R66) -/
  | fenceDoneReceive (link : Nat)
  /-- MESSAGE_PACKET_RECEIVE (R75) -/
  | messagePacketReceive (link : Nat) (p : MsgPacket)
  /-- HOST_AP_READ (R80) -/
  | hostApRead (off n : Nat)
  /-- HOST_AP_WRITE (R80) -/
  | hostApWrite (off : Nat) (data : List Byte)
  /-- MESSAGE_SLOT_WRITE (R88) -/
  | messageSlotWrite (off : Nat) (data : List Byte)
  /-- MESSAGE_ACCEPT (R89) -/
  | messageAccept
  /-- WAITING_MESSAGE_FIRE (R92) -/
  | waitingMessageFire
  /-- MESSAGE_REMATCH (R92) -/
  | messageRematch
  /-- CTX_ENABLE (R85) -/
  | ctxEnable (ctx : Nat)
  /-- CTX_STOP (R85) -/
  | ctxStop (ctx : Nat)
  /-- CTX_RESUME (R85) -/
  | ctxResume (ctx : Nat)
  /-- CTX_KILL (R85) -/
  | ctxKill (ctx : Nat)
  /-- CTX_STOPPED_REACHED (R85) -/
  | ctxStoppedReached (ctx : Nat)
  /-- CTX_OFF_REACHED (R85) -/
  | ctxOffReached (ctx : Nat)
  /-- CTX_DESCRIPTOR_WRITE (R84) -/
  | ctxDescriptorWrite (ctx reg : Nat) (v : W64)
  /-- ARM_WORD0_WRITE (R90) -/
  | armWord0Write (entry : Nat) (v : W64)
  /-- ARM_WORD_WRITE (R90) -/
  | armWordWrite (entry word : Nat) (v : W64)
  /-- FQ_CIDX_OBSERVE (R239) -/
  | fqCidxObserve (ctx : Nat)
  /-- TLB_INVALIDATE_RANGE (R236) -/
  | tlbInvalidateRange
  /-- TLB_INVALIDATE_CONTEXT (R236) -/
  | tlbInvalidateContext
  /-- TLB_INVALIDATE_ALL (R236) -/
  | tlbInvalidateAll
  /-- TLB_INVALIDATE_COMPLETE (R236) -/
  | tlbInvalidateComplete
  /-- GRAPH_SUBMIT (R109) -/
  | graphSubmit
  /-- GRAPH_CHECK_DONE (R109) -/
  | graphCheckDone
  /-- GRAPH_NODE_START (R110) -/
  | graphNodeStart (graph node : Nat)
  /-- GRAPH_NODE_COMPLETE (R110) -/
  | graphNodeComplete (graph node : Nat)
  /-- GANG_RESERVE (R116) -/
  | gangReserve (core : Nat)
  /-- GANG_COMMIT (R116) -/
  | gangCommit
  /-- QUANTUM_EXPIRE (R119) -/
  | quantumExpire (core ctx : Nat)
  /-- WAVE_ROTATION (R122) -/
  | waveRotation (core part : Nat)
  /-- GANG_PREEMPT (R253) -/
  | gangPreempt (gang : Nat)
  /-- GANG_RESTORE (R253) -/
  | gangRestore (ctx slot core : Nat)
  /-- LAUNCH_COMPLETE (R97) -/
  | launchComplete (launch : Nat)
  /-- VARIABLE_RESULT_ARRIVE (R175) -/
  | variableResultArrive (wave op : Nat)
  /-- SPAWN_ARRIVE (R139) -/
  | spawnArrive (home : Nat)
  /-- GATHER_STEP (R144) -/
  | gatherStep (home : Nat)
  /-- SPILL_GATHER (R144) -/
  | spillGather (ctx : Nat)
  /-- TASK_WAVE_COMPLETE (R146) -/
  | taskWaveComplete (launch : Nat)
  /-- CTQ_SPILL_BASE_WRITE (R150) -/
  | ctqSpillBaseWrite (ctx : Nat) (v : W64)
  /-- CRESIZE_COMPLETE (R182) -/
  | cresizeComplete (core : Nat)
  /-- BREGION_ZERO_DONE (R185) -/
  | bregionZeroDone (core : Nat)
  /-- REFRESH_WINDOW (R187) -/
  | refreshWindow (die : Nat)
  /-- COPY_ENTRY_START (R224) -/
  | copyEntryStart (core ctx : Nat)
  /-- COPY_BLOCK_WRITE (R42) -/
  | copyBlockWrite (core ctx : Nat)
  /-- COPY_ENTRY_COMPLETE (R193) -/
  | copyEntryComplete (core ctx : Nat)
  /-- WADDR_WAKE (R196) -/
  | waddrWake (wave : Nat)
  /-- WADDR_POLL (R196) -/
  | waddrPoll (wave : Nat)
  /-- WADDR_TIMEOUT (R196) -/
  | waddrTimeout (wave : Nat)
  /-- BARWAIT_TIMEOUT (R201) -/
  | barwaitTimeout (wave : Nat)
  /-- PIPE_WAIT_COMPLETE (R203) -/
  | pipeWaitComplete (wave : Nat)
  /-- DBG_HALT (R258) -/
  | dbgHalt (ctx : Nat)
  /-- DBG_RESUME (R258) -/
  | dbgResume (ctx : Nat)
  /-- DBG_ATTACH_WRITE (R259) -/
  | dbgAttachWrite (ctx : Nat) (v : W64)
  /-- MARCH_RAY_COMPLETE (R264) -/
  | marchRayComplete (core ray : Nat)
  /-- RAY_SUSPEND (R277) -/
  | raySuspend (core ray : Nat)
  /-- CALLABLE_GATHER (R267) -/
  | callableGather (core : Nat)
  /-- TRAVERSAL_RAY_COMPLETE (R275) -/
  | traversalRayComplete (core ray : Nat)
  /-- RENDER_FAULT_PARK (R268) -/
  | renderFaultPark (unit ray : Nat)
  /-- FAULT_BATCH_POST (R268) -/
  | faultBatchPost (unit : Nat)
  /-- PARKED_RAY_RESUME (R268) -/
  | parkedRayResume (unit : Nat)
  /-- PAYLOAD_SLOT_FREE (R282) -/
  | payloadSlotFree (fe slot : Nat)
  /-- CANDELABRA_PRIMITIVE (R284) -/
  | candelabraPrimitive (fe : Nat)
  /-- PERF_CNT_WRITE (R438) -/
  | perfCntWrite (core ctr : Nat) (v : W64)
  /-- K_STEP_COMPLETE (R413) -/
  | kStepComplete (core : Nat)
  /-- SCRUB (R24) -/
  | scrub (place : Nat) (outcome : ScrubOutcome) (src : W16) (word : Nat)
  /-- HOST_LINK_DOWN (R21) -/
  | hostLinkDown
  /-- FAB_LINK_DIS_WRITE (R78) -/
  | fabLinkDisWrite (link : Nat) (v : W64)
  /-- COMPLETION_TIMEOUT (R231) -/
  | completionTimeout (wave : Nat)
  deriving DecidableEq, Repr

end Sys2Proof
end

