-- ==== Sys2Proof/WellFormed.lean ====
section
/-!
DEFINITION. Which instructions are well formed: the operand codes (spec/13 R318 to R322), the modifier layouts
(R323 to R326), the rows of the opcode map (R329 to R331) and the fate of every other encoding (R333), as a list of
the causes that an instruction's words raise whatever the state is.
-/
namespace Sys2Proof

/-- What a source operand code names (R318, R319). -/
inductive Src where
  | shelf (age : Nat)
  | named (r : Nat)
  | k (r : Nat)
  | pipe (q : Nat)
  | zero
  | one
  /-- all-ones (codes 58, 126) -/
  | ones
  | lit
  | imm9
  /-- %lane -/
  | lane
  /-- the wave index in the gang (code 124) -/
  | wave
  /-- a reserved code -/
  | reserved (code : Nat)
  deriving DecidableEq, Repr

/-- R318: the 6-bit codes of short forms. -/
def Src.ofShort (c : Nat) : Src :=
  if c < 16 then .shelf c
  else if c < 48 then .named (c - 16)
  else if c < 56 then .k (c - 48)
  else if c = 56 then .zero
  else if c = 57 then .one
  else if c = 58 then .ones
  else if c = 59 then .lit
  else if c = 60 then .lane
  else .reserved c

/-- R319: the 7-bit codes of long forms. -/
def Src.ofLong (c : Nat) : Src :=
  if c < 16 then .shelf c
  else if c < 80 then .named (c - 16)
  else if c < 112 then .k (c - 80)
  else if c < 116 then .pipe (c - 112)
  else if c < 120 then .reserved c
  else if c = 120 then .zero
  else if c = 121 then .lit
  else if c = 122 then .imm9
  else if c = 123 then .lane
  else if c = 124 then .wave
  else if c = 125 then .one
  else if c = 126 then .ones
  else .reserved c

/-- The codes of uniform class: a k register, a constant, the literal or IMM9 (R170, R387). -/
def Src.isUniform : Src → Bool
  | .k _ | .zero | .one | .ones | .lit | .imm9 => true
  | _ => false

/-- What the destination code D names (R320). -/
inductive Dst where
  /-- push to the shelf only -/
  | shelf
  | named (r : Nat)
  | k (r : Nat)
  | pipe (q : Nat)
  | reserved (code : Nat)
  deriving DecidableEq, Repr

/-- R320. -/
def Dst.ofCode (d : Nat) : Dst :=
  if d = 0 then .shelf
  else if d < 16 then .reserved d
  else if d < 80 then .named (d - 16)
  else if d < 112 then .k (d - 80)
  else if d < 116 then .pipe (d - 112)
  else .reserved d

/-- Whether the destination is a uniform register. -/
def Dst.isK : Dst → Bool
  | .k _ => true
  | _ => false

/-- The operand fields of any form, in one shape: what R316 gives the fields that a short form lacks. -/
structure View where
  /-- LEN 00 or 10 -/
  short : Bool
  ctl : Ctl
  md : Nat
  sub : Nat
  aRaw : Nat
  bRaw : Nat
  cRaw : Nat
  dRaw : Nat
  a : Src
  b : Src
  c : Src
  d : Dst
  /-- IMM9, signed -/
  imm9 : Int
  tw : Nat
  ts : Nat
  lit : Option W64
  deriving DecidableEq, Repr

/-- R316: a short form has SUB, MOD, C, D, IMM9, TW and TS 0. -/
def ShortF.view (f : ShortF) : View where
  short := true
  ctl := f.ctl
  md := 0
  sub := 0
  aRaw := f.a.toNat
  bRaw := f.b.toNat
  cRaw := 0
  dRaw := 0
  a := Src.ofShort f.a.toNat
  b := Src.ofShort f.b.toNat
  c := .shelf 0
  d := .shelf
  imm9 := 0
  tw := 0
  ts := 0
  lit := f.lit

/-- R315. -/
def LongF.view (f : LongF) : View where
  short := false
  ctl := f.ctl
  md := f.md.toNat
  sub := f.sub.toNat
  aRaw := f.la.toNat
  bRaw := f.lb.toNat
  cRaw := f.c.toNat
  dRaw := f.d.toNat
  a := Src.ofLong f.la.toNat
  b := Src.ofLong f.lb.toNat
  c := Src.ofLong f.c.toNat
  d := Dst.ofCode f.d.toNat
  imm9 := f.imm9.toInt
  tw := f.tw.toNat
  ts := f.ts.toNat
  lit := f.lit

/-- A view with every operand field zero. -/
def View.bare (ctl : Ctl) (imm9 : Int) (lit : Option W64) : View where
  short := true
  ctl := ctl
  md := 0
  sub := 0
  aRaw := 0
  bRaw := 0
  cRaw := 0
  dRaw := 0
  a := .shelf 0
  b := .shelf 0
  c := .shelf 0
  d := .shelf
  imm9 := imm9
  tw := 0
  ts := 0
  lit := lit

/-- R317: the short branch form; its displacement is a count of words, kept in `imm9` of the view. -/
def ShortBr.view (f : ShortBr) : View := View.bare f.ctl f.disp.toInt none

/-- R317: the other branch forms. -/
def BrF.view : BrF → View
  | .long f => f.view
  | .lit ctl v => View.bare ctl 0 (some v)

/-- R317: the displacement in bytes: the literal where there is one, else the count of words times 4. -/
def View.brDisp (v : View) : Int :=
  match v.lit with
  | some x => x.toInt
  | none => 4 * v.imm9

/-! ### The fields of MOD (R323) and the codes of R324 and R325 -/

/-- RND: X1 bits 24:22. -/
def View.rnd (v : View) : Nat := bits v.md 0 3
/-- ORDER: the same bits in rows 0x9_ to 0xB_. -/
def View.order (v : View) : Nat := bits v.md 0 3
/-- SAT, and XA of mch: X1 bit 25. -/
def View.sat (v : View) : Bool := bit v.md 3
/-- SCOPE: X1 bits 27:25. -/
def View.scope (v : View) : Nat := bits v.md 3 3
/-- STEP: X1 bits 27:26 (R326). -/
def View.step (v : View) : Nat := bits v.md 4 2
/-- TYPE, and OPER of tspawn: X1 bits 31:28. -/
def View.typeRaw (v : View) : Nat := bits v.md 6 4
/-- COND of waddr: X1 bits 31:29. -/
def View.cond (v : View) : Nat := bits v.md 7 3
/-- W64 of waddr: X1 bit 28. -/
def View.w64 (v : View) : Bool := bit v.md 6
/-- The flags of row 0xC_: ORD, DG, BA, CW. -/
def View.ord (v : View) : Bool := bit v.md 9
def View.dg (v : View) : Bool := bit v.md 8
def View.ba (v : View) : Bool := bit v.md 7
def View.cw (v : View) : Bool := bit v.md 6

/-- The types of R324. -/
inductive Ty where
  | s8 | s16 | s32 | s64 | z8 | z16 | z32 | z64 | b32 | f32 | f16 | bf16 | b64
  deriving DecidableEq, Repr

/-- R324: the type of a code other than 0; codes 14 and 15 are refused before this is asked. -/
def Ty.ofCode : Nat → Ty
  | 1 => .s8 | 2 => .s16 | 3 => .s32 | 4 => .s64 | 5 => .z8 | 6 => .z16 | 7 => .z32 | 8 => .z64
  | 9 => .b32 | 10 => .f32 | 11 => .f16 | 12 => .bf16 | _ => .b64

/-- The width of a type in bits. -/
def Ty.width : Ty → Nat
  | .s8 | .z8 => 8
  | .s16 | .z16 | .f16 | .bf16 => 16
  | .s32 | .z32 | .b32 | .f32 => 32
  | .s64 | .z64 | .b64 => 64

/-- Whether values of the type are extended by their sign (R320, R386). -/
def Ty.signed : Ty → Bool
  | .s8 | .s16 | .s32 | .s64 => true
  | _ => false

/-- Whether the type is a float format. -/
def Ty.isFloat : Ty → Bool
  | .f32 | .f16 | .bf16 => true
  | _ => false

/-- The narrow formats of R325. -/
inductive NFmt where
  | e5m2 | e4m3 | e3m2 | e2m3 | e2m1 | int8 | uint8 | int4 | uint4 | sg1 | bf16 | fp16
  deriving DecidableEq, Repr

/-- R325; codes 12 to 15 are refused before this is asked. -/
def NFmt.ofCode : Nat → NFmt
  | 0 => .e5m2 | 1 => .e4m3 | 2 => .e3m2 | 3 => .e2m3 | 4 => .e2m1 | 5 => .int8 | 6 => .uint8
  | 7 => .int4 | 8 => .uint4 | 9 => .sg1 | 10 => .bf16 | _ => .fp16

/-- The bits an element of the format takes in a packed word (R297). -/
def NFmt.slot : NFmt → Nat
  | .e5m2 | .e4m3 | .e3m2 | .e2m3 | .int8 | .uint8 => 8
  | .e2m1 | .int4 | .uint4 => 4
  | .sg1 => 1
  | .bf16 | .fp16 => 16

/-! ### Rows of the opcode map -/

/-- How an instruction reads a source field. -/
inductive SrcUse where
  /-- not read: the field must be 0 (R320) -/
  | unused
  /-- one 32-bit operand -/
  | word
  /-- one 64-bit operand (R167, R168, R319) -/
  | pair
  /-- an interval operand (R382) -/
  | itv
  /-- an operand of uniform class, else the cause; 64 bits wide if set (R387, R170) -/
  | uni (wide : Bool) (cause : Nat)
  /-- as `uni`, IMM9 excepted as well, cause 0x04 (R406, R412) -/
  | uniX (wide : Bool)
  /-- `n` consecutive shelf ages or named registers, the first register a multiple of `al`; other codes raise 0x04 -/
  | span (n al : Nat)
  /-- a raw number below `lim`, else cause 0x04 (R322) -/
  | raw (lim : Nat)
  /-- a memory base (R385); uniform only, else the cause, where one is given -/
  | base (uniform : Option Nat)
  /-- a memory offset (R385); uniform only, else the cause, where one is given -/
  | off (uniform : Option Nat)
  /-- the name of a k register up to `last`, else cause 0x04 -/
  | kreg (last : Nat)
  deriving DecidableEq, Repr

/-- Which destinations an instruction takes. -/
inductive DstUse where
  /-- no register result: D must be 0 (R320) -/
  | none
  /-- a 32-bit result: any destination -/
  | word
  /-- a 64-bit or interval result: a named register must be even (R168); a pipe is refused where the entry says so -/
  | pair (pipeOk kOk : Bool)
  /-- a 32-bit result that may not go to a k register (cause 0x05) -/
  | wordNoK
  /-- the shelf or a named register only, else cause 0x04; `w` consecutive registers, even where `w` is 2 -/
  | reg (w : Nat)
  /-- a k register only, else cause 0x04 -/
  | konly
  /-- a named register only, else the cause -/
  | namedOnly (cause : Nat)
  deriving DecidableEq, Repr

/-- One row of the opcode map with what the instruction's entry asks of its fields. -/
structure Row where
  op : Nat
  /-- SUB values of the row (else cause 0x02) -/
  sub : Nat → Bool
  /-- MOD is legal, STEP of an X form apart (else cause 0x03) -/
  mod : View → Bool
  a : View → SrcUse
  b : View → SrcUse
  c : View → SrcUse
  d : View → DstUse
  /-- an X form (R331): STEP must be 0b01 -/
  x : Bool
  /-- one of the forms of R341, which may name a k register while its sources are per lane -/
  wave : Bool
  /-- fields the entry requires to be zero besides (else cause 0x03) -/
  zero : View → Bool

/-- IMM9 must be 0. -/
def noImm (v : View) : Bool := v.imm9 = 0
/-- Nothing more must be zero. -/
def anyF (_ : View) : Bool := true
/-- SUB must be the given value. -/
def subIs (n : Nat) (s : Nat) : Bool := s = n
/-- SUB lies below the given value. -/
def subLt (n : Nat) (s : Nat) : Bool := decide (s < n)
/-- MOD must be zero, STEP of an X form apart. -/
def modZero (v : View) : Bool := v.md = 0
/-- MOD of an X form without other modifiers: only STEP may be nonzero. -/
def modStep (v : View) : Bool := bits v.md 0 4 = 0 && bits v.md 6 4 = 0

/-- TYPE, with an explicit code equal to the row's default read as 0 (R324). -/
def View.typ (v : View) (dflt : Nat) : Nat := if v.typeRaw = dflt then 0 else v.typeRaw

/-- MOD of rows 0x1_, 0x2_ and 0x4_ to 0x8_: the types (normalised) and rounding modes accepted, SAT and STEP zero. -/
def modTyped (dflt : Nat) (types : List Nat) (rnds : View → List Nat) (v : View) : Bool :=
  types.contains (v.typ dflt) && (rnds v).contains v.rnd && !v.sat && v.step = 0

/-- The rounding codes 0 to 3. -/
def rnd4 (_ : View) : List Nat := [0, 1, 2, 3]
/-- RND 0. -/
def rnd0 (_ : View) : List Nat := [0]

/-- A uniform operand of an instruction that may write a k register: 0x05 where it does, else 0x04 (R387). -/
def uUniD (wide : Bool) (v : View) : SrcUse := .uni wide (if v.d.isK then 0x05 else 0x04)

/-- A row of integer, bit, float or lane instructions. -/
def aluRow (op : Nat) (sub : Nat → Bool) (mod : View → Bool) (a b c : View → SrcUse) (d : View → DstUse) : Row where
  op := op
  sub := sub
  mod := mod
  a := a
  b := b
  c := c
  d := d
  x := false
  wave := false
  zero := anyF

def uU (_ : View) : SrcUse := .unused
def uW (_ : View) : SrcUse := .word
def uP (_ : View) : SrcUse := .pair
def uI (_ : View) : SrcUse := .itv
def dN (_ : View) : DstUse := .none
def dW (_ : View) : DstUse := .word
/-- A 64-bit result that may go to a pipe as well. -/
def dP (_ : View) : DstUse := .pair true true
/-- An interval result (R382). -/
def dI (_ : View) : DstUse := .pair false true

/-- Whether the (normalised) type is 64 bits wide. -/
def is64 (t : Nat) : Bool := t = 4 || t = 8 || t = 13

/-- A source as wide as the type. -/
def uT (dflt : Nat) (v : View) : SrcUse := if is64 (v.typ dflt) then .pair else .word
/-- A destination as wide as the type. -/
def dT (dflt : Nat) (v : View) : DstUse := if is64 (v.typ dflt) then .pair true true else .word

/-! #### Row 0x0_ (R340 to R348) -/

/-- A control row: MOD and D are 0. -/
def ctlRow (op : Nat) (a : View → SrcUse) : Row := aluRow op (subIs 0) modZero a uU uU dN

def rowNop := ctlRow 0x00 uU
/-- R317: bits 1:0 of a literal displacement must be zero. -/
def brZero (v : View) : Bool :=
  match v.lit with
  | some x => bits x.toNat 0 2 = 0
  | none => true
def rowBr : Row := { ctlRow 0x01 uU with zero := brZero }
def rowBri := ctlRow 0x02 uP
def rowCall : Row := { ctlRow 0x03 uU with zero := brZero }
def rowCalli := ctlRow 0x04 uP
def rowRet := ctlRow 0x05 uU
def rowExit := ctlRow 0x06 uU
def rowYieldl := ctlRow 0x07 uU
def rowTfence := ctlRow 0x08 uU
/-- R348: trap and brk set no token. -/
def noTs (v : View) : Bool := v.ts = 0
def rowTrap : Row := { ctlRow 0x09 uU with zero := noTs }
def rowBrk : Row := { ctlRow 0x0A uU with zero := noTs }

/-! #### Row 0x1_ (R349 to R352) -/

def t32 : List Nat := [0, 7]
def rowIadd := aluRow 0x10 (subLt 2) (modTyped 3 t32 rnd0) uW uW uU dW
def rowIsub := aluRow 0x11 (subLt 2) (modTyped 3 t32 rnd0) uW uW uU dW
/-- SUB 2 (.wide) is 64 bits wide. -/
def cWide (v : View) : SrcUse := if v.sub = 2 then .pair else .word
def dWide (v : View) : DstUse := if v.sub = 2 then .pair true true else .word
def rowImul := aluRow 0x12 (subLt 3) (modTyped 3 t32 rnd0) uW uW uU dWide
def rowImad := aluRow 0x13 (subLt 3) (modTyped 3 t32 rnd0) uW uW cWide dWide
/-- R350: for .qr, D is 0, an even named register or a k register. -/
def dQr (v : View) : DstUse := if v.sub = 2 then .pair false true else .word
def rowIdiv := aluRow 0x14 (subLt 3) (modTyped 3 t32 rnd0) uW uW uU dQr
def rowImin := aluRow 0x15 (subIs 0) (modTyped 3 t32 rnd0) uW uW uU dW
def rowImax := aluRow 0x16 (subIs 0) (modTyped 3 t32 rnd0) uW uW uU dW
def rowIabs := aluRow 0x17 (subLt 2) (modTyped 3 [0] rnd0) uW uU uU dW
def rowIcmp := aluRow 0x18 (subLt 6) (modTyped 3 [0, 7, 4, 8] rnd0) (uT 3) (uT 3) uU dN
def rowIaddsat := aluRow 0x19 (subLt 2) (modTyped 3 t32 rnd0) uW uW uU dW
def rowLea := aluRow 0x1A (subLt 8) (modTyped 3 [0, 7, 4, 8] rnd0) (uT 3) uW uU (dT 3)
def rowSel := aluRow 0x1B (subLt 8) (modTyped 3 [0, 7, 9, 10, 11, 12, 4, 8, 13] rnd0) (uT 3) (uT 3) uU (dT 3)
def rowMov := aluRow 0x1C (subIs 0) (modTyped 3 [0, 7, 9, 10, 11, 12, 4, 8, 13, 1, 2, 5, 6] rnd0) (uT 3) uU uU (dT 3)
def rowIadd64 := aluRow 0x1D (subLt 2) (modTyped 3 [0, 4, 8] rnd0) uP uP uU dP
def rowImad64 := aluRow 0x1E (subIs 0) (modTyped 3 [0, 4, 8] rnd0) uP uP uP dP
def rowIsub64 := aluRow 0x1F (subLt 2) (modTyped 3 [0, 4, 8] rnd0) uP uP uU dP

/-! #### Row 0x2_ (R353 to R355) -/

def bitRow (op : Nat) (b : View → SrcUse) : Row := aluRow op (subIs 0) (modTyped 9 [0, 13] rnd0) (uT 9) b uU (dT 9)
def rowAnd := bitRow 0x20 (uT 9)
def rowOr := bitRow 0x21 (uT 9)
def rowXor := bitRow 0x22 (uT 9)
def rowNot := bitRow 0x23 uU
def bit32Row (op : Nat) (sub : Nat → Bool) (b c : View → SrcUse) : Row :=
  aluRow op sub (modTyped 9 [0] rnd0) uW b c dW
def rowShl := bit32Row 0x24 (subIs 0) uW uU
def rowShr := bit32Row 0x25 (subIs 0) uW uU
def rowSar := bit32Row 0x26 (subIs 0) uW uU
def rowRot := bit32Row 0x27 (subIs 0) uW uU
def rowPopc := bit32Row 0x28 (subIs 0) uU uU
def rowClz := bit32Row 0x29 (subIs 0) uU uU
def rowCtz := bit32Row 0x2A (subIs 0) uU uU
def rowBrev := bit32Row 0x2B (subIs 0) uU uU
def rowBfx := bit32Row 0x2C (subLt 2) uW uU
def rowBfi := bit32Row 0x2D (subIs 0) uW uW
/-- R353: shf64 takes TYPE 0 and 13 only. -/
def modShf (v : View) : Bool := (v.typeRaw = 0 || v.typeRaw = 13) && v.rnd = 0 && !v.sat && v.step = 0
def rowShf64 := aluRow 0x2E (subLt 3) modShf uP uW uU dP
def rowBsel := bit32Row 0x2F (subIs 0) uW uW

/-! #### Row 0x3_ (R356 to R358) -/

def uPred (_ : View) : SrcUse := .raw 8
def predRow (op : Nat) (sub : Nat → Bool) (a b : View → SrcUse) : Row := aluRow op sub modZero a b uU dN
def rowPand := predRow 0x30 (subIs 0) uPred uPred
def rowPor := predRow 0x31 (subIs 0) uPred uPred
def rowPxor := predRow 0x32 (subIs 0) uPred uPred
def rowPnot := predRow 0x33 (subIs 0) uPred uU
def rowPpush := predRow 0x34 (subIs 0) uW uU
def rowPdrop := predRow 0x35 (subLt 8) uU uU
/-- R356: pget names a shelf or named destination only; a k destination raises 0x05. -/
def dPget (v : View) : DstUse := if v.d.isK then .wordNoK else .reg 1
def rowPget := aluRow 0x36 (subIs 0) modZero uU uU uU dPget
def uSpec (_ : View) : SrcUse := .raw 12
/-- R173: %pcv, %time and %rstate are 64 bits wide; %pcv and %lane are per lane (cause 0x05 for a k destination). -/
def dSpec (v : View) : DstUse :=
  if v.aRaw = 0 then .pair true false
  else if v.aRaw = 1 then .wordNoK
  else if v.aRaw = 3 || v.aRaw = 11 then .pair true true
  else .word
def rowRdsp := aluRow 0x37 (subIs 0) modZero uSpec uU uU dSpec
/-- R173, R357: only %flags (2) and %rstate (11) are writable, other numbers raise 0x04. -/
def uWsp (v : View) : SrcUse := if v.aRaw = 2 || v.aRaw = 11 then .raw 12 else .raw 0
def bWsp (v : View) : SrcUse := .uni (v.aRaw = 11) 0x05
def rowWrsp := aluRow 0x38 (subIs 0) modZero uWsp bWsp uU dN
def uUni5 (_ : View) : SrcUse := .uni false 0x05
def rowRdlane : Row := { aluRow 0x39 (subIs 0) modZero uW uUni5 uU dW with wave := true }
def dWrlane (_ : View) : DstUse := .namedOnly 0x03
def rowWrlane := aluRow 0x3A (subIs 0) modZero uUni5 uUni5 uU dWrlane
/-- The short form has D = 0, for which its meaning raises 0x03 (R358). -/
def rowWrlaneShort := aluRow 0x3A (subIs 0) modZero uUni5 uUni5 uU dN

/-! #### Row 0x4_ (R366 to R372) -/

def fltRow (op : Nat) (sub : Nat → Bool) (rnds : View → List Nat) (b c : View → SrcUse) (d : View → DstUse) : Row :=
  aluRow op sub (modTyped 10 [0] rnds) uW b c d
def rowFadd := fltRow 0x40 (subIs 0) rnd4 uW uU dW
def rowFsub := fltRow 0x41 (subIs 0) rnd4 uW uU dW
def rowFmul := fltRow 0x42 (subIs 0) rnd4 uW uU dW
def rowFma := fltRow 0x43 (subIs 0) rnd4 uW uW dW
def rowFmin := fltRow 0x44 (subLt 2) rnd0 uW uU dW
def rowFmax := fltRow 0x45 (subLt 2) rnd0 uW uU dW
def rowFcmp := fltRow 0x46 (subLt 8) rnd0 uW uU dN
def rowFdiv := fltRow 0x47 (subIs 0) rnd4 uW uU dW
def rowFdivApx := fltRow 0x47 (subIs 1) rnd0 uW uU dW
def rowFsqrt := fltRow 0x48 (subIs 0) rnd4 uU uU dW
def rowFrcp := fltRow 0x49 (subIs 0) rnd4 uU uU dW
def rowFrsq := fltRow 0x4A (subIs 0) rnd0 uU uU dW
def rowFtrn := fltRow 0x4B (subLt 4) rnd0 uU uU dW
def rowFrnd := fltRow 0x4C (subIs 0) rnd4 uU uU dW
def rowFfract := fltRow 0x4D (subIs 0) rnd0 uU uU dW
def rowFclass := fltRow 0x4E (subIs 0) rnd0 uU uU dW
def rndScale (v : View) : List Nat := if v.sub = 0 then [0, 1, 2, 3] else [0]
def bScale (v : View) : SrcUse := if v.sub = 0 then .word else .unused
/-- R372: .frexp writes a named pair; a k destination raises 0x05. -/
def dScale (v : View) : DstUse := if v.sub = 0 then .word else .pair false false
def rowFscale := fltRow 0x4F (subLt 2) rndScale bScale uU dScale

/-! #### Row 0x5_ (R373 to R375) -/

def pkRow (op : Nat) (sub : Nat → Bool) (rnds : View → List Nat) (c : View → SrcUse) (d : View → DstUse) : Row :=
  aluRow op sub (modTyped 11 [0, 12] rnds) uW uW c d
def rowHadd2 := pkRow 0x50 (subLt 2) rnd4 uU dW
def rowHmul2 := pkRow 0x51 (subIs 0) rnd4 uU dW
def rowHfma2 := pkRow 0x52 (subIs 0) rnd4 uW dW
def rowHmin2 := pkRow 0x53 (subIs 0) rnd0 uU dW
def rowHmax2 := pkRow 0x54 (subIs 0) rnd0 uU dW
def rowHcmp2 := pkRow 0x55 (subLt 8) rnd0 uU dN
def rowHdot2 := pkRow 0x56 (subIs 0) rnd4 uW dW

/-! #### Row 0x6_ (R376 to R381) -/

/-- R376: the source type codes of cvt. -/
def subCvt (s : Nat) : Bool := s < 16 && s != 9 && s < 13
/-- The source and destination types of a cvt. -/
def View.cvtSrc (v : View) : Ty := if v.sub = 0 then .f32 else Ty.ofCode v.sub
def View.cvtDst (v : View) : Ty := if v.typeRaw = 0 then .f32 else Ty.ofCode v.typeRaw
/-- R376: the rounding modes of a conversion. -/
def cvtRnds (v : View) : List Nat :=
  let s := v.cvtSrc
  let d := v.cvtDst
  if !s.isFloat then (if d.isFloat then [0, 1, 2, 3] else [0])
  else if !d.isFloat then [0, 1, 2, 3]
  else if s = d then [0]
  else if d = .f32 then [0]
  else if s = .f32 then [0, 1, 2, 3, 4]
  else [0, 1, 2, 3]
def modCvt (v : View) : Bool :=
  modTyped 10 [0, 1, 2, 3, 4, 5, 6, 7, 8, 11, 12] cvtRnds v
def bCvt (v : View) : SrcUse := if v.rnd = 4 then .word else .unused
def aCvt (v : View) : SrcUse := if v.cvtSrc.width = 64 then .pair else .word
def dCvt (v : View) : DstUse := if v.cvtDst.width = 64 then .pair true true else .word
def rowCvt := aluRow 0x60 subCvt modCvt aCvt bCvt uU dCvt
/-- R378: format, count and byte select of cvtn. -/
def subCvtn (s : Nat) : Bool :=
  bits s 0 4 ≤ 8 && (bits s 4 2 < 2 || (bits s 4 2 = 2 && (bits s 0 4 = 4 || bits s 0 4 = 7 || bits s 0 4 = 8)))
/-- N of cvtn. -/
def View.cvtnN (v : View) : Nat := if bits v.sub 4 2 = 0 then 2 else if bits v.sub 4 2 = 1 then 4 else 8
def modCvtn (v : View) : Bool :=
  (v.typ 10 = 0) && [0, 1, 4].contains v.rnd && (!v.sat || bits v.sub 0 4 = 0) && bits v.md 4 2 = 0
def aCvtn (v : View) : SrcUse := .span v.cvtnN 1
def cCvtn (v : View) : SrcUse := if v.rnd = 4 || bits v.sub 0 4 = 4 then .word else .unused
def rowCvtn := aluRow 0x61 subCvtn modCvtn aCvtn uW cCvtn dW
/-- R379: format, element and pair of cvtw. -/
def subCvtw (s : Nat) : Bool :=
  let f := bits s 0 4
  let n := if f = 4 || f = 7 || f = 8 then 8 else if f = 10 || f = 11 then 2 else 4
  (f ≤ 8 || f = 10 || f = 11) && decide (bits s 4 3 + b2n (bit s 7) < n)
/-- R379: TYPE 12 needs .pair; RND is 0 for an FP32 result. -/
def modCvtw (v : View) : Bool :=
  !v.sat && v.step = 0 &&
    (if v.typ 10 = 0 then v.rnd = 0 else v.typeRaw = 12 && bit v.sub 7 && v.rnd < 4)
def bCvtw (v : View) : SrcUse := if bits v.sub 0 4 ≤ 8 then .word else .unused
def cCvtw (v : View) : SrcUse := if bits v.sub 0 4 = 4 then .word else .unused
def dCvtw (v : View) : DstUse := if bit v.sub 7 && v.typeRaw != 12 then .reg 2 else .word
def rowCvtw := aluRow 0x62 subCvtw modCvtw uW bCvtw cCvtw dCvtw
def dWk (_ : View) : DstUse := .wordNoK
def rowSgnpk := aluRow 0x63 (subIs 0) (modTyped 10 [0] rnd0) uW uU uU dWk
def rowSgnex := aluRow 0x64 (subIs 0) (modTyped 10 [0] rnd0) uW uW uU dWk
def rowScl := aluRow 0x65 (subIs 0) (modTyped 10 [0] rnd0) uW uW uUni5 dWk
def modScl32 (v : View) : Bool := v.typ 10 = 0 && v.rnd = 0 && !v.sat
def rowScl32 : Row := { aluRow 0x65 (subIs 1) modScl32 uW uW uUni5 dWk with x := true }
def rowRngl := aluRow 0x66 (subIs 0) (modTyped 10 [0] rnd0) uW uW uU dWk

/-! #### Row 0x7_ (R382 to R384) -/

def itvRow (op : Nat) (a b : View → SrcUse) (d : View → DstUse) : Row :=
  aluRow op (subIs 0) (modTyped 10 [0] rnd0) a b uU d
def rowXadd := itvRow 0x70 uI uI dI
def rowXsub := itvRow 0x71 uI uI dI
def rowXmul := itvRow 0x72 uI uI dI
def rowXdiv := itvRow 0x73 uI uI dI
def rowXsqr := itvRow 0x74 uI uU dI
def rowXsqrt := itvRow 0x75 uI uU dI
def rowXmin := itvRow 0x76 uI uI dI
def rowXmax := itvRow 0x77 uI uI dI
def rowXabs := itvRow 0x78 uI uU dI
def rowXhull := itvRow 0x79 uI uI dI
def rowXmeet := itvRow 0x7A uI uI dI
def rowXtest := itvRow 0x7B uI uW dN
def rowXmk := itvRow 0x7C uW uW dI
def rowXmid := itvRow 0x7D uI uU dW

/-! #### Row 0x8_ (R359 to R363) -/

def tShfl : List Nat := [0, 7, 9, 10, 13]
def rowShfl := aluRow 0x80 (subLt 4) (modTyped 3 tShfl rnd0) (uT 3) uW uU (dT 3)
def rowBcast : Row := { aluRow 0x81 (subIs 0) (modTyped 3 tShfl rnd0) (uT 3) uUni5 uU (dT 3) with wave := true }
def dVote (v : View) : DstUse := if v.sub = 2 then .word else .none
def rowVote : Row := { aluRow 0x82 (subLt 3) (modTyped 3 [0] rnd0) uPred uU uU dVote with wave := true }
def subRedux (s : Nat) : Bool := s < 6
def subScan (s : Nat) : Bool := s < 16 && bits s 0 3 < 6
/-- R361: the types of redux and scan depend on the operation; RND is for the float sum. -/
def modRedux (v : View) : Bool :=
  let o := bits v.sub 0 3
  let t := v.typ 3
  (t = 0 || t = 7 || (t = 9 && o ≥ 3) || (t = 10 && o ≤ 2)) &&
    (v.rnd = 0 || (t = 10 && o = 0 && v.rnd < 4)) && !v.sat && v.step = 0
def rowRedux : Row := { aluRow 0x83 subRedux modRedux uW uU uU dW with wave := true }
def rowScan := aluRow 0x84 subScan modRedux uW uU uU dWk
/-- R362: .f32 takes RND. -/
def rndDd (v : View) : List Nat := if v.typeRaw = 10 then [0, 1, 2, 3] else [0]
def rowDdx := aluRow 0x85 (subLt 2) (modTyped 3 [0, 10] rndDd) uW uU uU dW
def rowDdy := aluRow 0x86 (subLt 2) (modTyped 3 [0, 10] rndDd) uW uU uU dW
def modRegroup (v : View) : Bool := v.typ 3 = 0 && v.rnd = 0 && !v.sat
def rowRegroup : Row := { aluRow 0x87 (subIs 0) modRegroup uW uU uU dN with x := true, zero := noImm }
def rowMcount := aluRow 0x88 (subIs 0) (modTyped 3 [0] rnd0) uW uU uU dW
def rowLanes : Row := { aluRow 0x89 (subIs 0) (modTyped 3 [0] rnd0) uU uU uU dW with wave := true }

/-! #### Rows 0x9_ and 0xA_ (R332, R385 to R398) -/

/-- TYPE, ORDER and SCOPE of rows 0x9_ to 0xB_. -/
def modMem (types orders : List Nat) (scope : Bool) (v : View) : Bool :=
  types.contains (v.typ 9) && orders.contains v.order && (if scope then v.scope < 5 else v.scope = 0)
/-- R332: SUB of loads and stores. -/
def subMem (s : Nat) : Bool := s < 32 && bits s 3 2 < 3
/-- R332: SUB of pref. -/
def subPref (s : Nat) : Bool := s < 32 && bits s 3 2 < 2
/-- R393 has the address form of R332 and no CACHE choice of its own. -/
def tMem : List Nat := [0, 1, 2, 3, 4, 5, 6, 7, 8, 10, 11, 12, 13]
def uBase (_ : View) : SrcUse := .base none
def uOff (_ : View) : SrcUse := .off none
def uBaseU (c : Nat) (_ : View) : SrcUse := .base (some c)
def uOffU (c : Nat) (_ : View) : SrcUse := .off (some c)
/-- Whether the literal is an operand of the form (R332): named by LA, LB or C. -/
def View.litNamed (v : View) : Bool := v.a = .lit || v.b = .lit || v.c = .lit
/-- R385: IMM9 must be 0 when the literal is the displacement. -/
def dispOk (v : View) : Bool := v.lit.isNone || v.litNamed || v.imm9 = 0
/-- The displacement (R332, R385). -/
def View.disp (v : View) : Int :=
  match v.lit with
  | some x => if v.litNamed then v.imm9 else x.toInt
  | none => v.imm9
def dMem (v : View) : DstUse := .reg (if is64 (v.typ 9) then 2 else 1)
def dataMem (v : View) : SrcUse := if is64 (v.typ 9) then .pair else .word
def memRow (op : Nat) (sub : Nat → Bool) (mod : View → Bool) (a b c : View → SrcUse) (d : View → DstUse) : Row :=
  { aluRow op sub mod a b c d with zero := dispOk }
def ordLd : List Nat := [0, 1, 4]
def ordSt : List Nat := [0, 2, 4]
def rowLd := memRow 0x90 subMem (modMem tMem ordLd true) uBase uOff uU dMem
def rowSt := memRow 0x91 subMem (modMem tMem ordSt true) uBase uOff dataMem dN
def rowLds := memRow 0x92 subMem (modMem tMem ordLd true) uBase uOff uU dMem
def rowSts := memRow 0x93 subMem (modMem tMem ordSt true) uBase uOff dataMem dN
def rowLdw := memRow 0x94 subMem (modMem tMem [0] false) uBase uOff uU dMem
def dKonly (_ : View) : DstUse := .konly
def rowLdk := memRow 0x95 subMem (modMem tMem ordLd true) (uBaseU 0x05) (uOffU 0x05) uU dKonly
def dataUni (v : View) : SrcUse := .uni (is64 (v.typ 9)) 0x04
def rowStk := memRow 0x96 subMem (modMem tMem ordSt true) (uBaseU 0x04) (uOffU 0x04) dataUni dN
def rowPref := memRow 0x97 subPref (modMem [0] [0] false) uBase uOff uU dN
/-- R392: the range forms read A and B, SUB 1 reads nothing. -/
def aRange (v : View) : SrcUse := if v.sub = 0 then .uni true 0x04 else .unused
def bRange (v : View) : SrcUse := if v.sub = 0 then .uni false 0x04 else .unused
def rowCflush := aluRow 0x98 (subLt 2) modZero aRange bRange uU dN
def rowCinv := aluRow 0x99 (subLt 2) modZero aRange bRange uU dN
def uUni4 (_ : View) : SrcUse := .uni false 0x04
def uUni4w (_ : View) : SrcUse := .uni true 0x04
/-- R394: cresize pushes one word, or writes an even named register. -/
def dCresize (_ : View) : DstUse := .reg 2
def rowCresize := aluRow 0x9A (subIs 0) modZero uUni4 uU uU dCresize
def rowRrot : Row := { aluRow 0x9B (subLt 2) modZero uUni4 uUni4 uUni4 dN with zero := noImm }
def rowWsync := aluRow 0x9C (subIs 0) modZero uUni4 uU uU dN
def tFut : List Nat := [0, 4, 8, 13]
/-- R393 with R332: SUB of the future forms. -/
def rowLdfut := memRow 0x9D subMem (modMem tFut [0] false) uBase uOff uU (fun _ => .reg 2)
def rowStfill := memRow 0x9E subMem (modMem tFut [0] false) uBase uOff uP dN
def rowStreset := memRow 0x9F subMem (modMem tFut [0] false) uBase uOff uU dN
/-- R395: SUB of the atomics; op 11 to 15 and bit 7 raise 0x02. -/
def subAtom (s : Nat) : Bool := s < 128 && bits s 0 4 < 11
def subCas (s : Nat) : Bool := s < 128 && bits s 0 4 = 0
/-- R396: the types each atomic operation accepts (normalised, default .b32). -/
def atomTypes (op : Nat) : List Nat :=
  if op < 2 then [0, 3, 7, 4, 8, 13]
  else if op < 4 then [3, 7, 4, 8, 10]
  else if op < 7 then [0, 3, 7, 4, 8, 13]
  else if op = 7 then [0, 3, 7, 10, 4, 8, 13]
  else if op < 10 then [7]
  else [10]
def modAtom (v : View) : Bool := modMem (atomTypes (bits v.sub 0 4)) [0, 1, 2, 3, 4] true v
def rowAtom := memRow 0xA0 subAtom modAtom uBase uOff dataMem dMem
def rowAtoms := memRow 0xA1 subAtom modAtom uBase uOff dataMem dMem
def rowRed := memRow 0xA2 subAtom modAtom uBase uOff dataMem dN
def rowReds := memRow 0xA3 subAtom modAtom uBase uOff dataMem dN
/-- R397: the compare and swap values. -/
def cCas (v : View) : SrcUse := if is64 (v.typ 9) then .span 4 4 else .pair
def modCas (v : View) : Bool := modMem [0, 3, 7, 10, 4, 8, 13] [0, 1, 2, 3, 4] true v
def rowCas := memRow 0xA4 subCas modCas uBase uOff cCas dMem
def rowCass := memRow 0xA5 subCas modCas uBase uOff cCas dMem

/-! #### Row 0xB_ (R221, R399 to R405) -/

/-- R221: fence sets no token and has LA, LB and IMM9 zero. -/
def fenceZero (v : View) : Bool := v.ts = 0 && v.imm9 = 0 && v.lit.isNone
def modFence (v : View) : Bool := bits v.md 6 4 = 0 && 1 ≤ v.order && v.order ≤ 4 && v.scope < 5
def rowFence : Row := { aluRow 0xB0 (subIs 0) modFence uU uU uU dN with zero := fenceZero }
def rowFenceUn : Row := { aluRow 0xB0 (subIs 1) modZero uU uU uU dN with zero := fenceZero }
def rowBar := aluRow 0xB1 (subIs 0) modZero uU uU uU dN
def rowBarCnt := aluRow 0xB1 (subIs 1) modZero uUni4 uU uU dN
/-- R401: the address is LA + displacement, uniform. -/
def objRow (op : Nat) (b c : View → SrcUse) : Row := memRow op (subIs 0) modZero (uBaseU 0x04) b c dN
def rowBarinit := objRow 0xB2 uU uUni4
def rowBarrive := objRow 0xB3 uU uW
def rowBarwait := objRow 0xB4 uUni4 uUni4
def rowBartest := objRow 0xB5 uUni4 uU
/-- R403. -/
def modWaddr (v : View) : Bool := v.order = 0 && v.scope < 5 && v.cond < 7
def bWaddr (v : View) : SrcUse := .uni v.w64 0x04
def rowWaddr := memRow 0xB6 (subIs 0) modWaddr (uBaseU 0x04) bWaddr uUni4 dN
def modIcinv (v : View) : Bool := bits v.md 6 4 = 0 && v.order = 0 && v.scope < 5
def rowIcinv := aluRow 0xB7 (subIs 0) modIcinv uUni4w uUni4 uU dN
def rowIsync := aluRow 0xB8 (subIs 0) modZero uU uU uU dN
def rowWtok := aluRow 0xB9 (subIs 0) modZero uUni4 uU uU dN
def rowEbar := aluRow 0xBA (subIs 0) modZero uU uU uU dN

/-! #### Row 0xC_ (R406 to R408) -/

/-- R406: bits 24:22 are zero and SCOPE is 0 to 4. -/
def modCpy (v : View) : Bool := bits v.md 0 3 = 0 && v.scope < 5
/-- R406: IMM9 is 0 without a completion block; its bits 8:5 are 0 with one. -/
def cpyZero (v : View) : Bool :=
  if v.cw || v.ba || v.dg then 0 ≤ v.imm9 && v.imm9 < 32 else v.imm9 = 0
/-- A uniform operand that is not IMM9. -/
def uUniX (_ : View) : SrcUse := .uniX true
def cpyRow (op : Nat) (sub : Nat → Bool) (b c : View → SrcUse) : Row :=
  { aluRow op sub modCpy uUniX b c dN with zero := cpyZero }
def rowCpy := cpyRow 0xC0 (subLt 4) uUniX uUniX
def rowCpy2d := cpyRow 0xC1 (subLt 4) uUniX (fun _ => .kreg 29)
def rowCpyb := cpyRow 0xC2 (subIs 0) uUniX uUniX
/-- R406: LA of an appending instruction may not be IMM9. -/
def uAppend (_ : View) : SrcUse := .uniX false
def rowQput : Row := { aluRow 0xC3 (subIs 0) modZero uAppend uU uU dN with zero := noImm }
/-- R408: a k register, the shelf as a pair, or an even named register. -/
def dQseq (_ : View) : DstUse := .pair false true
def rowQseq := aluRow 0xC4 (subLt 2) modZero uU uU uU dQseq
def rowPut := cpyRow 0xC5 (subIs 0) uUniX uUniX
def bMsg (v : View) : SrcUse := if v.sub = 1 then .uniX false else .unused
def rowMsg := cpyRow 0xC6 (subLt 2) bMsg uU
def modCpwait (v : View) : Bool := bits v.md 0 3 = 0 && bits v.md 6 4 = 0 && v.scope < 5
def rowCpwait := aluRow 0xC7 (subIs 0) modCpwait uUni4w uU uU dN

/-! #### Row 0xD_ (R409 to R417) -/

def uAcc (_ : View) : SrcUse := .raw 8
/-- R411: LA, LB, D and IMM9 zero. -/
def mxRow (op : Nat) : Row := { aluRow op (subIs 0) modZero uU uU uU dN with zero := noImm }
def rowMxacq := mxRow 0xD0
def rowMxrel := mxRow 0xD1
def subMma (s : Nat) : Bool := s < 32 && (bits s 0 4 ≤ 8 || bits s 0 4 = 10 || bits s 0 4 = 11)
def subSg1 (s : Nat) : Bool := s < 32 && bits s 0 4 = 9
/-- R413: IMM9 holds 1 to 255. -/
def mmaZero (v : View) : Bool := decide (1 ≤ v.imm9)
def mmaRow (sub : Nat → Bool) (mod : View → Bool) : Row :=
  { aluRow 0xD2 sub mod uUniX uUniX uAcc dN with zero := mmaZero }
def rowMma := mmaRow subMma modZero
def rowMmaSg1 : Row := { mmaRow subSg1 modStep with x := true }
def subMmas (s : Nat) : Bool := bits s 0 4 ≤ 4 && !bit s 5
def subMmas32 (s : Nat) : Bool := bits s 0 4 ≤ 4 && bit s 5
/-- R414: D names the scale register, a named register code. -/
def dMmas (_ : View) : DstUse := .namedOnly 0x04
def mmasRow (sub : Nat → Bool) (mod : View → Bool) : Row :=
  { aluRow 0xD3 sub mod uUniX uUniX uAcc dMmas with zero := noImm }
def rowMmas := mmasRow subMmas modZero
def rowMmas32 : Row := { mmasRow subMmas32 modStep with x := true }
def rowAcczero := aluRow 0xD4 (subLt 2) modZero uU uU uAcc dN
def rowAccrd := aluRow 0xD5 (subIs 0) modZero uUni4 (fun _ => .kreg 31) uAcc (fun _ => .reg 2)
/-- R415: the type codes 0, 3, 10, 11 and 12. -/
def subAcc (s : Nat) : Bool := s = 0 || s = 3 || s = 10 || s = 11 || s = 12
def rowAccst := aluRow 0xD6 subAcc modZero uUni4 uU uAcc dN
def rowAccld := aluRow 0xD7 subAcc modZero uUni4 uU uAcc dN
def rowMxwait := mxRow 0xD8

/-! #### Rows 0xE_ and 0xF_ (R418 to R437) -/

/-- OPER is read at execution, since 13 to 15 raise 0x8C (R418); the rest of MOD is zero. -/
def modTspawn (v : View) : Bool := bits v.md 0 6 = 0
/-- R418: any 32-bit code but a pipe. -/
def bKey (v : View) : SrcUse := match v.b with | .pipe _ => .raw 0 | _ => .word
def rowTspawn : Row :=
  { aluRow 0xE0 (subIs 0) modTspawn uUni4w bKey (fun _ => .span 8 1) dN with zero := noImm }
def rowTarg := aluRow 0xE1 (subIs 0) modZero (uUniD false) uU uU dWk
/-- R420: the pipe index is raw in .count and .closed. -/
def aTqry (v : View) : SrcUse := if v.sub = 0 then uUniD true v else .raw 4
def dTqry (v : View) : DstUse := if v.sub = 2 then .none else .word
def rowTqry : Row := { aluRow 0xE2 (subLt 3) modZero aTqry uU uU dTqry with wave := true }
def rowPclose := aluRow 0xE3 (subIs 0) modZero (fun _ => .raw 4) uU uU dN
def rowLaunch := aluRow 0xE4 (subIs 0) modZero uUni4w uU uU dN
/-- R423: a record address LA + LB + displacement, LA uniform. -/
def recRow (op : Nat) (sub : Nat → Bool) (mod : View → Bool) (c : View → SrcUse) : Row :=
  aluRow op sub mod uUni4w uW c dN
def rowMch := recRow 0xE5 (subIs 0) modZero uU
/-- R323: XA = 1, with STEP; the other bits zero. -/
def modMchAff (v : View) : Bool := bits v.md 0 3 = 0 && v.sat && bits v.md 6 4 = 0
def rowMchAff : Row := { recRow 0xE5 (subIs 0) modMchAff uU with x := true }
def rowMchres := recRow 0xE6 (subIs 0) modZero uU
def rowRayq := recRow 0xE7 (subIs 0) modZero uW
def rowRayres := recRow 0xE8 (subIs 0) modZero uU
def rowRaysus := aluRow 0xE9 (subIs 0) modZero uW uW uW dN
def rowRaysusMarch := aluRow 0xE9 (subIs 1) modZero uW uW uW dN
def rowLant := recRow 0xEA (subIs 0) modZero uW
def dBfetch (_ : View) : DstUse := .reg 4
def rowBfetch := aluRow 0xEB (subIs 0) modZero uUni4w (fun _ => .span 3 1) uU dBfetch
def rowFbrun := recRow 0xEC (subIs 0) modZero uU
/-- R430: the result goes to the shelf, a named or a k register. -/
def rowPrune : Row := { aluRow 0xED (subIs 0) modZero uUni4w uUni4 (fun _ => .kreg 30) dW with wave := true }
def rowTemit := aluRow 0xEE (subIs 0) modZero uUni4 uU (fun _ => .kreg 28) dN
def rowMemitVert := recRow 0xEF (subIs 0) modZero uW
def rowMemitPrim := aluRow 0xEF (subIs 1) modZero uW uU uW dN
def rowTret := aluRow 0xF0 (subIs 0) modZero uU uU uU dN
def rowHalt := aluRow 0xF1 (subIs 0) modZero uU uU uU dN
def rowDbgmk := aluRow 0xF2 (subIs 0) modZero uUni4 uU uU dN
def rowPerfrd : Row := aluRow 0xF3 (subIs 0) modZero (uUniD false) uU uU dP

/-- The row of the opcode map and the operand view of a wave instruction; none for the steps of the other agents. -/
def Instr.row : Instr → Option (Row × View)
  | .nop f => some (rowNop, f.view)
  | .nopShort f => some (rowNop, f.view)
  | .br f => some (rowBr, f.view)
  | .brShort f => some (rowBr, f.view)
  | .bri f => some (rowBri, f.view)
  | .briShort f => some (rowBri, f.view)
  | .call f => some (rowCall, f.view)
  | .callShort f => some (rowCall, f.view)
  | .calli f => some (rowCalli, f.view)
  | .calliShort f => some (rowCalli, f.view)
  | .ret f => some (rowRet, f.view)
  | .retShort f => some (rowRet, f.view)
  | .exit f => some (rowExit, f.view)
  | .exitShort f => some (rowExit, f.view)
  | .yieldl f => some (rowYieldl, f.view)
  | .yieldlShort f => some (rowYieldl, f.view)
  | .tfence f => some (rowTfence, f.view)
  | .tfenceShort f => some (rowTfence, f.view)
  | .trap f => some (rowTrap, f.view)
  | .trapShort f => some (rowTrap, f.view)
  | .brk f => some (rowBrk, f.view)
  | .brkShort f => some (rowBrk, f.view)
  | .iadd f => some (rowIadd, f.view)
  | .iaddShort f => some (rowIadd, f.view)
  | .isub f => some (rowIsub, f.view)
  | .isubShort f => some (rowIsub, f.view)
  | .imul f => some (rowImul, f.view)
  | .imulShort f => some (rowImul, f.view)
  | .imad f => some (rowImad, f.view)
  | .idiv f => some (rowIdiv, f.view)
  | .imin f => some (rowImin, f.view)
  | .iminShort f => some (rowImin, f.view)
  | .imax f => some (rowImax, f.view)
  | .imaxShort f => some (rowImax, f.view)
  | .iabs f => some (rowIabs, f.view)
  | .iabsShort f => some (rowIabs, f.view)
  | .icmp f => some (rowIcmp, f.view)
  | .icmpShort f => some (rowIcmp, f.view)
  | .iaddsat f => some (rowIaddsat, f.view)
  | .iaddsatShort f => some (rowIaddsat, f.view)
  | .lea f => some (rowLea, f.view)
  | .leaShort f => some (rowLea, f.view)
  | .sel f => some (rowSel, f.view)
  | .selShort f => some (rowSel, f.view)
  | .mov f => some (rowMov, f.view)
  | .movShort f => some (rowMov, f.view)
  | .iadd64 f => some (rowIadd64, f.view)
  | .iadd64Short f => some (rowIadd64, f.view)
  | .imad64 f => some (rowImad64, f.view)
  | .isub64 f => some (rowIsub64, f.view)
  | .isub64Short f => some (rowIsub64, f.view)
  | .and f => some (rowAnd, f.view)
  | .andShort f => some (rowAnd, f.view)
  | .or f => some (rowOr, f.view)
  | .orShort f => some (rowOr, f.view)
  | .xor f => some (rowXor, f.view)
  | .xorShort f => some (rowXor, f.view)
  | .not f => some (rowNot, f.view)
  | .notShort f => some (rowNot, f.view)
  | .shl f => some (rowShl, f.view)
  | .shlShort f => some (rowShl, f.view)
  | .shr f => some (rowShr, f.view)
  | .shrShort f => some (rowShr, f.view)
  | .sar f => some (rowSar, f.view)
  | .sarShort f => some (rowSar, f.view)
  | .rot f => some (rowRot, f.view)
  | .rotShort f => some (rowRot, f.view)
  | .popc f => some (rowPopc, f.view)
  | .popcShort f => some (rowPopc, f.view)
  | .clz f => some (rowClz, f.view)
  | .clzShort f => some (rowClz, f.view)
  | .ctz f => some (rowCtz, f.view)
  | .ctzShort f => some (rowCtz, f.view)
  | .brev f => some (rowBrev, f.view)
  | .brevShort f => some (rowBrev, f.view)
  | .bfx f => some (rowBfx, f.view)
  | .bfi f => some (rowBfi, f.view)
  | .shf64 f => some (rowShf64, f.view)
  | .bsel f => some (rowBsel, f.view)
  | .pand f => some (rowPand, f.view)
  | .pandShort f => some (rowPand, f.view)
  | .por f => some (rowPor, f.view)
  | .porShort f => some (rowPor, f.view)
  | .pxor f => some (rowPxor, f.view)
  | .pxorShort f => some (rowPxor, f.view)
  | .pnot f => some (rowPnot, f.view)
  | .pnotShort f => some (rowPnot, f.view)
  | .ppush f => some (rowPpush, f.view)
  | .ppushShort f => some (rowPpush, f.view)
  | .pdrop f => some (rowPdrop, f.view)
  | .pdropShort f => some (rowPdrop, f.view)
  | .pget f => some (rowPget, f.view)
  | .pgetShort f => some (rowPget, f.view)
  | .rdsp f => some (rowRdsp, f.view)
  | .rdspShort f => some (rowRdsp, f.view)
  | .wrsp f => some (rowWrsp, f.view)
  | .wrspShort f => some (rowWrsp, f.view)
  | .rdlane f => some (rowRdlane, f.view)
  | .rdlaneShort f => some (rowRdlane, f.view)
  | .wrlane f => some (rowWrlane, f.view)
  | .wrlaneShort f => some (rowWrlaneShort, f.view)
  | .fadd f => some (rowFadd, f.view)
  | .faddShort f => some (rowFadd, f.view)
  | .fsub f => some (rowFsub, f.view)
  | .fsubShort f => some (rowFsub, f.view)
  | .fmul f => some (rowFmul, f.view)
  | .fmulShort f => some (rowFmul, f.view)
  | .fma f => some (rowFma, f.view)
  | .fmin f => some (rowFmin, f.view)
  | .fminShort f => some (rowFmin, f.view)
  | .fmax f => some (rowFmax, f.view)
  | .fmaxShort f => some (rowFmax, f.view)
  | .fcmp f => some (rowFcmp, f.view)
  | .fcmpShort f => some (rowFcmp, f.view)
  | .fdiv f => some (rowFdiv, f.view)
  | .fdivApx f => some (rowFdivApx, f.view)
  | .fsqrt f => some (rowFsqrt, f.view)
  | .frcp f => some (rowFrcp, f.view)
  | .frsq f => some (rowFrsq, f.view)
  | .ftrn f => some (rowFtrn, f.view)
  | .frnd f => some (rowFrnd, f.view)
  | .frndShort f => some (rowFrnd, f.view)
  | .ffract f => some (rowFfract, f.view)
  | .ffractShort f => some (rowFfract, f.view)
  | .fclass f => some (rowFclass, f.view)
  | .fclassShort f => some (rowFclass, f.view)
  | .fscale f => some (rowFscale, f.view)
  | .fscaleShort f => some (rowFscale, f.view)
  | .hadd2 f => some (rowHadd2, f.view)
  | .hadd2Short f => some (rowHadd2, f.view)
  | .hmul2 f => some (rowHmul2, f.view)
  | .hmul2Short f => some (rowHmul2, f.view)
  | .hfma2 f => some (rowHfma2, f.view)
  | .hmin2 f => some (rowHmin2, f.view)
  | .hmin2Short f => some (rowHmin2, f.view)
  | .hmax2 f => some (rowHmax2, f.view)
  | .hmax2Short f => some (rowHmax2, f.view)
  | .hcmp2 f => some (rowHcmp2, f.view)
  | .hcmp2Short f => some (rowHcmp2, f.view)
  | .hdot2 f => some (rowHdot2, f.view)
  | .cvt f => some (rowCvt, f.view)
  | .cvtShort f => some (rowCvt, f.view)
  | .cvtn f => some (rowCvtn, f.view)
  | .cvtw f => some (rowCvtw, f.view)
  | .sgnpk f => some (rowSgnpk, f.view)
  | .sgnpkShort f => some (rowSgnpk, f.view)
  | .sgnex f => some (rowSgnex, f.view)
  | .sgnexShort f => some (rowSgnex, f.view)
  | .scl f => some (rowScl, f.view)
  | .scl32 f => some (rowScl32, f.view)
  | .rngl f => some (rowRngl, f.view)
  | .rnglShort f => some (rowRngl, f.view)
  | .xadd f => some (rowXadd, f.view)
  | .xaddShort f => some (rowXadd, f.view)
  | .xsub f => some (rowXsub, f.view)
  | .xsubShort f => some (rowXsub, f.view)
  | .xmul f => some (rowXmul, f.view)
  | .xmulShort f => some (rowXmul, f.view)
  | .xdiv f => some (rowXdiv, f.view)
  | .xsqr f => some (rowXsqr, f.view)
  | .xsqrShort f => some (rowXsqr, f.view)
  | .xsqrt f => some (rowXsqrt, f.view)
  | .xmin f => some (rowXmin, f.view)
  | .xminShort f => some (rowXmin, f.view)
  | .xmax f => some (rowXmax, f.view)
  | .xmaxShort f => some (rowXmax, f.view)
  | .xabs f => some (rowXabs, f.view)
  | .xabsShort f => some (rowXabs, f.view)
  | .xhull f => some (rowXhull, f.view)
  | .xhullShort f => some (rowXhull, f.view)
  | .xmeet f => some (rowXmeet, f.view)
  | .xmeetShort f => some (rowXmeet, f.view)
  | .xtest f => some (rowXtest, f.view)
  | .xtestShort f => some (rowXtest, f.view)
  | .xmk f => some (rowXmk, f.view)
  | .xmkShort f => some (rowXmk, f.view)
  | .xmid f => some (rowXmid, f.view)
  | .xmidShort f => some (rowXmid, f.view)
  | .shfl f => some (rowShfl, f.view)
  | .shflShort f => some (rowShfl, f.view)
  | .bcast f => some (rowBcast, f.view)
  | .bcastShort f => some (rowBcast, f.view)
  | .vote f => some (rowVote, f.view)
  | .voteShort f => some (rowVote, f.view)
  | .redux f => some (rowRedux, f.view)
  | .reduxShort f => some (rowRedux, f.view)
  | .scan f => some (rowScan, f.view)
  | .scanShort f => some (rowScan, f.view)
  | .ddx f => some (rowDdx, f.view)
  | .ddxShort f => some (rowDdx, f.view)
  | .ddy f => some (rowDdy, f.view)
  | .ddyShort f => some (rowDdy, f.view)
  | .regroup f => some (rowRegroup, f.view)
  | .mcount f => some (rowMcount, f.view)
  | .mcountShort f => some (rowMcount, f.view)
  | .lanes f => some (rowLanes, f.view)
  | .lanesShort f => some (rowLanes, f.view)
  | .ld f => some (rowLd, f.view)
  | .st f => some (rowSt, f.view)
  | .lds f => some (rowLds, f.view)
  | .sts f => some (rowSts, f.view)
  | .ldw f => some (rowLdw, f.view)
  | .ldk f => some (rowLdk, f.view)
  | .stk f => some (rowStk, f.view)
  | .ldfut f => some (rowLdfut, f.view)
  | .stfill f => some (rowStfill, f.view)
  | .streset f => some (rowStreset, f.view)
  | .pref f => some (rowPref, f.view)
  | .cflush f => some (rowCflush, f.view)
  | .cinv f => some (rowCinv, f.view)
  | .cresize f => some (rowCresize, f.view)
  | .rrot f => some (rowRrot, f.view)
  | .wsync f => some (rowWsync, f.view)
  | .atom f => some (rowAtom, f.view)
  | .atoms f => some (rowAtoms, f.view)
  | .red f => some (rowRed, f.view)
  | .reds f => some (rowReds, f.view)
  | .cas f => some (rowCas, f.view)
  | .cass f => some (rowCass, f.view)
  | .fence f => some (rowFence, f.view)
  | .fenceUn f => some (rowFenceUn, f.view)
  | .bar f => some (rowBar, f.view)
  | .barShort f => some (rowBar, f.view)
  | .barCnt f => some (rowBarCnt, f.view)
  | .barinit f => some (rowBarinit, f.view)
  | .barrive f => some (rowBarrive, f.view)
  | .barwait f => some (rowBarwait, f.view)
  | .bartest f => some (rowBartest, f.view)
  | .waddr f => some (rowWaddr, f.view)
  | .icinv f => some (rowIcinv, f.view)
  | .isync f => some (rowIsync, f.view)
  | .isyncShort f => some (rowIsync, f.view)
  | .wtok f => some (rowWtok, f.view)
  | .wtokShort f => some (rowWtok, f.view)
  | .ebar f => some (rowEbar, f.view)
  | .ebarShort f => some (rowEbar, f.view)
  | .cpy f => some (rowCpy, f.view)
  | .cpy2d f => some (rowCpy2d, f.view)
  | .cpyb f => some (rowCpyb, f.view)
  | .qput f => some (rowQput, f.view)
  | .qseq f => some (rowQseq, f.view)
  | .put f => some (rowPut, f.view)
  | .msg f => some (rowMsg, f.view)
  | .cpwait f => some (rowCpwait, f.view)
  | .mxacq f => some (rowMxacq, f.view)
  | .mxacqShort f => some (rowMxacq, f.view)
  | .mxrel f => some (rowMxrel, f.view)
  | .mxrelShort f => some (rowMxrel, f.view)
  | .mxwait f => some (rowMxwait, f.view)
  | .mxwaitShort f => some (rowMxwait, f.view)
  | .mma f => some (rowMma, f.view)
  | .mmaSg1 f => some (rowMmaSg1, f.view)
  | .mmas f => some (rowMmas, f.view)
  | .mmas32 f => some (rowMmas32, f.view)
  | .acczero f => some (rowAcczero, f.view)
  | .accrd f => some (rowAccrd, f.view)
  | .accst f => some (rowAccst, f.view)
  | .accld f => some (rowAccld, f.view)
  | .tspawn f => some (rowTspawn, f.view)
  | .targ f => some (rowTarg, f.view)
  | .tqry f => some (rowTqry, f.view)
  | .pclose f => some (rowPclose, f.view)
  | .pcloseShort f => some (rowPclose, f.view)
  | .launch f => some (rowLaunch, f.view)
  | .mch f => some (rowMch, f.view)
  | .mchAff f => some (rowMchAff, f.view)
  | .mchres f => some (rowMchres, f.view)
  | .rayq f => some (rowRayq, f.view)
  | .rayres f => some (rowRayres, f.view)
  | .raysus f => some (rowRaysus, f.view)
  | .raysusMarch f => some (rowRaysusMarch, f.view)
  | .lant f => some (rowLant, f.view)
  | .bfetch f => some (rowBfetch, f.view)
  | .fbrun f => some (rowFbrun, f.view)
  | .prune f => some (rowPrune, f.view)
  | .temit f => some (rowTemit, f.view)
  | .memitVert f => some (rowMemitVert, f.view)
  | .memitPrim f => some (rowMemitPrim, f.view)
  | .tret f => some (rowTret, f.view)
  | .tretShort f => some (rowTret, f.view)
  | .halt f => some (rowHalt, f.view)
  | .haltShort f => some (rowHalt, f.view)
  | .dbgmk f => some (rowDbgmk, f.view)
  | .dbgmkShort f => some (rowDbgmk, f.view)
  | .perfrd f => some (rowPerfrd, f.view)
  | .perfrdShort f => some (rowPerfrd, f.view)
  | .powerLimitWrite _ => none
  | .coreClockStep _ => none
  | .timestampTick => none
  | .tsNowWrite _ => none
  | .coldReset => none
  | .warmReset => none
  | .hotReset => none
  | .functionLevelReset => none
  | .loadfw => none
  | .extend => none
  | .attest => none
  | .getkey => none
  | .mailboxComplete => none
  | .hostLinkTraining _ _ => none
  | .wafoloLinkTraining _ _ _ => none
  | .flitReceive _ _ => none
  | .flitReplay _ => none
  | .linkDown _ => none
  | .counterReadClear _ => none
  | .registerWrite _ _ => none
  | .memCfgWrite _ => none
  | .memReformat => none
  | .thresholdWrite _ _ => none
  | .wcbWaitExpire _ => none
  | .blnStateObserve _ => none
  | .blnEvaluate => none
  | .sweepVisit => none
  | .uncheckedWriteResume => none
  | .blnKick => none
  | .donorLimitWrite _ => none
  | .donorBaseWrite _ => none
  | .windowTableWrite _ _ _ => none
  | .writePacketReceive _ => none
  | .acknowledgeReceive _ => none
  | .fencePacketReceive _ _ => none
  | .fenceDoneReceive _ => none
  | .messagePacketReceive _ _ => none
  | .hostApRead _ _ => none
  | .hostApWrite _ _ => none
  | .messageSlotWrite _ _ => none
  | .messageAccept => none
  | .waitingMessageFire => none
  | .messageRematch => none
  | .ctxEnable _ => none
  | .ctxStop _ => none
  | .ctxResume _ => none
  | .ctxKill _ => none
  | .ctxStoppedReached _ => none
  | .ctxOffReached _ => none
  | .ctxDescriptorWrite _ _ _ => none
  | .armWord0Write _ _ => none
  | .armWordWrite _ _ _ => none
  | .fqCidxObserve _ => none
  | .tlbInvalidateRange => none
  | .tlbInvalidateContext => none
  | .tlbInvalidateAll => none
  | .tlbInvalidateComplete => none
  | .graphSubmit => none
  | .graphCheckDone => none
  | .graphNodeStart _ _ => none
  | .graphNodeComplete _ _ => none
  | .gangReserve _ => none
  | .gangCommit => none
  | .quantumExpire _ _ => none
  | .waveRotation _ _ => none
  | .gangPreempt _ => none
  | .gangRestore _ _ _ => none
  | .launchComplete _ => none
  | .variableResultArrive _ _ => none
  | .spawnArrive _ => none
  | .gatherStep _ => none
  | .spillGather _ => none
  | .taskWaveComplete _ => none
  | .ctqSpillBaseWrite _ _ => none
  | .cresizeComplete _ => none
  | .bregionZeroDone _ => none
  | .refreshWindow _ => none
  | .copyEntryStart _ _ => none
  | .copyBlockWrite _ _ => none
  | .copyEntryComplete _ _ => none
  | .waddrWake _ => none
  | .waddrPoll _ => none
  | .waddrTimeout _ => none
  | .barwaitTimeout _ => none
  | .pipeWaitComplete _ => none
  | .dbgHalt _ => none
  | .dbgResume _ => none
  | .dbgAttachWrite _ _ => none
  | .marchRayComplete _ _ => none
  | .raySuspend _ _ => none
  | .callableGather _ => none
  | .traversalRayComplete _ _ => none
  | .renderFaultPark _ _ => none
  | .faultBatchPost _ => none
  | .parkedRayResume _ => none
  | .payloadSlotFree _ _ => none
  | .candelabraPrimitive _ => none
  | .perfCntWrite _ _ _ => none
  | .kStepComplete _ => none
  | .scrub _ _ _ _ => none
  | .hostLinkDown => none
  | .fabLinkDisWrite _ _ => none
  | .completionTimeout _ => none

/-! ### The fates of R333 that words alone decide -/

/-- Whether a source names the literal. -/
def Src.isLit : Src → Bool
  | .lit => true
  | _ => false

/-- R319, R333: the causes of one source field. `kd`: the destination is a k register and R170 applies. -/
def srcCauses (kd : Bool) (u : SrcUse) (raw : Nat) (s : Src) (hasLit : Bool) : List Nat :=
  let nolit := if s.isLit && !hasLit then [0x0B] else []
  let res := match s with | .reserved _ => [0x04] | _ => []
  let uni5 := if kd && !s.isUniform then [0x05] else []
  match u with
  | .unused => if raw = 0 then [] else [0x03]
  | .word => res ++ nolit ++ uni5
  | .pair =>
    let odd : Bool := match s with | .shelf a => decide (a = 15) | .named r => decide (r % 2 = 1) | _ => false
    res ++ nolit ++ uni5 ++ (if odd then [0x04] else [])
  | .itv =>
    let bad : Bool := match s with | .shelf a => decide (a = 15) | .named r => decide (r % 2 = 1) | .pipe _ => true | _ => false
    res ++ nolit ++ uni5 ++ (if bad then [0x04] else [])
  | .uni _ cause => res ++ nolit ++ (if s.isUniform then [] else [cause])
  | .uniX _ => res ++ nolit ++ (if s.isUniform && s != .imm9 then [] else [0x04])
  | .span n al =>
    uni5 ++ (match s with
      | .shelf a => if a + n ≤ 16 then [] else [0x04]
      | .named r => if r % al = 0 then [] else [0x04]
      | _ => [0x04])
  | .raw lim => if raw < lim then [] else [0x04]
  | .base unif =>
    nolit ++ (match s with
      | .k _ | .zero | .lit => []
      | .named r => (match unif with | some c => [c] | none => []) ++ (if r % 2 = 1 then [0x04] else [])
      | _ => [0x04])
  | .off unif =>
    nolit ++ (match s with
      | .pipe _ | .imm9 | .reserved _ => [0x04]
      | s => (match unif with | some c => if s.isUniform then [] else [c] | none => []))
  | .kreg last => match s with | .k r => if r ≤ last then [] else [0x04] | _ => [0x04]

/-- R320, R168, R333: the causes of the destination field. -/
def dstCauses (u : DstUse) (raw : Nat) (d : Dst) : List Nat :=
  let res := match d with | .reserved _ => [0x04] | _ => []
  match u with
  | .none => if raw = 0 then [] else [0x03]
  | .word => res
  | .wordNoK => res ++ (if d.isK then [0x05] else [])
  | .pair pipeOk kOk =>
    res ++ (match d with
      | .named r => if r % 2 = 1 then [0x04] else []
      | .pipe _ => if pipeOk then [] else [0x04]
      | .k _ => if kOk then [] else [0x05]
      | _ => [])
  | .reg w => match d with
    | .shelf => []
    | .named r => if w = 2 && r % 2 = 1 then [0x04] else []
    | _ => [0x04]
  | .konly => if d.isK then [] else [0x04]
  | .namedOnly c => match d with | .named _ => [] | _ => [c]

/-- Whether the field is read as an operand that a pipe may supply (R172). -/
def SrcUse.mayPop : SrcUse → Bool
  | .word | .pair => true
  | _ => false

/-- The pipes that the sources of a view name, in the order A, B, C. -/
def Row.pipes (r : Row) (v : View) : List Nat :=
  [(r.a v, v.a), (r.b v, v.b), (r.c v, v.c)].filterMap fun (u, s) =>
    match s with
    | .pipe q => if u.mayPop then some q else none
    | _ => none

/-- The number of 32-bit registers a source use spans. -/
def SrcUse.width : SrcUse → Nat
  | .pair | .itv | .base _ => 2
  | .span n _ => n
  | _ => 1

/-- One more than the highest named register that a source reads, 0 for none. -/
def srcTop (u : SrcUse) (s : Src) : Nat :=
  match u, s with
  | .unused, _ | .raw _, _ => 0
  | u, .named r => r + u.width
  | _, _ => 0

/-- One more than the highest named register that the destination writes, 0 for none. -/
def dstTop (u : DstUse) (d : Dst) : Nat :=
  match u, d with
  | .none, _ => 0
  | .pair _ _, .named r => r + 2
  | .reg w, .named r => r + w
  | _, .named r => r + 1
  | _, _ => 0

/-- R168, R333: one more than the highest named register that the instruction names. -/
def Row.namedTop (r : Row) (v : View) : Nat :=
  max (dstTop (r.d v) v.d) (max (srcTop (r.a v) v.a) (max (srcTop (r.b v) v.b) (srcTop (r.c v) v.c)))

/-- R406: the completion block is named by IMM9 when a flag is set; it may not be 30 or 31. -/
def blockCauses (r : Row) (v : View) : List Nat :=
  if [0xC0, 0xC1, 0xC2, 0xC5, 0xC6].contains r.op && (v.cw || v.ba || v.dg) && decide (30 ≤ v.imm9 % 32)
  then [0x04] else []

/-- The static causes of R333 for one row and view, unordered. -/
def Row.causes (r : Row) (v : View) : List Nat :=
  let kd := v.d.isK && !r.wave && (match r.d v with | .none => false | .namedOnly _ => false | _ => true)
  (if r.sub v.sub then [] else [0x02])
  ++ (if r.mod v then [] else [0x03])
  ++ (if v.ts = 7 then [0x03] else [])
  ++ (if r.zero v then [] else [0x03])
  ++ (if r.x && v.step != 1 then [0x06] else [])
  ++ srcCauses kd (r.a v) v.aRaw v.a v.lit.isSome
  ++ srcCauses kd (r.b v) v.bRaw v.b v.lit.isSome
  ++ srcCauses kd (r.c v) v.cRaw v.c v.lit.isSome
  ++ dstCauses (r.d v) v.dRaw v.d
  ++ (if (r.pipes v).Nodup then [] else [0x04])
  ++ blockCauses r v

/-- R333: the causes that an instruction's own words raise, whatever the state is. -/
def Instr.fates (i : Instr) : List Nat :=
  match i.row with
  | some (r, v) => r.causes v
  | none => []

/-- A well-formed instruction: its words raise no cause of R333 by themselves. -/
abbrev Instr.wf (i : Instr) : Prop := i.fates = []

/-- Whether the instruction is one that a wave fetches. -/
def Instr.isWave (i : Instr) : Bool := i.row.isSome

/-- R242: the lowest cause of a list; none for the empty list. -/
def lowest : List Nat → Option Nat
  | [] => none
  | c :: cs => match lowest cs with | none => some c | some d => some (min c d)

end Sys2Proof
end

