-- ==== Sys2Proof/Machine/Num.lean ====
section
/-!
DEFINITION. Exact values, rounding and the arithmetic of spec/12: FP32, FP16, BF16 (R289 to R294), the narrow
formats (R295 to R303), conversions (R304) and the helpers of R312. A float is the number of its bits; an exact
value is a sign, a magnitude and a power of two. Each operation answers its result with the flags it sets.
-/
namespace Sys2Proof

/-- The eight sticky flags, IV in bit 0 to WE in bit 7 (R173, R311). -/
abbrev Flg := BitVec 8
def fIV : Flg := 0x01#8
def fDZ : Flg := 0x02#8
def fOF : Flg := 0x04#8
def fUF : Flg := 0x08#8
def fIX : Flg := 0x10#8
def fIO : Flg := 0x20#8
def fSA : Flg := 0x40#8
def fWE : Flg := 0x80#8

/-- The flag if the condition holds. -/
def Flg.when (c : Bool) (f : Flg) : Flg := if c then f else 0#8

/-- Rounding modes (R292); `sr` carries the 16-bit random value of R294. -/
inductive Rnd where
  | rn | rz | ru | rd
  | sr (rho : Nat)
  deriving DecidableEq, Repr

/-- R292: the mode of a code below 4. -/
def Rnd.ofCode : Nat → Rnd
  | 0 => .rn | 1 => .rz | 2 => .ru | _ => .rd

/-- An exact value: a NaN (signalling or not), an infinity, or ± m · 2^e. -/
inductive XR where
  | nan (signalling : Bool)
  | inf (neg : Bool)
  | fin (neg : Bool) (m : Nat) (e : Int)
  deriving DecidableEq, Repr

/-- An IEEE format by the widths of its exponent and fraction (R289). -/
structure Fmt where
  ew : Nat
  fw : Nat
  deriving DecidableEq, Repr

def Fmt.f32 : Fmt := { ew := 8, fw := 23 }
def Fmt.f16 : Fmt := { ew := 5, fw := 10 }
def Fmt.bf16 : Fmt := { ew := 8, fw := 7 }

def Fmt.bias (F : Fmt) : Int := (2 ^ (F.ew - 1) : Nat) - 1
/-- The power of two of one unit of the subnormals. -/
def Fmt.qmin (F : Fmt) : Int := 1 - F.bias - F.fw
def Fmt.expMax (F : Fmt) : Nat := 2 ^ F.ew - 1
def Fmt.signBit (F : Fmt) : Nat := 2 ^ (F.ew + F.fw)
def Fmt.infBits (F : Fmt) : Nat := F.expMax * 2 ^ F.fw
/-- R289, R290: the canonical NaN. -/
def Fmt.canon (F : Fmt) : Nat := F.infBits + 2 ^ (F.fw - 1)
/-- The bits of the largest finite magnitude. -/
def Fmt.maxBits (F : Fmt) : Nat := F.infBits - 1

/-- The exact value of a float's bits (R289). -/
def Fmt.decode (F : Fmt) (v : Nat) : XR :=
  let neg := bit v (F.ew + F.fw)
  let e := bits v F.fw F.ew
  let f := bits v 0 F.fw
  if e = F.expMax then (if f = 0 then .inf neg else .nan (!bit v (F.fw - 1)))
  else if e = 0 then .fin neg f F.qmin
  else .fin neg (2 ^ F.fw + f) (F.qmin + (e : Int) - 1)

/-- The number of bits of a magnitude; 0 for 0. -/
def blen (m : Nat) : Nat := if m = 0 then 0 else Nat.log2 m + 1

/-- Whether the discarded part `r` of `2^s`, under an integer part `h`, rounds the magnitude up (R292, R294). -/
def roundsUp (m : Rnd) (neg : Bool) (h r s : Nat) : Bool :=
  match m with
  | .rn => decide (2 * r > 2 ^ s) || (decide (2 * r = 2 ^ s) && decide (h % 2 = 1))
  | .rz => false
  | .ru => !neg && decide (0 < r)
  | .rd => neg && decide (0 < r)
  | .sr rho => decide (0 < r) && decide (r * 65536 + rho * 2 ^ s ≥ 65536 * 2 ^ s)

/-- `m · 2^e` rounded to a multiple of `2^q`: the multiple and whether it differs. -/
def roundAt (mode : Rnd) (neg : Bool) (m : Nat) (e q : Int) : Nat × Bool :=
  if q ≤ e then (m * 2 ^ (e - q).toNat, false)
  else
    let s := (q - e).toNat
    let h := m / 2 ^ s
    let r := m % 2 ^ s
    (if roundsUp mode neg h r s then h + 1 else h, decide (r ≠ 0))

/-- The bits of the magnitude `m · 2^q` that lies on the grid of the format; the exponent field may run past its
range. -/
def Fmt.pack (F : Fmt) (m : Nat) (q : Int) : Nat := m + (q - F.qmin).toNat * 2 ^ F.fw

/-- A result: bits and flags. -/
structure FR where
  v : Nat
  f : Flg
  deriving DecidableEq, Repr

/-- Round of R293: an exact value into a format; a NaN value gives the canonical NaN (R290) and sets no flag here. -/
def Fmt.round (F : Fmt) (mode : Rnd) (x : XR) : FR :=
  match x with
  | .nan _ => { v := F.canon, f := 0 }
  | .inf neg => { v := F.infBits + b2n neg * F.signBit, f := 0 }
  | .fin neg m e =>
    let sgn := b2n neg * F.signBit
    if m = 0 then { v := sgn, f := 0 }
    else
      let q := max (blen m + e - (F.fw + 1)) F.qmin
      let (r, ix) := roundAt mode neg m e q
      let b := F.pack r q
      if F.infBits ≤ b then
        let toInf := match mode with
          | .rn => true
          | .rz | .sr _ => false
          | .ru => !neg
          | .rd => neg
        { v := sgn + (if toInf then F.infBits else F.maxBits), f := fOF ||| fIX }
      else
        { v := sgn + b
          f := Flg.when ix fIX ||| Flg.when (ix && decide (blen m + e ≤ 1 - F.bias)) fUF }

/-- Whether an exact value is a signalling NaN. -/
def XR.isS : XR → Bool
  | .nan s => s
  | _ => false
def XR.isNan : XR → Bool
  | .nan _ => true
  | _ => false
def XR.isZero : XR → Bool
  | .fin _ m _ => m = 0
  | _ => false
def XR.neg? : XR → Bool
  | .nan _ => false
  | .inf n => n
  | .fin n _ _ => n

def XR.negate : XR → XR
  | .nan s => .nan s
  | .inf n => .inf (!n)
  | .fin n m e => .fin (!n) m e

/-- The signed number of units of `2^q` in a finite value whose unit is a multiple of it. -/
def unitsAt (neg : Bool) (m : Nat) (e q : Int) : Int :=
  let v : Int := (m * 2 ^ (e - q).toNat : Nat)
  if neg then -v else v

/-- The exact sum, with IV for an invalid one; the sign of a zero sum follows R291. -/
def XR.add (mode : Rnd) (x y : XR) : XR × Flg :=
  match x, y with
  | .nan s, y => (.nan false, Flg.when (s || y.isS) fIV)
  | x, .nan s => (.nan false, Flg.when (s || x.isS) fIV)
  | .inf a, .inf b => if a = b then (.inf a, 0) else (.nan false, fIV)
  | .inf a, _ => (.inf a, 0)
  | _, .inf b => (.inf b, 0)
  | .fin a m e, .fin b n f =>
    let q := min e f
    let s := unitsAt a m e q + unitsAt b n f q
    if s = 0 then
      (.fin (if m = 0 && n = 0 && a = b then a else decide (mode = .rd)) 0 0, 0)
    else (.fin (decide (s < 0)) s.natAbs q, 0)

/-- The exact product, with IV for 0 × ∞. -/
def XR.mul (x y : XR) : XR × Flg :=
  match x, y with
  | .nan s, y => (.nan false, Flg.when (s || y.isS) fIV)
  | x, .nan s => (.nan false, Flg.when (s || x.isS) fIV)
  | .inf a, .inf b => (.inf (a != b), 0)
  | .inf a, .fin b m _ => if m = 0 then (.nan false, fIV) else (.inf (a != b), 0)
  | .fin a m _, .inf b => if m = 0 then (.nan false, fIV) else (.inf (a != b), 0)
  | .fin a m e, .fin b n f => (.fin (a != b) (m * n) (e + f), 0)

/-- Guard bits of a quotient or root, beyond every rounding point of the formats here. -/
def guardBits : Nat := 64

/-- A quotient of magnitudes with `guardBits` beyond the larger operand and a last bit that says it is inexact. -/
def quotMag (m n : Nat) : Nat × Int :=
  let s := guardBits + blen n
  let q := m * 2 ^ s / n
  (2 * q + (if m * 2 ^ s % n = 0 then 0 else 1), -(s : Int) - 1)

/-- The quotient, exact but for its sticky last bit, with the flags of R369. -/
def XR.div (x y : XR) : XR × Flg :=
  match x, y with
  | .nan s, y => (.nan false, Flg.when (s || y.isS) fIV)
  | x, .nan s => (.nan false, Flg.when (s || x.isS) fIV)
  | .inf _, .inf _ => (.nan false, fIV)
  | .inf a, .fin b _ _ => (.inf (a != b), 0)
  | .fin a _ _, .inf b => (.fin (a != b) 0 0, 0)
  | .fin a m e, .fin b n f =>
    if n = 0 then (if m = 0 then (.nan false, fIV) else (.inf (a != b), fDZ))
    else
      let (q, k) := quotMag m n
      (.fin (a != b) q (k + e - f), 0)

/-- Integer square root by bits: the largest r with r² ≤ n, from `k` bits down. -/
def isqrt (n : Nat) : Nat → Nat → Nat
  | 0, r => r
  | k + 1, r => isqrt n k (if (r + 2 ^ k) * (r + 2 ^ k) ≤ n then r + 2 ^ k else r)

/-- The root of a magnitude with guard bits and a sticky last bit. -/
def sqrtMag (m : Nat) (e : Int) : Nat × Int :=
  let odd := (e % 2 != 0)
  let m1 := if odd then 2 * m else m
  let e1 := if odd then e - 1 else e
  let n := m1 * 2 ^ (2 * guardBits)
  let r := isqrt n (blen n / 2 + 1) 0
  (2 * r + (if r * r = n then 0 else 1), e1 / 2 - guardBits - 1)

/-- The square root with the flags of R369. -/
def XR.sqrt (x : XR) : XR × Flg :=
  match x with
  | .nan s => (.nan false, Flg.when s fIV)
  | .inf n => if n then (.nan false, fIV) else (.inf false, 0)
  | .fin n m e =>
    if m = 0 then (.fin n 0 0, 0)
    else if n then (.nan false, fIV)
    else
      let (r, k) := sqrtMag m e
      (.fin false r k, 0)

/-- The order of two values that are no NaN. -/
def XR.lt (x y : XR) : Bool :=
  match x, y with
  | .nan _, _ | _, .nan _ => false
  | .inf a, .inf b => a && !b
  | .inf a, _ => a
  | _, .inf b => !b
  | .fin a m e, .fin b n f =>
    let q := min e f
    decide (unitsAt a m e q < unitsAt b n f q)

def XR.eq (x y : XR) : Bool := !x.isNan && !y.isNan && !x.lt y && !y.lt x
def XR.le (x y : XR) : Bool := x.lt y || x.eq y

/-- The magnitude. -/
def XR.abs : XR → XR
  | .nan s => .nan s
  | .inf _ => .inf false
  | .fin _ m e => .fin false m e

/-- An integer as an exact value. -/
def XR.ofInt (v : Int) : XR := .fin (decide (v < 0)) v.natAbs 0

/-- `x · 2^k`. -/
def XR.scale (x : XR) (k : Int) : XR :=
  match x with
  | .fin n m e => .fin n m (e + k)
  | x => x

/-! ### Operations on floats of one format -/

/-- Round the value an operation answers, and join its flags. -/
def Fmt.fin (F : Fmt) (mode : Rnd) (p : XR × Flg) : FR :=
  let r := F.round mode p.1
  { v := r.v, f := r.f ||| p.2 }

def Fmt.add (F : Fmt) (m : Rnd) (a b : Nat) : FR := F.fin m (XR.add m (F.decode a) (F.decode b))
def Fmt.sub (F : Fmt) (m : Rnd) (a b : Nat) : FR := F.fin m (XR.add m (F.decode a) (F.decode b).negate)
def Fmt.mul (F : Fmt) (m : Rnd) (a b : Nat) : FR := F.fin m (XR.mul (F.decode a) (F.decode b))
def Fmt.div (F : Fmt) (m : Rnd) (a b : Nat) : FR := F.fin m (XR.div (F.decode a) (F.decode b))
def Fmt.sqrt (F : Fmt) (m : Rnd) (a : Nat) : FR := F.fin m (XR.sqrt (F.decode a))

/-- R366: one rounding; 0 × ∞ sets IV even with a NaN addend. -/
def XR.fma (m : Rnd) (a b c : XR) : XR × Flg :=
  let p := XR.mul a b
  let s := XR.add m p.1 c
  (s.1, p.2 ||| s.2)
def Fmt.fma (F : Fmt) (m : Rnd) (a b c : Nat) : FR := F.fin m (XR.fma m (F.decode a) (F.decode b) (F.decode c))

/-- Whether `a` orders before `b` when −0 orders below +0. -/
def ltZero (a b : XR) : Bool := a.lt b || (a.isZero && b.isZero && a.neg? && !b.neg?)

/-- minimumNumber of R312. -/
def Fmt.minNum (F : Fmt) (a b : Nat) : FR :=
  let x := F.decode a
  let y := F.decode b
  let f := Flg.when (x.isS || y.isS) fIV
  if x.isNan && y.isNan then { v := F.canon, f := f }
  else if x.isNan then { v := b, f := f }
  else if y.isNan then { v := a, f := f }
  else { v := if ltZero y x then b else a, f := f }

/-- maximumNumber of R312. -/
def Fmt.maxNum (F : Fmt) (a b : Nat) : FR :=
  let x := F.decode a
  let y := F.decode b
  let f := Flg.when (x.isS || y.isS) fIV
  if x.isNan && y.isNan then { v := F.canon, f := f }
  else if x.isNan then { v := b, f := f }
  else if y.isNan then { v := a, f := f }
  else { v := if ltZero x y then b else a, f := f }

/-- R367: the IEEE minimum and maximum: a NaN gives the canonical NaN. -/
def Fmt.minIeee (F : Fmt) (a b : Nat) : FR :=
  let r := F.minNum a b
  if (F.decode a).isNan || (F.decode b).isNan then { v := F.canon, f := r.f } else r
def Fmt.maxIeee (F : Fmt) (a b : Nat) : FR :=
  let r := F.maxNum a b
  if (F.decode a).isNan || (F.decode b).isNan then { v := F.canon, f := r.f } else r

/-- R368: the predicate of a condition and its flags. -/
def fcmpX (cc : Nat) (x y : XR) : Bool × Flg :=
  let un := x.isNan || y.isNan
  let s := x.isS || y.isS
  let p := match cc with
    | 0 => x.eq y
    | 1 => un || !x.eq y
    | 2 => x.lt y
    | 3 => x.le y
    | 4 => y.lt x
    | 5 => y.le x
    | 6 => un
    | _ => !un
  (p, Flg.when (s || (un && decide (2 ≤ cc) && decide (cc ≤ 5))) fIV)

/-- R371: rounded to an integral value, the sign of a zero kept; only IV for a signalling NaN. -/
def f32Rnd (mode : Rnd) (a : Nat) : FR :=
  match Fmt.f32.decode a with
  | .nan s => { v := Fmt.f32.canon, f := Flg.when s fIV }
  | .inf _ => { v := a, f := 0 }
  | .fin n m e => { v := (Fmt.f32.round .rz (.fin n (roundAt mode n m e 0).1 0)).v, f := 0 }

/-- R371: A − floor(A), rounded rd; a zero is +0. -/
def f32Fract (a : Nat) : FR :=
  match Fmt.f32.decode a with
  | .nan s => { v := Fmt.f32.canon, f := Flg.when s fIV }
  | .inf _ => { v := Fmt.f32.canon, f := fIV }
  | .fin n m e =>
    let fl := (roundAt .rd n m e 0).1
    let s := (XR.add .rn (.fin n m e) (.fin (!n) fl 0)).1
    if s.isZero then { v := 0, f := 0 } else Fmt.f32.round .rd s

/-- R371: the class mask. -/
def f32Class (a : Nat) : Nat :=
  let sub := bits a 23 8 = 0
  match Fmt.f32.decode a with
  | .nan s => if s then 0x001 else 0x002
  | .inf n => if n then 0x004 else 0x200
  | .fin n m _ =>
    if m = 0 then (if n then 0x020 else 0x040)
    else if sub then (if n then 0x010 else 0x080)
    else (if n then 0x008 else 0x100)

/-- R372: A × 2^B, the exponent clamped where every further one gives the same result. -/
def f32Ldexp (mode : Rnd) (a : Nat) (b : Int) : FR :=
  let k := max (-1000) (min 1000 b)
  match Fmt.f32.decode a with
  | .nan s => { v := Fmt.f32.canon, f := Flg.when s fIV }
  | .inf _ => { v := a, f := 0 }
  | .fin n m e => if m = 0 then { v := a, f := 0 } else Fmt.f32.round mode (.fin n m (e + k))

/-- R372: the mantissa and the exponent (as a 32-bit two's complement number). -/
def f32Frexp (a : Nat) : Nat × Nat × Flg :=
  match Fmt.f32.decode a with
  | .nan s => (Fmt.f32.canon, 0, Flg.when s fIV)
  | .inf _ => (a, 0, 0)
  | .fin n m e =>
    if m = 0 then (a, 0, 0)
    else
      let k : Int := blen m + e
      ((Fmt.f32.round .rn (.fin n m (e - k))).v, wrap k 32, 0)

/-! ### Conversions (R304, R376) -/

/-- SatInt of R312: an integer clamped to `n` bits, signed or not. -/
def satInt (signed : Bool) (n : Nat) (v : Int) : Int × Flg :=
  let lo : Int := if signed then -(2 ^ (n - 1) : Nat) else 0
  let hi : Int := if signed then (2 ^ (n - 1) : Nat) - 1 else (2 ^ n : Nat) - 1
  if v < lo then (lo, fSA) else if hi < v then (hi, fSA) else (v, 0)

/-- R304, R311, R376: a float value to an integer type; IX when it is finite and not integral, saturated or not. -/
def xrToInt (mode : Rnd) (signed : Bool) (n : Nat) (x : XR) : Int × Flg :=
  match x with
  | .nan _ => (0, fIV)
  | .inf neg => satInt signed n (if neg then -(2 ^ 80 : Nat) else (2 ^ 80 : Nat))
  | .fin neg m e =>
    if m = 0 then (0, 0)
    else
      let (r, ix) := roundAt mode neg m e 0
      let s := satInt signed n (if neg then -(r : Int) else r)
      (s.1, s.2 ||| Flg.when ix fIX)

/-- R304: exact widening between formats, NaN sign and payload kept. -/
def widenBits (S D : Fmt) (a : Nat) : Nat :=
  match S.decode a with
  | .nan _ =>
    b2n (bit a (S.ew + S.fw)) * D.signBit + D.infBits + bits a 0 S.fw * 2 ^ (D.fw - S.fw)
  | x => (D.round .rn x).v

/-- R376: a conversion between two different float formats or of a float to its own format. -/
def cvtFloat (S D : Fmt) (mode : Rnd) (a : Nat) : FR :=
  let x := S.decode a
  if S = D then (if x.isNan then { v := D.canon, f := Flg.when x.isS fIV } else { v := a, f := 0 })
  else if D = Fmt.f32 then { v := widenBits S D a, f := 0 }
  else
    let r := D.round mode x
    { v := r.v, f := r.f ||| Flg.when x.isS fIV }

def Ty.fmt : Ty → Fmt
  | .f16 => .f16
  | .bf16 => .bf16
  | _ => .f32

/-- The integer a bit pattern of an integer type means. -/
def Ty.toInt (t : Ty) (v : Nat) : Int := if t.signed then asS v t.width else ((v % 2 ^ t.width : Nat) : Int)

/-- R376: a conversion between any two types: the result's bits in the width of its type (64 or, extended by its own
type, 32) and the flags. -/
def cvt (s d : Ty) (mode : Rnd) (a : Nat) : FR :=
  let w := if d.width = 64 then 64 else 32
  if s.isFloat then
    let x := s.fmt.decode (a % 2 ^ s.width)
    if d.isFloat then cvtFloat s.fmt d.fmt mode (a % 2 ^ s.width)
    else
      let r := xrToInt mode d.signed d.width x
      { v := wrap r.1 w, f := r.2 }
  else
    let v := s.toInt a
    if d.isFloat then d.fmt.round mode (XR.ofInt v)
    else
      let r := satInt d.signed d.width v
      { v := wrap r.1 w, f := r.2 }

/-! ### Narrow formats (R295 to R303) -/

/-- Exponent width, mantissa width and bias of a floating narrow format (R295). -/
def NFmt.ewmw : NFmt → Nat × Nat × Int
  | .e5m2 => (5, 2, 15)
  | .e4m3 => (4, 3, 7)
  | .e3m2 => (3, 2, 3)
  | .e2m3 => (2, 3, 1)
  | _ => (2, 1, 1)

def NFmt.isInt : NFmt → Bool
  | .int8 | .uint8 | .int4 | .uint4 => true
  | _ => false

/-- The largest magnitude as units of its own grid (R295, R296). -/
def NFmt.maxVal : NFmt → XR
  | .e5m2 => .fin false 57344 0
  | .e4m3 => .fin false 448 0
  | .e3m2 => .fin false 28 0
  | .e2m3 => .fin false 15 (-1)
  | .e2m1 => .fin false 6 0
  | .int8 => .fin false 127 0
  | .uint8 => .fin false 255 0
  | .int4 => .fin false 7 0
  | .uint4 => .fin false 15 0
  | _ => .fin false 1 0

/-- The bit position of the sign of a floating narrow format. -/
def NFmt.signPos (f : NFmt) : Nat := f.ewmw.1 + f.ewmw.2.1

/-- The value of a narrow code without scale (R295, R296). -/
def NFmt.value (f : NFmt) (c : Nat) : XR :=
  match f with
  | .int8 => XR.ofInt (asS c 8)
  | .uint8 => .fin false (bits c 0 8) 0
  | .int4 => XR.ofInt (asS c 4)
  | .uint4 => .fin false (bits c 0 4) 0
  | .sg1 => .fin (bit c 0) 1 0
  | .bf16 => Fmt.bf16.decode (c % 65536)
  | .fp16 => Fmt.f16.decode (c % 65536)
  | f =>
    let (ew, mw, bias) := f.ewmw
    let e := bits c mw ew
    let m := bits c 0 mw
    let neg := bit c (ew + mw)
    if f = .e5m2 && e = 31 then (if m = 0 then .inf neg else .nan false)
    else if f = .e4m3 && e = 15 && m = 7 then .nan false
    else if e = 0 then .fin neg m (1 - bias - mw)
    else .fin neg (2 ^ mw + m) ((e : Int) - bias - mw)

/-- R298: the special value of an E2M1 block. -/
def specialVal (sigma : Nat) : XR := .fin (bit sigma 7) (bits sigma 0 7) (-3)
def specialNone (sigma : Nat) : Bool := bits sigma 0 7 = 0

/-- Decode of R299. -/
def NFmt.decode (f : NFmt) (c e sigma : Nat) : XR :=
  if e = 0xFF then .nan false
  else if f = .e2m1 && bits c 0 4 = 8 then
    (if specialNone sigma then .fin true 0 0 else (specialVal sigma).scale ((e : Int) - 127))
  else (f.value c).scale ((e : Int) - 127)

/-- The code of the magnitude `m · 2^q` on the grid of a floating narrow format. -/
def NFmt.packMag (f : NFmt) (m : Nat) (q : Int) : Nat :=
  let (_, mw, bias) := f.ewmw
  m + (q - (1 - bias - mw)).toNat * 2 ^ mw

/-- The code of the largest magnitude of a format with a sign. -/
def NFmt.boundCode (f : NFmt) (neg : Bool) : Nat :=
  match f with
  | .e5m2 => 0x7B + 128 * b2n neg
  | .e4m3 => 0x7E + 128 * b2n neg
  | .e3m2 => 0x1F + 32 * b2n neg
  | .e2m3 => 0x1F + 32 * b2n neg
  | .e2m1 => 0x7 + 8 * b2n neg
  | .int8 => if neg then 0x80 else 0x7F
  | .uint8 => if neg then 0 else 0xFF
  | .int4 => if neg then 0x8 else 0x7
  | _ => if neg then 0 else 0xF

/-- Quant of R301: an FP32 value to a narrow code. -/
def NFmt.quant (f : NFmt) (x e sigma : Nat) (mode : Rnd) (sat : Bool) : FR :=
  if f = .sg1 then { v := b2n (bit x 31), f := 0 }
  else if e = 0xFF then { v := 0, f := fIV }
  else match (Fmt.f32.decode x).scale (127 - (e : Int)) with
  | .nan _ =>
    if f = .e5m2 then
      { v := 128 * b2n (bit x 31) + 0x7C + (if bits x 21 2 = 0 then 2 else bits x 21 2), f := 0 }
    else if f = .e4m3 then { v := 128 * b2n (bit x 31) + 0x7F, f := 0 }
    else { v := 0, f := fIV }
  | .inf neg =>
    if f = .e5m2 && !sat then { v := 128 * b2n neg + 0x7C, f := 0 }
    else { v := f.boundCode neg, f := fSA ||| fIX }
  | .fin neg m ex =>
    if f = .e2m1 && !specialNone sigma && XR.eq (.fin neg m ex) (specialVal sigma) then { v := 8, f := 0 }
    else if f.isInt then
      let (r, ix) := roundAt mode neg m ex 0
      let v : Int := if neg then -(r : Int) else r
      let (signed, n) : Bool × Nat := match f with
        | .int8 => (true, 8) | .uint8 => (false, 8) | .int4 => (true, 4) | _ => (false, 4)
      let s := satInt signed n v
      { v := wrap s.1 n, f := s.2 ||| Flg.when (ix || s.2 != 0) fIX }
    else
      let (_, mw, bias) := f.ewmw
      let q := if m = 0 then 1 - bias - mw else max (blen m + ex - (mw + 1)) (1 - bias - mw)
      let (r, ix) := roundAt mode neg m ex q
      if XR.lt f.maxVal (.fin false r q) then
        if f = .e5m2 && !sat then
          { v := 128 * b2n neg + (match mode with | .rn => 0x7C | _ => 0x7B), f := fOF ||| fIX }
        else { v := f.boundCode neg, f := fSA ||| fIX }
      else
        let code := f.packMag r q
        { v := if f = .e2m1 && r = 0 then 0 else code + b2n neg * 2 ^ f.signPos
          f := Flg.when ix fIX ||| Flg.when (ix && decide (blen m + ex ≤ 1 - bias)) fUF }

/-- R302: a narrow code widened to FP32. -/
def NFmt.widen (f : NFmt) (c e sigma : Nat) : FR :=
  match f with
  | .bf16 => { v := widenBits .bf16 .f32 (c % 65536), f := 0 }
  | .fp16 => { v := widenBits .f16 .f32 (c % 65536), f := 0 }
  | f =>
    if e = 0xFF then { v := Fmt.f32.canon, f := 0 }
    else match f.decode c e sigma with
    | .nan _ =>
      let mm := if f = .e5m2 then bits c 0 2 else 2
      { v := 0x7F800000 + mm * 2 ^ 21 + b2n (bit c 7) * 2 ^ 31, f := 0 }
    | x =>
      let r := Fmt.f32.round .rn x
      { v := r.v, f := r.f &&& (fOF ||| (if r.f &&& fOF = 0 then 0 else fIX)) }

/-- The element `i` of a packed word (R297). -/
def NFmt.elem (f : NFmt) (w i : Nat) : Nat :=
  match f with
  | .e3m2 | .e2m3 => bits w (8 * i) 6
  | f => bits w (f.slot * i) f.slot

/-! ### Random numbers and CRC -/

/-- Rng of R377. -/
def rng (a b l : Nat) : Nat :=
  let M := 2 ^ 64
  let x := (b % 2 ^ 32) * 2 ^ 32 + a % 2 ^ 32
  let x := x ^^^ ((l + 1) * 0x9E3779B97F4A7C15 % M)
  let x := (x ^^^ (x >>> 30)) * 0xBF58476D1CE4E5B9 % M
  let x := (x ^^^ (x >>> 27)) * 0x94D049BB133111EB % M
  (x ^^^ (x >>> 31)) % 2 ^ 32

/-- One byte into a reflected CRC-32C register (R194). -/
def crcStep (c : Nat) : Nat → Nat
  | 0 => c
  | k + 1 => crcStep (if c % 2 = 1 then (c / 2) ^^^ 0x82F63B78 else c / 2) k

/-- CRC-32C of R194. -/
def crc32c (bs : List Byte) : Nat :=
  (bs.foldl (fun c b => crcStep (c ^^^ b.toNat) 8) 0xFFFFFFFF) ^^^ 0xFFFFFFFF

end Sys2Proof
end

