-- ==== Sys2Proof/Machine/Interval.lean ====
section
/-!
DEFINITION. Interval arithmetic on FP32 endpoints: spec/12 R307, R308 and the forms of spec/15 R382 to R384.
-/
namespace Sys2Proof

/-- An interval by the bits of its endpoints (R307). -/
structure Itv where
  lo : Nat
  hi : Nat
  deriving DecidableEq, Repr

/-- An interval result with its flags. -/
structure IR where
  v : Itv
  f : Flg
  deriving DecidableEq, Repr

def fPosInf : Nat := 0x7F800000
def fNegInf : Nat := 0xFF800000
/-- [−∞, +∞] (R307). -/
def Itv.whole : Itv := { lo := fNegInf, hi := fPosInf }
def Itv.isWhole (x : Itv) : Bool := x.lo = fNegInf && x.hi = fPosInf

def fx (v : Nat) : XR := Fmt.f32.decode v

/-- R308 step 1: a NaN endpoint or lo > hi. -/
def Itv.bad (x : Itv) : Bool := (fx x.lo).isNan || (fx x.hi).isNan || (fx x.hi).lt (fx x.lo)

/-- The result of R308 step 1. -/
def IR.bad : IR := { v := Itv.whole, f := fIV ||| fWE }

/-- A zero endpoint is written +0 (R307). -/
def posZero (v : Nat) : Nat := if v % 2 ^ 31 = 0 then 0 else v

/-- One endpoint: rounded, with IX when it rounds and OF when a finite value gives an infinity (R308). -/
def endpoint (m : Rnd) (x : XR) : Nat × Flg :=
  let r := Fmt.f32.round m x
  let inf := match x with | .fin _ _ _ => decide (r.v % 2 ^ 31 = fPosInf) | _ => false
  (posZero r.v, (r.f &&& fIX) ||| Flg.when inf fOF)

/-- R308 step 3, with the flags of the operation and WE where the whole line is new. -/
def outItv (lo hi : XR) (f : Flg) (anyWhole : Bool) : IR :=
  let l := endpoint .rd lo
  let h := endpoint .ru hi
  let v : Itv := { lo := l.1, hi := h.1 }
  { v := v, f := f ||| l.2 ||| h.2 ||| Flg.when (v.isWhole && !anyWhole) fWE }

/-- The whole line with a flag, and WE when no operand was whole. -/
def wholeWith (f : Flg) (anyWhole : Bool) : IR := { v := Itv.whole, f := f ||| Flg.when (!anyWhole) fWE }

/-- A sum of endpoints; opposite infinities give the outer one. -/
def addEnd (outer : Bool) (x y : XR) : XR :=
  match x, y with
  | .inf a, .inf b => if a = b then .inf a else .inf outer
  | x, y => (XR.add .rn x y).1

/-- A product of endpoints; 0 × ±∞ is 0 (R308). -/
def mulEnd (x y : XR) : XR :=
  if x.isZero || y.isZero then .fin false 0 0 else (XR.mul x y).1

/-- A quotient of endpoints by a divisor that is not 0; a quotient by ±∞ is 0. -/
def divEnd (x y : XR) : XR :=
  match y with
  | .inf _ => .fin false 0 0
  | y => (XR.div x y).1

def xmin2 (x y : XR) : XR := if y.lt x then y else x
def xmax2 (x y : XR) : XR := if x.lt y then y else x
def min4 (a b c d : XR) : XR := xmin2 (xmin2 a b) (xmin2 c d)
def max4 (a b c d : XR) : XR := xmax2 (xmax2 a b) (xmax2 c d)
def xzero : XR := .fin false 0 0
/-- Whether the value is at or below zero. -/
def XR.le0 (x : XR) : Bool := x.le xzero
def XR.ge0 (x : XR) : Bool := xzero.le x

def Itv.add (a b : Itv) : IR :=
  if a.bad || b.bad then .bad
  else outItv (addEnd true (fx a.lo) (fx b.lo)) (addEnd false (fx a.hi) (fx b.hi)) 0 (a.isWhole || b.isWhole)

/-- The interval of the negated values. -/
def Itv.flip (a : Itv) : Itv := { lo := a.hi ^^^ 0x80000000, hi := a.lo ^^^ 0x80000000 }

def Itv.sub (a b : Itv) : IR :=
  if a.bad || b.bad then .bad
  else outItv (addEnd true (fx a.lo) (fx b.hi).negate) (addEnd false (fx a.hi) (fx b.lo).negate) 0
    (a.isWhole || b.isWhole)

def Itv.mul (a b : Itv) : IR :=
  if a.bad || b.bad then .bad
  else
    let p := mulEnd (fx a.lo) (fx b.lo)
    let q := mulEnd (fx a.lo) (fx b.hi)
    let r := mulEnd (fx a.hi) (fx b.lo)
    let s := mulEnd (fx a.hi) (fx b.hi)
    outItv (min4 p q r s) (max4 p q r s) 0 (a.isWhole || b.isWhole)

/-- Whether the interval contains 0. -/
def Itv.has0 (a : Itv) : Bool := (fx a.lo).le0 && (fx a.hi).ge0

def Itv.div (a b : Itv) : IR :=
  if a.bad || b.bad then .bad
  else if b.has0 then wholeWith fDZ (a.isWhole || b.isWhole)
  else
    let p := divEnd (fx a.lo) (fx b.lo)
    let q := divEnd (fx a.lo) (fx b.hi)
    let r := divEnd (fx a.hi) (fx b.lo)
    let s := divEnd (fx a.hi) (fx b.hi)
    outItv (min4 p q r s) (max4 p q r s) 0 (a.isWhole || b.isWhole)

def Itv.sqr (a : Itv) : IR :=
  if a.bad then .bad
  else
    let p := mulEnd (fx a.lo) (fx a.lo)
    let q := mulEnd (fx a.hi) (fx a.hi)
    outItv (if a.has0 then xzero else xmin2 p q) (xmax2 p q) 0 a.isWhole

def Itv.sqrt (a : Itv) : IR :=
  if a.bad then .bad
  else if (fx a.hi).lt xzero then wholeWith fIV a.isWhole
  else outItv (if (fx a.lo).le0 then xzero else (XR.sqrt (fx a.lo)).1) (XR.sqrt (XR.abs (fx a.hi))).1 0 a.isWhole

def Itv.min (a b : Itv) : IR :=
  if a.bad || b.bad then .bad
  else outItv (xmin2 (fx a.lo) (fx b.lo)) (xmin2 (fx a.hi) (fx b.hi)) 0 (a.isWhole || b.isWhole)

def Itv.max (a b : Itv) : IR :=
  if a.bad || b.bad then .bad
  else outItv (xmax2 (fx a.lo) (fx b.lo)) (xmax2 (fx a.hi) (fx b.hi)) 0 (a.isWhole || b.isWhole)

def Itv.abs (a : Itv) : IR :=
  if a.bad then .bad
  else if (fx a.lo).ge0 then outItv (fx a.lo) (fx a.hi) 0 a.isWhole
  else if (fx a.hi).le0 then outItv (fx a.hi).negate (fx a.lo).negate 0 a.isWhole
  else outItv xzero (xmax2 (fx a.lo).negate (fx a.hi)) 0 a.isWhole

def Itv.hull (a b : Itv) : IR :=
  if a.bad || b.bad then .bad
  else outItv (xmin2 (fx a.lo) (fx b.lo)) (xmax2 (fx a.hi) (fx b.hi)) 0 (a.isWhole || b.isWhole)

/-- R384: the intersection and whether it is not empty; for a malformed operand the spec states no predicate. -/
def Itv.meet (a b : Itv) : IR × Bool :=
  if a.bad || b.bad then (.bad, Config.meetPredicate a.lo a.hi b.lo b.hi)
  else
    let l := xmax2 (fx a.lo) (fx b.lo)
    let h := xmin2 (fx a.hi) (fx b.hi)
    if h.lt l then ({ v := Itv.whole, f := fWE }, false)
    else (outItv l h 0 (a.isWhole || b.isWhole), true)

/-- R384: above, below and the flags. -/
def Itv.test (a : Itv) (b : Nat) : Bool × Bool × Flg :=
  if a.bad || (fx b).isNan then (false, false, fIV)
  else ((fx b).lt (fx a.lo), (fx a.hi).lt (fx b), 0)

/-- R384: [A, B]. -/
def Itv.mk' (a b : Nat) : IR :=
  if (Itv.mk a b).bad then .bad else { v := { lo := posZero a, hi := posZero b }, f := 0 }

/-- R384: the midpoint. -/
def Itv.mid (a : Itv) : FR :=
  if a.bad then { v := 0, f := fIV }
  else if a.isWhole then { v := 0, f := 0 }
  else if a.lo = fNegInf then { v := 0xFF7FFFFF, f := 0 }
  else if a.hi = fPosInf then { v := 0x7F7FFFFF, f := 0 }
  else
    let s := (XR.add .rn (fx a.lo) (fx a.hi)).1
    let r := Fmt.f32.round .rn (s.scale (-1))
    { v := r.v, f := r.f &&& fIX }

end Sys2Proof
end

