-- ==== Sys2Proof/Machine/State.lean ====
section
/-!
DEFINITION. The state of the machine as plain data: every register, memory, queue and piece of progress that the
spec gives it (INVENTORY.md, '## State'), the state after reset, and the reasons a step can stop.

`Sparse` lists hold what differs from the reset value of an array: keys strictly rising, no entry equal to the
default. `Sys2Proof.Machine.Sparse` reads and writes them.
-/
namespace Sys2Proof.Machine

/-- An array indexed by a number, as the list of the entries that differ from its default. -/
abbrev Sparse (α : Type) := List (Nat × α)

/-! ### Checks of stored data (R17, R21) -/

/-- What is wrong with a protected word: a single-bit error, one that cannot be corrected, or so many bad transfers of its burst
(R17). -/
inductive FlawKind where
  | single | double | burst (left : Nat)
  deriving DecidableEq, Repr

/-- A protected word whose next check fails (R21, log 53): the place of the check; the core, die or port that it belongs to; the byte
address of the word there; what is wrong; and the source number of the unit that detects it (R28). -/
structure Flaw where
  place : Nat
  unit : Nat
  addr : Nat
  kind : FlawKind
  src : W16
  deriving DecidableEq, Repr

/-! ### Waves -/

/-- When a value that an instruction took an entry for arrives (R175). -/
inductive Due where
  /-- it has arrived -/
  | now
  /-- at this issue cycle of the wave (fixed latency, R327) -/
  | at (cycle : Nat)
  /-- with this outstanding operation of the wave (variable latency, R174) -/
  | op (id : Nat)
  deriving DecidableEq, Repr

/-- A shelf entry or named register: its value, when it arrives, and what a read finds before (R175): the newest of the
earlier values that has arrived, or else `old`. -/
structure Cell where
  val : W32
  old : W32
  due : Due
  /-- earlier values that were on their way when this one was written, newest first -/
  prior : List (W32 × Due) := []
  /-- its parity does not hold (R21, place 7) -/
  flip : Bool := false
  deriving DecidableEq, Repr

/-- A uniform register (R169). -/
structure KCell where
  val : W64
  old : W64
  due : Due
  prior : List (W64 × Due) := []
  flip : Bool := false
  deriving DecidableEq, Repr

/-- One depth of the predicate shift register (R171). -/
structure PCell where
  val : Bool
  old : Bool
  due : Due
  prior : List (Bool × Due) := []
  deriving DecidableEq, Repr

/-- One lane (R153, R154, R166, R168, R171, R344). -/
structure Lane where
  /-- the entry of %pcv: a 48-bit offset from CTX_CODE.BASE, 2^48 - 1 when retired -/
  pc : Nat
  /-- parked by yieldl; the flag says that an instruction has issued since (R159) -/
  parked : Option Bool
  /-- the shelf, newest first: 16 entries -/
  shelf : List Cell
  /-- the named registers -/
  named : List Cell
  /-- p0 to p7 -/
  preds : List PCell
  /-- the return stack, newest first -/
  ret : List Nat
  /-- the task record of the lane (R134), 128 bytes; empty in a wave that is no task wave -/
  task : List Byte
  deriving DecidableEq, Repr

/-- What completes an outstanding operation of a wave. -/
inductive OpKind where
  /-- a VARIABLE_RESULT_ARRIVE step -/
  | result
  /-- the entry of this sequence number of the copy queue of the wave's context on that core (R406) -/
  | copy (core seq : Nat)
  /-- the K-steps of a matrix instruction (R413) -/
  | matrix
  /-- the rays of a mch, rayq or lant (R424, R428): so many are left -/
  | rays (left : Nat)
  /-- the lanes of an ldfut without an answer (R199): so many are left -/
  | future (left : Nat)
  /-- a scratchpad way resize (R182) -/
  | resize
  /-- the spawn of a launch that its home has not accepted (R422) -/
  | spawn
  deriving DecidableEq, Repr

/-- What a wave that has not issued its instruction waits for; when it comes about the wave tries again (R121). -/
inductive Retry where
  /-- completion of operations whose tokens count (R174, R347, R399, R404) -/
  | token
  /-- a refresh window that lets a wsync end (R188) -/
  | window
  /-- PROG of the copy queue (R408) -/
  | prog
  /-- a place in the copy queue (R191) -/
  | queue
  /-- bytes that a copy entry owns and has not written yet (R224) -/
  | copy
  /-- results of rays (R423, R425) -/
  | rays
  /-- a payload slot of the front-end (R432) -/
  | slots
  /-- the matrix array, or its K-steps (R128, R411, R417) -/
  | array
  /-- the zeroing of the B-region (R185) -/
  | zeroing
  deriving DecidableEq, Repr

/-- An issued operation that has not completed (R174). -/
structure WaveOp where
  id : Nat
  /-- the token it set: 0 none, 1 to 6 for t0 to t5 -/
  token : Nat
  kind : OpKind
  /-- set by an access to memory (R121) -/
  mem : Bool
  /-- the refreshing bank group that a lane of an ldw waits for (R187) -/
  bank : Option Nat := none
  deriving DecidableEq, Repr

/-- A copy-queue token that was carried across a stop (R254). -/
structure Carried where
  token : Nat
  core : Nat
  seq : Nat
  count : Nat
  deriving DecidableEq, Repr

/-- What a resident wave waits for. -/
inductive Wait where
  | none
  /-- FQ_CIDX passing the index of a fault entry (R239) -/
  | fault (index : Nat)
  /-- its run-ahead, after which the fault of its instruction is posted: cause and pages (R237, R255) -/
  | ahead (cause : Nat) (pages : List (Nat × Bool))
  /-- room in the host fault queue, to post an entry with this cause, origin, INFO and these pages (R239, R240) -/
  | faultSpace (cause origin info : Nat) (pages : List (Nat × Bool))
  /-- free sectors, held by the ballooning engine for the cause (R43) -/
  | space (cause : Nat)
  /-- the gang barrier (R399) -/
  | bar
  /-- the ensemble barrier (R400) -/
  | ebar
  /-- every other member's rrot (R183) -/
  | rrot
  /-- every other wave's regroup (R164) -/
  | regroup
  /-- a barrier object: core address, phase, deadline if any (R201) -/
  | object (addr phase : Nat) (deadline : Option Nat)
  /-- a word: whether it is scratchpad, its address, deadline if any, and whether a table entry is held (R196) -/
  | word (scratch : Bool) (addr : Nat) (deadline : Option Nat) (entry : Bool)
  /-- the matrix FIFO (R127), or its own K-steps for mxrel and mxwait (R411) -/
  | matrixFifo
  | matrixRel
  | matrixDrain
  /-- the acceptance of its spawns (R142) -/
  | spawns
  /-- the unanswered lanes of an ldfut, in mode W (R199): the wave's operation -/
  | future (op : Nat)
  /-- stopped for good at its instruction with 0x0E posted (R246) -/
  | stopped
  /-- a trap that waits for the wave's issued operations to complete (R246): cause, masks, addresses, resume point -/
  | drain (cause lane mask maddr info iaddr adv : Nat) (pending : Bool)
  /-- a debugger stop that waits in the same way (R261) -/
  | dbgDrain (cause mask maddr info iaddr adv : Nat)
  /-- room in the host fault queue, to post 0x0E (R246) -/
  | stopSpace
  /-- the elements or places of a pipe that its instruction names (R203) -/
  | pipe
  /-- something on which it tries its instruction again -/
  | retry (r : Retry)
  /-- the fabric's answers to a system-scope release (R66), by the number of the fence -/
  | fence (id : Nat)
  deriving DecidableEq, Repr

/-- A vertex or primitive of a mesh wave (R283). -/
structure MeshOut where
  verts : Sparse (List W32)
  prims : Sparse W32
  deriving DecidableEq, Repr

/-- A resident wave. Its key is 128 x core + 32 x partition + slot. -/
structure Wave where
  /-- the number of its gang, and its index in it -/
  gang : Nat
  idx : Nat
  ctx : Nat
  /-- NAMED of its launch (R168) -/
  n : Nat
  /-- lanes 0 to 31 -/
  lanes : List Lane
  /-- k0 to k31 -/
  k : List KCell
  /-- %flags bits 7:0, and the domain mask of flag i in bits 4i+3:4i (R244) -/
  flags : BitVec 8
  domains : BitVec 32
  /-- what a read of %flags or %rstate finds before the value of a wrsp arrives, and the cycle at which it does (R329) -/
  flagsWas : Option (BitVec 8 × Nat)
  rstateWas : Option (W64 × Nat)
  ops : List WaveOp
  carried : List Carried
  /-- pending asynchronous causes, oldest first: cause and sequence number (R245) -/
  asyncs : List (Nat × Nat)
  rstate : W64
  trapMode : Bool
  dbgHalt : Bool
  fltPend : Bool
  /-- the deadline of a waddr or barwait that a save kept (R250) -/
  deadline : Option Nat
  /-- lanes of an unfinished tspawn already accepted (R142) -/
  spawned : Nat
  wait : Wait
  /-- the words of the instruction last fetched (IWORDS of R248) -/
  words : List W32
  /-- issue cycle of the present instruction, earliest cycle of the next, instructions issued (R327) -/
  cycle : Nat
  next : Nat
  issued : Nat
  /-- in the partition's active set (R120); since this stamp there, or, of a pending wave, seen ready (0: not yet) -/
  active : Bool
  since : Nat
  /-- R120: the order in which it became resident; the cycle of its last turn, or at which it became resident -/
  age : Nat
  turnAt : Nat
  /-- R126: the cycles by which bank conflicts delay the operands of the present instruction -/
  conflict : Nat
  /-- the release of its present access is complete toward the fabric (R213, R218) -/
  fenced : Bool
  /-- R260: an instruction has issued since the last debugger resume; skip 0x16 and 0x17 once -/
  stepped : Bool
  skip : Bool
  mesh : MeshOut
  /-- when its mxacq was first issued, while it waits for the array (R128) -/
  mxStamp : Option Nat
  /-- it has executed temit (R286) -/
  emitted : Bool
  /-- its next access to host space ends with an error of PCI Express (R231) -/
  hostErr : Bool
  deriving DecidableEq, Repr

/-! ### Gangs -/

/-- A pipe bound to a gang (R95, R202). The state stands with the consumer; the producer names it. -/
structure Pipe where
  /-- the consumer gang and its pipe index -/
  consumer : Nat
  index : Nat
  /-- base scratchpad address and size in elements -/
  base : Nat
  size : Nat
  closed : Bool
  count : Nat
  head : Nat
  deriving DecidableEq, Repr

/-- Why the waves of a gang stop to be saved (R253). -/
inductive Evict where
  /-- its context is stopped (R85) -/
  | stop
  /-- displaced by priority (R118), or by a copy node of its die (R111) -/
  | prio
  /-- its time slice expired at this time (R119) -/
  | slice (time : W64)
  deriving DecidableEq, Repr

/-- A resident gang. -/
structure Gang where
  ctx : Nat
  launch : Nat
  /-- linear index of the gang or ensemble, and member (R95, R98) -/
  index : Nat
  member : Nat
  /-- number of the ensemble, shared by its member gangs, and how many they are -/
  ens : Nat
  members : Nat
  core : Nat
  /-- k4, SCRATCH and the bytes of the whole allocation with pipes (R113, R181) -/
  base : Nat
  scratch : Nat
  bytes : Nat
  /-- keys of the waves, in the order of their index; the indices of those that have exited -/
  waves : List Nat
  exited : List Nat
  pre : Bool
  rend : Bool
  task : Bool
  callable : Bool
  /-- front-end and payload slot of a mesh gang (R282) -/
  slot : Option (Nat × Nat)
  prio : Nat
  age : Nat
  /-- indices arrived in the present bar phase; n of the phase; a bar.cnt has arrived (R399) -/
  barArr : List Nat
  barN : Nat
  barCnt : Bool
  ebarArr : List Nat
  /-- its waves issue no more: it is to be saved -/
  evict : Option Evict
  /-- pipes 0 to 3 bound in, then 0 to 3 bound out -/
  pipes : List (Option Pipe)
  /-- CTX_TRAPEN as it was at the placement (R84) -/
  trapEn : BitVec 8
  deriving DecidableEq, Repr

/-! ### Cores -/

/-- An issued mma or mmas whose K-steps are not all done (R413, R414): the 64 rows of A as they stood at issue (R417), the
slice offset of B, the next K-step and their number, and the scale and special bytes of the 32 lanes (R300; empty for mma). -/
structure MxOp where
  wave : Nat
  ctx : Nat
  /-- where A lies: its address, and whether in the weight store -/
  aAt : Nat
  weights : Bool
  op : Nat
  fmt : Nat
  acc : Nat
  rows : List (List Byte)
  bOff : Nat
  k : Nat
  steps : Nat
  scales : List Nat
  specials : List Nat
  blk32 : Bool
  deriving DecidableEq, Repr

/-- A wave that waits for the matrix array (R127, R128): when it asked, and the accumulators and step count that it regains
where it was saved as owner. -/
structure MxWaiter where
  stamp : Nat
  wave : Nat
  image : Option (Sparse W32 × W32)
  deriving DecidableEq, Repr

/-- The matrix array of a core (R127, R410). -/
structure Matrix where
  owner : Option Nat
  /-- the gang whose accumulators these are -/
  gang : Option Nat
  fifo : List MxWaiter
  /-- cell (acc, r, c) at 4096 acc + 64 r + c -/
  acc : Sparse W32
  kcnt : W32
  ops : List MxOp
  deriving DecidableEq, Repr

/-- What a copy-queue entry that the engine has taken does. -/
inductive CopyStat where
  | run
  /-- held for free sectors (R43) -/
  | held
  /-- stopped on a fault until FQ_CIDX passes this index (R195) -/
  | stopped (index : Nat)
  /-- its put or message is sent and not answered (R72, R75) -/
  | sent
  /-- nothing more moves: it completes with this cause, 0 for none (R193, R195) -/
  | ended (cause : Nat)
  /-- complete, not yet passed by PROG -/
  | complete
  deriving DecidableEq, Repr

/-- A copy-queue entry in flight (R191 to R195); one whose read faulted has no words. -/
structure CopyEntry where
  ctx : Nat
  seq : Nat
  words : List W64
  /-- gang and index of the wave that appended it -/
  who : Option (Nat × Nat)
  /-- payload bytes done, and their running CRC-32C (R194); a message: 1 once its release is complete (R74) -/
  done : Nat
  crc : W32
  stat : CopyStat
  /-- a put: whether its origin window passed the checks at its issue (R71) -/
  origin : Bool := true
  deriving DecidableEq, Repr

/-- Who appended an entry of a copy queue that has not started (R191): context, sequence number, gang, index, kind; and for a put
whether its origin window passed the checks (R71). -/
structure CopyOwner where
  ctx : Nat
  seq : Nat
  gang : Nat
  idx : Nat
  kind : Nat
  origin : Bool := true
  deriving DecidableEq, Repr

/-- The B-region of a core (R185). -/
structure BRegion where
  holder : Option Nat
  zeroing : Bool
  /-- the gang that is given the region once it is zero -/
  next : Option Nat
  ctx : Nat
  gangIdx : Nat
  mem : Sparse Byte
  deriving DecidableEq, Repr

/-- Where a ray stands: it runs, is suspended at a call (R267, R277), is parked on a fault (R268), or has its result. -/
inductive RayStat where
  | run | called | parked | done
  deriving DecidableEq, Repr

/-- A ray given to the marcher or the traversal unit (R262, R275, R280). -/
structure Ray where
  id : Nat
  /-- the key of the wave that submitted it, its gang and index, the lane, and the operation of the wave that counts it -/
  wave : Nat
  gang : Nat
  idx : Nat
  lane : Nat
  op : Nat
  ctx : Nat
  prio : Nat
  /-- the bytes of its record -/
  record : List Byte
  /-- a march of the affine form (XA), a lantern ray -/
  affine : Bool
  lantern : Bool
  /-- the ray area address (R426) -/
  area : Nat
  /-- %rstate of the wave at submission (R266) -/
  rstate : W64
  stat : RayStat
  /-- what its accesses and calls have been answered so far, in order -/
  log : List (List Byte)
  /-- the handle of its last call, and the suspended state that it wrote (R277) -/
  handle : W32
  saved : List Byte
  /-- the result record, once done -/
  result : List Byte
  deriving DecidableEq, Repr

/-- A TLB entry (R235): context, virtual page base, log2 of the page size, and the leaf. -/
structure TlbEntry where
  ctx : Nat
  va : Nat
  log2 : Nat
  leaf : W64
  /-- D has been set through this entry (R234) -/
  dirty : Bool
  deriving DecidableEq, Repr

/-- A performance counter (R438). -/
structure PerfCtr where
  cfg : W64
  cnt : W64
  deriving DecidableEq, Repr

/-- A record of the core's callable gatherer (R267): the handle of the call, its entry and shape, payload and arrival. -/
structure CallRec where
  ctx : Nat
  handle : W32
  entry : W64
  named : Nat
  scr : Nat
  payload : List W32
  prio : Nat
  /-- the plinth cycle of the call (R144), and its timestamp -/
  arrived : Nat
  born : W64
  deriving DecidableEq, Repr

/-- A range of scratchpad given to a gang (R113, R181). -/
structure SpAlloc where
  base : Nat
  bytes : Nat
  gang : Nat
  deriving DecidableEq, Repr

/-- A way resize requested (R182): the count V, and the wave and operation that asked (none: the distributor, R114). -/
structure Resize where
  ways : Nat
  asker : Option (Nat × Nat)
  deriving DecidableEq, Repr

/-- A 128-byte line of a core's code buffer (R227, R405): context, virtual address and bytes. -/
structure CodeLine where
  ctx : Nat
  va : Nat
  bytes : List Byte
  deriving DecidableEq, Repr

/-- What L1 knows of a line by the virtual address through which it was accessed (R392): block, context, line address. -/
structure LineTag where
  block : Nat
  ctx : Nat
  va : Nat
  deriving DecidableEq, Repr

/-- A non-leaf entry of the levels L5 to L2 in a walk cache (R235): context, address, the low bit of the level's index, and the table
that the entry points to. -/
structure WalkEntry where
  ctx : Nat
  va : Nat
  lo : Nat
  table : Nat
  deriving DecidableEq, Repr

structure Core where
  checkEn : Bool
  /-- W of R179 -/
  ways : Nat
  resize : List Resize
  scratch : Sparse Byte
  allocs : List SpAlloc
  /-- the 256-byte blocks that L1 holds, oldest first (R190) -/
  l1 : List Nat
  l1Tags : List LineTag
  /-- the lines of the code buffer, oldest first (R405) -/
  codeBuf : List CodeLine
  breg : BRegion
  /-- words of the scratchpad and of the B-region whose check fails (R21) -/
  flaws : List Flaw
  polls : W32
  mx : Matrix
  copies : List CopyEntry
  copyOwners : List CopyOwner
  /-- the context whose entry the engine took last (R191) -/
  copyLast : Nat
  /-- the ballooning state the core observes (R42) -/
  blnObs : Nat
  /-- MCH_CFG: MAXSTEP, CELL -/
  maxStep : Nat
  cell : Nat
  rays : List Ray
  travRays : List Ray
  calls : List CallRec
  /-- microseconds of the time slice of each context (R119) -/
  slices : Sparse Nat
  /-- CTX_QUANT of each context as it was when its present quantum began (R84) -/
  quanta : Sparse Nat
  perf : Sparse PerfCtr
  tlb : List TlbEntry
  /-- the walk cache, oldest first (R235) -/
  walks : List WalkEntry
  deriving DecidableEq, Repr

/-- A core after reset. -/
def Core.reset : Core where
  checkEn := false
  ways := 0
  resize := []
  scratch := []
  allocs := []
  l1 := []
  l1Tags := []
  codeBuf := []
  breg := { holder := none, zeroing := false, next := none, ctx := 0, gangIdx := 0, mem := [] }
  flaws := []
  polls := 0
  mx := { owner := none, gang := none, fifo := [], acc := [], kcnt := 0, ops := [] }
  copies := []
  copyOwners := []
  copyLast := 63
  blnObs := 0
  maxStep := 4096
  cell := 4
  rays := []
  travRays := []
  calls := []
  slices := []
  quanta := []
  perf := []
  tlb := []
  walks := []

/-! ### Contexts (R83, R150, R258) -/

/-- The states of a context (R83). -/
inductive CtxState where
  | off | run | stopping | stopped | killing
  deriving DecidableEq, Repr

/-- A watchpoint register pair (R258). -/
structure Watch where
  addr : Nat
  log2 : Nat
  w : Bool
  r : Bool
  en : Bool
  deriving DecidableEq, Repr

/-- An instruction breakpoint (R258). -/
structure Break where
  addr : Nat
  en : Bool
  deriving DecidableEq, Repr

structure Ctx where
  state : CtxState
  root : Nat
  vec : W64
  save : Nat
  engblk : Nat
  fqBase : Nat
  fqLog2 : Nat
  codeBase : Nat
  codePages : Nat
  /-- CTX_FUTMODE: mode W rather than D (R199) -/
  futW : Bool
  trapEn : BitVec 8
  quant : Nat
  ceil : Nat
  ctqBase : Nat
  ctqLog2 : Nat
  ctqPidx : Nat
  ctqCidx : Nat
  attach : Bool
  attn : Bool
  halt : Bool
  step : Bool
  bp0 : Break
  bp1 : Break
  wp0 : Watch
  wp1 : Watch
  lastVld : Bool
  lastCause : Nat
  lastSrc : Nat
  lastSlot : Nat
  lastPart : Nat
  deriving DecidableEq, Repr

def Watch.reset : Watch where
  addr := 0
  log2 := 3
  w := false
  r := false
  en := false

/-- R83, R150, R258: a context after reset. -/
def Ctx.reset : Ctx where
  state := .off
  root := 0
  vec := 0
  save := 0
  engblk := 0
  fqBase := 0
  fqLog2 := 4
  codeBase := 0
  codePages := 0
  futW := false
  trapEn := 0
  quant := 0
  ceil := 7
  ctqBase := 0
  ctqLog2 := 0
  ctqPidx := 0
  ctqCidx := 0
  attach := false
  attn := false
  halt := false
  step := false
  bp0 := { addr := 0, en := false }
  bp1 := { addr := 0, en := false }
  wp0 := Watch.reset
  wp1 := Watch.reset
  lastVld := false
  lastCause := 0
  lastSrc := 0
  lastSlot := 0
  lastPart := 0

/-! ### Device, memory and host registers -/

/-- Power, clock, errors, timestamp, PCI Express (spec/01). -/
structure Dev where
  pwrWatts : W16
  pwrLim : W16
  cclk : Nat
  errCe : Sparse W64
  errUe : Sparse W64
  errTime : W64
  errSrc : W16
  errIdx : Nat
  errVld : Bool
  tsNow : W64
  tsRun : Bool
  /-- reference ticks of 1 ns since reset, and the core cycles that they held, in thousandths (R14, R26) -/
  ref : Nat
  milli : Nat
  /-- the host link is up; its rate, width and mode as Link Status reports them (R18) -/
  pcieUp : Bool
  pcieRate : BitVec 3
  pcieWidth : BitVec 5
  pcieFlit : Bool
  deriving DecidableEq, Repr

/-- R15, R14, R25, R27, R18. -/
def Dev.reset : Dev where
  pwrWatts := 0
  pwrLim := 2100
  cclk := 1700
  errCe := []
  errUe := []
  errTime := 0
  errSrc := 0
  errIdx := 0
  errVld := false
  tsNow := 0
  tsRun := true
  ref := 0
  milli := 0
  pcieUp := true
  pcieRate := 6
  pcieWidth := 16
  pcieFlit := true

/-- The metadata of a 256-byte block (R32). -/
structure BlockMeta where
  size : Nat
  codec : Nat
  cmp : Bool
  acc : Bool
  base : Nat
  deriving DecidableEq, Repr

/-- R33: a block never written. -/
def BlockMeta.reset : BlockMeta where
  size := 0
  codec := 0
  cmp := false
  acc := false
  base := 0

/-- An open write-combining entry (R37): its block, the 256-bit mask of bytes written, whether they changed the
content, and the C bit of the translation that last did (none: the block keeps its CMP, R34). -/
structure WcbEntry where
  block : Nat
  mask : Nat
  changed : Bool
  comp : Option Bool
  deriving DecidableEq, Repr

/-- A held writer (R43): a wave, or a copy entry of a core, with the cause, address and the time of refusal. -/
structure Held where
  wave : Option Nat
  core : Nat
  ctx : Nat
  seq : Nat
  cause : Nat
  addr : Nat
  time : W64
  posted : Bool
  deriving DecidableEq, Repr

/-- A lane of an ldfut that waits for its word (R199): the wave, its operation, the lane, the 8-byte word, and whether it is
held in the core's wait table (mode W) rather than at the slice. -/
structure Deferred where
  wave : Nat
  op : Nat
  lane : Nat
  word : Nat
  table : Bool
  /-- its page is strongly ordered (R209) -/
  so : Bool
  deriving DecidableEq, Repr

/-- Main memory and its controller (spec/02). -/
structure Mem where
  /-- nominal device memory: physical address and byte; an unlisted byte is 0 (R29, R33) -/
  cells : List Host.Cell
  /-- host memory by physical address; an unlisted byte reads 0 (log 3) -/
  host : List Host.Cell
  blocks : Sparse BlockMeta
  wcb : List WcbEntry
  /-- full bits of 8-byte words (R197) -/
  full : Sparse Bool
  /-- requests of ldfut that wait, oldest first -/
  deferred : List Deferred
  /-- words of nominal memory whose check fails at the networks, L2, an L1 or main memory (R21: places 2, 3, 4 and 8) -/
  flaws : List Flaw
  ratio : Nat
  lock : Bool
  reformat : Option Nat
  wcbWait : Nat
  sectTotal : Nat
  sectFree : Nat
  wmLow : Nat
  wmCrit : Nat
  wmHyst : Nat
  wmExh : Nat
  metaSel : W64
  stats : Sparse W64
  /-- closed entries whose block waits at its slice for free sectors (R44) -/
  waiting : List WcbEntry
  deriving DecidableEq, Repr

/-- R40, R57, R58. -/
def Mem.reset : Mem where
  cells := []
  host := []
  blocks := []
  wcb := []
  full := []
  deferred := []
  flaws := []
  ratio := 64
  lock := false
  reformat := none
  wcbWait := 256
  sectTotal := 8321499136
  sectFree := 8321499136
  wmLow := 8388608
  wmCrit := 1048576
  wmHyst := 262144
  wmExh := 8192
  metaSel := 0
  stats := []
  waiting := []

/-- The states of the ballooning engine (R49), by their codes. -/
inductive BlnState where
  | idle | sweep | csweep | cdonor | escalated
  deriving DecidableEq, Repr

/-- The ballooning engine (spec/02). -/
structure Bln where
  state : BlnState
  csweep : Nat
  eager : Bool
  en : Bool
  kick : Bool
  limitWritten : Bool
  cfgErr : Bool
  /-- blocks counted in CSWEEP; blocks swept since the last eager page; blocks swept in the present circuit, and
  whether a full circuit is complete -/
  crit : Nat
  swept : Nat
  circuit : Nat
  circuitDone : Bool
  donorBase : Nat
  donorLog2 : Nat
  donorLimit : Nat
  donorHead : Nat
  cursor : Nat
  held : List Held
  deriving DecidableEq, Repr

/-- R58 to R61. -/
def Bln.reset : Bln where
  state := .idle
  csweep := 16
  eager := false
  en := true
  kick := false
  limitWritten := false
  cfgErr := false
  crit := 0
  swept := 0
  circuit := 0
  circuitDone := false
  donorBase := 0
  donorLog2 := 4
  donorLimit := 0
  donorHead := 0
  cursor := 0
  held := []

/-- A Wafolo link (R78, R20). -/
structure Link where
  state : Nat
  peer : Nat
  dis : Bool
  replay : Nat
  /-- the failed transfers of the flit that is to come next, and whether it has been sent again since the last (R20) -/
  fails : Nat
  resent : Bool
  deriving DecidableEq, Repr

def Link.reset : Link where
  state := 0
  peer := 0
  dis := false
  replay := 0
  fails := 0
  resent := false

/-- A route (R78). -/
structure Route where
  v : Bool
  link : Nat
  deriving DecidableEq, Repr

/-- A put or message whose packets have been sent and that is not acknowledged (R63, R72, R75): its number, the copy
entry, the destination, the links that have carried it (none: the device itself), the origin window, whether it is a message, and whether every
packet has been sent. -/
structure FabWait where
  id : Nat
  core : Nat
  ctx : Nat
  seq : Nat
  node : Nat
  links : List Nat
  win : Nat
  msg : Bool
  whole : Bool
  deriving DecidableEq, Repr

/-- Whose release a fence is: a wave's, or that of a message of a copy queue (R74). -/
inductive FenceOf where
  | wave (key : Nat)
  | entry (core ctx seq : Nat)
  deriving DecidableEq, Repr

/-- A fence that waits (R66): its number, the copy entries that are still to be sent (core, context, sequence number), and
the links that owe a fence-done. -/
structure FabFence where
  id : Nat
  who : FenceOf
  pending : List (Nat × Nat × Nat)
  links : List Nat
  deriving DecidableEq, Repr

/-- The fabric (spec/03). -/
structure Fab where
  node : Nat
  nodeLock : Bool
  msgLo : Nat
  msgHi : Nat
  msgEn : Bool
  en : Bool
  cfgErr : Bool
  links : Sparse Link
  errTime : W64
  errSrc : Nat
  errNode : Nat
  errWin : Nat
  errReason : Nat
  errVld : Bool
  stats : Sparse W64
  /-- word j of window i at 8 i + j (R69) -/
  windows : Sparse W64
  routes : Sparse Route
  /-- puts and messages not acknowledged; fences that wait; packets emitted to links, oldest first; packets on their way
  to the device itself (R64); the number of the next put or message -/
  waits : List FabWait
  fences : List FabFence
  sent : List (Nat × FabPacket)
  loop : List FabPacket
  nextPut : Nat
  /-- puts that this device refuses from some packet on: source node and number (R73) -/
  refused : List (Nat × Nat)
  deriving DecidableEq, Repr

/-- R77, R78. -/
def Fab.reset : Fab where
  node := 0
  nodeLock := false
  msgLo := 0
  msgHi := 4095
  msgEn := false
  en := false
  cfgErr := false
  links := []
  errTime := 0
  errSrc := 0
  errNode := 0
  errWin := 0
  errReason := 0
  errVld := false
  stats := []
  windows := []
  routes := []
  waits := []
  fences := []
  sent := []
  loop := []
  nextPut := 0
  refused := []

/-- A message submitted or held in a message buffer (R89, R92). -/
structure Message where
  data : List Byte
  /-- R93: source kind 0 host, 1 fabric, 2 device; source number; fabric node or sending context -/
  kind : Nat
  src : Nat
  who : Nat
  /-- the sequence number of a device message's copy entry -/
  seq : Nat
  /-- timestamp of acceptance -/
  time : W64
  /-- the arming entry whose ring space it waits for -/
  entry : Option Nat
  deriving DecidableEq, Repr

/-- An arming entry (R90). -/
structure Arm where
  v : Bool
  one : Bool
  src : Nat
  ctx : Nat
  prio : Nat
  tag : Nat
  mask : Nat
  desc : W64
  ring : W64
  log2 : Nat
  widx : Nat
  outst : Nat
  fires : Nat
  deriving DecidableEq, Repr

def Arm.reset : Arm where
  v := false
  one := false
  src := 0
  ctx := 0
  prio := 0
  tag := 0
  mask := 0
  desc := 0
  ring := 0
  log2 := 0
  widx := 0
  outst := 0
  fires := 0

/-- The host interface (spec/04). -/
structure HostIf where
  cfgErr : Bool
  boot : Nat
  irqPend : BitVec 8
  irqEn : BitVec 8
  umqBase : Nat
  umqLog2 : Nat
  umqPidx : Nat
  umqCidx : Nat
  apBase : Nat
  /-- log2 of the bytes of BAR 4 (R79) -/
  bar4 : Nat
  stats : Sparse W64
  /-- the MSI-X table of BAR 0 (R79), by byte offset, but for the mask bits of its 8 vectors, which stand here with the pending bits -/
  msix : Sparse Byte
  msixMask : BitVec 8
  msixPend : BitVec 8
  /-- vectors sent to the host, oldest first, and the data of the last host read: what leaves the device -/
  sent : List Nat
  readData : List Byte
  /-- BAR 2 slots by byte offset (R88) -/
  slots : Sparse Byte
  /-- messages submitted and not yet accepted, and those in buffers -/
  queued : List Message
  bufs : List Message
  arms : Sparse Arm
  deriving DecidableEq, Repr

/-- R94, R88, R90. -/
def HostIf.reset : HostIf where
  cfgErr := false
  boot := 0
  irqPend := 0
  irqEn := 0
  umqBase := 0
  umqLog2 := 4
  umqPidx := 0
  umqCidx := 0
  apBase := 0
  bar4 := 28
  stats := []
  msix := []
  msixMask := 0xFF
  msixPend := 0
  sent := []
  readData := []
  slots := []
  queued := []
  bufs := []
  arms := []

/-- The Obsis controller (R100 to R103). -/
structure Obsis where
  /-- measurement registers 0 to 7, 64 bytes each -/
  meas : Sparse (List Byte)
  svn : Nat
  fw : Bool
  cmd : Sparse Byte
  resp : Sparse Byte
  /-- the command in execution and the result it will give -/
  busy : Bool
  pending : Option Nat
  result : Nat
  /-- the nanoseconds since the boot chain, or after a hot reset the firmware verified before, has begun to run; none: neither (R99) -/
  since : Option Nat
  deriving DecidableEq, Repr

/-! ### The scheduler, the task queue and the front-ends -/

/-- A saved gang (R253): its number and that of its ensemble, linear index, member, slot, the core it ran on and its scratchpad base
there, the time by which it queues (R118, R119), and what the gang slot has no place for: the wave that regains the accumulators in the slot, the stamps of
those that wait for the array (R128), the mesh output and TASKW mark
of each wave, by index, the live record of each wave that was saved in trap mode or stopped for the debugger, and the parked lanes of
each wave since whose parking an instruction has issued (R159) (log 40). -/
structure Saved where
  gang : Nat
  ens : Nat
  index : Nat
  member : Nat
  slot : Nat
  core : Nat
  base : Nat
  time : W64
  mxOwn : Option Nat
  mxStamps : List (Nat × Nat)
  meshes : List (MeshOut × Bool)
  live : List (Nat × List Byte)
  passed : List (List Nat)
  deriving DecidableEq, Repr

/-- What a descriptor says of one member of an ensemble (R95). -/
structure Member where
  entry : Nat
  named : Nat
  waves : Nat
  scratch : Nat
  deriving DecidableEq, Repr

/-- A pipe binding (R95). -/
structure Binding where
  prod : Nat
  prodPipe : Nat
  cons : Nat
  consPipe : Nat
  size : Nat
  deriving DecidableEq, Repr

/-- A valid launch descriptor (R95). -/
structure Desc where
  args : Nat
  doneAddr : Nat
  doneVal : W64
  /-- GRIDX x GRIDY x GRIDZ -/
  total : Nat
  prio : Nat
  pre : Bool
  task : Bool
  rend : Bool
  members : List Member
  pipes : List Binding
  deriving DecidableEq, Repr

/-- A record of the task queue (R134). -/
structure TaskRec where
  pay : List W32
  entry : W64
  key : W32
  orig : Bool
  scr : Nat
  pre : Bool
  named : Nat
  nwords : Nat
  rend : Bool
  prio : Nat
  oper : Nat
  folds : W32
  born : W64
  doneAddr : W64
  doneVal : W64
  /-- the arming entry of a descriptor record, if any -/
  arm : Option Nat
  ctx : Nat
  deriving DecidableEq, Repr

/-- A launch that carries task records: home 0 to 15, 16 the spill gatherer, 17 a callable wave (R145, R267). -/
structure TaskWave where
  home : Nat
  recs : List TaskRec
  deriving DecidableEq, Repr

/-- A launch queued or running (R95, R104, R105). -/
structure Launch where
  id : Nat
  ctx : Nat
  desc : Desc
  k1 : W64
  prio : Nat
  /-- enqueue time and source number (R104) -/
  time : W64
  src : Nat
  /-- next linear index not yet placed; gangs or ensembles resident -/
  nextIdx : Nat
  live : Nat
  saved : List Saved
  /-- the arming entry that fired it; the graph node that started it -/
  arm : Option Nat
  node : Option (Nat × Nat)
  tasks : Option TaskWave
  /-- the core and call handle of a callable wave, lane by lane (R267) -/
  rays : List (Nat × Nat)
  /-- mesh launches: front-end, payload slot, %rstate (R432) -/
  mesh : Option (Nat × Nat)
  rstate : W64
  deriving DecidableEq, Repr

/-- A node of a launch graph (R108): kind, successors, A, B, LEN, and the descriptor of a grid node. -/
structure GraphNode where
  kind : Nat
  succ : List Nat
  npred : Nat
  a : W64
  b : W64
  len : W64
  desc : Option Desc
  deriving DecidableEq, Repr

/-- How far a node of a graph is (R110): it waits for so many predecessors, its work goes on, its work is over, complete. -/
inductive NodeStat where
  | waits (n : Nat) | started | ended | complete
  deriving DecidableEq, Repr

/-- A launch graph accepted (R108 to R112). -/
structure Graph where
  id : Nat
  ctx : Nat
  doneAddr : Nat
  doneVal : W64
  nodes : List GraphNode
  stats : List NodeStat
  aborted : Bool
  deriving DecidableEq, Repr

/-- A reservation in progress (R116): the launch and index, the numbers of its gangs, their cores and scratchpad bases. -/
structure Reserve where
  launch : Nat
  index : Nat
  gangs : List (Nat × Nat × Nat)
  deriving DecidableEq, Repr

structure Sched where
  gsubAddr : W64
  gsubRes : Nat
  gsubCtx : Nat
  gsubGo : Bool
  stats : Sparse W64
  launches : List Launch
  graphs : List Graph
  reserve : Option Reserve
  nextGang : Nat
  nextLaunch : Nat
  nextEns : Nat
  nextRay : Nat
  nextAge : Nat
  deriving DecidableEq, Repr

/-- A record at a home: the launch that it was selected into, whether it is sealed, and the plinth cycle in which the spawn that
created it arrived (R138, R143). -/
structure HomeRec where
  rec_ : TaskRec
  sealed_ : Bool
  into : Option Nat
  arrived : Nat
  deriving DecidableEq, Repr

/-- What waits for a spawn: nothing; a lane of a wave (gang and index) in a tspawn; the token of a launch of a wave, by its
operation (R422). -/
inductive Spawner where
  | none
  | lane (gang idx lane : Nat)
  | launch (gang idx op : Nat)
  deriving DecidableEq, Repr

/-- A spawn on its way to a home, or waiting there (R131, R139), as the record that it would create; the source number of where it
comes from and the plinth cycle in which it arrived (R135). -/
structure Spawn where
  rec_ : TaskRec
  who : Spawner
  src : Nat
  came : Option Nat
  deriving DecidableEq, Repr

/-- A home: its records in the order of their spawns' arrival, its spawns, and the first plinth cycle whose gatherer step and the
first whose arrivals are still to come (R139). -/
structure Home where
  recs : List HomeRec
  spawns : List Spawn
  nextGather : Nat
  nextArrive : Nat
  deriving DecidableEq, Repr

def Home.reset : Home where
  recs := []
  spawns := []
  nextGather := 0
  nextArrive := 0

structure Ctq where
  qmax : Nat
  wait : Nat
  stats : Sparse W64
  homes : Sparse Home
  /-- the plinth cycle of each spill write in a context's ring, by context (R144) -/
  spills : Sparse (List Nat)
  /-- the first plinth cycle whose step of the spill gatherer is still to come -/
  spillNext : Nat
  deriving DecidableEq, Repr

/-- The invalidation registers and counters (R257). -/
structure Xlt where
  invVa : W64
  invPages : Nat
  invKind : Nat
  invCtx : Nat
  invGo : Bool
  stats : Sparse W64
  deriving DecidableEq, Repr

/-- A payload slot of a front-end (R282). -/
structure PaySlot where
  used : Bool
  ctx : Nat
  /-- the launch of the wave that filled it (R476) -/
  launch : Nat
  /-- mesh waves that have not exited, and primitives that have not left the candelabra stage -/
  waves : Nat
  prims : Nat
  payload : List Byte
  deriving DecidableEq, Repr

def PaySlot.reset : PaySlot where
  used := false
  ctx := 0
  launch := 0
  waves := 0
  prims := 0
  payload := []

/-- A covered sample: the addresses of its depth key and colour, and its key (R285, R475). -/
structure Sample where
  depth : Nat
  color : Nat
  key : Nat
  deriving DecidableEq, Repr

/-- A primitive on its way to the candelabra stage (R283, R284); once it has been counted and rasterised, the samples left. -/
structure MeshPrim where
  ctx : Nat
  slot : Nat
  rstate : W64
  prim : W32
  v0 : List W32
  v1 : List W32
  v2 : List W32
  todo : Option (List Sample)
  /-- a pre-emption of its launch has killed it; it replays on restore (R287) -/
  killed : Bool
  deriving DecidableEq, Repr

/-- A ray parked on a fault (R268): its number, context, cause, the page and whether it is needed for writing. -/
structure Parked where
  ray : Nat
  ctx : Nat
  cause : Nat
  page : Nat
  w : Bool
  deriving DecidableEq, Repr

/-- A fault batch of a rendering unit (R268): the unit (a marcher 0x100 + core, a traversal unit 0x200 + core, or a front-end
0x1C0 + f), the pages and whether they are needed for writing, the parked rays, and those that park until it is posted. -/
structure Batch where
  unit : Nat
  ctx : Nat
  cause : Nat
  pages : List (Nat × Bool)
  rays : List Nat
  later : List Parked
  /-- the fault-queue index once posted -/
  posted : Option Nat
  deriving DecidableEq, Repr

structure FrontEnd where
  stats : Sparse W64
  /-- the counters as they stood at the last bin boundary (R287) -/
  saved : Sparse W64
  slots : Sparse PaySlot
  prims : List MeshPrim
  deriving DecidableEq, Repr

def FrontEnd.reset : FrontEnd where
  stats := []
  saved := []
  slots := []
  prims := []

/-! ### The whole state -/

/-- An item of configuration space (R18, R79). -/
inductive ConfigItem where
  | vendorId | deviceId | revisionId | classCode | bar4Size | linkStatus
  deriving DecidableEq, Repr

/-- What the host does beside the steps of the opcode table: a read of `n` bytes of the message window (R88), a configuration read (R18,
R79, R99), and a new size of BAR 4, as its log2 (R79). -/
inductive HostAct where
  | readWindow (off n : Nat)
  | readConfig (x : ConfigItem)
  | resizeBar4 (log2 : Nat)
  deriving DecidableEq, Repr

/-- Which agent moves next (log 2). -/
inductive Turn where
  /-- this wave issues, at most `lag` cycles after the first at which it may, when a collector is free (R120); bank conflicts delay its
  operands by at most `conflict` cycles (R126) -/
  | issue (wave lag conflict : Nat)
  /-- another agent takes this step -/
  | event (i : Instr)
  /-- an upset falls on a protected word, or, at place 7, on register-file entry `addr` of the wave with key `unit` (R21, log 53) -/
  | upset (f : Flaw)
  /-- the host does what is no step of the opcode table -/
  | host (a : HostAct)
  deriving DecidableEq, Repr

structure State where
  dev : Dev
  mem : Mem
  bln : Bln
  fab : Fab
  host : HostIf
  obsis : Obsis
  ctxs : Sparse Ctx
  sched : Sched
  ctq : Ctq
  xlt : Xlt
  fes : Sparse FrontEnd
  /-- fault batches of rendering units, oldest first (R268) -/
  batches : List Batch
  cores : Sparse Core
  /-- weight stores of the dies (R186), by die times 2^31 plus offset -/
  wstore : Sparse Byte
  /-- words of the weight stores whose check fails (R21) -/
  storeFlaws : List Flaw
  /-- the resident gangs, by number, and the resident waves, by key -/
  gangs : List (Nat × Gang)
  waves : List (Nat × Wave)
  /-- the wave whose instruction exec runs (log 2) -/
  cur : Nat
  turns : List Turn
  /-- the first core cycle that a partition has not used to issue, and the cycle of its last rotation, by 4 x core + partition
  (R120, R122) -/
  clocks : Sparse Nat
  rotated : Sparse Nat
  /-- the point at which free values are read next (log 4) -/
  freeCtr : Nat
  deriving DecidableEq, Repr

/-- Why the machine stops. -/
inductive Fault where
  /-- raised by the meaning of a wave instruction when `cur` names no resident wave; safe: no step of the machine
  runs an instruction for a wave that is not there -/
  | noWave
  deriving DecidableEq, Repr

/-- Why the model gives no next state. -/
inductive Refusal where
  /-- raised by an arm of exec whose instruction has no meaning yet; safe -/
  | notModelled (mnemonic : String)
  deriving DecidableEq, Repr

/-- The answer of a meaning. -/
abbrev Res := Host.Outcome State Fault Refusal

/-- The machine right after reset. -/
def State.reset : State where
  dev := Dev.reset
  mem := Mem.reset
  bln := Bln.reset
  fab := Fab.reset
  host := HostIf.reset
  obsis :=
    { meas := [], svn := Config.svnAtReset, fw := false, cmd := [], resp := [], busy := false, pending := none,
      result := 0, since := some 0 }
  ctxs := []
  sched :=
    { gsubAddr := 0, gsubRes := 0, gsubCtx := 0, gsubGo := false, stats := [], launches := [], graphs := [],
      reserve := none, nextGang := 0, nextLaunch := 0, nextEns := 0, nextRay := 0, nextAge := 0 }
  ctq := { qmax := 4, wait := 1024, stats := [], homes := [], spills := [], spillNext := 0 }
  xlt := { invVa := 0, invPages := 0, invKind := 0, invCtx := 0, invGo := false, stats := [] }
  fes := []
  batches := []
  cores := []
  wstore := []
  storeFlaws := []
  gangs := []
  waves := []
  cur := 0
  turns := []
  clocks := []
  rotated := []
  freeCtr := 0

end Sys2Proof.Machine
end

