-- ==== Sys2Proof/Machine/Store.lean ====
section
/-!
DEFINITION. Sparse arrays: how the lists of State are read and written so that equal arrays are equal data. Keys rise
strictly and no entry equals the default.
-/
namespace Sys2Proof.Machine

/-- The value at an index: the default where nothing is listed. -/
def Sparse.get {α : Type} (d : α) : Sparse α → Nat → α
  | [], _ => d
  | (k, v) :: m, i => if i = k then v else if i < k then d else Sparse.get d m i

/-- Put an entry in front unless it equals the default. -/
def Sparse.cons {α : Type} [DecidableEq α] (d : α) (i : Nat) (v : α) (m : Sparse α) : Sparse α :=
  if v = d then m else (i, v) :: m

/-- The array with the value at an index replaced. -/
def Sparse.set {α : Type} [DecidableEq α] (d : α) : Sparse α → Nat → α → Sparse α
  | [], i, v => Sparse.cons d i v []
  | (k, w) :: m, i, v =>
    if i = k then Sparse.cons d i v m
    else if i < k then Sparse.cons d i v ((k, w) :: m)
    else (k, w) :: Sparse.set d m i v

/-- Whether every key of the list lies above the bound, keys rise strictly, and no entry is the default. -/
def Sparse.wfFrom {α : Type} [DecidableEq α] (d : α) : Nat → Sparse α → Bool
  | _, [] => true
  | lo, (k, v) :: m => decide (lo ≤ k) && decide (v ≠ d) && Sparse.wfFrom d (k + 1) m

/-- The canonical form. -/
def Sparse.wf {α : Type} [DecidableEq α] (d : α) (m : Sparse α) : Bool := Sparse.wfFrom d 0 m

/-- The entries of an array from an index on, and those before it. -/
def Sparse.from_ {α : Type} (m : Sparse α) (i : Nat) : Sparse α := m.dropWhile fun x => decide (x.1 < i)
def Sparse.upTo {α : Type} (m : Sparse α) (i : Nat) : Sparse α := m.takeWhile fun x => decide (x.1 < i)

/-- The bytes of entries that start at an address or after it. -/
def readOn : Nat → Nat → Sparse Byte → List Byte
  | 0, _, _ => []
  | n + 1, a, [] => 0 :: readOn n (a + 1) []
  | n + 1, a, (k, v) :: m => if k = a then v :: readOn n (a + 1) m else 0 :: readOn n (a + 1) ((k, v) :: m)

/-- `n` bytes from an address. -/
def readBytes (m : Sparse Byte) (a n : Nat) : List Byte := readOn n a (m.from_ a)

/-- The entries of bytes that stand at an address on: those that are not 0. -/
def entriesOf : Nat → List Byte → Sparse Byte
  | _, [] => []
  | a, b :: bs => if b = 0 then entriesOf (a + 1) bs else (a, b) :: entriesOf (a + 1) bs

/-- Bytes written from an address on. -/
def writeBytes (m : Sparse Byte) (a : Nat) (bs : List Byte) : Sparse Byte :=
  m.upTo a ++ entriesOf a bs ++ m.from_ (a + bs.length)

/-- A range of bytes set to 0. -/
def zeroRange (m : Sparse Byte) (a n : Nat) : Sparse Byte := m.filter fun (k, _) => !(decide (a ≤ k) && decide (k < a + n))

/-- The canonical form of a memory (addresses strictly rising, no listed byte 0). -/
def Memory.wf (m : List Host.Cell) : Bool := Sparse.wf (0 : Byte) m

/-- Look up in a list of numbered things. -/
def find? {α : Type} : List (Nat × α) → Nat → Option α
  | [], _ => none
  | (k, v) :: m, i => if i = k then some v else find? m i

/-- Replace or add in a list of numbered things. -/
def put {α : Type} : List (Nat × α) → Nat → α → List (Nat × α)
  | [], i, v => [(i, v)]
  | (k, w) :: m, i, v => if i = k then (i, v) :: m else (k, w) :: put m i v

/-- Remove from a list of numbered things. -/
def drop {α : Type} (m : List (Nat × α)) (i : Nat) : List (Nat × α) := m.filter fun (k, _) => k != i

/-- The element at an index, or the given one. -/
def at? {α : Type} (d : α) (l : List α) (i : Nat) : α := l.getD i d

/-- The list with one element replaced. -/
def setAt {α : Type} : List α → Nat → α → List α
  | [], _, _ => []
  | _ :: l, 0, v => v :: l
  | x :: l, i + 1, v => x :: setAt l i v

/-! ### Sub-arrays of the state -/

def State.core (s : State) (c : Nat) : Core := Sparse.get Core.reset s.cores c
def State.setCore (s : State) (c : Nat) (v : Core) : State := { s with cores := Sparse.set Core.reset s.cores c v }
def State.ctx (s : State) (c : Nat) : Ctx := Sparse.get Ctx.reset s.ctxs c
def State.setCtx (s : State) (c : Nat) (v : Ctx) : State := { s with ctxs := Sparse.set Ctx.reset s.ctxs c v }
def State.wave? (s : State) (w : Nat) : Option Wave := find? s.waves w
def State.setWave (s : State) (w : Nat) (v : Wave) : State := { s with waves := put s.waves w v }
def State.dropWave (s : State) (w : Nat) : State := { s with waves := drop s.waves w }
def State.gang? (s : State) (g : Nat) : Option Gang := find? s.gangs g
def State.setGang (s : State) (g : Nat) (v : Gang) : State := { s with gangs := put s.gangs g v }
def State.dropGang (s : State) (g : Nat) : State := { s with gangs := drop s.gangs g }

/-- A change to one core. -/
def State.onCore (s : State) (c : Nat) (f : Core → Core) : State := s.setCore c (f (s.core c))
/-- A change to every core that differs from reset. -/
def State.eachCore (s : State) (f : Nat → Core → Core) : State := s.cores.foldl (fun s (k, _) => s.onCore k (f k)) s
/-- A change to one context. -/
def State.onCtx (s : State) (c : Nat) (f : Ctx → Ctx) : State := s.setCtx c (f (s.ctx c))
/-- A change to one wave, if it is resident. -/
def State.onWave (s : State) (w : Nat) (f : Wave → Wave) : State :=
  match s.wave? w with
  | some v => s.setWave w (f v)
  | none => s
/-- A change to one gang, if it is resident. -/
def State.onGang (s : State) (g : Nat) (f : Gang → Gang) : State :=
  match s.gang? g with
  | some v => s.setGang g (f v)
  | none => s

/-- The core of a wave key, its partition and its slot. -/
def keyCore (w : Nat) : Nat := w / 128
def keyPart (w : Nat) : Nat := w / 32 % 4
def keySlot (w : Nat) : Nat := w % 32

/-- The next free value and the state that has used it (log 4). -/
def State.fresh (s : State) : Nat × State := (s.freeCtr, { s with freeCtr := s.freeCtr + 1 })

/-- The present timestamp. -/
def State.now (s : State) : Nat := s.dev.tsNow.toNat
/-- The present plinth cycle, of 1.6 GHz (R13). -/
def State.plinth (s : State) : Nat := s.dev.ref * 8 / 5

end Sys2Proof.Machine
end

