-- ==== Sys2Proof/Machine/Flags.lean ====
section
/-!
DEFINITION. The sticky flags of a wave and their domains: spec/10 R241, R244 and spec/12 R311.
-/
namespace Sys2Proof.Machine

/-- The domains of R241. -/
def domF32 : Nat := 0
def domPk : Nat := 1
def domNarrow : Nat := 2
def domInt : Nat := 3

/-- R244: the domain mask of a flag. -/
def domMask (domains : BitVec 32) (i : Nat) : Nat := bits domains.toNat (4 * i) 4

/-- R244: the domain masks after flags `f` are set in a domain. -/
def setDomains (domains : BitVec 32) (f : Flg) (dom : Nat) : BitVec 32 :=
  (List.range 8).foldl (fun d i => if bit f.toNat i then d ||| BitVec.ofNat 32 (2 ^ (4 * i + dom)) else d) domains

/-- R244: an instruction sets flags in a domain; what is set stays set (R311). -/
def Wave.setFlags (w : Wave) (f : Flg) (dom : Nat) : Wave :=
  { w with flags := w.flags ||| f, domains := setDomains w.domains f dom }

/-- R244: the domain masks after the flags in `keep` alone remain. -/
def keepDomains (domains : BitVec 32) (keep : BitVec 8) : BitVec 32 :=
  (List.range 8).foldl (fun d i => if bit keep.toNat i then d else d &&& ~~~(BitVec.ofNat 32 (15 * 2 ^ (4 * i)))) domains

/-- R244: wrsp %flags: a cleared flag loses its mask, a set one keeps it. -/
def Wave.writeFlags (w : Wave) (v : BitVec 8) : Wave :=
  { w with flags := v, domains := keepDomains w.domains v }

/-- R245: the lowest flag that is set and enabled. -/
def lowestEnabled (flags trapEn : BitVec 8) : Option Nat :=
  (List.range 8).find? fun i => bit flags.toNat i && bit trapEn.toNat i

/-- R245: the lowest domain of a mask, 0 for an empty one. -/
def lowestDomain (m : Nat) : Nat := ((List.range 4).find? fun d => bit m d).getD 0

/-- R241: the arithmetic cause of a flag in a domain. -/
def arithCause (flag dom : Nat) : Nat := 0x20 + 4 * flag + dom

end Sys2Proof.Machine
end

