-- ==== Sys2Proof/Machine/Operands.lean ====
section
/-!
DEFINITION. The lanes of a wave, its operands and its results: spec/07 R153 to R175, spec/13 R318 to R322, R327.
-/
namespace Sys2Proof.Machine

/-! ### Lanes and the issue address (R153 to R161) -/

/-- The %pcv entry of a retired lane (R153). -/
def retiredPc : Nat := 2 ^ 48 - 1

def Lane.retired (l : Lane) : Bool := l.pc = retiredPc
/-- R154. -/
def Lane.live (l : Lane) : Bool := !l.retired && l.parked.isNone
def Lane.isParked (l : Lane) : Bool := !l.retired && l.parked.isSome

/-- A lane with nothing in it, for totality of list access. -/
def Lane.empty : Lane where
  pc := retiredPc
  parked := none
  shelf := []
  named := []
  preds := []
  ret := []
  task := []

def Wave.lane (w : Wave) (l : Nat) : Lane := at? Lane.empty w.lanes l
def Wave.setLane (w : Wave) (l : Nat) (v : Lane) : Wave := { w with lanes := setAt w.lanes l v }
def Wave.onLane (w : Wave) (l : Nat) (f : Lane → Lane) : Wave := w.setLane l (f (w.lane l))
/-- A change to the lanes of a list. -/
def Wave.onLanes (w : Wave) (ls : List Nat) (f : Nat → Lane → Lane) : Wave :=
  { w with lanes := w.lanes.zipIdx.map fun (x, i) => if ls.contains i then f i x else x }

/-- The lane numbers 0 to 31. -/
def laneIds : List Nat := List.range 32

def Wave.liveLanes (w : Wave) : List Nat := laneIds.filter fun l => (w.lane l).live
def Wave.parkedLanes (w : Wave) : List Nat := laneIds.filter fun l => (w.lane l).isParked
def Wave.heldLanes (w : Wave) : List Nat := laneIds.filter fun l => !(w.lane l).retired

/-- The smallest of a list of numbers. -/
def minOf : List Nat → Option Nat
  | [] => none
  | x :: xs => match minOf xs with | none => some x | some y => some (min x y)

/-- R155: the issue address; none when no lane is live. -/
def Wave.issuePc (w : Wave) : Option Nat := minOf (w.liveLanes.map fun l => (w.lane l).pc)

/-- R159: whether an instruction has issued since a parked lane was parked. -/
def Wave.hasPassed (w : Wave) (l : Nat) : Bool := (w.lane l).parked = some true
/-- R159: the parked lanes are released, evaluated before an issue. -/
def Wave.unpark (w : Wave) : Wave :=
  match w.issuePc with
  | none => { w with lanes := w.lanes.map fun l => { l with parked := none } }
  | some m => { w with lanes := w.lanes.map fun l =>
      if l.parked = some true && decide (l.pc < m) then { l with parked := none } else l }

/-- A set of lanes as a mask. -/
def maskOfLanes (ls : List Nat) : Nat := ls.foldl (fun m l => m ||| 2 ^ l) 0
/-- The lanes of a mask. -/
def lanesOfMask (m : Nat) : List Nat := laneIds.filter fun l => bit m l

/-! ### Values and when they arrive (R174, R175, R327) -/

/-- Whether a value has arrived. -/
def Wave.ready (w : Wave) : Due → Bool
  | .now => true
  | .at c => decide (c ≤ w.cycle)
  | .op id => !(w.ops.any fun o => o.id = id)

/-- R175: of values newest first, each with its time, the newest that has arrived; else the oldest contents. -/
def Wave.newest {α : Type} (w : Wave) (old : α) : List (α × Due) → α
  | [] => old
  | (v, d) :: l => if w.ready d then v else w.newest old l

/-- R175: what a read returns. -/
def Wave.seen (w : Wave) (c : Cell) : W32 := w.newest c.old ((c.val, c.due) :: c.prior)
def Wave.see (w : Wave) (c : Cell) : Nat := (w.seen c).toNat
def Wave.seeP (w : Wave) (c : PCell) : Bool := w.newest c.old ((c.val, c.due) :: c.prior)
def Wave.seenK (w : Wave) (c : KCell) : W64 := w.newest c.old ((c.val, c.due) :: c.prior)
def Wave.seeK (w : Wave) (c : KCell) : Nat := (w.seenK c).toNat

/-- R171, R175: the values of a register that are still on their way: what a read of the next value may yet find. -/
def Wave.onWay {α : Type} (w : Wave) : List (α × Due) → List (α × Due)
  | [] => []
  | (v, d) :: l => if w.ready d then [] else (v, d) :: w.onWay l

def Cell.zero : Cell where
  val := 0
  old := 0
  due := .now
def PCell.zero : PCell where
  val := false
  old := false
  due := .now
def KCell.zero : KCell where
  val := 0
  old := 0
  due := .now

def Lane.shelfCell (l : Lane) (a : Nat) : Cell := at? Cell.zero l.shelf a
def Lane.namedCell (l : Lane) (r : Nat) : Cell := at? Cell.zero l.named r
def Lane.predCell (l : Lane) (d : Nat) : PCell := at? PCell.zero l.preds d
def Wave.kCell (w : Wave) (r : Nat) : KCell := at? KCell.zero w.k r

/-- The value of predicate depth `d` of a lane (R171). -/
def Wave.pred (w : Wave) (l d : Nat) : Bool := w.seeP ((w.lane l).predCell d)
/-- The 64 bits of a uniform register. -/
def Wave.kVal (w : Wave) (r : Nat) : Nat := w.seeK (w.kCell r)
/-- A named register of a lane. -/
def Wave.nVal (w : Wave) (l r : Nat) : Nat := w.see ((w.lane l).namedCell r)

/-- R175, R329: what a read of %flags or %rstate returns: before the value of a wrsp arrives, the previous contents. -/
def Wave.flagsSeen (w : Wave) : BitVec 8 := match w.flagsWas with | some (v, c) => if w.cycle < c then v else w.flags | none => w.flags
def Wave.rstateSeen (w : Wave) : W64 := match w.rstateWas with | some (v, c) => if w.cycle < c then v else w.rstate | none => w.rstate
/-- Whether the value of a wrsp has not arrived. -/
def Wave.flagsStale (w : Wave) : Bool := w.flagsWas.any fun x => decide (w.cycle < x.2)
def Wave.rstateStale (w : Wave) : Bool := w.rstateWas.any fun x => decide (w.cycle < x.2)

/-- R161: whether a lane passes the guard. -/
def Wave.passes (w : Wave) (g : Option Guard) (l : Nat) : Bool :=
  match g with
  | none => true
  | some g => w.pred l g.depth.toNat != g.neg

/-! ### Operand types and values (R318, R319, R365, R373, R382) -/

/-- How an operand is read. -/
inductive OpTy where
  | i32
  | i64
  | f32
  /-- packed FP16, or BF16 -/
  | pk (bf : Bool)
  | itv
  deriving DecidableEq, Repr

/-- Elements popped from a pipe for one instruction: lane and element (R172). -/
abbrev Popped := List (Nat × W32)

/-- The FP32 value of an integer. -/
def f32OfInt (v : Int) : Nat := (Fmt.f32.round .rn (XR.ofInt v)).v
/-- An integer in both elements of a packed word (R373). -/
def pkOfInt (bf : Bool) (v : Int) : Nat :=
  let e := ((if bf then Fmt.bf16 else Fmt.f16).round .rn (XR.ofInt v)).v
  e + 65536 * e

/-- The value of a constant code that stands for an integer: zero, one, all-ones (−1), IMM9. -/
def constVal (t : OpTy) (v : Int) : Nat :=
  match t with
  | .i32 => wrap v 32
  | .i64 => wrap v 64
  | .f32 => f32OfInt v
  | .pk bf => pkOfInt bf v
  | .itv => pair64 (f32OfInt v) (f32OfInt v)

/-- Whether the operand takes 64 bits. -/
def OpTy.wide : OpTy → Bool
  | .i64 | .itv => true
  | _ => false

/-- The value of an operand code in a lane. `pop` holds the elements that a pipe operand supplies. -/
def Wave.operand (w : Wave) (v : View) (t : OpTy) (pop : Popped) (l : Nat) (src : Src) : Nat :=
  match src with
  | .shelf a =>
    if t.wide then pair64 (w.see ((w.lane l).shelfCell a)) (w.see ((w.lane l).shelfCell (a + 1)))
    else w.see ((w.lane l).shelfCell a)
  | .named r =>
    if t.wide then pair64 (w.nVal l r) (w.nVal l (r + 1)) else w.nVal l r
  | .k r => if t.wide then w.kVal r else lo32 (w.kVal r)
  | .pipe q =>
    let e := ((find? pop l).getD 0).toNat
    if t.wide then pair64 e (Config.pipeHigh (w.issued + q)).toNat else e
  | .zero => constVal t 0
  | .one => constVal t 1
  | .ones => constVal t (-1)
  | .lit => let x := (v.lit.getD 0).toNat
            if t.wide then x else lo32 x
  | .imm9 => constVal t v.imm9
  | .lane => if t = .itv then constVal .itv l else l
  | .wave => if t = .itv then constVal .itv w.idx else w.idx
  | .reserved _ => 0

/-- When the parts of an operand arrive. -/
def Wave.operandDues (w : Wave) (t : OpTy) (l : Nat) (src : Src) : List Due :=
  match src with
  | .shelf a =>
    if t.wide then [((w.lane l).shelfCell a).due, ((w.lane l).shelfCell (a + 1)).due] else [((w.lane l).shelfCell a).due]
  | .named r =>
    if t.wide then [((w.lane l).namedCell r).due, ((w.lane l).namedCell (r + 1)).due] else [((w.lane l).namedCell r).due]
  | .k r => [(w.kCell r).due]
  | _ => []

/-- R21: how many register-file entries of an operand have lost their parity. -/
def Wave.operandFlips (w : Wave) (t : OpTy) (l : Nat) (src : Src) : Nat :=
  let n : Nat := if t.wide then 2 else 1
  match src with
  | .shelf a => ((List.range n).filter fun j => ((w.lane l).shelfCell (a + j)).flip).length
  | .named r => ((List.range n).filter fun j => ((w.lane l).namedCell (r + j)).flip).length
  | .k r => b2n (w.kCell r).flip
  | _ => 0

/-- R175: whether an operand names a value that has not arrived. -/
def Wave.stale (w : Wave) (t : OpTy) (l : Nat) (src : Src) : Bool :=
  (w.operandDues t l src).any fun d => !w.ready d

/-- `n` consecutive 32-bit registers from a shelf age or named register on. -/
def Wave.span (w : Wave) (l : Nat) (src : Src) (n : Nat) : List Nat :=
  (List.range n).map fun i =>
    match src with
    | .shelf a => w.see ((w.lane l).shelfCell (a + i))
    | .named r => w.nVal l (r + i)
    | _ => 0

def Wave.spanStale (w : Wave) (l : Nat) (src : Src) (n : Nat) : Bool :=
  (List.range n).any fun i =>
    match src with
    | .shelf a => !w.ready ((w.lane l).shelfCell (a + i)).due
    | .named r => !w.ready ((w.lane l).namedCell (r + i)).due
    | _ => false

/-! ### Results (R166 to R171, R320) -/

/-- R175: a cell that takes a new value; until it arrives a read finds what the cell gives by then. -/
def Wave.overCell (w : Wave) (due : Due) (c : Cell) (v : W32) : Cell :=
  { val := v, old := w.seen c, due := due, prior := w.onWay ((c.val, c.due) :: c.prior) }
def Wave.overPCell (w : Wave) (due : Due) (c : PCell) (v : Bool) : PCell :=
  { val := v, old := w.seeP c, due := due, prior := w.onWay ((c.val, c.due) :: c.prior) }
def Wave.overKCell (w : Wave) (due : Due) (c : KCell) (v : W64) : KCell :=
  { val := v, old := w.seenK c, due := due, prior := w.onWay ((c.val, c.due) :: c.prior) }

/-- R166, R175: push a word onto a shelf; the entry taken keeps what fell off until the value arrives. -/
def Wave.pushLane (w : Wave) (due : Due) (l : Lane) (v : W32) : Lane :=
  { l with shelf := w.overCell due (l.shelfCell 15) v :: l.shelf.take 15 }

/-- R168, R175: write a named register of a lane. -/
def Wave.nameLane (w : Wave) (due : Due) (l : Lane) (r : Nat) (v : W32) : Lane :=
  { l with named := setAt l.named r (w.overCell due (l.namedCell r) v) }

/-- R171: push a predicate. -/
def Wave.predLane (w : Wave) (due : Due) (l : Lane) (v : Bool) : Lane :=
  { l with preds := w.overPCell due (l.predCell 0) v :: l.preds.take 7 }

/-- The registers that a named destination gives to results in push order: the last pushed to the register itself,
the ones before it to the next registers (R167, R168, R350, R372, R429). -/
def Wave.nameResults (w : Wave) (due : Due) (l : Lane) (r : Nat) : List W32 → Lane
  | [] => l
  | v :: vs => Wave.nameResults w due (w.nameLane due l (r + vs.length) v) r vs

/-- The results of one lane, in push order. -/
def Wave.laneResult (w : Wave) (due : Due) (d : Dst) (l : Lane) (res : List W32) : Lane :=
  match d with
  | .shelf => res.foldl (w.pushLane due) l
  | .named r => w.nameResults due (res.foldl (w.pushLane due) l) r res
  | _ => l

/-- R169, R175: write a uniform register. -/
def Wave.setK (w : Wave) (due : Due) (r : Nat) (v : Nat) : Wave :=
  { w with k := setAt w.k r (w.overKCell due (w.kCell r) (BitVec.ofNat 64 v)) }

/-- R320: the 64 bits that results in push order give a uniform register. -/
def kValue (signed : Bool) : List W32 → Nat
  | [v] => if signed then wrap v.toInt 64 else v.toNat
  | [h, l] => pair64 l.toNat h.toNat
  | _ => 0

/-- The element that results in push order push to a pipe (R172). -/
def pipeValue (free : Nat) : List W32 → W32
  | [v] => v
  | [h, l] => Config.pipeElement (BitVec.ofNat 64 (pair64 l.toNat h.toNat)) free
  | _ => 0

end Sys2Proof.Machine
end

