-- ==== Sys2Proof/Machine/Memory.lean ====
section
/-!
DEFINITION. Physical memory: nominal memory stored in blocks of 256 bytes with their metadata (spec/02 R29 to R36),
the write-combining entries (R37 to R39), the checked writes (R42) and host memory (spec/10 R231). `cells` holds the
bytes as every reader sees them: a write is seen when it enters its combining entry (R38). The metadata change when
an entry closes.
-/
namespace Sys2Proof.Machine

/-- The first physical address of host memory (R231). -/
def hostBase : Nat := 0x10000000000

/-- The bytes of the nominal space (R29). -/
def Mem.nominal (m : Mem) : Nat := 0x100000000 * m.ratio

/-- R29, R231: whether an address lies in the hole. -/
def Mem.inHole (m : Mem) (pa : Nat) : Bool := decide (m.nominal ≤ pa) && decide (pa < hostBase)

def satAdd (v : W64) (n : Nat) : W64 := if v.toNat + n ≥ 2 ^ 64 then BitVec.allOnes 64 else v + BitVec.ofNat 64 n

/-- Add to a saturating counter of an array of counters (R5, R58). -/
def bump (m : Sparse W64) (i n : Nat) : Sparse W64 := Sparse.set 0 m i (satAdd (Sparse.get 0 m i) n)

/-- R58: the MEM_STAT counters, in the order of R56. -/
def Mem.stat (m : Mem) (i n : Nat) : Mem := { m with stats := bump m.stats i n }

def Mem.block (m : Mem) (b : Nat) : BlockMeta := Sparse.get BlockMeta.reset m.blocks b
def Mem.setBlock (m : Mem) (b : Nat) (v : BlockMeta) : Mem :=
  { m with blocks := Sparse.set BlockMeta.reset m.blocks b v }

/-- R36: an access that reaches the slice sets ACC. -/
def Mem.touch (m : Mem) (b : Nat) : Mem := m.setBlock b { m.block b with acc := true }

/-- The bytes of a block that are not zero in a given content of memory, and whether there are none. -/
def blockCells (cells : List Host.Cell) (b : Nat) : List Host.Cell :=
  Sparse.upTo (Sparse.from_ cells (256 * b)) (256 * b + 256)
def blockZero (cells : List Host.Cell) (b : Nat) : Bool := (blockCells cells b).isEmpty

/-- R33: the metadata that a content takes: SIZE 0 for zeros, 8 raw when not compressible, else a size from 1 to 8,
codec and placement that the spec leaves open. DESIGN CHOICE (log 77): a block of SIZE 0 has CODEC and BASE 0. -/
def encodeBlock (zero comp : Bool) (old : BlockMeta) (free : Nat) : BlockMeta :=
  if zero then { old with size := 0, codec := 0, cmp := comp, base := 0 }
  else if comp then
    let n := 1 + Config.compressedSize free % 8
    { old with size := n, codec := if n < 8 then 1 + Config.codec free % 15 else Config.codec free % 16, cmp := true,
               base := if n = old.size then old.base else Config.runBase free % 2 ^ 33 }
  else { old with size := 8, codec := 0, cmp := false, base := if old.size = 8 then old.base else Config.runBase free % 2 ^ 33 }

/-- The metadata of a block after a write that changed it (R34). -/
def State.newMeta (s : State) (b : Nat) (comp : Option Bool) : BlockMeta :=
  let old := s.mem.block b
  encodeBlock (blockZero s.mem.cells b) (comp.getD old.cmp) old s.freeCtr

/-- R35: give a block its new run: the free count falls by the growth. -/
def State.setRun (s : State) (b : Nat) (v : BlockMeta) : State :=
  let old := s.mem.block b
  let m := s.mem.setBlock b v
  { s with mem := { m with sectFree := m.sectFree + old.size - v.size }, freeCtr := s.freeCtr + 1 }

/-- R34, R44: the C bit under which a block's content is to be encoded: that of the write, or else of one that still waits. -/
def State.compOf (s : State) (b : Nat) (comp : Option Bool) : Option Bool :=
  comp.or ((s.mem.waiting.find? fun e => e.block = b).bind (·.comp))

/-- A block's content no longer waits for sectors. -/
def Mem.unwait (m : Mem) (b : Nat) : Mem := { m with waiting := m.waiting.filter fun e => e.block != b }

/-- R35, R44: a block whose content has changed takes its new encoding, or waits at its slice while there are too few free sectors.
DESIGN CHOICE (log 77): the run that the block gives back in the same step counts as free. -/
def State.fixBlock (s : State) (b : Nat) (comp : Option Bool) : State :=
  let comp := s.compOf b comp
  let s := { s with mem := s.mem.unwait b }
  let v := s.newMeta b comp
  if s.mem.sectFree + (s.mem.block b).size < v.size then
    { s with mem := { s.mem with waiting := s.mem.waiting ++ [{ block := b, mask := 0, changed := true, comp := comp }] } }
  else s.setRun b v

/-- R37: an entry closes: its block takes the encoding of its new content. -/
def State.closeEntry (s : State) (e : WcbEntry) (full : Bool) : State :=
  let s1 := { s with mem := ({ s.mem with wcb := s.mem.wcb.filter fun x => x.block != e.block }).stat (if full then 0 else 1) 1 }
  if e.changed then s1.fixBlock e.block e.comp else s1

/-- R37: a read or atomic that reaches a block closes its open entry. -/
def State.closeBlock (s : State) (b : Nat) : State :=
  match s.mem.wcb.find? fun e => e.block = b with
  | some e => s.closeEntry e false
  | none => s

/-- The blocks that `n` bytes from an address touch. -/
def blocksOf (pa n : Nat) : List Nat :=
  if n = 0 then [] else (List.range ((pa + n - 1) / 256 - pa / 256 + 1)).map (· + pa / 256)

/-- R36, R37: an access reaches a block at its slice: its open entry closes and ACC is set. -/
def State.reachBlock (s : State) (b : Nat) : State :=
  let s := s.closeBlock b
  { s with mem := s.mem.touch b }

/-- R37: the write-combining entries of a controller, of which there are 32 (R16), and the controller of a block. -/
def wcbCount : Nat := 32
def controllerOf (b : Nat) : Nat := Config.sliceOf b % 64 / 2

/-- R37: the entry that makes room for a new one: none while its controller has one that is free. -/
def Mem.evicted (m : Mem) (b : Nat) : Option WcbEntry :=
  if m.wcb.length < wcbCount then none
  else
    let l := m.wcb.filter fun e => controllerOf e.block = controllerOf b
    if l.length < wcbCount then none else l.head?

/-- The mask of `n` bytes from an address within a block. -/
def maskOf (pa n b : Nat) : Nat :=
  let lo := max pa (256 * b)
  let hi := min (pa + n) (256 * b + 256)
  (2 ^ (hi - lo) - 1) * 2 ^ (lo - 256 * b)

/-- R37, R39: what a write changes of one block enters that block's entry: the mask of its bytes, and whether it changed
the content. -/
def State.combine (s : State) (b mk : Nat) (changed : Bool) (comp : Option Bool) : State :=
  let s := { s with mem := s.mem.touch b }
  let (e, s) := match s.mem.wcb.find? fun e => e.block = b with
    | some e =>
      ({ e with mask := e.mask ||| mk, changed := e.changed || changed
                comp := if changed then comp.or e.comp else e.comp : WcbEntry }, s)
    | none =>
      let s := match s.mem.evicted b with | some o => s.closeEntry o false | none => s
      ({ block := b, mask := mk, changed := changed, comp := if changed then comp else none }, s)
  if e.mask = 2 ^ 256 - 1 then s.closeEntry e true
  else if s.mem.wcbWait = 0 then s.closeEntry e false
  else
    let open_ := s.mem.wcb.any (fun x => x.block = b)
    let l := if open_ then s.mem.wcb.map (fun x => if x.block = b then e else x) else s.mem.wcb ++ [e]
    { s with mem := { s.mem with wcb := l } }

/-- R190: a write of nominal blocks takes their lines out of every L1. -/
def State.dropLines (s : State) (bs : List Nat) : State :=
  if s.cores.any fun (_, c) => c.l1.any bs.contains then
    s.eachCore fun _ c => { c with l1 := c.l1.filter fun b => !bs.contains b }
  else s

/-- Bytes of nominal memory as they stand, without an access. -/
def State.peek (s : State) (pa n : Nat) : List Byte := readBytes s.mem.cells pa n

/-- Bytes of a physical address as they stand, without an access (R231). -/
def State.peekPhys (s : State) (pa n : Nat) : List Byte :=
  if pa < hostBase then readBytes s.mem.cells pa n else readBytes s.mem.host pa n

/-- A read of nominal or host memory: open entries of its blocks close and ACC is set, but of blocks that L1 answers (`hits`), which
reach no slice. -/
def State.readPhys (s : State) (pa n : Nat) (hits : List Nat := []) : List Byte × State :=
  if pa < hostBase then
    let s := ((blocksOf pa n).filter fun b => !hits.contains b).foldl State.reachBlock s
    (readBytes s.mem.cells pa n, s)
  else (readBytes s.mem.host pa n, s)

/-- R21, R17: the bytes that one check of a place protects (log 53 for place 2). -/
def wordBytes (place : Nat) : Nat :=
  match place with
  | 3 | 5 | 6 => 8
  | 4 | 7 => 4
  | _ => 32

/-- Whether `n` bytes from an address touch a protected word. -/
def Flaw.meets (f : Flaw) (a n : Nat) : Bool := decide (a < f.addr + wordBytes f.place) && decide (f.addr < a + n)

/-- A write to the scratchpad: a word of it that is overwritten whole passes its check again (R24). -/
def Core.write (c : Core) (a : Nat) (b : List Byte) : Core :=
  { c with
    scratch := writeBytes c.scratch a b
    flaws := c.flaws.filter fun f => !(f.place = 4 && decide (a ≤ f.addr) && decide (f.addr + 4 ≤ a + b.length)) }

/-- One part of a write: physical address, bytes and the C bit of its translation, if it has one. -/
structure WritePart where
  pa : Nat
  data : List Byte
  comp : Option Bool
  deriving DecidableEq, Repr

/-- The distinct blocks of nominal memory that parts write, ascending by first use. -/
def partBlocks (ps : List WritePart) : List Nat :=
  (ps.flatMap fun p => if p.pa < hostBase then blocksOf p.pa p.data.length else []).eraseDups

/-- The last of parts that changes a block's content, from what the cells hold. -/
def lastChange (b : Nat) : List WritePart → List Host.Cell → Option Bool → Option Bool
  | [], _, last => last
  | p :: ps, m, last =>
    let m' := writeBytes m p.pa p.data
    lastChange b ps m' (if blockCells m b == blockCells m' b then last else p.comp)

/-- R34: the C bit that the last part to change a block's content gives it. -/
def partComp (cells : List Host.Cell) (ps : List WritePart) (b : Nat) : Option Bool :=
  match ps.filter fun p => p.pa < hostBase && (blocksOf p.pa p.data.length).contains b with
  | [] => none
  | p :: qs => if qs.all fun q => q.comp = p.comp then p.comp else lastChange b (p :: qs) (blockCells cells b) none

/-- The bytes of a block that parts write, as a mask. -/
def partMask (ps : List WritePart) (b : Nat) : Nat :=
  ps.foldl (fun m p => if p.pa < hostBase && (blocksOf p.pa p.data.length).contains b then m ||| maskOf p.pa p.data.length b
    else m) 0

/-- R24: whether parts overwrite the whole of a protected word, or, of a word of L1 (R190), touch its line. -/
def coversFlaw (ps : List WritePart) (f : Flaw) : Bool :=
  let n := wordBytes f.place
  let m := partMask ps (f.addr / 256)
  if f.place = 4 then m != 0 else bits m (f.addr % 256) n = 2 ^ n - 1

/-- The bytes of parts put in place, in order; a word that they overwrite whole passes its check again. -/
def State.putParts (s : State) (ps : List WritePart) : State :=
  let m := ps.foldl (fun (m : Mem) p =>
    if p.pa < hostBase then { m with cells := writeBytes m.cells p.pa p.data }
    else { m with host := writeBytes m.host p.pa p.data }) s.mem
  { s with mem := { m with flaws := m.flaws.filter fun f => !coversFlaw ps f } }

/-- A write outside checking (R44): each block that it touches takes one entry (R37, R189). -/
def State.writeFree (s : State) (ps : List WritePart) : State :=
  let bs := partBlocks ps
  let s1 := (s.putParts ps).dropLines bs
  bs.foldl (fun s2 b =>
    s2.combine b (partMask ps b) (blockCells s.mem.cells b != blockCells s1.mem.cells b) (partComp s.mem.cells ps b)) s1

/-- R38: an atomic outside checking is performed at its slice, on the blocks as they are expanded there: no entry combines it. -/
def State.writeAtomic (s : State) (ps : List WritePart) : State :=
  let bs := partBlocks ps
  let s := bs.foldl State.reachBlock s
  let s1 := (s.putParts ps).dropLines bs
  bs.foldl (fun s2 b =>
    if blockCells s.mem.cells b == blockCells s1.mem.cells b then s2 else s2.fixBlock b (partComp s.mem.cells ps b)) s1

/-- A write of nominal or host memory outside checking. -/
def State.writePhys (s : State) (pa : Nat) (data : List Byte) (comp : Option Bool) : State :=
  s.writeFree [{ pa := pa, data := data, comp := comp }]

/-- R42: whether the core observes a state in which writes are checked. -/
def State.checks (s : State) (core : Nat) : Bool := decide (2 ≤ (s.core core).blnObs)

/-- R42: the open entries of the blocks that parts write are closed. -/
def State.closeParts (s : State) (ps : List WritePart) : State := (partBlocks ps).foldl State.closeBlock s

/-- R42: the state with a checked write performed and its blocks encoded, and the growth; their entries are closed. -/
def State.tryChecked (s : State) (ps : List WritePart) : Nat × State :=
  let s1 := (s.putParts ps).dropLines (partBlocks ps)
  (partBlocks ps).foldl (fun (g, s2) b =>
    let s2 := { s2 with mem := s2.mem.touch b }
    let same := (blockCells s.mem.cells b == blockCells s1.mem.cells b)
    if same then (g, s2)
    else
      let v := s2.newMeta b (s2.compOf b (partComp s.mem.cells ps b))
      (g + (v.size - (s2.mem.block b).size), State.setRun { s2 with mem := s2.mem.unwait b } b v)) (0, s1)

/-- The writes of one instruction, an atomic or not, or of an engine's block: outside checking, or tested as a whole (R42). None:
refused. -/
def State.writeParts (s : State) (checked atomic : Bool) (ps : List WritePart) : Option State :=
  if checked then
    let s := s.closeParts ps
    let (g, s1) := s.tryChecked ps
    if g = 0 || decide (s.mem.wmCrit + g < s.mem.sectFree) then some s1 else none
  else some (if atomic then s.writeAtomic ps else s.writeFree ps)

/-- The device writes `n` bytes of nominal memory: parts at offsets, and zeros between them. -/
def State.writeImage (s : State) (pa n : Nat) (parts : List (Nat × List Byte)) : State :=
  let bs := blocksOf pa n
  let cells := parts.foldl (fun m (o, b) => writeBytes m (pa + o) b) (zeroRange s.mem.cells pa n)
  let s1 := State.dropLines { s with mem := { s.mem with
    cells := cells
    flaws := s.mem.flaws.filter fun f => !(decide (pa ≤ f.addr) && decide (f.addr + wordBytes f.place ≤ pa + n)) } } bs
  bs.foldl (fun s2 b =>
    s2.combine b (maskOf pa n b) (blockCells s.mem.cells b != blockCells cells b) none) s1

/-- Little-endian numbers in physical memory. -/
def State.load (s : State) (pa n : Nat) : Nat × State :=
  let (b, s) := s.readPhys pa n
  (ofBytes b, s)
def State.store (s : State) (pa n v : Nat) : State := s.writePhys pa (toBytes n v) none
/-- R38: an atomic of the device on a number in memory leaves the value `v`. -/
def State.storeAtomic (s : State) (pa n v : Nat) : State := s.writeAtomic [{ pa := pa, data := toBytes n v, comp := none }]

/-- R36: the device reads what it has looked at without an access. -/
def State.readsAt (s : State) (pa n : Nat) : State := (s.readPhys pa n).2

end Sys2Proof.Machine
end

