-- ==== Sys2Proof/Machine/Checks.lean ====
section
/-!
DEFINITION. Interrupts (spec/04 R94, R79) and the checks of stored data (spec/01 R17, R21 to R25): what a check finds, counts and
leaves, and where reads meet words whose check fails.
-/
namespace Sys2Proof.Machine

/-- R94, R79: a pending bit rises; its vector is sent if it was clear and is enabled, or, while it is masked in the MSI-X table, stays
pending there (log 66). -/
def State.irq (s : State) (b : Nat) : State :=
  let h := s.host
  let up := !bit h.irqPend.toNat b && bit h.irqEn.toNat b
  let masked := bit h.msixMask.toNat b
  { s with host := { h with
    irqPend := h.irqPend ||| BitVec.ofNat 8 (2 ^ b)
    sent := if up && !masked then h.sent ++ [b] else h.sent
    msixPend := if up && masked then h.msixPend ||| BitVec.ofNat 8 (2 ^ b) else h.msixPend } }

/-- A number put into an ascending list without repeats. -/
def ascInsert (x : Nat) : List Nat → List Nat
  | [] => [x]
  | y :: l => if x < y then x :: y :: l else if x = y then y :: l else y :: ascInsert x l

/-- The distinct elements in ascending order. -/
def ascending (l : List Nat) : List Nat := l.foldr ascInsert []

/-- R21, R25: an uncorrectable error is counted and, where no record is present, recorded; interrupt 3 is raised. -/
def State.countUe (s : State) (place : Nat) (src : W16) : State :=
  let d := { s.dev with errUe := bump s.dev.errUe place 1 }
  let d := if d.errVld then d
    else { d with errVld := true, errTime := d.tsNow, errSrc := src, errIdx := place }
  { s with dev := d }.irq 3

/-- R21: corrected errors are counted at their place. -/
def State.countCe (s : State) (place n : Nat) : State := { s with dev := { s.dev with errCe := bump s.dev.errCe place n } }

/-- R17, R21: whether the check of a word finds an error that cannot be corrected: a burst is retried 4 times. -/
def Flaw.fatal (f : Flaw) : Bool :=
  match f.kind with
  | .single => false
  | .double => true
  | .burst n => decide (4 < n)

/-- R17, R21: what the check of a word counts. -/
def State.found (s : State) (f : Flaw) : State :=
  let s := match f.kind with
    | .single => s.countCe f.place 1
    | .double => s
    | .burst n => s.countCe f.place (min n 4)
  if f.fatal then s.countUe f.place f.src else s

/-- R17, R24: what is left after the check of a word: a corrected error and an error of a transfer are gone. -/
def Flaw.after (f : Flaw) : Option Flaw :=
  match f.kind with
  | .single => none
  | .double => if f.place = 2 then none else some f
  | .burst n => if n ≤ 5 then none else some { f with kind := .burst (n - 5) }

/-- The words of a list after those of another have been checked. -/
def afterChecks (l fs : List Flaw) : List Flaw := l.filterMap fun f => if fs.contains f then f.after else some f

/-- R24: the checks of words are counted, the lower source number first. -/
def State.checks_ (s : State) (fs : List Flaw) : State :=
  (ascending (fs.map fun f => f.src.toNat)).foldl (fun s n => (fs.filter fun f => f.src.toNat = n).foldl State.found s) s

/-- Words of nominal memory are checked. -/
def State.checkMem (s : State) (fs : List Flaw) : State :=
  if fs.isEmpty then s
  else
    let s := s.checks_ fs
    { s with mem := { s.mem with flaws := afterChecks s.mem.flaws fs } }

/-- Words of a core's scratchpad or B-region are checked. -/
def State.checkCore (s : State) (core : Nat) (fs : List Flaw) : State :=
  if fs.isEmpty then s else (s.checks_ fs).onCore core fun c => { c with flaws := afterChecks c.flaws fs }

/-- Words of the weight stores are checked. -/
def State.checkStore (s : State) (fs : List Flaw) : State :=
  if fs.isEmpty then s
  else
    let s := s.checks_ fs
    { s with storeFlaws := afterChecks s.storeFlaws fs }

/-- R21: the words of nominal memory whose check fails where `n` bytes are read: on their way to a core (place 2), in L2 and main memory
(places 3 and 8), or, of a line that the core's L1 answers from, in L1 (place 4). -/
def State.flawsAt (s : State) (core : Option Nat) (l1 : Bool) (pa n : Nat) : List Flaw :=
  s.mem.flaws.filter fun f => f.meets pa n &&
    (let held := l1 && (match core with | some c => (s.core c).l1.contains (f.addr / 256) | none => false)
     if f.place = 4 then held && core = some f.unit else !held && (f.place != 2 || core = some f.unit))

/-! ### Accesses of lanes -/

/-- One lane's access: lane, address, bytes. -/
structure LaneAcc where
  lane : Nat
  a : Nat
  n : Nat
  deriving DecidableEq, Repr

/-- A cause that one lane's part meets: its code, the lane, the address. -/
structure LaneCz where
  code : Nat
  lane : Nat
  a : Nat
  deriving DecidableEq, Repr

/-- R21, R181: the words of a core's scratchpad (place 4) or B-region (place 5) that accesses check; a write of a whole word checks
nothing. -/
def State.coreFlaws (s : State) (core place : Nat) (write : Bool) (l : List LaneAcc) : List Flaw :=
  (s.core core).flaws.filter fun f => f.place = place && l.any fun x =>
    f.meets x.a x.n && !(write && decide (x.a ≤ f.addr) && decide (f.addr + wordBytes place ≤ x.a + x.n))

/-- R21, R186: the words of a die's weight store that accesses check. -/
def State.dieFlaws (s : State) (die : Nat) (l : List LaneAcc) : List Flaw :=
  s.storeFlaws.filter fun f => f.unit = die && l.any fun x => f.meets (x.a % 2 ^ 31) x.n

/-- R23: the lanes of accesses beside global memory that consume an uncorrectable error. -/
def ueLocal (code : Nat) (l : List LaneAcc) (fs : List Flaw) : List LaneCz :=
  l.filterMap fun x => if fs.any fun f => f.fatal && f.meets x.a x.n then some ⟨code, x.lane, x.a⟩ else none

/-- R23, R24: reads of nominal memory that no wave stops at: their errors are counted. -/
def State.readChecked (s : State) (pa n : Nat) : List Byte × State :=
  (s.checkMem (if pa < hostBase then s.flawsAt none false pa n else [])).readPhys pa n

end Sys2Proof.Machine
end

