-- ==== Sys2Proof/Machine/Translate.lean ====
section
/-!
DEFINITION. Translation: spec/10 R229 to R236. A walk reads the tables of a context; a core's TLB keeps the leaves it
found, by context, at the sizes of R235, and forgets the oldest first (replacement is not architectural).
-/
namespace Sys2Proof.Machine

/-- What an access asks of a page besides its permissions (R197, R210): nothing; that of an ordinary load or store of an order; that
of an atomic of a wave or of a unit; that of the future forms. -/
inductive PageUse where
  | any
  | plain (order : Nat)
  | atomic
  | unitAtomic
  | future
  deriving DecidableEq, Repr

/-- How an access asks for translation: the access field of its causes (R241), whether it writes, whether it reads,
whether it fetches, and what it asks of the page. -/
structure Access where
  code : Nat
  w : Bool
  r : Bool
  x : Bool
  use : PageUse := .any
  deriving DecidableEq, Repr

def Access.fetch : Access := { code := 0, w := false, r := false, x := true }
def Access.read : Access := { code := 0, w := false, r := true, x := false }
def Access.write : Access := { code := 1, w := true, r := false, x := false }
def Access.atomic : Access := { code := 2, w := true, r := true, x := false, use := .atomic }
def Access.engRead : Access := { code := 3, w := false, r := true, x := false }
def Access.engWrite : Access := { code := 3, w := true, r := false, x := false, use := .plain 0 }
def Access.engAtomic : Access := { code := 3, w := true, r := true, x := false, use := .unitAtomic }
/-- The same access by an ordinary load or store of an order, or by a future form. -/
def Access.at (a : Access) (order : Nat) : Access := { a with use := .plain order }
def Access.future (a : Access) : Access := { a with use := .future }

/-- What a translation gives: the physical address and the leaf. -/
structure Xlated where
  pa : Nat
  leaf : Nat
  deriving DecidableEq, Repr

def Xlated.comp (x : Xlated) : Bool := bit x.leaf 8
def Xlated.fut (x : Xlated) : Bool := bit x.leaf 7
/-- 0 SO, 1 RC, 2 UN (R230). -/
def Xlated.ord (x : Xlated) : Nat := bits x.leaf 5 2
def Xlated.isHost (x : Xlated) : Bool := decide (hostBase ≤ x.pa)

/-- R229: bits 63:57 all equal bit 56. -/
def canonical (va : Nat) : Bool := bits va 57 7 = (if bit va 56 then 127 else 0)

/-- The levels of R229 from L5 down: low bit of the index, bits of the index, log2 of the table's alignment, leaf
allowed, non-leaf allowed. -/
def levels : List (Nat × Nat × Nat × Bool × Bool) :=
  [(48, 9, 12, false, true), (39, 9, 12, false, true), (30, 9, 12, true, true), (21, 9, 12, true, true),
   (16, 5, 8, true, true), (12, 4, 7, true, false)]

/-- Whether a physical range lies in the hole. -/
def Mem.rangeBad (m : Mem) (pa n : Nat) : Bool := m.inHole pa || m.inHole (pa + n - 1)

/-- The result of a walk: the leaf, the address of its entry and the log2 of the page size, or the memory kind. -/
inductive Walk where
  | leaf (e pa log2 : Nat)
  | bad (kind : Nat)
  deriving DecidableEq, Repr

/-- R230, R231: the format of a leaf at a level whose page has `lo` bits. -/
def leafBad (m : Mem) (e lo : Nat) : Bool :=
  let frame := bits e 12 40 * 4096
  bits e 52 5 != 0 || bit e 11 || bits e 5 2 = 3 || frame % 2 ^ lo != 0 || m.rangeBad frame (2 ^ lo)
    || (decide (hostBase ≤ frame) && (bit e 8 || bit e 7))

/-- R230: the format of an entry that points to a table. -/
def tableBad (m : Mem) (e al : Nat) : Bool :=
  let next := bits e 7 45 * 128
  bits e 52 5 != 0 || bits e 2 5 != 0 || next % 2 ^ al != 0 || m.rangeBad next (2 ^ al)

/-- R235: a non-leaf entry of the levels L5 to L2 joins a walk cache of 32. -/
def walkPut (l : List WalkEntry) (e : WalkEntry) : List WalkEntry :=
  let l := (l.filter fun x => !(x.ctx = e.ctx && x.va = e.va && x.lo = e.lo)) ++ [e]
  l.drop (l.length - 32)

/-- The walk cache of a core takes in the entry that points to a table. -/
def State.keepWalk (s : State) (core : Option Nat) (ctx va lo table : Nat) : State :=
  match core with
  | some c =>
    if lo < 21 then s
    else s.onCore c fun k => { k with walks := walkPut k.walks { ctx := ctx, va := alignDown va (2 ^ lo), lo := lo, table := table } }
  | none => s

/-- R229, R230: the walk, level by level; the table sits at `table`. The state changes by the reads (R36) and by the walk cache of
the core. -/
def walkFrom (core : Option Nat) (ctx va : Nat) : List (Nat × Nat × Nat × Bool × Bool) → Nat → State → Walk × State
  | [], _, s => (.bad 15, s)
  | (lo, n, _, leafOk, tabOk) :: rest, table, s =>
    let a := table + 8 * bits va lo n
    let fs := if a < hostBase then s.flawsAt none false a 8 else []
    let (e, s) := (s.checkMem fs).load a 8
    -- R23: an entry whose check fails ends the access with kind 8
    if fs.any Flaw.fatal then (.bad 8, s)
    else if !bit e 0 then (.bad 0, s)
    else if bit e 1 then
      (if !leafOk || leafBad s.mem e lo then .bad 15 else .leaf e a lo, s)
    else
      let al := match rest with | (_, _, al, _, _) :: _ => al | [] => 0
      if !tabOk || tableBad s.mem e al then (.bad 15, s)
      else walkFrom core ctx va rest (bits e 7 45 * 128) (s.keepWalk core ctx va lo (bits e 7 45 * 128))

/-- R235: the deepest level from which a walk cache lets a walk go on: the levels left, and the table. -/
def walkStart (l : List WalkEntry) (ctx va root : Nat) : List (Nat × Nat × Nat × Bool × Bool) × Nat :=
  let deepest := [21, 30, 39, 48].findSome? fun lo => l.find? fun e => e.ctx = ctx && e.lo = lo && e.va = alignDown va (2 ^ lo)
  match deepest with
  | some e => (levels.filter fun x => decide (x.1 < e.lo), e.table)
  | none => (levels, root)

/-- R229: the walk of a context's tables, for a core from where its walk cache lets it begin (R235); a root in the hole is a format
error. -/
def State.walk (s : State) (core : Option Nat) (ctx va : Nat) : Walk × State :=
  let root := (s.ctx ctx).root
  let s := { s with xlt := { s.xlt with stats := bump s.xlt.stats 0 1 } }
  let held := match core with | some c => (s.core c).walks | none => []
  let (ls, table) := walkStart held ctx va root
  if table = root && s.mem.rangeBad root 4096 then (.bad 15, s) else walkFrom core ctx va ls table s

/-- R233: the kind that a missing permission raises, if any. -/
def permKind (e : Nat) (a : Access) : Option Nat :=
  if a.x && !bit e 4 then some 2
  else if (a.r && !bit e 2) || (a.w && !bit e 3) then some 1
  else none

/-- R197, R210: the memory kind that a page raises against what an access asks of it: a store to an F page and an atomic there, an
ordered access and an atomic of a wave on a UN page, a future form on a page without F. -/
def Access.pageKind (a : Access) (e : Nat) : Option Nat :=
  let un := bits e 5 2 = 2
  match a.use with
  | .any => none
  | .plain order => if a.w && bit e 7 then some 3 else if order != 0 && un then some 14 else none
  | .atomic => if bit e 7 then some 3 else if un then some 14 else none
  | .unitAtomic => if bit e 7 then some 3 else none
  | .future => if bit e 7 then none else some 3

/-- R235: the entries a TLB has for a page size. -/
def tlbCap (log2 : Nat) : Nat := if log2 = 12 then 512 else if log2 = 16 then 256 else if log2 = 21 then 64 else 16

/-- A new entry displaces one of the same page and, when its class is full, the oldest of its class. -/
def tlbPut (t : List TlbEntry) (e : TlbEntry) : List TlbEntry :=
  let t := t.filter fun x => !(x.ctx = e.ctx && x.va = e.va && x.log2 = e.log2)
  let cls := t.filter fun x => x.log2 = e.log2
  let t := if cls.length ≥ tlbCap e.log2 then (match cls with | o :: _ => t.erase o | [] => t) else t
  t ++ [e]

def tlbFind (t : List TlbEntry) (ctx va : Nat) : Option TlbEntry :=
  t.find? fun x => x.ctx = ctx && alignDown va (2 ^ x.log2) = x.va

/-- R234: A, and D for a write, are set in the entry by an atomic OR. -/
def State.setAD (s : State) (a e : Nat) (w : Bool) : State :=
  let v := e ||| 0x200 ||| (if w then 0x400 else 0)
  if v = e then s else s.storeAtomic a 8 v

/-- R18, R231: an access to host space over a link that is down does not complete. -/
def State.reach (s : State) (x : Xlated) : Except Nat Xlated := if x.isHost && !s.dev.pcieUp then .error 13 else .ok x

/-- R229 to R235: translate one address for an access. `core` is none for an agent without a TLB. The answer is the
translation or the memory kind. Host space refuses atomics (R231) before A and D are set; a page that does not allow the access sets
neither and is not kept (R234). -/
def State.translate (s : State) (core : Option Nat) (ctx va : Nat) (a : Access) : Except Nat Xlated × State :=
  if !canonical va then (.error 11, s)
  else
    let hit := match core with
      | some c => tlbFind (s.core c).tlb ctx va
      | none => none
    let fresh (s : State) : Except Nat Xlated × State :=
      match s.walk core ctx va with
      | (.bad k, s) => (.error k, s)
      | (.leaf e pa lo, s) =>
        let frame := bits e 12 40 * 4096
        match permKind e a with
        | some k => (.error k, s)
        | none =>
          if a.r && a.w && decide (hostBase ≤ frame) then (.error 13, s)
          else if (a.pageKind e).isSome then (s.reach { pa := frame + va % 2 ^ lo, leaf := e }, s)
          else
            let s := s.setAD pa e a.w
            let t : TlbEntry :=
              { ctx := ctx, va := alignDown va (2 ^ lo), log2 := lo, leaf := BitVec.ofNat 64 e, dirty := a.w || bit e 10 }
            let s := match core with
              | some c => s.onCore c fun k => { k with tlb := tlbPut k.tlb t }
              | none => s
            (s.reach { pa := frame + va % 2 ^ lo, leaf := e }, s)
    match hit with
    | some t =>
      if a.w && !t.dirty && (a.pageKind t.leaf.toNat).isNone then fresh s
      else
        let e := t.leaf.toNat
        match permKind e a with
        | some k => (.error k, s)
        | none =>
          let pa := bits e 12 40 * 4096 + va % 2 ^ t.log2
          if a.r && a.w && decide (hostBase ≤ pa) then (.error 13, s)
          else (s.reach { pa := pa, leaf := e }, s)
    | none => fresh s

/-- The cause of a memory kind met by an access (R241); 0x76 for an atomic to host space is kind 13. -/
def memCause (kind : Nat) (a : Access) : Nat := 0x40 + 4 * kind + a.code

/-- A translated piece of an access: its physical place, its length and its leaf. -/
structure Piece where
  va : Nat
  x : Xlated
  n : Nat
  deriving DecidableEq, Repr

/-- R211, R232: the pieces of `n` bytes from an address, cut at 4 KiB pages (addresses modulo 2^64). -/
def pagePieces (va n : Nat) : List (Nat × Nat) :=
  let room := 4096 - va % 4096
  if n ≤ room then [(va % 2 ^ 64, n)] else [(va % 2 ^ 64, room), ((va + room) % 2 ^ 64, n - room)]

/-- R21: the words of nominal memory whose check fails where pieces are read, each once. -/
def State.flawsOf (s : State) (core : Option Nat) (l1 : Bool) (ps : List Piece) : List Flaw :=
  (ps.flatMap fun p => if p.x.isHost then [] else s.flawsAt core l1 p.x.pa p.n).eraseDups

/-- Translate every piece of one access of at most a page. The error carries the kind and the page address met. -/
def State.translatePieces (core : Option Nat) (ctx : Nat) (a : Access) :
    List (Nat × Nat) → State → Except (Nat × Nat) (List Piece) × State
  | [], s => (.ok [], s)
  | (va, n) :: rest, s =>
    match s.translate core ctx va a with
    | (.error k, s) => (.error (k, va), s)
    | (.ok x, s) =>
      match State.translatePieces core ctx a rest s with
      | (.error e, s) => (.error e, s)
      | (.ok ps, s) => (.ok ({ va := va, x := x, n := n } :: ps), s)

/-- The pieces of a longer range, page by page; `fuel` bounds the pages. -/
def rangePieces : Nat → Nat → Nat → List (Nat × Nat)
  | 0, _, _ => []
  | _, _, 0 => []
  | fuel + 1, va, n =>
    let room := 4096 - va % 4096
    if n ≤ room then [(va % 2 ^ 64, n)] else (va % 2 ^ 64, room) :: rangePieces fuel (va + room) (n - room)

/-- Read a virtual range for an agent; the error carries the kind and the address met. -/
def State.readVirt (s : State) (core : Option Nat) (ctx va n : Nat) (a : Access) :
    Except (Nat × Nat) (List Byte) × State :=
  match State.translatePieces core ctx a (rangePieces (n / 4096 + 2) va n) s with
  | (.error e, s) => (.error e, s)
  | (.ok ps, s) =>
    let fs := s.flawsOf core false ps
    let s := s.checkMem fs
    if fs.any Flaw.fatal then (.error (8, va), s)
    else
      let (bs, s) := ps.foldl (fun (acc, s) p =>
        let (b, s) := State.readPhys s p.x.pa p.n
        (acc ++ b, s)) (([] : List Byte), s)
      (.ok bs, s)

/-- Write a virtual range outside checking (R44). -/
def State.writeVirt (s : State) (core : Option Nat) (ctx va : Nat) (data : List Byte) (a : Access) :
    Except (Nat × Nat) Unit × State :=
  match State.translatePieces core ctx a (rangePieces (data.length / 4096 + 2) va data.length) s with
  | (.error e, s) => (.error e, s)
  | (.ok ps, s) =>
    let (_, s) := ps.foldl (fun (d, s) p =>
      ((d.drop p.n : List Byte), State.writePhys s p.x.pa (d.take p.n) (some p.x.comp))) (data, s)
    (.ok (), s)

end Sys2Proof.Machine
end

