-- ==== Sys2Proof/Machine/Ops.lean ====
section
/-!
DEFINITION. The shared operations of waves: interrupts and the host fault queue (spec/04 R94, spec/10 R240), the
wave record (R248, R250), taking an exception and returning from one (R242 to R247, R261, spec/17 R434), the outstanding
operations of a wave (spec/07 R174), and the issue of an instruction (spec/07 R155 to R161, spec/13 R327).
-/
namespace Sys2Proof.Machine

/-! ### Interrupts, counters, the host fault queue -/

/-- R438: an event of a core, counted by the counters that ask for it. -/
def State.perf (s : State) (core ctx event n : Nat) : State :=
  let c := s.core core
  if c.perf.isEmpty then s
  else s.setCore core { c with perf := c.perf.map fun (i, p) =>
    let on := bits p.cfg.toNat 0 8 = event && (!bit p.cfg.toNat 31 || bits p.cfg.toNat 32 6 = ctx)
    (i, if on then { p with cnt := p.cnt + BitVec.ofNat 64 n } else p) }

/-- The source number of a core (R28). -/
def coreSrc (core : Nat) : Nat := 0x100 + core

/-- R86: FQ_PIDX and FQ_CIDX of a context. -/
def State.fqPidx (s : State) (ctx : Nat) : Nat := ofBytes (s.peekPhys (s.ctx ctx).engblk 8)
def State.fqCidx (s : State) (ctx : Nat) : Nat := ofBytes (s.peekPhys ((s.ctx ctx).engblk + 8) 8)
/-- R239: whether the host fault queue is full. -/
def State.fqFull (s : State) (ctx : Nat) : Bool :=
  decide (2 ^ (s.ctx ctx).fqLog2 ≤ (s.fqPidx ctx + 2 ^ 64 - s.fqCidx ctx) % 2 ^ 64)

/-- A page of a fault entry: its virtual address and whether it is needed for writing. -/
abbrev FaultPage := Nat × Bool

/-- R240: the 64 bytes of a host fault-queue entry. -/
def faultEntry (time src cause origin info : Nat) (pages : List FaultPage) : List Byte :=
  let p0 := match pages with | (p, _) :: _ => p | [] => 0
  let wr := (pages.zipIdx.map fun ((_, w), i) => b2n w * 2 ^ i).foldl (· + ·) 0
  let deltas := (List.range 15).flatMap fun i =>
    match pages[i + 1]? with
    | some (p, _) => toBytes 2 (wrap (((p : Int) - p0) / 4096) 16)
    | none => toBytes 2 0
  toBytes 8 time ++ toBytes 2 src ++ toBytes 1 cause ++ toBytes 1 pages.length ++ toBytes 1 origin ++ toBytes 1 0
    ++ toBytes 2 wr ++ toBytes 8 info ++ toBytes 8 p0 ++ deltas ++ toBytes 2 0

/-- R240: write an entry, count FQ_PIDX up and raise interrupt 2. The queue is not full. -/
def State.postFault (s : State) (ctx : Nat) (e : List Byte) : State :=
  let c := s.ctx ctx
  let p := s.fqPidx ctx
  let s := s.writePhys (c.fqBase + 64 * (p % 2 ^ c.fqLog2)) e none
  (s.store c.engblk 8 (p + 1)).irq 2

/-! ### Outstanding operations (R174) -/

/-- R174: how many operations a token counts. -/
def Wave.tokenCount (w : Wave) (t : Nat) : Nat :=
  (w.ops.filter fun o => o.token = t + 1).length
    + ((w.carried.filter fun c => c.token = t).map (·.count)).foldl (· + ·) 0

/-- Whether a token is clear. -/
def Wave.tokenClear (w : Wave) (t : Nat) : Bool := w.tokenCount t = 0

/-- Operations that a stop must wait for (R246, R253): everything but arrivals that come at once and copy entries,
which R254 carries. -/
def Wave.busy (w : Wave) : Bool :=
  w.ops.any fun o => match o.kind with
    | .matrix | .rays _ | .future _ | .resize => true
    | _ => false

/-- The next number of an operation of a wave. -/
def Wave.nextOp (w : Wave) : Nat := (w.ops.map fun o => o.id + 1).foldl max w.issued

/-! ### The wave record (R248, R250, R254) -/

/-- R249: the physical address of a wave's live record. -/
def State.liveRecord (s : State) (ctx key : Nat) : Nat := (s.ctx ctx).save + 0x100000 + 24576 * key
/-- R249: VBASE. -/
def State.vbase (s : State) (ctx : Nat) : Nat := ofBytes (s.peekPhys (s.ctx ctx).save 8)

/-- What a trap record says (R248). -/
structure TrapRec where
  cause : Nat
  lane : Nat
  mask : Nat
  iaddr : Nat
  maddr : Nat
  info : Nat
  /-- the bytes by which the resume point lies after the instruction (R247, R260) -/
  adv : Nat
  /-- a tfence delivers it: it is taken from what the wave holds pending as the handler starts (R245) -/
  pending : Bool := false
  deriving DecidableEq, Repr

/-- R248: the trap record. -/
def trapBytes (src time : Nat) (words : List W32) (t : TrapRec) : List Byte :=
  toBytes 1 t.cause ++ toBytes 1 t.lane ++ toBytes 2 src ++ toBytes 4 t.mask ++ toBytes 8 t.iaddr ++ toBytes 8 t.maddr
    ++ toBytes 8 time ++ toBytes 8 t.info
    ++ ((words.flatMap fun (w : W32) => toBytes 4 w.toNat) ++ List.replicate 24 0).take 24 ++ List.replicate 64 0

/-- A column of 4-byte values, one for each lane. -/
def laneWords (f : Nat → Nat) : List Byte := laneIds.flatMap fun l => toBytes 4 (f l)
def laneDwords (f : Nat → Nat) : List Byte := laneIds.flatMap fun l => toBytes 8 (f l)

/-- R254: what the record keeps of a token's copy-queue appends. -/
def Wave.carryOf (w : Wave) (t : Nat) : Option Carried :=
  let live := w.ops.filterMap fun o => if o.token = t + 1 then
      (match o.kind with | .copy c q => some (c, q) | _ => none) else none
  let old := w.carried.filter fun c => c.token = t
  match live, old with
  | [], [] => none
  | [], c :: _ => some c
  | (c, q) :: rest, old =>
    some { token := t, core := c, seq := rest.foldl (fun m x => max m x.2) q
           count := live.length + (old.map (·.count)).foldl (· + ·) 0 }

/-- R250: the parts of a wave record, each at its offset. -/
def Wave.record (w : Wave) (now : Nat) (trap : List Byte) : List (Nat × List Byte) :=
  let head := 2 ^ 63 + b2n w.trapMode * 2 ^ 62 + b2n w.fltPend * 2 ^ 61 + b2n w.dbgHalt * 2 ^ 60 + w.n * 256 + w.idx
  [ (0x0000, toBytes 8 head), (0x0008, toBytes 8 now), (0x0010, toBytes 4 w.flags.toNat),
    (0x0014, toBytes 4 w.domains.toNat), (0x0018, toBytes 4 (maskOfLanes w.liveLanes)),
    (0x001C, toBytes 4 (maskOfLanes w.parkedLanes)), (0x0020, toBytes 4 w.spawned), (0x0024, toBytes 4 w.asyncs.length),
    (0x0028, toBytes 8 (w.deadline.getD 0)), (0x0030, toBytes 8 w.rstate.toNat),
    (0x0040, ((w.asyncs.take 4).flatMap fun (c, q) => toBytes 2 c ++ toBytes 6 q)),
    (0x0060, laneIds.map fun l => BitVec.ofNat 8 (w.lane l).ret.length), (0x0080, trap),
    (0x0100, laneDwords fun l => (w.lane l).pc),
    (0x0200, (List.range 32).flatMap fun r => toBytes 8 (w.kVal r)),
    (0x0300, laneIds.map fun l => BitVec.ofNat 8
      (((List.range 8).map fun d => b2n (w.pred l d) * 2 ^ d).foldl (· + ·) 0)) ]
  ++ (List.range 16).map (fun a => (0x0400 + 128 * a, laneWords fun l => w.see ((w.lane l).shelfCell a)))
  ++ (List.range 32).map (fun j => (0x0C00 + 256 * j, laneDwords fun l => at? 0 (w.lane l).ret.reverse j))
  ++ (List.range (min w.n 64)).map (fun r => (0x2C00 + 128 * r, laneWords fun l => w.nVal l r))
  ++ laneIds.map (fun l => (0x4C00 + 128 * l, (w.lane l).task.take 128))
  ++ (List.range 6).map (fun t => (0x5C00 + 16 * t, match w.carryOf t with
      | some c => toBytes 8 c.seq ++ toBytes 2 c.core ++ toBytes 1 c.count
      | none => []))

/-- R250: write a wave record; bytes not listed are zero. -/
def State.writeRecord (s : State) (pa : Nat) (w : Wave) (trap : List Byte) : State := s.writeImage pa 24576 (w.record s.now trap)

/-- A number in a list of bytes. -/
def numAt (bs : List Byte) (o n : Nat) : Nat := ofBytes ((bs.drop o).take n)

/-- The code address of a %pcv offset (R153). -/
def State.codeAddr (s : State) (ctx pc : Nat) : Nat := ((s.ctx ctx).codeBase + pc) % 2 ^ 64
/-- The offset of a code address. -/
def State.codeOff (s : State) (ctx addr : Nat) : Nat := (addr + 2 ^ 64 - (s.ctx ctx).codeBase) % 2 ^ 64 % 2 ^ 48

/-! ### The save area: forwarding (R256) and gang slots (R249) -/

/-- R256: the valid entries of a context's forwarding table: OLD, bytes, NEW. -/
def State.forwards (s : State) (ctx : Nat) : List (Nat × Nat × Nat) :=
  let t := s.peekPhys ((s.ctx ctx).save + 0x100) 512
  (List.range 16).filterMap fun e =>
    let o := 32 * e
    if bit (numAt t (o + 24) 8) 0 then some (numAt t o 8, 4096 * numAt t (o + 8) 8, numAt t (o + 16) 8) else none

/-- R256: a code address forwarded once, by the lowest-numbered entry that matches. -/
def State.forward (s : State) (ctx a : Nat) : Nat :=
  match (s.forwards ctx).find? fun (old, n, _) => decide (old ≤ a) && decide (a < old + n) with
  | some (old, _, new) => (new + (a - old)) % 2 ^ 64
  | none => a

/-- R256: a %pcv offset forwarded. -/
def State.forwardOff (s : State) (ctx off : Nat) : Nat :=
  if off = retiredPc then off else s.codeOff ctx (s.forward ctx (s.codeAddr ctx off))

/-- R249: a slot is taken or given back: its bit and SAVED. -/
def State.markSlot (s : State) (ctx slot : Nat) (on : Bool) : State :=
  let a := (s.ctx ctx).save
  let b := ofBytes (s.peekPhys (a + 0x1000 + slot / 8) 1)
  let n := ofBytes (s.peekPhys (a + 0x0C) 4)
  let v := if on then b ||| 2 ^ (slot % 8) else b &&& (255 - 2 ^ (slot % 8))
  (s.store (a + 0x1000 + slot / 8) 1 v).store (a + 0x0C) 4 (if on then n + 1 else n - 1)

def Cell.of (v : Nat) : Cell := { Cell.zero with val := BitVec.ofNat 32 v }

/-- R250: one lane of a record; `passed` where an instruction has issued since the lane was parked (R159). -/
def laneOfRecord (bs : List Byte) (n : Nat) (isTask : Bool) (passed : Nat → Bool) (l : Nat) : Lane :=
  let live := bit (numAt bs 0x18 4) l
  let parked := bit (numAt bs 0x1C 4) l
  let pc := numAt bs (0x100 + 8 * l) 8 % 2 ^ 48
  let depth := min 32 (numAt bs (0x60 + l) 1)
  let preds := numAt bs (0x300 + l) 1
  { pc := if live || parked then pc else retiredPc
    parked := if parked && !live then some (passed l) else none
    shelf := (List.range 16).map fun a => Cell.of (numAt bs (0x400 + 128 * a + 4 * l) 4)
    named := (List.range n).map fun r => Cell.of (numAt bs (0x2C00 + 128 * r + 4 * l) 4)
    preds := (List.range 8).map fun d => { PCell.zero with val := bit preds d }
    ret := ((List.range depth).map fun j => numAt bs (0xC00 + 256 * j + 8 * l) 8 % 2 ^ 48).reverse
    task := if isTask then (bs.drop (0x4C00 + 128 * l)).take 128 else [] }

/-- R254: the tokens that a record sets again: those whose entry PROG of the recorded core's record has not reached. -/
def State.carriedOf (s : State) (ctx : Nat) (bs : List Byte) : List Carried :=
  (List.range 6).filterMap fun t =>
    let o := 0x5C00 + 16 * t
    let c : Carried := { token := t, seq := numAt bs o 8, core := numAt bs (o + 8) 2, count := numAt bs (o + 10) 1 }
    let prog := ofBytes (s.peekPhys ((s.ctx ctx).engblk + 0x400 + 64 * c.core + 24) 8)
    if c.count = 0 || decide (c.seq ≤ prog) then none else some c

/-- R36: the words PROG that the tokens of a record are held to are read. -/
def State.progRead (s : State) (ctx : Nat) (bs : List Byte) : State :=
  (List.range 6).foldl (fun (s : State) t =>
    let o := 0x5C00 + 16 * t
    if numAt bs (o + 10) 1 = 0 then s else s.readsAt ((s.ctx ctx).engblk + 0x400 + 64 * numAt bs (o + 8) 2 + 24) 8) s

/-- R250: a wave's state reloaded from a record; V, NAMED and the place of the wave keep their values. -/
def State.reload (s : State) (w : Wave) (bs : List Byte) (passed : Nat → Bool) : Wave :=
  let isTask := w.lanes.any fun l => !l.task.isEmpty
  { w with
    lanes := laneIds.map (laneOfRecord bs w.n isTask passed)
    k := (List.range 32).map fun r => { KCell.zero with val := BitVec.ofNat 64 (numAt bs (0x200 + 8 * r) 8) }
    flags := BitVec.ofNat 8 (numAt bs 0x10 1)
    domains := BitVec.ofNat 32 (numAt bs 0x14 4)
    flagsWas := none
    rstateWas := none
    ops := []
    carried := s.carriedOf w.ctx bs
    asyncs := (List.range (min 4 (numAt bs 0x24 4))).map fun i => (numAt bs (0x40 + 8 * i) 1, numAt bs (0x42 + 8 * i) 6)
    rstate := BitVec.ofNat 64 (numAt bs 0x30 8)
    deadline := if numAt bs 0x28 8 = 0 then none else some (numAt bs 0x28 8)
    spawned := numAt bs 0x20 4
    next := w.cycle + 1 }

/-! ### Return stacks beyond depth 8 (R344, R250) -/

/-- The physical address of return entry `j` of a lane in the live record. -/
def State.retAddr (s : State) (ctx key l j : Nat) : Nat := s.liveRecord ctx key + 0xC00 + 256 * j + 8 * l

/-- R344: the return entries 8 to 31 of a lane, as the live record holds them. -/
def State.refillLane (s : State) (ctx key l : Nat) (x : Lane) : Lane :=
  { x with ret := (x.ret.reverse.zipIdx.map fun (v, j) =>
      if decide (j < 8) then v else ofBytes (s.peekPhys (s.retAddr ctx key l j) 8) % 2 ^ 48).reverse }

def State.refill (s : State) (key : Nat) (w : Wave) : Wave :=
  { w with lanes := w.lanes.zipIdx.map fun (x, l) => s.refillLane w.ctx key l x }

/-- R344: the return entries 8 to 31 of the lanes of a list are written to the live record. -/
def State.spillRet (s : State) (key : Nat) (w : Wave) (ls : List Nat) : State :=
  ls.foldl (fun s l => ((w.lane l).ret.reverse.zipIdx.drop 8).foldl (fun s (v, j) =>
    s.store (s.retAddr w.ctx key l j) 8 v) s) s

/-! ### Taking an exception -/

/-- A cause that an instruction raises: its code, the lanes whose part raised it, the address the lowest of them met,
the refused lane (0xFF: none), INFO, and for the host queue the pages. -/
structure Cz where
  code : Nat
  mask : List Nat
  maddr : Nat
  lane : Nat
  info : Nat
  pages : List FaultPage
  /-- the bytes by which the resume point lies after the instruction (R247) -/
  adv : Nat
  deriving DecidableEq, Repr

/-- A cause without an address. -/
def Cz.plain (code : Nat) (mask : List Nat) : Cz :=
  { code := code, mask := mask, maddr := 0, lane := 0xFF, info := 0, pages := [], adv := 0 }

/-- R242: the cause with the lowest code. -/
def lowestCz : List Cz → Option Cz
  | [] => none
  | c :: cs => match lowestCz cs with
    | none => some c
    | some d => if c.code ≤ d.code then some c else some d

/-- The agents of R243. -/
inductive Agent where
  | debugger | hostQueue | balloon | vector
  deriving DecidableEq, Repr

/-- R243: whether a cause is one of the memory kinds the host queue takes: 0, 1, 2, 7 and 15, or 0x0E. -/
def toHostQueue (code : Nat) : Bool :=
  code = 0x0E || (decide (0x40 ≤ code) && decide (code < 0x80)
    && [0, 1, 2, 7, 15].contains ((code - 0x40) / 4))

/-- R243, R260: the agent of a cause. -/
def agentOf (attached trapMode : Bool) (code : Nat) : Agent :=
  if attached && !trapMode && [0x00, 0x0D, 0x15, 0x16, 0x17, 0x18].contains code then .debugger
  else if toHostQueue code then .hostQueue
  else if decide (0x58 ≤ code) && decide (code ≤ 0x5B) then .balloon
  else .vector

/-- What a wave waits for; nothing where it is not resident. -/
def State.waitOf (s : State) (key : Nat) : Wait := match s.wave? key with | some w => w.wait | none => .none

/-- A value that is on its way has arrived. -/
def Cell.settle (c : Cell) : Cell := { val := c.val, old := c.val, due := .now }
def PCell.settle (p : PCell) : PCell := { val := p.val, old := p.val, due := .now }
def KCell.settle (c : KCell) : KCell := { val := c.val, old := c.val, due := .now }
def Lane.settle (l : Lane) : Lane :=
  { l with shelf := l.shelf.map Cell.settle, named := l.named.map Cell.settle, preds := l.preds.map PCell.settle }

/-- R174, R246 step 1, R328: every issued instruction of the wave has completed, and every operation but the copy-queue
appends. -/
def Wave.settle (w : Wave) : Wave :=
  { w with
    lanes := w.lanes.map Lane.settle
    k := w.k.map KCell.settle
    flagsWas := none
    rstateWas := none
    ops := w.ops.filter fun o => match o.kind with | .copy _ _ => true | _ => false }

/-- R246 step 3: the state in which a trap handler starts. -/
def State.handlerWave (s : State) (w : Wave) (key cause : Nat) : Wave :=
  let off := s.codeOff w.ctx (s.ctx w.ctx).vec.toNat
  { w with
    trapMode := true
    lanes := w.lanes.map fun l =>
      { l with
        pc := if l.retired then retiredPc else off
        parked := none
        shelf := List.replicate 16 Cell.zero
        named := List.replicate w.n Cell.zero
        preds := List.replicate 8 PCell.zero }
    k := (List.range 32).map fun r =>
      { KCell.zero with val :=
          if r = 0 then BitVec.ofNat 64 (s.vbase w.ctx + 0x100000 + 24576 * key)
          else if r = 1 then BitVec.ofNat 64 cause else 0 }
    flags := 0
    domains := 0
    flagsWas := none
    rstateWas := none
    ops := []
    carried := []
    asyncs := []
    wait := .none
    next := w.cycle + 1 }

/-- R246: the wave stops at its instruction with 0x0E for the host, once the queue has room. -/
def State.stopWave (s : State) (key : Nat) (w : Wave) (iaddr : Nat) : State :=
  if s.fqFull w.ctx then s.setWave key { w with wait := .stopSpace }
  else
    (s.postFault w.ctx (faultEntry s.now (coreSrc (keyCore key)) 0x0E 0 iaddr [])).setWave key { w with wait := .stopped }

/-- R247: the wave at its resume point: the lanes at the issue address go on by so many bytes. -/
def Wave.resumeAt (w : Wave) (adv : Nat) : Wave :=
  match w.issuePc with
  | none => w
  | some pc =>
    { w with lanes := w.lanes.map fun l =>
        if l.live && l.pc == pc then { l with pc := (l.pc + adv) % 2 ^ 48 } else l }

/-- R245: what a tfence delivers is removed: a flag and its mask, or the oldest of the asynchronous causes. -/
def Wave.taken (w : Wave) (cause : Nat) : Wave :=
  if decide (0x20 ≤ cause) && decide (cause < 0x40) then
    w.writeFlags (w.flags &&& ~~~(BitVec.ofNat 8 (2 ^ ((cause - 0x20) / 4))))
  else { w with asyncs := w.asyncs.tail }

/-- R246: deliver a cause to the trap vector; the wave stands at the instruction that raised it. Where VBASE is 0 it keeps what a tfence
was to deliver, and raises it again. -/
def State.deliver (s : State) (key : Nat) (w : Wave) (t : TrapRec) : State :=
  if w.trapMode then s.stopWave key w t.iaddr
  else
    let stops := s.vbase w.ctx = 0
    let w := s.refill key w.settle
    let w := if t.pending && !stops then w.taken t.cause else w
    let s1 := s.writeRecord (s.liveRecord w.ctx key) (w.resumeAt t.adv) (trapBytes (coreSrc (keyCore key)) s.now w.words t)
    let s1 := s1.readsAt ((s.ctx w.ctx).save + 8) 8
    if stops then s1.stopWave key w t.iaddr
    else s1.setWave key (s1.handlerWave w key t.cause)

/-- R246: deliver at once, or when the wave's matrix steps and rays are done. -/
def State.trap (s : State) (key : Nat) (w : Wave) (t : TrapRec) : State :=
  if w.busy && !w.trapMode then
    s.setWave key { w with wait := .drain t.cause t.lane t.mask t.maddr t.info t.iaddr t.adv t.pending }
  else s.deliver key w t

/-- R258: HALT reads 1 until every resident wave of the context is stopped. -/
def State.haltCheck (s : State) (ctx : Nat) : State :=
  if (s.ctx ctx).halt && s.waves.all (fun (_, w) => w.ctx != ctx || w.dbgHalt || w.heldLanes.isEmpty) then
    s.onCtx ctx fun c => { c with halt := false }
  else s

/-- R261: stop a wave for the debugger. -/
def State.dbgStopNow (s : State) (key : Nat) (w : Wave) (t : TrapRec) : State :=
  let w := { (s.refill key w.settle).resumeAt t.adv with dbgHalt := true, wait := .none }
  let s := s.writeRecord (s.liveRecord w.ctx key) w (trapBytes (coreSrc (keyCore key)) s.now w.words t)
  let s := s.onCtx w.ctx fun c =>
    if c.lastVld then c
    else { c with lastVld := true, lastCause := t.cause, lastSrc := coreSrc (keyCore key), lastSlot := keySlot key
                  lastPart := keyPart key }
  ((s.setWave key w).irq 6).haltCheck w.ctx

def State.dbgStop (s : State) (key : Nat) (w : Wave) (t : TrapRec) : State :=
  if w.busy then s.setWave key { w with wait := .dbgDrain t.cause t.mask t.maddr t.info t.iaddr t.adv }
  else s.dbgStopNow key w t

/-- R43: a wave is held for space. -/
def State.holdWave (s : State) (key : Nat) (w : Wave) (cause iaddr : Nat) : State :=
  let h : Held := { wave := some key, core := keyCore key, ctx := w.ctx, seq := 0, cause := cause, addr := iaddr
                    time := s.dev.tsNow, posted := false }
  let s := { s with bln := { s.bln with held := s.bln.held ++ [h] }, mem := s.mem.stat 2 1 }
  s.setWave key { w with wait := .space cause }

/-- R241: whether a cause is that of a page which is not present. -/
def notPresent (cause : Nat) : Bool := decide (0x40 ≤ cause) && decide (cause < 0x44)

/-- R237, R257: a batch of a wave that has run ahead counts once in XLT_STAT_BATCH and each of its pages once in XLT_STAT_PAGES. -/
def State.countBatch (s : State) (pages : Nat) : State :=
  { s with xlt := { s.xlt with stats := bump (bump s.xlt.stats 1 1) 2 pages } }

/-- R239: post a fault entry for a wave, which then waits; a full queue makes the entry wait for room. -/
def State.postWave (s : State) (key : Nat) (w : Wave) (cause origin info : Nat) (pages : List FaultPage) : State :=
  if s.fqFull w.ctx then s.setWave key { w with wait := .faultSpace cause origin info pages }
  else
    let p := s.fqPidx w.ctx
    let s := if notPresent cause && origin = 0 then s.countBatch pages.length else s
    (s.postFault w.ctx (faultEntry s.now (coreSrc (keyCore key)) cause origin info pages)).setWave key
      { w with wait := .fault p }

/-- R237, R239: an instruction stops on a fault: one on a page that is not present is recorded, and the wave runs ahead before it is
posted (R255); any other is posted. -/
def State.faultWave (s : State) (key : Nat) (w : Wave) (c : Cz) (iaddr : Nat) : State :=
  if notPresent c.code then s.setWave key { w with wait := .ahead c.code c.pages }
  else s.postWave key w c.code 0 iaddr c.pages

/-- R242, R243: an instruction of wave `key`, which stands in `w` at its resume point, raises a cause; `iaddr` is the
code address of the instruction. -/
def State.raise (s : State) (key : Nat) (w : Wave) (iaddr : Nat) (c : Cz) : State :=
  let t : TrapRec := { cause := c.code, lane := c.lane, mask := maskOfLanes c.mask, iaddr := iaddr, maddr := c.maddr, info := c.info, adv := c.adv }
  match agentOf (s.ctx w.ctx).attach w.trapMode c.code with
  | .debugger => s.dbgStop key w t
  | .hostQueue => s.faultWave key w c iaddr
  | .balloon => s.holdWave key w c.code iaddr
  | .vector => s.trap key w t

/-- R434, R261: a wave reloaded from its live record. -/
def State.reloadWave (s : State) (key : Nat) (w : Wave) (passed : Nat → Bool) : State :=
  let (bs, s) := s.readChecked (s.liveRecord w.ctx key) 24576
  let s := s.progRead w.ctx bs
  s.setWave key { s.reload w bs passed with trapMode := false, dbgHalt := false, fltPend := false, wait := .none }

/-- R245: an asynchronous cause joins a list of at most 4. -/
def addAsync (l : List (Nat × Nat)) (c : Nat × Nat) : List (Nat × Nat) :=
  if l.length < 4 then l ++ [c]
  else if l.any fun x => x.1 = 0x10 then l
  else l.take 3 ++ [(0x10, 0)]

/-- R245: an asynchronous cause joins the list of a wave record. -/
def State.asyncRecord (s : State) (pa cause seq : Nat) : State :=
  let bs := s.peekPhys pa 0x60
  let l := (List.range (min 4 (numAt bs 0x24 4))).map fun i => (numAt bs (0x40 + 8 * i) 1, numAt bs (0x42 + 8 * i) 6)
  let l := addAsync l (cause, seq)
  (s.store (pa + 0x24) 4 l.length).writePhys (pa + 0x40) (l.flatMap fun (c, q) => toBytes 2 c ++ toBytes 6 q) none

/-- R245: an asynchronous cause reaches a wave; in trap mode it joins the list of the live record. -/
def State.asyncCause (s : State) (key cause seq : Nat) : State :=
  match s.wave? key with
  | none => s
  | some w =>
    if w.trapMode then s.asyncRecord (s.liveRecord w.ctx key) cause seq
    else s.setWave key { w with asyncs := addAsync w.asyncs (cause, seq) }

/-! ### Completion of outstanding operations -/

/-- R246, R261: what was waiting for the wave's operations goes on when none is left. -/
def State.afterDrain (s : State) (key : Nat) : State :=
  match s.wave? key with
  | none => s
  | some w =>
    if w.busy then s
    else match w.wait with
      | .drain cause lane mask maddr info iaddr adv pending =>
        s.deliver key { w with wait := .none }
          { cause := cause, lane := lane, mask := mask, iaddr := iaddr, maddr := maddr, info := info, adv := adv, pending := pending }
      | .dbgDrain cause mask maddr info iaddr adv =>
        s.dbgStopNow key { w with wait := .none }
          { cause := cause, lane := 0xFF, mask := mask, iaddr := iaddr, maddr := maddr, info := info, adv := adv }
      | _ => s

/-- R174: an operation of a wave completes: its results have arrived and its token counts one less. -/
def State.completeOp (s : State) (key id : Nat) : State :=
  (s.onWave key fun w =>
    { w with ops := w.ops.filter fun o => o.id != id, wait := if w.wait = .retry .token then .none else w.wait }).afterDrain key

/-- One ray or lane of an operation is done; the last one completes it. -/
def State.countDown (s : State) (key id : Nat) : State :=
  match s.wave? key with
  | none => s
  | some w =>
    match w.ops.find? fun o => o.id = id with
    | some o =>
      match o.kind with
      | .rays n =>
        if n ≤ 1 then s.completeOp key id
        else s.setWave key { w with ops := w.ops.map fun x => if x.id = id then { x with kind := .rays (n - 1) } else x }
      | .future n =>
        if n ≤ 1 then s.completeOp key id
        else s.setWave key { w with ops := w.ops.map fun x => if x.id = id then { x with kind := .future (n - 1) } else x }
      | _ => s
    | none => s

/-! ### The issue of an instruction -/

/-- An instruction at issue: the state, the wave's key and state, the operand fields, the row of the map, the issue
address, the lanes there, and Exec. -/
structure Iss where
  s : State
  key : Nat
  w : Wave
  v : View
  row : Row
  pc : Nat
  at_ : List Nat
  ex : List Nat

def Iss.core (i : Iss) : Nat := keyCore i.key
/-- The code address of the instruction. -/
def Iss.iaddr (i : Iss) : Nat := i.s.codeAddr i.w.ctx i.pc
/-- The bytes of the instruction (R313). -/
def viewBytes (v : View) : Nat := 4 * ((if v.short then 1 else 3) + (if v.lit.isSome then 2 else 0))
/-- The offset of the next sequential instruction. -/
def Iss.nextPc (i : Iss) : Nat := (i.pc + viewBytes i.v) % 2 ^ 48

/-- R155: the instruction of wave `key` at issue; none if the wave is not resident. -/
def State.iss (s : State) (r : Row) (v : View) : Option Iss :=
  match s.wave? s.cur with
  | none => none
  | some w0 =>
    let w := w0.unpark
    let pc := w.issuePc.getD retiredPc
    let at_ := w.liveLanes.filter fun l => (w.lane l).pc = pc
    some { s := s, key := s.cur, w := w, v := v, row := r, pc := pc, at_ := at_, ex := at_.filter (w.passes v.ctl.guard) }

/-- R174: whether the tokens the instruction waits for are clear and the one it sets has room. -/
def Iss.tokensOk (i : Iss) : Bool :=
  (List.range 6).all (fun t => !(i.v.ctl.sy || bit i.v.tw t) || i.w.tokenClear t)
    && (i.v.ts = 0 || decide (i.w.tokenCount (i.v.ts - 1) < 63))

/-- R125, R126: whether an operand is read from a bank of the register file. -/
def banked (u : SrcUse) (src : Src) : Bool :=
  match u, src with
  | .unused, _ | .raw _, _ => false
  | _, .shelf _ | _, .named _ => true
  | _, _ => false

/-- R126: the cycles by which bank conflicts delay the instruction: at most 3 for each operand that a bank serves. -/
def Iss.conflict (i : Iss) : Nat :=
  min i.w.conflict (3 * (b2n (banked (i.row.a i.v) i.v.a) + b2n (banked (i.row.b i.v) i.v.b) + b2n (banked (i.row.c i.v) i.v.c)))

/-- R438: the events of an issue: the instruction, its lanes, and the cycles of bank conflicts. -/
def Iss.counted (i : Iss) (s : State) (ctx : Nat) : State :=
  ((s.perf i.core ctx 2 1).perf i.core ctx 3 i.ex.length).perf i.core ctx 4 i.conflict

/-- R327: a ready time later than a cycle moves back. -/
def Due.delay (now d : Nat) : Due → Due
  | .at c => .at (if now < c then c + d else c)
  | x => x
def Cell.delay (now d : Nat) (c : Cell) : Cell :=
  { c with due := c.due.delay now d, prior := c.prior.map fun (v, x) => (v, x.delay now d) }
def PCell.delay (now d : Nat) (c : PCell) : PCell :=
  { c with due := c.due.delay now d, prior := c.prior.map fun (v, x) => (v, x.delay now d) }
def KCell.delay (now d : Nat) (c : KCell) : KCell :=
  { c with due := c.due.delay now d, prior := c.prior.map fun (v, x) => (v, x.delay now d) }
def Lane.delay (now d : Nat) (l : Lane) : Lane :=
  { l with shelf := l.shelf.map (Cell.delay now d), named := l.named.map (Cell.delay now d), preds := l.preds.map (PCell.delay now d) }

/-- R327: every later ready time of the wave moves back by the cycles of a conflict. -/
def Wave.delay (d : Nat) (w : Wave) : Wave :=
  if d = 0 then w
  else
    { w with
      lanes := w.lanes.map (Lane.delay w.cycle d)
      k := w.k.map (KCell.delay w.cycle d)
      flagsWas := w.flagsWas.map fun (v, c) => (v, if w.cycle < c then c + d else c)
      rstateWas := w.rstateWas.map fun (v, c) => (v, if w.cycle < c then c + d else c) }

/-- R327: issue done: the stall count, the count of issued instructions, R159 for parked lanes, R260, R438. `adv` are
the lanes that go on to the next instruction. -/
def Iss.commit (i : Iss) (s : State) (w : Wave) (adv : List Nat) : State :=
  let w := { w.delay i.conflict with
    lanes := (w.delay i.conflict).lanes.zipIdx.map fun (l, j) =>
      let l := if l.parked.isSome then { l with parked := some true } else l
      if adv.contains j then { l with pc := i.nextPc } else l
    next := w.cycle + max 1 i.v.ctl.stl.toNat + i.conflict
    issued := w.issued + 1
    stepped := true
    skip := false
    fenced := false
    wait := match w.wait with | .fault _ | .ahead .. | .faultSpace .. | .space _ => .none | x => x }
  i.counted (s.setWave i.key w) w.ctx

/-- R174: an operation that completes later, with the token of the instruction. -/
def Iss.addOp (i : Iss) (w : Wave) (kind : OpKind) : Wave :=
  { w with ops := w.ops ++ [{ id := w.nextOp, token := i.v.ts, kind := kind, mem := [0x9, 0xA, 0xC].contains (i.row.op / 16) }] }

/-- R174: an instruction without a register result sets its token until its effect completes. -/
def Iss.addToken (i : Iss) (w : Wave) : Wave := if i.v.ts = 0 then w else i.addOp w .result

/-- R172: the pipe `q` of a gang in a direction: the gang that consumes it, its index there, its state. -/
def State.pipeEnd (s : State) (g q : Nat) (isIn : Bool) : Option (Nat × Nat × Pipe) :=
  match (s.gang? g).bind fun G => (G.pipes.getD (if isIn then q else q + 4) none) with
  | none => none
  | some p =>
    match (s.gang? p.consumer).bind fun C => (C.pipes.getD p.index none) with
    | some e => some (p.consumer, p.index, e)
    | none => none

/-- The core whose scratchpad holds the pipes of a gang. -/
def State.gangCore (s : State) (g : Nat) : Nat := match s.gang? g with | some G => G.core | none => 0

/-- The pipes that an instruction pops. -/
def Iss.pops (i : Iss) : List Nat := i.row.pipes i.v
/-- R21: how many entries a source field names whose parity is lost. -/
def Wave.flips (w : Wave) (u : SrcUse) (src : Src) (l : Nat) : Nat :=
  match u with
  | .unused | .raw _ => 0
  | .word | .off _ => w.operandFlips .i32 l src
  | .pair | .itv | .base _ | .kreg _ => w.operandFlips .i64 l src
  | .uni wide _ | .uniX wide => w.operandFlips (if wide then .i64 else .i32) l src
  | .span n _ => ((List.range n).map fun j => w.operandFlips .i32 l (match src with
      | .shelf a => .shelf (a + j)
      | .named r => .named (r + j)
      | x => x)).foldl (· + ·) 0

/-- R21, R23: the register-file entries with lost parity that the lanes in Exec read. -/
def Iss.parity (i : Iss) : Nat :=
  (i.ex.map fun l => i.w.flips (i.row.a i.v) i.v.a l + i.w.flips (i.row.b i.v) i.v.b l + i.w.flips (i.row.c i.v) i.v.c l).foldl (· + ·) 0

/-- R23: the words of the scratchpad whose check fails for good among the pipe elements that the instruction pops. -/
def Iss.pipeUe (i : Iss) : List Flaw :=
  i.pops.flatMap fun q => match i.s.pipeEnd i.w.gang q true with
    | some (g, _, p) =>
      if p.count < i.ex.length then []
      else (i.s.coreFlaws (i.s.gangCore g) 4 false ((List.range i.ex.length).map fun j =>
        { lane := 0, a := p.base + 4 * ((p.head + j) % p.size), n := 4 })).filter Flaw.fatal
    | none => []

/-- R23: 0x60 where words are read whose check fails for good. -/
def Iss.ueCz (i : Iss) (fs : List Flaw) : List Cz := if fs.isEmpty then [] else [Cz.plain 0x60 i.ex]

/-- R242: the instruction raises a cause, its lanes standing at it; the errors that it consumes are counted (R23). -/
def Iss.fail (i : Iss) (c : Cz) : State :=
  let s := if c.code = 0x60 then (List.replicate i.parity ()).foldl (fun s _ => State.countUe s 7 (BitVec.ofNat 16 (coreSrc i.core))) (i.s.checks_ i.pipeUe) else i.s
  s.raise i.key { i.w with fenced := false } i.iaddr c

/-- R242, R247: the instruction has had its effect and raises a cause that resumes after it. -/
def Iss.failAfter (i : Iss) (s : State) (c : Cz) : State :=
  match s.wave? i.key with
  | none => s
  | some w => s.raise i.key w i.iaddr c

/-- R168: 0x07 for a named register at or beyond the allocation. -/
def Iss.namedCz (i : Iss) : List Cz := if i.row.namedTop i.v ≤ i.w.n then [] else [Cz.plain 0x07 i.ex]

/-- R175: whether what a source field names has not arrived in a lane. -/
def Wave.staleUse (w : Wave) (u : SrcUse) (src : Src) (l : Nat) : Bool :=
  match u with
  | .unused | .raw _ => false
  | .word | .off _ => w.stale .i32 l src
  | .pair | .itv | .base _ => w.stale .i64 l src
  | .uni wide _ | .uniX wide => w.stale (if wide then .i64 else .i32) l src
  | .span n _ => w.spanStale l src n
  | .kreg _ => w.stale .i64 l src

/-- R358, R359, R362: the rows that read A of lanes of their own choice, and of no others. -/
def picksLanes (r : Row) : Bool := [0x39, 0x80, 0x81, 0x85, 0x86].contains r.op

/-- Whether the guard has not arrived. -/
def Iss.guardStale (i : Iss) : Bool :=
  match i.v.ctl.guard with
  | none => false
  | some g => i.at_.any fun l => !i.w.ready ((i.w.lane l).predCell g.depth.toNat).due

/-- Whether the guard or a source of the lanes in Exec has not arrived. -/
def Iss.stale (i : Iss) : Bool :=
  i.guardStale || i.ex.any fun l => (!picksLanes i.row && i.w.staleUse (i.row.a i.v) i.v.a l) || i.w.staleUse (i.row.b i.v) i.v.b l
      || i.w.staleUse (i.row.c i.v) i.v.c l

/-- R175: 0x09 where the checking scoreboard is on and something read has not arrived. -/
def Iss.staleCz (i : Iss) (stale : Bool) : List Cz :=
  if (i.s.core i.core).checkEn && stale then [Cz.plain 0x09 i.ex] else []

/-- R260: the debugger's causes at a wave's next instruction, watchpoints apart. -/
def Iss.dbgCz (i : Iss) : List Cz :=
  let c := i.s.ctx i.w.ctx
  if !c.attach || i.w.trapMode then []
  else
    let hit (b : Break) : Bool := b.en && b.addr = i.iaddr
    (if c.halt then [Cz.plain 0x00 i.at_] else [])
    ++ (if c.step && i.w.stepped then [Cz.plain 0x15 i.at_] else [])
    ++ (if !i.w.skip && (hit c.bp0 || hit c.bp1) then [Cz.plain 0x16 i.at_] else [])

/-- The causes that every instruction may raise at issue. -/
def Iss.baseCz (i : Iss) : List Cz :=
  i.namedCz ++ i.dbgCz ++ i.staleCz i.stale ++ (if i.parity = 0 then [] else [Cz.plain 0x60 i.ex])

/-- R162: 0x08 unless every lane is live, at the issue address and in Exec. -/
def Iss.convergeCz (i : Iss) : List Cz := if i.ex.length = 32 then [] else [Cz.plain 0x08 i.ex]

/-- What waves that wait to try again have waited for has come about. -/
def State.wake (s : State) (r : Retry) : State :=
  { s with waves := s.waves.map fun (k, w) => (k, if w.wait = .retry r then { w with wait := .none } else w) }

/-- A wave that must wait stays as it is; the turn passes. -/
def Iss.stall (i : Iss) (wt : Wait) : State := i.s.setWave i.key { i.w with wait := wt }

/-! ### Bytes that copy entries own (R224) -/

/-- The fields of a copy entry (R192). -/
def CopyEntry.word (e : CopyEntry) (j : Nat) : Nat := (at? 0 e.words j).toNat
def CopyEntry.kind (e : CopyEntry) : Nat := bits (e.word 0) 0 4
def CopyEntry.spc (e : CopyEntry) : Nat := bits (e.word 0) 12 2
/-- Whether the entry writes the global space, and whether it writes the scratchpad. -/
def CopyEntry.toGlobal (e : CopyEntry) : Bool := (e.kind = 1 || e.kind = 2) && (e.spc = 0 || e.spc = 2)
def CopyEntry.toScratch (e : CopyEntry) : Bool := (e.kind = 1 || e.kind = 2) && (e.spc = 1 || e.spc = 3)

/-- The place of a destination byte in the entry's payload, counted in delivery order; none if it is not one. -/
def CopyEntry.place (e : CopyEntry) (x : Nat) : Option Nat :=
  let o := (x + 2 ^ 64 - e.word 2 % 2 ^ 64) % 2 ^ 64
  if e.kind = 1 then (if o < e.word 3 then some o else none)
  else
    let rows := bits (e.word 3) 32 32
    let len := bits (e.word 3) 0 32
    let p := e.word 5
    if p = 0 then none
    else if o / p < rows && o % p < len then some (o / p * len + o % p) else none

/-- R224: whether an entry owns one of `n` bytes: it runs or is held, and has not written that byte. -/
def CopyEntry.owns (e : CopyEntry) (a n : Nat) : Bool :=
  (e.stat = .run || e.stat = .held) && (List.range n).any fun j =>
    match e.place ((a + j) % 2 ^ 64) with
    | some p => decide (e.done ≤ p)
    | none => false

/-- R224: whether a thread access must wait for a copy entry of its context. -/
def State.owned (s : State) (ctx core : Nat) (scratch : Bool) (l : List LaneAcc) : Bool :=
  if scratch then (s.core core).copies.any fun e => e.toScratch && l.any fun x => e.owns x.a x.n
  else s.cores.any fun (_, c) => c.copies.any fun e => e.ctx = ctx && e.toGlobal && l.any fun x => e.owns x.a x.n

/-- The virtual pages of an entry's destination. -/
def CopyEntry.destPages (e : CopyEntry) : List Nat :=
  let span := if e.kind = 1 then e.word 3 else (bits (e.word 3) 32 32 - 1) * e.word 5 + bits (e.word 3) 0 32
  (List.range (span / 4096 + 2)).map fun j => (alignDown (e.word 2) 4096 + 4096 * j) % 2 ^ 64

/-- R224: whether an entry owns one of `n` bytes of physical memory, under whatever address or context they are reached. -/
def State.ownsPa (s : State) (e : CopyEntry) (pa n : Nat) : Bool :=
  e.destPages.any fun v =>
    match (s.walk none e.ctx v).1 with
    | .leaf x _ lo =>
      let p := bits x 12 40 * 4096 + v % 2 ^ lo
      (List.range n).any fun j => decide (p ≤ pa + j) && decide (pa + j < p + 4096) && e.owns (v + (pa + j - p)) 1
    | .bad _ => false
def State.ownedPa (s : State) (ps : List Piece) : Bool :=
  s.cores.any fun (_, c) => c.copies.any fun e =>
    e.toGlobal && (e.stat = .run || e.stat = .held) && ps.any fun p => s.ownsPa e p.x.pa p.n

/-- R242, R248: the lowest of the causes that lanes meet: its mask holds the lanes that meet it, its address is that of the
lowest of them. -/
def laneCz (l : List LaneCz) : List Cz :=
  match lowest (l.map (·.code)) with
  | none => []
  | some c =>
    let ls := l.filter fun x => x.code = c
    [{ Cz.plain c (ls.map (·.lane)) with maddr := match ls with | x :: _ => x.a | [] => 0 }]

/-- R213: whether ORDER is rel, ar or sc. -/
def isRelease (order : Nat) : Bool := order = 2 || order = 3 || order = 4

/-- R213, R220, R222: whether an instruction is not performed before the wave's earlier reads: fences, accesses with a release suffix, and
the instructions that release by themselves. -/
def Iss.releases (i : Iss) : Bool :=
  [0x87, 0x9B, 0x9E, 0xB0, 0xB1, 0xB3, 0xBA, 0xC0, 0xC1, 0xC2, 0xC3, 0xC5, 0xC6, 0xE0, 0xE3, 0xE4, 0xE5, 0xE7, 0xE9, 0xEA, 0xEE].contains i.row.op
    || ((i.row.op / 16 = 9 || i.row.op / 16 = 0xA) && isRelease i.v.order)
    || (match i.v.d with | .pipe _ => true | _ => false)

/-- R199, R213: whether the instruction waits for a read of the wave that a slice still holds: one of its ldfut. -/
def Iss.readHeld (i : Iss) : Bool :=
  i.releases && i.w.ops.any fun o => match o.kind with | .future _ => true | _ => false

/-- Issue: no resident wave, tokens, causes, then what the instruction does. -/
def issue (r : Row) (v : View) (s : State) (causes : Iss → List Cz) (effect : Iss → State) : Res :=
  match s.iss r v with
  | none => .fault .noWave
  | some i =>
    if !i.tokensOk then .next s
    else if i.readHeld then .next (i.stall (.retry .token))
    else match lowestCz (i.baseCz ++ causes i) with
      | some c => .next (i.fail c)
      | none => .next (effect i)

/-- The same for an instruction that reads words which are checked as it issues (R23): `check` gives the lanes that meet an error for
good, and the state once the words have been checked. -/
def issueChecked (r : Row) (v : View) (s : State) (causes : Iss → List Cz) (check : Iss → List LaneCz × State) (effect : Iss → State) : Res :=
  match s.iss r v with
  | none => .fault .noWave
  | some i =>
    if !i.tokensOk then .next s
    else if i.readHeld then .next (i.stall (.retry .token))
    else
      let (ue, s1) := check i
      match lowestCz (i.baseCz ++ causes i ++ laneCz ue) with
      | some c => .next ((if ue.any fun x => x.code = c.code then { i with s := s1 } else i).fail c)
      | none => .next (effect { i with s := s1 })

/-- R21, R23: the check of scratchpad accesses of code 0x60, 0x61 or 0x62. -/
def Iss.localCheck (code : Nat) (l : List LaneAcc) (i : Iss) : List LaneCz × State :=
  let fs := i.s.coreFlaws i.core 4 (code = 0x61 && i.row.op / 16 = 9) l
  (ueLocal code l fs, i.s.checkCore i.core fs)

end Sys2Proof.Machine
end

