-- ==== Sys2Proof/Machine/Alu.lean ====
section
/-!
DEFINITION. Pipes (spec/07 R172, spec/08 R202, R203) and the one way in which an instruction that computes registers and
predicates from register operands runs: spec/07 R161 to R171, spec/13 R320, R327.
-/
namespace Sys2Proof.Machine

/-! ### Pipes -/

/-- Replace the state of a pipe, which its consumer holds. -/
def State.setPipe (s : State) (g q : Nat) (p : Pipe) : State :=
  s.onGang g fun G => { G with pipes := setAt G.pipes q (some p) }

/-- Element `i` of a pipe, counted from its head. -/
def State.pipeElem (s : State) (g : Nat) (p : Pipe) (i : Nat) : W32 :=
  BitVec.ofNat 32 (ofBytes (readBytes (s.core (s.gangCore g)).scratch (p.base + 4 * ((p.head + i) % p.size)) 4))

/-- R203: pop `n` elements; the pipe holds that many. -/
def State.popPipe (s : State) (g q : Nat) (p : Pipe) (n : Nat) : List W32 × State :=
  ((List.range n).map (s.pipeElem g p),
   s.setPipe g q { p with head := (p.head + n) % p.size, count := p.count - n })

/-- R203: push elements; the pipe has room for them. -/
def State.pushPipe (s : State) (g q : Nat) (p : Pipe) (es : List W32) : State :=
  let s := s.onCore (s.gangCore g) fun c => es.zipIdx.foldl (fun (c : Core) (e, i) =>
    c.write (p.base + 4 * ((p.head + p.count + i) % p.size)) (toBytes 4 e.toNat)) c
  s.setPipe g q { p with count := p.count + es.length }

/-- The pipe that an instruction pushes to. -/
def Iss.pushes (i : Iss) : Option Nat := match i.v.d with | .pipe q => some q | _ => none

/-- R172, R203: the causes of one pipe operand. -/
def Iss.pipeCz (i : Iss) (q : Nat) (isIn : Bool) : List Cz :=
  let k := i.ex.length
  match i.s.pipeEnd i.w.gang q isIn with
  | none => [Cz.plain 0x87 i.ex]
  | some (_, _, p) =>
    if k = 0 then []
    else (if decide (p.size < k) then [Cz.plain 0x8E i.ex] else [])
      ++ (if p.closed && (!isIn || decide (p.count < k)) then [Cz.plain 0x86 i.ex] else [])

def Iss.pipesCz (i : Iss) : List Cz :=
  i.ueCz i.pipeUe ++ i.pops.flatMap (fun q => i.pipeCz q true) ++ (match i.pushes with | some q => i.pipeCz q false | none => [])

/-- R224: whether a copy entry owns some of `k` places of a pipe, from one counted from its head on. -/
def Iss.pipeOwned (i : Iss) (g : Nat) (p : Pipe) (at_ k : Nat) : Bool :=
  i.s.owned i.w.ctx (i.s.gangCore g) true ((List.range k).map fun j => { lane := 0, a := p.base + 4 * ((p.head + at_ + j) % p.size), n := 4 })

/-- R203, R224: whether every pipe has the elements and places that the instruction needs. -/
def Iss.pipesReady (i : Iss) : Bool :=
  let k := i.ex.length
  i.pops.all (fun q => match i.s.pipeEnd i.w.gang q true with
      | some (g, _, p) => decide (k ≤ p.count) && !i.pipeOwned g p 0 k
      | none => true)
    && (match i.pushes with
      | some q => (match i.s.pipeEnd i.w.gang q false with
        | some (g, _, p) => decide (p.count + k ≤ p.size) && !i.pipeOwned g p p.count k
        | none => true)
      | none => true)

/-- R172: the elements popped for the lanes of Exec, and the state after the pops. -/
def Iss.popAll (i : Iss) : List (Nat × Popped) × State :=
  i.pops.foldl (fun (acc, s) q =>
    match s.pipeEnd i.w.gang q true with
    | some (g, j, p) =>
      let (es, s) := s.popPipe g j p i.ex.length
      ((q, i.ex.zip es) :: acc, s)
    | none => (acc, s)) (([] : List (Nat × Popped)), i.s)

/-! ### Instructions that compute -/

/-- What an instruction computes for one lane: its results in push order (high word first), its predicates in push
order, and the flags it sets. -/
structure AluOut where
  res : List W32
  preds : List Bool
  fl : Flg
  deriving DecidableEq, Repr

/-- One word. -/
def AluOut.word (v : Nat) : AluOut := { res := [BitVec.ofNat 32 v], preds := [], fl := 0 }
/-- A 64-bit value: the high word first (R167). -/
def AluOut.dword (v : Nat) : AluOut := { res := [BitVec.ofNat 32 (hi32 v), BitVec.ofNat 32 v], preds := [], fl := 0 }
/-- A predicate. -/
def AluOut.pred (p : Bool) : AluOut := { res := [], preds := [p], fl := 0 }
def AluOut.flags (o : AluOut) (f : Flg) : AluOut := { o with fl := f }

/-- How an instruction of this kind computes. -/
structure Alu where
  /-- how A, B and C are read, if they are -/
  ta : View → Option OpTy
  tb : View → Option OpTy
  tc : View → Option OpTy
  /-- R329: the latency; none for a variable one -/
  lat : View → Option Nat
  /-- R241: the domain of its flags -/
  dom : View → Nat
  /-- R320: whether a 32-bit result is extended by its sign in a k register -/
  sgn : View → Bool
  /-- whether what it reads besides A, B and C has not arrived -/
  stale : Iss → Bool
  /-- causes beyond those of operands, pipes and registers -/
  causes : Iss → List Cz
  /-- the result of a lane from the values of A, B and C -/
  fn : Iss → Nat → Nat → Nat → Nat → AluOut

/-- R327, R329: when the results of an instruction arrive. -/
def Iss.latency (i : Iss) (lat : Option Nat) : Option Nat :=
  if !i.pops.isEmpty || i.pushes.isSome then none
  else match lat with
    | none => none
    | some n => some (if i.v.d.isK then 2 else n)

def Iss.due (i : Iss) (lat : Option Nat) : Due :=
  match i.latency lat with
  | none => .op i.w.nextOp
  | some n => .at (i.w.cycle + n)

/-- The value of an operand in a lane, with the elements that pipes supplied. -/
def Iss.operand (i : Iss) (pops : List (Nat × Popped)) (t : Option OpTy) (src : Src) (l : Nat) : Nat :=
  match t with
  | none => 0
  | some t =>
    let pop := match src with | .pipe q => (find? pops q).getD [] | _ => []
    i.w.operand i.v t pop l src

/-- R166 to R171: the results of the lanes in Exec. -/
def Iss.results (i : Iss) (due : Due) (d : Dst) (outs : List (Nat × AluOut)) : Wave :=
  { i.w with lanes := i.w.lanes.zipIdx.map fun (x, l) =>
      match find? outs l with
      | some o => o.preds.foldl (i.w.predLane due) (i.w.laneResult due d x o.res)
      | none => x }

/-- The flags of all lanes together. -/
def flagsOf (outs : List (Nat × AluOut)) : Flg := outs.foldl (fun f (_, o) => f ||| o.fl) 0

/-- The effect of an instruction whose causes are none and whose pipes are ready. -/
def aluEffect (x : Alu) (i : Iss) : State :=
  let v := i.v
  let due := i.due (x.lat v)
  let (pops, s) := i.popAll
  let eval (l : Nat) : AluOut :=
    x.fn i l (i.operand pops (x.ta v) v.a l) (i.operand pops (x.tb v) v.b l) (i.operand pops (x.tc v) v.c l)
  let fin (w : Wave) : Wave :=
    if v.ts = 0 && (i.latency (x.lat v)).isSome then w else i.addOp w .result
  match v.d with
  | .k r =>
    match i.ex with
    | [] => i.commit s (fin i.w) i.at_
    | l :: _ =>
      let o := eval l
      i.commit s (fin ((i.w.setK due r (kValue (x.sgn v) o.res)).setFlags o.fl (x.dom v))) i.at_
  | d =>
    let outs := i.ex.map fun l => (l, eval l)
    let w := (i.results due d outs).setFlags (flagsOf outs) (x.dom v)
    match d with
    | .pipe q =>
      if i.ex.isEmpty then i.commit s (fin w) i.at_
      else
        match s.pipeEnd i.w.gang q false with
        | some (g, j, p) => i.commit (s.pushPipe g j p (outs.map fun (l, o) => pipeValue (i.w.issued + l) o.res)) (fin w) i.at_
        | none => i.commit s (fin w) i.at_
    | _ => i.commit s (fin w) i.at_

/-- The causes that such an instruction can raise beyond those of every instruction. -/
def aluCauses (x : Alu) (i : Iss) : List Cz :=
  i.staleCz (x.stale i) ++ i.pipesCz ++ x.causes i

/-- An instruction that computes. -/
def runAlu (x : Alu) (r : Row) (v : View) (s : State) : Res :=
  issue r v s (aluCauses x) fun i => if i.pipesReady then aluEffect x i else i.stall .pipe

/-- Fixed latency. -/
def latIs (n : Nat) (_ : View) : Option Nat := some n
/-- Variable latency (T). -/
def latT (_ : View) : Option Nat := none

/-- An operation with nothing but its operands. -/
def Alu.mk3 (ta tb tc : View → Option OpTy) (lat : View → Option Nat) (dom : Nat) (sgn : View → Bool)
    (fn : View → Nat → Nat → Nat → AluOut) : Alu where
  ta := ta
  tb := tb
  tc := tc
  lat := lat
  dom := fun _ => dom
  sgn := sgn
  stale := fun _ => false
  causes := fun _ => []
  fn := fun i _ a b c => fn i.v a b c

/-- No operand, a 32-bit integer one, a 64-bit one, a float one, an interval. -/
def tNo (_ : View) : Option OpTy := none
def tI (_ : View) : Option OpTy := some .i32
def tL (_ : View) : Option OpTy := some .i64
def tF (_ : View) : Option OpTy := some .f32
def tX (_ : View) : Option OpTy := some .itv
/-- 32 or 64 bits by TYPE. -/
def tW (dflt : Nat) (v : View) : Option OpTy := some (if is64 (v.typ dflt) then .i64 else .i32)
def sgnNo (_ : View) : Bool := false
def sgnYes (_ : View) : Bool := true

end Sys2Proof.Machine
end

