-- ==== Sys2Proof/Machine/Access.lean ====
section
/-!
DEFINITION. How an instruction of a wave reaches memory: the address form (spec/13 R332, spec/16 R385), the widths
(R386), the scratchpad check (spec/08 R181), translation of the lanes' pages (spec/08 R189, spec/09 R211, spec/10 R232), the
causes (spec/09 R210, R212, spec/10 R238, R242), the watchpoints (R260), the ownership of copy entries (spec/09 R224) and
L1 (spec/08 R190, spec/16 R392).
-/
namespace Sys2Proof

/-- R386: the type of a datum. -/
def View.memTy (v : View) : Ty := if v.typ 9 = 0 then .b32 else Ty.ofCode v.typeRaw
/-- Its width in bytes. -/
def View.memBytes (v : View) : Nat := v.memTy.width / 8

end Sys2Proof

namespace Sys2Proof.Machine

/-! ### Addresses -/

/-- R385, R395: SCALE and OFFS, which row 0xA_ has in other bits of SUB. -/
def Iss.scale (i : Iss) : Nat := if i.row.op / 16 = 0xA then bits i.v.sub 4 2 else bits i.v.sub 0 2
def Iss.offs (i : Iss) : Bool := if i.row.op / 16 = 0xA then bit i.v.sub 6 else bit i.v.sub 2

/-- R385: the address of a lane. -/
def Iss.addr (i : Iss) (l : Nat) : Nat :=
  let base := i.w.operand i.v .i64 [] l i.v.a
  let off := i.w.operand i.v .i32 [] l i.v.b
  let off : Int := if i.offs then asS off 32 else ((off % 2 ^ 32 : Nat) : Int)
  wrap (base + off * (2 ^ i.scale : Nat) + i.v.disp) 64

/-- R401, R403: an address LA + displacement, the same for every lane. -/
def Iss.addrU (i : Iss) : Nat := wrap ((i.w.operand i.v .i64 [] 0 i.v.a : Nat) + i.v.disp) 64

/-- R386: what a load gives for the bytes it reads. -/
def loadOut (t : Ty) (bs : List Byte) : AluOut :=
  let v := ofBytes bs
  if t.width = 64 then .dword v
  else if t.signed then .word (wrap (asS v t.width) 32)
  else .word v

/-- R386: the bytes that a store takes from its operand. -/
def storeBytes (t : Ty) (v : Nat) : List Byte := toBytes (t.width / 8) v

/-- R318, R319, R386, R396: how a datum is read: as bits, but by the atomics of TYPE .f32 as a float (log 56). -/
def Iss.dataTy (i : Iss) : OpTy :=
  if i.v.memTy.width = 64 then .i64 else if i.v.memTy = .f32 && i.row.op / 16 = 0xA then .f32 else .i32

/-- The operand C of a lane, with the elements that a pipe supplies (R172). -/
def Iss.operandC (i : Iss) (t : OpTy) (l : Nat) : Nat := i.operand i.popAll.1 (some t) i.v.c l
/-- The store data of a lane. -/
def Iss.data (i : Iss) (l : Nat) : Nat := i.operandC i.dataTy l
/-- R172, R203: the instruction with its pipe operands popped. -/
def Iss.afterPops (i : Iss) : Iss := { i with s := i.popAll.2 }

/-- The accesses of the lanes in Exec. -/
def Iss.accs (i : Iss) : List LaneAcc := i.ex.map fun l => { lane := l, a := i.addr l, n := i.v.memBytes }

/-! ### Scratchpad (R181) -/

/-- R181: whether `n` bytes lie in the allocation of a gang. -/
def State.inAlloc (s : State) (g a n : Nat) : Bool :=
  match s.gang? g with
  | some G => decide (G.base ≤ a) && decide (a + n ≤ G.base + G.bytes)
  | none => false

/-- R181: the causes of scratchpad accesses; `code` is 0x68, 0x69 or 0x6A. -/
def Iss.scratchCz (i : Iss) (code : Nat) (l : List LaneAcc) : List Cz :=
  laneCz (l.filterMap fun x => if i.s.inAlloc i.w.gang x.a x.n then none else some ⟨code, x.lane, x.a⟩)

/-- Bytes of a core's scratchpad. -/
def State.spRead (s : State) (core a n : Nat) : List Byte := readBytes (s.core core).scratch a n
def State.spWrite (s : State) (core a : Nat) (b : List Byte) : State :=
  s.onCore core fun c => c.write a b

/-- R417: whether unfinished K-steps of a wave read scratchpad bytes that it is about to write. -/
def State.readsA (s : State) (core key : Nat) (l : List LaneAcc) : Bool :=
  (s.core core).mx.ops.any fun o => o.wave = key && !o.weights && l.any fun x =>
    decide (x.a < o.aAt + 512 * o.steps) && decide (o.aAt < x.a + x.n)

/-! ### Translation of a wave's accesses -/

/-- The 4 KiB pages that accesses touch, ascending. -/
def pagesOf (l : List LaneAcc) : List Nat :=
  ascending (l.flatMap fun x => (pagePieces x.a x.n).map fun (a, _) => alignDown a 4096)

/-- R189: each page is looked up once, in ascending order: what each gives. -/
def State.xlatePages (core : Option Nat) (ctx : Nat) (a : Access) : List Nat → State → List (Nat × Except Nat Xlated) × State
  | [], s => ([], s)
  | p :: ps, s =>
    let (r, s) := s.translate core ctx p a
    let (rs, s) := State.xlatePages core ctx a ps s
    ((p, r) :: rs, s)

/-- The physical pieces of one access by the table of its pages, or the kind and the address that fault first. -/
def piecesFrom (t : List (Nat × Except Nat Xlated)) : List (Nat × Nat) → Except (Nat × Nat) (List Piece)
  | [] => .ok []
  | (a, n) :: rest =>
    match find? t (alignDown a 4096) with
    | some (.ok x) =>
      match piecesFrom t rest with
      | .ok ps => .ok ({ va := a, x := { x with pa := x.pa + a % 4096 }, n := n } :: ps)
      | .error e => .error e
    | some (.error k) =>
      (match piecesFrom t rest with
        | .error (k', b) => if k' < k then .error (k', b) else .error (k, a)
        | .ok _ => .error (k, a))
    | none => .error (0, a)

/-- A lane's access with its pieces, or what it met. -/
structure LaneX where
  acc : LaneAcc
  res : Except (Nat × Nat) (List Piece)

/-- The pieces of a lane. -/
def LaneX.pieces (x : LaneX) : List Piece := match x.res with | .ok ps => ps | .error _ => []

/-- The translation of all accesses of an instruction. -/
def State.xlateLanes (s : State) (core ctx : Nat) (a : Access) (l : List LaneAcc) : List LaneX × State :=
  let (t, s) := State.xlatePages (some core) ctx a (pagesOf l) s
  (l.map fun x => { acc := x, res := piecesFrom t (pagePieces x.a x.n) }, s)

/-- R232: whether the parts of one lane's access lie in device memory and in host space. -/
def straddles (ps : List Piece) : Bool := ps.any (fun p => p.x.isHost) && ps.any fun p => !p.x.isHost

/-- All the pieces of an instruction. -/
def allPieces (ls : List LaneX) : List Piece := ls.flatMap LaneX.pieces

/-- R197, R210, R232: what the pages of one access of a lane raise, by their leaves and by lying in two spaces; the lowest kind. -/
def Access.rule (a : Access) (ps : List Piece) : Option Nat :=
  lowest (ps.filterMap (fun p => a.pageKind p.x.leaf)
    ++ (match a.use with | .plain _ => if straddles ps then [5] else [] | _ => []))

/-- R242: what each lane meets. -/
def LaneX.cz (a : Access) (x : LaneX) : Option LaneCz :=
  match x.res with
  | .error (k, va) => some ⟨memCause k a, x.acc.lane, va⟩
  | .ok ps => (a.rule ps).map fun k => ⟨memCause k a, x.acc.lane, x.acc.a⟩

/-- The not-present pages that lanes meet, ascending (R237). -/
def missing (t : List (Nat × Except Nat Xlated)) : List Nat :=
  t.filterMap fun (p, r) => match r with | .error 0 => some p | _ => none

/-- R238: the pages of the fault entry of a cause that is posted: the page of its address. -/
def Cz.onePage (c : Cz) (w : Bool) : Cz :=
  if toHostQueue c.code then { c with pages := [(alignDown c.maddr 4096, w)] } else c

/-- R237: the pages of one instruction, at most 16 within reach of the first. -/
def nearPages (w : Bool) (ps : List Nat) : List FaultPage :=
  match ps with
  | [] => []
  | p :: _ => ((ps.filter fun q => decide ((q - p) / 4096 ≤ 32767)).take 16).map fun q => (q, w)

/-! ### Watchpoints (R260) -/

/-- R258: the watched range of a watchpoint, and whether an access overlaps it. -/
def Watch.hits (x : Watch) (a : Access) (l : LaneAcc) : Bool :=
  let lo := alignDown x.addr (2 ^ x.log2)
  x.en && ((x.w && a.w) || (x.r && a.r)) && decide (l.a < lo + 2 ^ x.log2) && decide (lo < l.a + l.n)

/-- R260: cause 0x17. -/
def Iss.watchCz (i : Iss) (a : Access) (l : List LaneAcc) : List Cz :=
  let c := i.s.ctx i.w.ctx
  if !c.attach || i.w.trapMode || i.w.skip then []
  else laneCz (l.filterMap fun x => if c.wp0.hits a x || c.wp1.hits a x then some ⟨0x17, x.lane, x.a⟩ else none)

/-! ### Checks of stored data (R17, R21 to R25) -/

/-- R24: the parts that the lanes of an access write, with bytes that do not matter. -/
def blankParts (ls : List LaneX) : List WritePart :=
  ls.flatMap fun x => x.pieces.map fun p => { pa := p.x.pa, data := List.replicate p.n 0, comp := none : WritePart }

/-- R23, R24: the words that an access checks: those that it reads, and those of which it writes a part. -/
def State.flawsMet (s : State) (core : Option Nat) (l1 : Bool) (a : Access) (ls : List LaneX) : List Flaw :=
  (s.flawsOf core l1 (ls.flatMap LaneX.pieces)).filter fun f => a.r || !coversFlaw (blankParts ls) f

/-- R23: the lanes that consume an uncorrectable error. -/
def ueLanes (a : Access) (ls : List LaneX) (fs : List Flaw) : List LaneCz :=
  ls.filterMap fun x =>
    if fs.any fun f => f.fatal && x.pieces.any fun p => !p.x.isHost && f.meets p.x.pa p.n then some ⟨memCause 8 a, x.acc.lane, x.acc.a⟩
    else none

/-! ### L1 (R190, R392) -/

/-- The blocks of L1 (R179): 24 - W ways of 256 lines. -/
def Core.l1Size (c : Core) : Nat := 256 * (24 - c.ways)

/-- A block read by a wave: what L1 does and what is counted (R438). -/
def State.l1Load (core ctx cache : Nat) (s : State) (b : Nat) : State :=
  let c := s.core core
  if c.l1.contains b && cache != 2 then s
  else
    let s := (if cache = 2 then s else s.perf core ctx 6 1).perf core ctx 10 1
    if cache = 0 then
      -- R24: the refill checks the whole block, and puts a sound line in the place of an earlier one
      let s := s.checkMem (s.flawsAt (some core) false (256 * b) 256)
      let s : State := { s with mem := { s.mem with flaws := s.mem.flaws.filter fun f => !(f.place = 4 && f.unit = core && f.addr / 256 = b) } }
      s.onCore core fun c => { c with l1 := (c.l1 ++ [b]).drop (c.l1.length + 1 - c.l1Size) }
    else s

/-- The blocks of nominal memory that pieces touch. -/
def pieceBlocks (ps : List Piece) : List Nat :=
  ascending (ps.flatMap fun p => if p.x.isHost then [] else blocksOf p.x.pa p.n)

/-- R38, R42: the blocks of an atomic or of a checked write reach their slices, and their open entries close. -/
def State.closePieces (s : State) (ps : List Piece) : State :=
  (pieceBlocks ps).foldl State.reachBlock s

/-- R392: the virtual lines by which a context's pieces name the blocks that L1 holds. -/
def Core.tagLines (c : Core) (ctx : Nat) (ps : List Piece) : Core :=
  let new := ps.flatMap fun p => if p.x.isHost then [] else
    (blocksOf p.x.pa p.n).map fun b => { block := b, ctx := ctx, va := alignDown (p.va + (256 * b - p.x.pa)) 256 : LineTag }
  { c with l1Tags := ((c.l1Tags ++ new).filter fun t => c.l1.contains t.block).eraseDups }

/-- R189: a load's blocks, each once. -/
def State.l1Loads (s : State) (core ctx cache : Nat) (ps : List Piece) : State :=
  ((pieceBlocks ps).foldl (State.l1Load core ctx cache) s).onCore core fun c => c.tagLines ctx ps

/-- R189, R392: a store's blocks; one that L1 held stays held with the new content unless CACHE is 2. -/
def State.l1Stores (s : State) (core ctx cache : Nat) (held : List Nat) (ps : List Piece) : State :=
  let bs := pieceBlocks ps
  let s := bs.foldl (fun s _ => s.perf core ctx 10 1) s
  let keep := held.filter fun b => bs.contains b && cache != 2
  if keep.isEmpty then s else s.onCore core fun c => { c with l1 := c.l1 ++ keep : Core }.tagLines ctx ps

/-! ### Reading and writing translated pieces -/

/-- The bytes of translated pieces, in order; of the blocks `hits` L1 answers (R36). -/
def State.readPieces (s : State) (ps : List Piece) (hits : List Nat := []) : List Byte × State :=
  ps.foldl (fun (acc, s) p =>
    let (b, s) := State.readPhys s p.x.pa p.n hits
    (acc ++ b, s)) (([] : List Byte), s)

/-- The parts of a write of bytes to translated pieces. -/
def partsOf : List Piece → List Byte → List WritePart
  | [], _ => []
  | p :: ps, d => { pa := p.x.pa, data := d.take p.n, comp := some p.x.comp } :: partsOf ps (d.drop p.n)

end Sys2Proof.Machine
end

