-- ==== Sys2Proof/Decode.lean ====
section
/-!
DEFINITION. From words to instructions and back: the layouts of spec/13 R313 to R317 and the numbers of the opcode
map (R329). `decodeWords` is total; `encode` writes the words of an instruction from the same layouts.
The word noncomputable on the decoder is no statement about it: Lean's code generator has no tag for a constructor of
an inductive type past the 244th, and `Instr` has one per row of the table. The kernel evaluates the decoder.
-/
namespace Sys2Proof

/-- What the decoder answers. -/
inductive Decoded where
  /-- an instruction and the number of its words -/
  | ok (i : Instr) (n : Nat)
  /-- not an instruction: the lowest cause of R333 that the words raise, the number of words LEN gives, and the
  fields if the words name a row of the map -/
  | bad (cause : Nat) (n : Nat) (i : Option Instr)
  /-- fewer words than LEN gives -/
  | short (n : Nat)
  deriving DecidableEq, Repr

/-- R313: the words an instruction has, by its LEN. -/
def lenWords (len : Nat) : Nat := if len = 0 then 1 else if len = 3 then 5 else 3

/-- R314: the controls of word 0. -/
def ctlOf (w : Nat) : Ctl where
  sy := bit w 31
  guard := if bit w 14 then some { depth := BitVec.ofNat 3 (bits w 15 3), neg := bit w 18 } else none
  stl := BitVec.ofNat 4 (bits w 10 4)

/-- R161: without GE, a nonzero GP or GN raises 0x03. -/
def guardFate (w : Nat) : List Nat := if !bit w 14 && bits w 15 4 != 0 then [0x03] else []

/-- The fields of a short form. -/
def shortOf (w : Nat) (lit : Option W64) : ShortF where
  ctl := ctlOf w
  a := BitVec.ofNat 6 (bits w 19 6)
  b := BitVec.ofNat 6 (bits w 25 6)
  lit := lit

/-- R315: the fields of a long form. -/
def longOf (w x1 x2 : Nat) (lit : Option W64) : LongF where
  ctl := ctlOf w
  md := BitVec.ofNat 10 (bits x1 22 10)
  sub := BitVec.ofNat 8 (bits x1 14 8)
  c := BitVec.ofNat 7 (bits x1 7 7)
  d := BitVec.ofNat 7 (bits x1 0 7)
  imm9 := BitVec.ofNat 9 (bits x2 23 9)
  tw := BitVec.ofNat 6 (bits x2 17 6)
  ts := BitVec.ofNat 3 (bits x2 14 3)
  lb := BitVec.ofNat 7 (bits x2 7 7)
  la := BitVec.ofNat 7 (bits x2 0 7)
  lit := lit

/-- The short forms of the opcode map (R329), br and call apart. -/
noncomputable def mkShort (op : Nat) (f : ShortF) : Option Instr :=
  match op with
  | 0 => some (.nopShort f)
  | 2 => some (.briShort f)
  | 4 => some (.calliShort f)
  | 5 => some (.retShort f)
  | 6 => some (.exitShort f)
  | 7 => some (.yieldlShort f)
  | 8 => some (.tfenceShort f)
  | 9 => some (.trapShort f)
  | 10 => some (.brkShort f)
  | 16 => some (.iaddShort f)
  | 17 => some (.isubShort f)
  | 18 => some (.imulShort f)
  | 21 => some (.iminShort f)
  | 22 => some (.imaxShort f)
  | 23 => some (.iabsShort f)
  | 24 => some (.icmpShort f)
  | 25 => some (.iaddsatShort f)
  | 26 => some (.leaShort f)
  | 27 => some (.selShort f)
  | 28 => some (.movShort f)
  | 29 => some (.iadd64Short f)
  | 31 => some (.isub64Short f)
  | 32 => some (.andShort f)
  | 33 => some (.orShort f)
  | 34 => some (.xorShort f)
  | 35 => some (.notShort f)
  | 36 => some (.shlShort f)
  | 37 => some (.shrShort f)
  | 38 => some (.sarShort f)
  | 39 => some (.rotShort f)
  | 40 => some (.popcShort f)
  | 41 => some (.clzShort f)
  | 42 => some (.ctzShort f)
  | 43 => some (.brevShort f)
  | 48 => some (.pandShort f)
  | 49 => some (.porShort f)
  | 50 => some (.pxorShort f)
  | 51 => some (.pnotShort f)
  | 52 => some (.ppushShort f)
  | 53 => some (.pdropShort f)
  | 54 => some (.pgetShort f)
  | 55 => some (.rdspShort f)
  | 56 => some (.wrspShort f)
  | 57 => some (.rdlaneShort f)
  | 58 => some (.wrlaneShort f)
  | 64 => some (.faddShort f)
  | 65 => some (.fsubShort f)
  | 66 => some (.fmulShort f)
  | 68 => some (.fminShort f)
  | 69 => some (.fmaxShort f)
  | 70 => some (.fcmpShort f)
  | 76 => some (.frndShort f)
  | 77 => some (.ffractShort f)
  | 78 => some (.fclassShort f)
  | 79 => some (.fscaleShort f)
  | 80 => some (.hadd2Short f)
  | 81 => some (.hmul2Short f)
  | 83 => some (.hmin2Short f)
  | 84 => some (.hmax2Short f)
  | 85 => some (.hcmp2Short f)
  | 96 => some (.cvtShort f)
  | 99 => some (.sgnpkShort f)
  | 100 => some (.sgnexShort f)
  | 102 => some (.rnglShort f)
  | 112 => some (.xaddShort f)
  | 113 => some (.xsubShort f)
  | 114 => some (.xmulShort f)
  | 116 => some (.xsqrShort f)
  | 118 => some (.xminShort f)
  | 119 => some (.xmaxShort f)
  | 120 => some (.xabsShort f)
  | 121 => some (.xhullShort f)
  | 122 => some (.xmeetShort f)
  | 123 => some (.xtestShort f)
  | 124 => some (.xmkShort f)
  | 125 => some (.xmidShort f)
  | 128 => some (.shflShort f)
  | 129 => some (.bcastShort f)
  | 130 => some (.voteShort f)
  | 131 => some (.reduxShort f)
  | 132 => some (.scanShort f)
  | 133 => some (.ddxShort f)
  | 134 => some (.ddyShort f)
  | 136 => some (.mcountShort f)
  | 137 => some (.lanesShort f)
  | 177 => some (.barShort f)
  | 184 => some (.isyncShort f)
  | 185 => some (.wtokShort f)
  | 186 => some (.ebarShort f)
  | 208 => some (.mxacqShort f)
  | 209 => some (.mxrelShort f)
  | 216 => some (.mxwaitShort f)
  | 227 => some (.pcloseShort f)
  | 240 => some (.tretShort f)
  | 241 => some (.haltShort f)
  | 242 => some (.dbgmkShort f)
  | 243 => some (.perfrdShort f)
  | _ => none

/-- The long forms of the opcode map (R329), with the SUB and MOD bits that pick a row of the table. -/
noncomputable def mkLong (op : Nat) (f : LongF) : Option Instr :=
  match op with
  | 0 => some (.nop f)
  | 1 => some (.br (.long f))
  | 2 => some (.bri f)
  | 3 => some (.call (.long f))
  | 4 => some (.calli f)
  | 5 => some (.ret f)
  | 6 => some (.exit f)
  | 7 => some (.yieldl f)
  | 8 => some (.tfence f)
  | 9 => some (.trap f)
  | 10 => some (.brk f)
  | 16 => some (.iadd f)
  | 17 => some (.isub f)
  | 18 => some (.imul f)
  | 19 => some (.imad f)
  | 20 => some (.idiv f)
  | 21 => some (.imin f)
  | 22 => some (.imax f)
  | 23 => some (.iabs f)
  | 24 => some (.icmp f)
  | 25 => some (.iaddsat f)
  | 26 => some (.lea f)
  | 27 => some (.sel f)
  | 28 => some (.mov f)
  | 29 => some (.iadd64 f)
  | 30 => some (.imad64 f)
  | 31 => some (.isub64 f)
  | 32 => some (.and f)
  | 33 => some (.or f)
  | 34 => some (.xor f)
  | 35 => some (.not f)
  | 36 => some (.shl f)
  | 37 => some (.shr f)
  | 38 => some (.sar f)
  | 39 => some (.rot f)
  | 40 => some (.popc f)
  | 41 => some (.clz f)
  | 42 => some (.ctz f)
  | 43 => some (.brev f)
  | 44 => some (.bfx f)
  | 45 => some (.bfi f)
  | 46 => some (.shf64 f)
  | 47 => some (.bsel f)
  | 48 => some (.pand f)
  | 49 => some (.por f)
  | 50 => some (.pxor f)
  | 51 => some (.pnot f)
  | 52 => some (.ppush f)
  | 53 => some (.pdrop f)
  | 54 => some (.pget f)
  | 55 => some (.rdsp f)
  | 56 => some (.wrsp f)
  | 57 => some (.rdlane f)
  | 58 => some (.wrlane f)
  | 64 => some (.fadd f)
  | 65 => some (.fsub f)
  | 66 => some (.fmul f)
  | 67 => some (.fma f)
  | 68 => some (.fmin f)
  | 69 => some (.fmax f)
  | 70 => some (.fcmp f)
  | 71 => some (if f.sub.toNat = 1 then .fdivApx f else .fdiv f)
  | 72 => some (.fsqrt f)
  | 73 => some (.frcp f)
  | 74 => some (.frsq f)
  | 75 => some (.ftrn f)
  | 76 => some (.frnd f)
  | 77 => some (.ffract f)
  | 78 => some (.fclass f)
  | 79 => some (.fscale f)
  | 80 => some (.hadd2 f)
  | 81 => some (.hmul2 f)
  | 82 => some (.hfma2 f)
  | 83 => some (.hmin2 f)
  | 84 => some (.hmax2 f)
  | 85 => some (.hcmp2 f)
  | 86 => some (.hdot2 f)
  | 96 => some (.cvt f)
  | 97 => some (.cvtn f)
  | 98 => some (.cvtw f)
  | 99 => some (.sgnpk f)
  | 100 => some (.sgnex f)
  | 101 => some (if f.sub.toNat = 1 then .scl32 f else .scl f)
  | 102 => some (.rngl f)
  | 112 => some (.xadd f)
  | 113 => some (.xsub f)
  | 114 => some (.xmul f)
  | 115 => some (.xdiv f)
  | 116 => some (.xsqr f)
  | 117 => some (.xsqrt f)
  | 118 => some (.xmin f)
  | 119 => some (.xmax f)
  | 120 => some (.xabs f)
  | 121 => some (.xhull f)
  | 122 => some (.xmeet f)
  | 123 => some (.xtest f)
  | 124 => some (.xmk f)
  | 125 => some (.xmid f)
  | 128 => some (.shfl f)
  | 129 => some (.bcast f)
  | 130 => some (.vote f)
  | 131 => some (.redux f)
  | 132 => some (.scan f)
  | 133 => some (.ddx f)
  | 134 => some (.ddy f)
  | 135 => some (.regroup f)
  | 136 => some (.mcount f)
  | 137 => some (.lanes f)
  | 144 => some (.ld f)
  | 145 => some (.st f)
  | 146 => some (.lds f)
  | 147 => some (.sts f)
  | 148 => some (.ldw f)
  | 149 => some (.ldk f)
  | 150 => some (.stk f)
  | 151 => some (.pref f)
  | 152 => some (.cflush f)
  | 153 => some (.cinv f)
  | 154 => some (.cresize f)
  | 155 => some (.rrot f)
  | 156 => some (.wsync f)
  | 157 => some (.ldfut f)
  | 158 => some (.stfill f)
  | 159 => some (.streset f)
  | 160 => some (.atom f)
  | 161 => some (.atoms f)
  | 162 => some (.red f)
  | 163 => some (.reds f)
  | 164 => some (.cas f)
  | 165 => some (.cass f)
  | 176 => some (if f.sub.toNat = 1 then .fenceUn f else .fence f)
  | 177 => some (if f.sub.toNat = 1 then .barCnt f else .bar f)
  | 178 => some (.barinit f)
  | 179 => some (.barrive f)
  | 180 => some (.barwait f)
  | 181 => some (.bartest f)
  | 182 => some (.waddr f)
  | 183 => some (.icinv f)
  | 184 => some (.isync f)
  | 185 => some (.wtok f)
  | 186 => some (.ebar f)
  | 192 => some (.cpy f)
  | 193 => some (.cpy2d f)
  | 194 => some (.cpyb f)
  | 195 => some (.qput f)
  | 196 => some (.qseq f)
  | 197 => some (.put f)
  | 198 => some (.msg f)
  | 199 => some (.cpwait f)
  | 208 => some (.mxacq f)
  | 209 => some (.mxrel f)
  | 210 => some (if bits f.sub.toNat 0 4 = 9 then .mmaSg1 f else .mma f)
  | 211 => some (if bit f.sub.toNat 5 then .mmas32 f else .mmas f)
  | 212 => some (.acczero f)
  | 213 => some (.accrd f)
  | 214 => some (.accst f)
  | 215 => some (.accld f)
  | 216 => some (.mxwait f)
  | 224 => some (.tspawn f)
  | 225 => some (.targ f)
  | 226 => some (.tqry f)
  | 227 => some (.pclose f)
  | 228 => some (.launch f)
  | 229 => some (if bit f.md.toNat 3 then .mchAff f else .mch f)
  | 230 => some (.mchres f)
  | 231 => some (.rayq f)
  | 232 => some (.rayres f)
  | 233 => some (if f.sub.toNat = 1 then .raysusMarch f else .raysus f)
  | 234 => some (.lant f)
  | 235 => some (.bfetch f)
  | 236 => some (.fbrun f)
  | 237 => some (.prune f)
  | 238 => some (.temit f)
  | 239 => some (if f.sub.toNat = 1 then .memitPrim f else .memitVert f)
  | 240 => some (.tret f)
  | 241 => some (.halt f)
  | 242 => some (.dbgmk f)
  | 243 => some (.perfrd f)
  | _ => none

/-- The long form of an opcode with every field zero: whether the map assigns the opcode at all (R333). -/
noncomputable def opKnown (op : Nat) : Bool := (mkLong op (longOf 0 0 0 none)).isSome

/-- The instruction if no cause remains, else the lowest. -/
def judge (n : Nat) (extra : List Nat) (i : Instr) : Decoded :=
  match lowest (extra ++ i.fates) with
  | none => .ok i n
  | some c => .bad c n (some i)

/-- R316, R330: a short form, with or without its literal. -/
noncomputable def decodeShort (w op n : Nat) (lit : Option W64) : Decoded :=
  if op = 1 || op = 3 then
    match lit with
    | none =>
      let f : ShortBr := { ctl := ctlOf w, disp := BitVec.ofNat 12 (bits w 19 12) }
      judge n (guardFate w) (if op = 1 then .brShort f else .callShort f)
    | some v =>
      let f : BrF := .lit (ctlOf w) v
      judge n (guardFate w ++ (if bits w 19 12 = 0 then [] else [0x03])) (if op = 1 then .br f else .call f)
  else
    match mkShort op (shortOf w lit) with
    | some i => judge n (guardFate w) i
    | none => .bad (if opKnown op then 0x03 else 0x01) n none

/-- R316: a long form, whose word-0 A and B must be zero. -/
noncomputable def decodeLong (w x1 x2 op n : Nat) (lit : Option W64) : Decoded :=
  match mkLong op (longOf w x1 x2 lit) with
  | some i => judge n (guardFate w ++ (if bits w 19 12 = 0 then [] else [0x03])) i
  | none => .bad 0x01 n none

/-- The 64-bit literal of two words (R313). -/
def litOf (lo hi : W32) : W64 := BitVec.ofNat 64 (lo.toNat + 2 ^ 32 * hi.toNat)

/-- R313: the instruction at the head of a list of words. -/
noncomputable def decodeWords (ws : List W32) : Decoded :=
  match ws with
  | [] => .short 1
  | w :: rest =>
    let v := w.toNat
    let len := bits v 0 2
    let op := bits v 2 8
    if len = 0 then decodeShort v op 1 none
    else match len, rest with
      | 1, x1 :: x2 :: _ => decodeLong v x1.toNat x2.toNat op 3 none
      | 2, l :: h :: _ => decodeShort v op 3 (some (litOf l h))
      | 3, x1 :: x2 :: l :: h :: _ => decodeLong v x1.toNat x2.toNat op 5 (some (litOf l h))
      | _, _ => .short (lenWords len)

/-- R333: the causes that the fields of X1 raise, whatever X2 holds. -/
def Row.x1Causes (r : Row) (v : View) : List Nat :=
  let kd := v.d.isK && !r.wave && (match r.d v with | .none => false | .namedOnly _ => false | _ => true)
  (if r.sub v.sub then [] else [0x02])
  ++ (if r.mod v then [] else [0x03])
  ++ (if r.x && v.step != 1 then [0x06] else [])
  ++ srcCauses kd (r.c v) v.cRaw v.c v.lit.isSome
  ++ dstCauses (r.d v) v.dRaw v.d

/-- R313, R333: an instruction whose last words lie past the end of the heap: the lowest of 0x0B and the causes that the words which
are there raise by themselves, and the instruction with zeros for the others. -/
noncomputable def decodePart (ws : List W32) : Nat × Option Instr :=
  match ws with
  | [] => (0x0B, none)
  | w :: rest =>
    let v := w.toNat
    let len := bits v 0 2
    let op := bits v 2 8
    let long := len = 1 || len = 3
    let i : Option Instr := match rest with
      | x1 :: x2 :: _ => if long then mkLong op (longOf v x1.toNat x2.toNat (if len = 3 then some 0 else none)) else mkShort op (shortOf v (some 0))
      | x1 :: _ => if long then mkLong op (longOf v x1.toNat 0 (if len = 3 then some 0 else none)) else mkShort op (shortOf v (some 0))
      | [] => if long then none else mkShort op (shortOf v (some 0))
    let known : List Nat := match i.bind Instr.row with
      | none => []
      | some (r, x) => if !long || 2 ≤ rest.length then r.causes x else r.x1Causes x
    let short := if long || op = 1 || op = 3 || (mkShort op (shortOf v (some 0))).isSome then [] else [0x03]
    let ab := if (long || op = 1 || op = 3) && bits v 19 12 != 0 then [0x03] else []
    ((lowest ((if opKnown op then short else [0x01]) ++ guardFate v ++ ab ++ known ++ [0x0B])).getD 0x0B, i)

/-- The little-endian words of a list of bytes (R3); a last partial word is dropped. -/
def wordsOf : List Byte → List W32
  | a :: b :: c :: d :: rest => BitVec.ofNat 32 (ofBytes [a, b, c, d]) :: wordsOf rest
  | _ => []

/-- The instruction at the head of a list of bytes. -/
noncomputable def decodeBytes (bs : List Byte) : Decoded := decodeWords (wordsOf bs)

/-- The bytes of an instruction whose bits are `w`, zero above `nbits` up to the longest instruction (R313). -/
def tableBytes (nbits w : Nat) : List Byte := toBytes 20 (w % 2 ^ nbits)

/-- The instruction that the decoder reads from an instruction whose bits are `w`. -/
noncomputable def decodeTableWord (nbits w : Nat) : Option Instr :=
  match decodeBytes (tableBytes nbits w) with
  | .ok i _ => some i
  | _ => none

/-! ### The encoder -/

/-- R314. -/
def word0 (len op : Nat) (c : Ctl) (a b : Nat) : W32 :=
  let g := match c.guard with
    | none => 0
    | some g => 16384 + 32768 * g.depth.toNat + 262144 * b2n g.neg
  BitVec.ofNat 32 (len + 4 * op + 1024 * c.stl.toNat + g + 524288 * a + 33554432 * b + 2147483648 * b2n c.sy)

/-- The two words of a literal. -/
def litWords (v : W64) : List W32 := [BitVec.ofNat 32 (v.toNat % 2 ^ 32), BitVec.ofNat 32 (v.toNat / 2 ^ 32)]

def encodeShort (op : Nat) (f : ShortF) : List W32 :=
  match f.lit with
  | none => [word0 0 op f.ctl f.a.toNat f.b.toNat]
  | some v => word0 2 op f.ctl f.a.toNat f.b.toNat :: litWords v

def encodeLong (op : Nat) (f : LongF) : List W32 :=
  let x1 := BitVec.ofNat 32 (f.d.toNat + 128 * f.c.toNat + 16384 * f.sub.toNat + 4194304 * f.md.toNat)
  let x2 := BitVec.ofNat 32
    (f.la.toNat + 128 * f.lb.toNat + 16384 * f.ts.toNat + 131072 * f.tw.toNat + 8388608 * f.imm9.toNat)
  match f.lit with
  | none => [word0 1 op f.ctl 0 0, x1, x2]
  | some v => word0 3 op f.ctl 0 0 :: x1 :: x2 :: litWords v

def encodeShortBr (op : Nat) (f : ShortBr) : List W32 :=
  [word0 0 op f.ctl (f.disp.toNat % 64) (f.disp.toNat / 64)]

def encodeBr (op : Nat) (f : BrF) : List W32 :=
  match f with
  | .long f => encodeLong op f
  | .lit ctl v => word0 2 op ctl 0 0 :: litWords v

/-- The words of an instruction, in address order; none for the steps of the other agents. -/
def encode : Instr → List W32
  | .nop f => encodeLong 0 f
  | .nopShort f => encodeShort 0 f
  | .br f => encodeBr 1 f
  | .brShort f => encodeShortBr 1 f
  | .bri f => encodeLong 2 f
  | .briShort f => encodeShort 2 f
  | .call f => encodeBr 3 f
  | .callShort f => encodeShortBr 3 f
  | .calli f => encodeLong 4 f
  | .calliShort f => encodeShort 4 f
  | .ret f => encodeLong 5 f
  | .retShort f => encodeShort 5 f
  | .exit f => encodeLong 6 f
  | .exitShort f => encodeShort 6 f
  | .yieldl f => encodeLong 7 f
  | .yieldlShort f => encodeShort 7 f
  | .tfence f => encodeLong 8 f
  | .tfenceShort f => encodeShort 8 f
  | .trap f => encodeLong 9 f
  | .trapShort f => encodeShort 9 f
  | .brk f => encodeLong 10 f
  | .brkShort f => encodeShort 10 f
  | .iadd f => encodeLong 16 f
  | .iaddShort f => encodeShort 16 f
  | .isub f => encodeLong 17 f
  | .isubShort f => encodeShort 17 f
  | .imul f => encodeLong 18 f
  | .imulShort f => encodeShort 18 f
  | .imad f => encodeLong 19 f
  | .idiv f => encodeLong 20 f
  | .imin f => encodeLong 21 f
  | .iminShort f => encodeShort 21 f
  | .imax f => encodeLong 22 f
  | .imaxShort f => encodeShort 22 f
  | .iabs f => encodeLong 23 f
  | .iabsShort f => encodeShort 23 f
  | .icmp f => encodeLong 24 f
  | .icmpShort f => encodeShort 24 f
  | .iaddsat f => encodeLong 25 f
  | .iaddsatShort f => encodeShort 25 f
  | .lea f => encodeLong 26 f
  | .leaShort f => encodeShort 26 f
  | .sel f => encodeLong 27 f
  | .selShort f => encodeShort 27 f
  | .mov f => encodeLong 28 f
  | .movShort f => encodeShort 28 f
  | .iadd64 f => encodeLong 29 f
  | .iadd64Short f => encodeShort 29 f
  | .imad64 f => encodeLong 30 f
  | .isub64 f => encodeLong 31 f
  | .isub64Short f => encodeShort 31 f
  | .and f => encodeLong 32 f
  | .andShort f => encodeShort 32 f
  | .or f => encodeLong 33 f
  | .orShort f => encodeShort 33 f
  | .xor f => encodeLong 34 f
  | .xorShort f => encodeShort 34 f
  | .not f => encodeLong 35 f
  | .notShort f => encodeShort 35 f
  | .shl f => encodeLong 36 f
  | .shlShort f => encodeShort 36 f
  | .shr f => encodeLong 37 f
  | .shrShort f => encodeShort 37 f
  | .sar f => encodeLong 38 f
  | .sarShort f => encodeShort 38 f
  | .rot f => encodeLong 39 f
  | .rotShort f => encodeShort 39 f
  | .popc f => encodeLong 40 f
  | .popcShort f => encodeShort 40 f
  | .clz f => encodeLong 41 f
  | .clzShort f => encodeShort 41 f
  | .ctz f => encodeLong 42 f
  | .ctzShort f => encodeShort 42 f
  | .brev f => encodeLong 43 f
  | .brevShort f => encodeShort 43 f
  | .bfx f => encodeLong 44 f
  | .bfi f => encodeLong 45 f
  | .shf64 f => encodeLong 46 f
  | .bsel f => encodeLong 47 f
  | .pand f => encodeLong 48 f
  | .pandShort f => encodeShort 48 f
  | .por f => encodeLong 49 f
  | .porShort f => encodeShort 49 f
  | .pxor f => encodeLong 50 f
  | .pxorShort f => encodeShort 50 f
  | .pnot f => encodeLong 51 f
  | .pnotShort f => encodeShort 51 f
  | .ppush f => encodeLong 52 f
  | .ppushShort f => encodeShort 52 f
  | .pdrop f => encodeLong 53 f
  | .pdropShort f => encodeShort 53 f
  | .pget f => encodeLong 54 f
  | .pgetShort f => encodeShort 54 f
  | .rdsp f => encodeLong 55 f
  | .rdspShort f => encodeShort 55 f
  | .wrsp f => encodeLong 56 f
  | .wrspShort f => encodeShort 56 f
  | .rdlane f => encodeLong 57 f
  | .rdlaneShort f => encodeShort 57 f
  | .wrlane f => encodeLong 58 f
  | .wrlaneShort f => encodeShort 58 f
  | .fadd f => encodeLong 64 f
  | .faddShort f => encodeShort 64 f
  | .fsub f => encodeLong 65 f
  | .fsubShort f => encodeShort 65 f
  | .fmul f => encodeLong 66 f
  | .fmulShort f => encodeShort 66 f
  | .fma f => encodeLong 67 f
  | .fmin f => encodeLong 68 f
  | .fminShort f => encodeShort 68 f
  | .fmax f => encodeLong 69 f
  | .fmaxShort f => encodeShort 69 f
  | .fcmp f => encodeLong 70 f
  | .fcmpShort f => encodeShort 70 f
  | .fdiv f => encodeLong 71 f
  | .fdivApx f => encodeLong 71 f
  | .fsqrt f => encodeLong 72 f
  | .frcp f => encodeLong 73 f
  | .frsq f => encodeLong 74 f
  | .ftrn f => encodeLong 75 f
  | .frnd f => encodeLong 76 f
  | .frndShort f => encodeShort 76 f
  | .ffract f => encodeLong 77 f
  | .ffractShort f => encodeShort 77 f
  | .fclass f => encodeLong 78 f
  | .fclassShort f => encodeShort 78 f
  | .fscale f => encodeLong 79 f
  | .fscaleShort f => encodeShort 79 f
  | .hadd2 f => encodeLong 80 f
  | .hadd2Short f => encodeShort 80 f
  | .hmul2 f => encodeLong 81 f
  | .hmul2Short f => encodeShort 81 f
  | .hfma2 f => encodeLong 82 f
  | .hmin2 f => encodeLong 83 f
  | .hmin2Short f => encodeShort 83 f
  | .hmax2 f => encodeLong 84 f
  | .hmax2Short f => encodeShort 84 f
  | .hcmp2 f => encodeLong 85 f
  | .hcmp2Short f => encodeShort 85 f
  | .hdot2 f => encodeLong 86 f
  | .cvt f => encodeLong 96 f
  | .cvtShort f => encodeShort 96 f
  | .cvtn f => encodeLong 97 f
  | .cvtw f => encodeLong 98 f
  | .sgnpk f => encodeLong 99 f
  | .sgnpkShort f => encodeShort 99 f
  | .sgnex f => encodeLong 100 f
  | .sgnexShort f => encodeShort 100 f
  | .scl f => encodeLong 101 f
  | .scl32 f => encodeLong 101 f
  | .rngl f => encodeLong 102 f
  | .rnglShort f => encodeShort 102 f
  | .xadd f => encodeLong 112 f
  | .xaddShort f => encodeShort 112 f
  | .xsub f => encodeLong 113 f
  | .xsubShort f => encodeShort 113 f
  | .xmul f => encodeLong 114 f
  | .xmulShort f => encodeShort 114 f
  | .xdiv f => encodeLong 115 f
  | .xsqr f => encodeLong 116 f
  | .xsqrShort f => encodeShort 116 f
  | .xsqrt f => encodeLong 117 f
  | .xmin f => encodeLong 118 f
  | .xminShort f => encodeShort 118 f
  | .xmax f => encodeLong 119 f
  | .xmaxShort f => encodeShort 119 f
  | .xabs f => encodeLong 120 f
  | .xabsShort f => encodeShort 120 f
  | .xhull f => encodeLong 121 f
  | .xhullShort f => encodeShort 121 f
  | .xmeet f => encodeLong 122 f
  | .xmeetShort f => encodeShort 122 f
  | .xtest f => encodeLong 123 f
  | .xtestShort f => encodeShort 123 f
  | .xmk f => encodeLong 124 f
  | .xmkShort f => encodeShort 124 f
  | .xmid f => encodeLong 125 f
  | .xmidShort f => encodeShort 125 f
  | .shfl f => encodeLong 128 f
  | .shflShort f => encodeShort 128 f
  | .bcast f => encodeLong 129 f
  | .bcastShort f => encodeShort 129 f
  | .vote f => encodeLong 130 f
  | .voteShort f => encodeShort 130 f
  | .redux f => encodeLong 131 f
  | .reduxShort f => encodeShort 131 f
  | .scan f => encodeLong 132 f
  | .scanShort f => encodeShort 132 f
  | .ddx f => encodeLong 133 f
  | .ddxShort f => encodeShort 133 f
  | .ddy f => encodeLong 134 f
  | .ddyShort f => encodeShort 134 f
  | .regroup f => encodeLong 135 f
  | .mcount f => encodeLong 136 f
  | .mcountShort f => encodeShort 136 f
  | .lanes f => encodeLong 137 f
  | .lanesShort f => encodeShort 137 f
  | .ld f => encodeLong 144 f
  | .st f => encodeLong 145 f
  | .lds f => encodeLong 146 f
  | .sts f => encodeLong 147 f
  | .ldw f => encodeLong 148 f
  | .ldk f => encodeLong 149 f
  | .stk f => encodeLong 150 f
  | .ldfut f => encodeLong 157 f
  | .stfill f => encodeLong 158 f
  | .streset f => encodeLong 159 f
  | .pref f => encodeLong 151 f
  | .cflush f => encodeLong 152 f
  | .cinv f => encodeLong 153 f
  | .cresize f => encodeLong 154 f
  | .rrot f => encodeLong 155 f
  | .wsync f => encodeLong 156 f
  | .atom f => encodeLong 160 f
  | .atoms f => encodeLong 161 f
  | .red f => encodeLong 162 f
  | .reds f => encodeLong 163 f
  | .cas f => encodeLong 164 f
  | .cass f => encodeLong 165 f
  | .fence f => encodeLong 176 f
  | .fenceUn f => encodeLong 176 f
  | .bar f => encodeLong 177 f
  | .barShort f => encodeShort 177 f
  | .barCnt f => encodeLong 177 f
  | .barinit f => encodeLong 178 f
  | .barrive f => encodeLong 179 f
  | .barwait f => encodeLong 180 f
  | .bartest f => encodeLong 181 f
  | .waddr f => encodeLong 182 f
  | .icinv f => encodeLong 183 f
  | .isync f => encodeLong 184 f
  | .isyncShort f => encodeShort 184 f
  | .wtok f => encodeLong 185 f
  | .wtokShort f => encodeShort 185 f
  | .ebar f => encodeLong 186 f
  | .ebarShort f => encodeShort 186 f
  | .cpy f => encodeLong 192 f
  | .cpy2d f => encodeLong 193 f
  | .cpyb f => encodeLong 194 f
  | .qput f => encodeLong 195 f
  | .qseq f => encodeLong 196 f
  | .put f => encodeLong 197 f
  | .msg f => encodeLong 198 f
  | .cpwait f => encodeLong 199 f
  | .mxacq f => encodeLong 208 f
  | .mxacqShort f => encodeShort 208 f
  | .mxrel f => encodeLong 209 f
  | .mxrelShort f => encodeShort 209 f
  | .mxwait f => encodeLong 216 f
  | .mxwaitShort f => encodeShort 216 f
  | .mma f => encodeLong 210 f
  | .mmaSg1 f => encodeLong 210 f
  | .mmas f => encodeLong 211 f
  | .mmas32 f => encodeLong 211 f
  | .acczero f => encodeLong 212 f
  | .accrd f => encodeLong 213 f
  | .accst f => encodeLong 214 f
  | .accld f => encodeLong 215 f
  | .tspawn f => encodeLong 224 f
  | .targ f => encodeLong 225 f
  | .tqry f => encodeLong 226 f
  | .pclose f => encodeLong 227 f
  | .pcloseShort f => encodeShort 227 f
  | .launch f => encodeLong 228 f
  | .mch f => encodeLong 229 f
  | .mchAff f => encodeLong 229 f
  | .mchres f => encodeLong 230 f
  | .rayq f => encodeLong 231 f
  | .rayres f => encodeLong 232 f
  | .raysus f => encodeLong 233 f
  | .raysusMarch f => encodeLong 233 f
  | .lant f => encodeLong 234 f
  | .bfetch f => encodeLong 235 f
  | .fbrun f => encodeLong 236 f
  | .prune f => encodeLong 237 f
  | .temit f => encodeLong 238 f
  | .memitVert f => encodeLong 239 f
  | .memitPrim f => encodeLong 239 f
  | .tret f => encodeLong 240 f
  | .tretShort f => encodeShort 240 f
  | .halt f => encodeLong 241 f
  | .haltShort f => encodeShort 241 f
  | .dbgmk f => encodeLong 242 f
  | .dbgmkShort f => encodeShort 242 f
  | .perfrd f => encodeLong 243 f
  | .perfrdShort f => encodeShort 243 f
  | .powerLimitWrite _ => []
  | .coreClockStep _ => []
  | .timestampTick => []
  | .tsNowWrite _ => []
  | .coldReset => []
  | .warmReset => []
  | .hotReset => []
  | .functionLevelReset => []
  | .loadfw => []
  | .extend => []
  | .attest => []
  | .getkey => []
  | .mailboxComplete => []
  | .hostLinkTraining _ _ => []
  | .wafoloLinkTraining _ _ _ => []
  | .flitReceive _ _ => []
  | .flitReplay _ => []
  | .linkDown _ => []
  | .counterReadClear _ => []
  | .registerWrite _ _ => []
  | .memCfgWrite _ => []
  | .memReformat => []
  | .thresholdWrite _ _ => []
  | .wcbWaitExpire _ => []
  | .blnStateObserve _ => []
  | .blnEvaluate => []
  | .sweepVisit => []
  | .uncheckedWriteResume => []
  | .blnKick => []
  | .donorLimitWrite _ => []
  | .donorBaseWrite _ => []
  | .windowTableWrite _ _ _ => []
  | .writePacketReceive _ => []
  | .acknowledgeReceive _ => []
  | .fencePacketReceive _ _ => []
  | .fenceDoneReceive _ => []
  | .messagePacketReceive _ _ => []
  | .hostApRead _ _ => []
  | .hostApWrite _ _ => []
  | .messageSlotWrite _ _ => []
  | .messageAccept => []
  | .waitingMessageFire => []
  | .messageRematch => []
  | .ctxEnable _ => []
  | .ctxStop _ => []
  | .ctxResume _ => []
  | .ctxKill _ => []
  | .ctxStoppedReached _ => []
  | .ctxOffReached _ => []
  | .ctxDescriptorWrite _ _ _ => []
  | .armWord0Write _ _ => []
  | .armWordWrite _ _ _ => []
  | .fqCidxObserve _ => []
  | .tlbInvalidateRange => []
  | .tlbInvalidateContext => []
  | .tlbInvalidateAll => []
  | .tlbInvalidateComplete => []
  | .graphSubmit => []
  | .graphCheckDone => []
  | .graphNodeStart _ _ => []
  | .graphNodeComplete _ _ => []
  | .gangReserve _ => []
  | .gangCommit => []
  | .quantumExpire _ _ => []
  | .waveRotation _ _ => []
  | .gangPreempt _ => []
  | .gangRestore _ _ _ => []
  | .launchComplete _ => []
  | .variableResultArrive _ _ => []
  | .spawnArrive _ => []
  | .gatherStep _ => []
  | .spillGather _ => []
  | .taskWaveComplete _ => []
  | .ctqSpillBaseWrite _ _ => []
  | .cresizeComplete _ => []
  | .bregionZeroDone _ => []
  | .refreshWindow _ => []
  | .copyEntryStart _ _ => []
  | .copyBlockWrite _ _ => []
  | .copyEntryComplete _ _ => []
  | .waddrWake _ => []
  | .waddrPoll _ => []
  | .waddrTimeout _ => []
  | .barwaitTimeout _ => []
  | .pipeWaitComplete _ => []
  | .dbgHalt _ => []
  | .dbgResume _ => []
  | .dbgAttachWrite _ _ => []
  | .marchRayComplete _ _ => []
  | .raySuspend _ _ => []
  | .callableGather _ => []
  | .traversalRayComplete _ _ => []
  | .renderFaultPark _ _ => []
  | .faultBatchPost _ => []
  | .parkedRayResume _ => []
  | .payloadSlotFree _ _ => []
  | .candelabraPrimitive _ => []
  | .perfCntWrite _ _ _ => []
  | .kStepComplete _ => []
  | .scrub _ _ _ _ => []
  | .hostLinkDown => []
  | .fabLinkDisWrite _ _ => []
  | .completionTimeout _ => []

end Sys2Proof
end

