-- ==== Sys2Proof/Machine/Lookup.lean ====
section
/-!
DEFINITION. The instruction that a wave stands at, from the words it has fetched: what an event that lets a waiting
instruction go on needs of it (spec/13 R313 to R317, R329).
-/
namespace Sys2Proof.Machine

/-- The row of the opcode map for an opcode and its operand view (R329). -/
def rowOf (op : Nat) (v : View) : Option Row :=
  match op with
  | 0 => some rowNop
  | 1 => some rowBr
  | 2 => some rowBri
  | 3 => some rowCall
  | 4 => some rowCalli
  | 5 => some rowRet
  | 6 => some rowExit
  | 7 => some rowYieldl
  | 8 => some rowTfence
  | 9 => some rowTrap
  | 10 => some rowBrk
  | 16 => some rowIadd
  | 17 => some rowIsub
  | 18 => some rowImul
  | 19 => some rowImad
  | 20 => some rowIdiv
  | 21 => some rowImin
  | 22 => some rowImax
  | 23 => some rowIabs
  | 24 => some rowIcmp
  | 25 => some rowIaddsat
  | 26 => some rowLea
  | 27 => some rowSel
  | 28 => some rowMov
  | 29 => some rowIadd64
  | 30 => some rowImad64
  | 31 => some rowIsub64
  | 32 => some rowAnd
  | 33 => some rowOr
  | 34 => some rowXor
  | 35 => some rowNot
  | 36 => some rowShl
  | 37 => some rowShr
  | 38 => some rowSar
  | 39 => some rowRot
  | 40 => some rowPopc
  | 41 => some rowClz
  | 42 => some rowCtz
  | 43 => some rowBrev
  | 44 => some rowBfx
  | 45 => some rowBfi
  | 46 => some rowShf64
  | 47 => some rowBsel
  | 48 => some rowPand
  | 49 => some rowPor
  | 50 => some rowPxor
  | 51 => some rowPnot
  | 52 => some rowPpush
  | 53 => some rowPdrop
  | 54 => some rowPget
  | 55 => some rowRdsp
  | 56 => some rowWrsp
  | 57 => some rowRdlane
  | 58 => some rowWrlane
  | 64 => some rowFadd
  | 65 => some rowFsub
  | 66 => some rowFmul
  | 67 => some rowFma
  | 68 => some rowFmin
  | 69 => some rowFmax
  | 70 => some rowFcmp
  | 71 => some (if v.sub = 1 then rowFdivApx else rowFdiv)
  | 72 => some rowFsqrt
  | 73 => some rowFrcp
  | 74 => some rowFrsq
  | 75 => some rowFtrn
  | 76 => some rowFrnd
  | 77 => some rowFfract
  | 78 => some rowFclass
  | 79 => some rowFscale
  | 80 => some rowHadd2
  | 81 => some rowHmul2
  | 82 => some rowHfma2
  | 83 => some rowHmin2
  | 84 => some rowHmax2
  | 85 => some rowHcmp2
  | 86 => some rowHdot2
  | 96 => some rowCvt
  | 97 => some rowCvtn
  | 98 => some rowCvtw
  | 99 => some rowSgnpk
  | 100 => some rowSgnex
  | 101 => some (if v.sub = 1 then rowScl32 else rowScl)
  | 102 => some rowRngl
  | 112 => some rowXadd
  | 113 => some rowXsub
  | 114 => some rowXmul
  | 115 => some rowXdiv
  | 116 => some rowXsqr
  | 117 => some rowXsqrt
  | 118 => some rowXmin
  | 119 => some rowXmax
  | 120 => some rowXabs
  | 121 => some rowXhull
  | 122 => some rowXmeet
  | 123 => some rowXtest
  | 124 => some rowXmk
  | 125 => some rowXmid
  | 128 => some rowShfl
  | 129 => some rowBcast
  | 130 => some rowVote
  | 131 => some rowRedux
  | 132 => some rowScan
  | 133 => some rowDdx
  | 134 => some rowDdy
  | 135 => some rowRegroup
  | 136 => some rowMcount
  | 137 => some rowLanes
  | 144 => some rowLd
  | 145 => some rowSt
  | 146 => some rowLds
  | 147 => some rowSts
  | 148 => some rowLdw
  | 149 => some rowLdk
  | 150 => some rowStk
  | 151 => some rowPref
  | 152 => some rowCflush
  | 153 => some rowCinv
  | 154 => some rowCresize
  | 155 => some rowRrot
  | 156 => some rowWsync
  | 157 => some rowLdfut
  | 158 => some rowStfill
  | 159 => some rowStreset
  | 160 => some rowAtom
  | 161 => some rowAtoms
  | 162 => some rowRed
  | 163 => some rowReds
  | 164 => some rowCas
  | 165 => some rowCass
  | 176 => some (if v.sub = 1 then rowFenceUn else rowFence)
  | 177 => some (if v.sub = 1 then rowBarCnt else rowBar)
  | 178 => some rowBarinit
  | 179 => some rowBarrive
  | 180 => some rowBarwait
  | 181 => some rowBartest
  | 182 => some rowWaddr
  | 183 => some rowIcinv
  | 184 => some rowIsync
  | 185 => some rowWtok
  | 186 => some rowEbar
  | 192 => some rowCpy
  | 193 => some rowCpy2d
  | 194 => some rowCpyb
  | 195 => some rowQput
  | 196 => some rowQseq
  | 197 => some rowPut
  | 198 => some rowMsg
  | 199 => some rowCpwait
  | 208 => some rowMxacq
  | 209 => some rowMxrel
  | 210 => some (if bits v.sub 0 4 = 9 then rowMmaSg1 else rowMma)
  | 211 => some (if bit v.sub 5 then rowMmas32 else rowMmas)
  | 212 => some rowAcczero
  | 213 => some rowAccrd
  | 214 => some rowAccst
  | 215 => some rowAccld
  | 216 => some rowMxwait
  | 224 => some rowTspawn
  | 225 => some rowTarg
  | 226 => some rowTqry
  | 227 => some rowPclose
  | 228 => some rowLaunch
  | 229 => some (if bit v.md 3 then rowMchAff else rowMch)
  | 230 => some rowMchres
  | 231 => some rowRayq
  | 232 => some rowRayres
  | 233 => some (if v.sub = 1 then rowRaysusMarch else rowRaysus)
  | 234 => some rowLant
  | 235 => some rowBfetch
  | 236 => some rowFbrun
  | 237 => some rowPrune
  | 238 => some rowTemit
  | 239 => some (if v.sub = 1 then rowMemitPrim else rowMemitVert)
  | 240 => some rowTret
  | 241 => some rowHalt
  | 242 => some rowDbgmk
  | 243 => some rowPerfrd
  | _ => none

/-- R313 to R317: the opcode and the operand view of an instruction's words. -/
def viewOfWords (ws : List W32) : Option (Nat × View) :=
  match ws with
  | [] => none
  | w0 :: rest =>
    let w := w0.toNat
    let op := bits w 2 8
    let x (i : Nat) : W32 := at? 0 rest i
    let br := op = 1 || op = 3
    match bits w 0 2 with
    | 0 =>
      some (op, if br then { View.bare (ctlOf w) (BitVec.ofNat 12 (bits w 19 12)).toInt none with short := true }
        else (shortOf w none).view)
    | 1 => some (op, (longOf w (x 0).toNat (x 1).toNat none).view)
    | 2 =>
      some (op, if br then { View.bare (ctlOf w) 0 (some (litOf (x 0) (x 1))) with short := true }
        else (shortOf w (some (litOf (x 0) (x 1)))).view)
    | _ => some (op, (longOf w (x 0).toNat (x 1).toNat (some (litOf (x 2) (x 3)))).view)

/-- The row and view of an instruction's words. -/
def rowOfWords (ws : List W32) : Option (Row × View) :=
  (viewOfWords ws).bind fun (op, v) => (rowOf op v).map fun r => (r, v)

/-- A wave's instruction as it stood at issue, for an event that lets it go on. -/
def State.pending (s : State) (key : Nat) : Option Iss :=
  match s.wave? key with
  | none => none
  | some w => (rowOfWords w.words).bind fun (r, v) => { s with cur := key }.iss r v

end Sys2Proof.Machine
end

