-- ==== Sys2Proof/Machine/Fence.lean ====
section
/-!
DEFINITION. System-scope releases toward the fabric (spec/03 R66, R68) and the instructions that wait after issue: how an
event lets them go on.
-/
namespace Sys2Proof.Machine

/-- An event finishes the instruction that a wave waits in: the instruction as it stood at issue, its wait over. -/
def State.finish (s : State) (key : Nat) (f : Iss → State) : State :=
  match (s.onWave key fun w => { w with wait := .none }).pending key with
  | some i => f i
  | none => s

/-- The wave goes on to its next instruction. -/
def Iss.done (i : Iss) : State := i.commit i.s i.w i.at_

/-- The entries of copy queues in flight, with their cores. -/
def State.flying (s : State) : List (Nat × CopyEntry) := s.cores.flatMap fun (c, k) => k.copies.map fun e => (c, e)

/-- The number of the put or message that a packet belongs to. -/
def putIdOf : FabPacket → Option Nat
  | .write p => some p.id
  | .msg p => some p.id
  | _ => none

/-- Whether an entry's packets have been sent whole: over a link, or to the device itself, where they must have come in (R67). -/
def State.isWhole (s : State) (c : Nat) (e : CopyEntry) : Bool :=
  s.fab.waits.any fun q => q.core = c && q.ctx = e.ctx && q.seq = e.seq && q.whole
    && !(s.fab.loop.any fun p => putIdOf p = some q.id)

/-- R66: the puts and messages of a wave that have not been sent whole, those stopped on a fault among them: core, context, sequence
number. -/
def State.unsent (s : State) (g idx : Nat) : List (Nat × Nat × Nat) :=
  (s.cores.flatMap fun (c, k) => k.copyOwners.filterMap fun o =>
      if o.gang = g && o.idx = idx && (o.kind = 4 || o.kind = 5) then some (c, o.ctx, o.seq) else none)
  ++ s.flying.filterMap fun (c, e) =>
      if e.who = some (g, idx) && (e.kind = 4 || e.kind = 5) && (match e.stat with | .ended _ | .complete => false | _ => true)
          && !s.isWhole c e
      then some (c, e.ctx, e.seq) else none

/-- R66: the links that carried puts and messages of a wave. -/
def State.usedLinks (s : State) (g idx : Nat) : List Nat :=
  ascending (s.flying.flatMap fun (c, e) =>
    if e.who = some (g, idx) then
      (s.fab.waits.filter fun q => q.core = c && q.ctx = e.ctx && q.seq = e.seq).flatMap FabWait.links
    else [])

/-- R66 step 2: fence packets on links. -/
def State.sendFences (s : State) (links : List Nat) : State :=
  { s with fab := { s.fab with sent := s.fab.sent ++ links.map fun l => (l, FabPacket.fence (FencePacket.mk s.fab.node)) } }

/-- R66: a release over entries that are still to be sent and links; it is counted (R76). -/
def State.addFence (s : State) (who : FenceOf) (p : List (Nat × Nat × Nat)) (ls : List Nat) : State :=
  let f : FabFence := { id := s.fab.nextPut, who := who, pending := p, links := ls }
  let s : State := { s with fab := { s.fab with
    fences := s.fab.fences ++ [f], nextPut := s.fab.nextPut + 1, stats := bump s.fab.stats 6 1 } }
  if p.isEmpty then s.sendFences ls else s

/-- R66: a wave's system-scope release; none where it covers nothing that is under way. -/
def State.startFence (s : State) (key : Nat) : Option State :=
  match s.wave? key with
  | none => none
  | some w =>
    let p := s.unsent w.gang w.idx
    let ls := s.usedLinks w.gang w.idx
    if p.isEmpty && ls.isEmpty then none
    else some ((s.setWave key { w with wait := .fence s.fab.nextPut }).addFence (.wave key) p ls)

/-- R66 step 5, R213: the release is complete: a fence, or an instruction that acts as one (R218), is over; an access is performed when
the wave tries it again. -/
def Iss.fenced (i : Iss) : State :=
  if i.row.op = 0xB0 || i.ex.isEmpty then i.done else i.s.setWave i.key { i.w with fenced := true }

/-- R66 step 5: a fence is complete. -/
def State.endFence (s : State) (f : FabFence) : State :=
  match f.who with
  | .wave k => if s.waitOf k = .fence f.id then s.finish k Iss.fenced else s
  | .entry c x q => s.onCore c fun k =>
      { k with copies := k.copies.map fun e => if e.ctx = x && e.seq = q then { e with done := 1 } else e }

/-- R66 step 5: fences that wait for nothing more are complete. -/
def State.endFences (s : State) : State :=
  let ended := s.fab.fences.filter fun f => f.pending.isEmpty && f.links.isEmpty
  let s := { s with fab := { s.fab with fences := s.fab.fences.filter fun f => !(f.pending.isEmpty && f.links.isEmpty) } }
  ended.foldl State.endFence s

/-- R66: a put or message has been sent whole, over links or to the device itself, or has ended; `links` have carried it. -/
def State.sentWhole (s : State) (core ctx seq : Nat) (links : List Nat) : State :=
  let step (f : FabFence) : FabFence × List Nat :=
    if f.pending.contains (core, ctx, seq) then
      let f := { f with pending := f.pending.filter fun x => x != (core, ctx, seq)
                        links := ascending (links ++ f.links) }
      (f, if f.pending.isEmpty then f.links else [])
    else (f, [])
  let r := s.fab.fences.map step
  let s1 : State := { s with fab := { s.fab with fences := r.map (·.1) } }
  (r.foldl (fun (s : State) x => s.sendFences x.2) s1).endFences

/-- Take one link from the oldest fence that waits for it. -/
def dropLink (l : Nat) : List FabFence → List FabFence
  | [] => []
  | f :: fs => if f.pending.isEmpty && f.links.contains l then { f with links := f.links.filter fun x => x != l } :: fs
    else f :: dropLink l fs

/-- R66 step 3: fence-done returns on a link. -/
def State.fenceDone (s : State) (l : Nat) : State :=
  State.endFences { s with fab := { s.fab with fences := dropLink l s.fab.fences } }

/-- R68: a link that goes down owes no fence anything. -/
def State.fenceLinkDown (s : State) (l : Nat) : State :=
  State.endFences { s with fab := { s.fab with
    fences := s.fab.fences.map fun f => { f with links := f.links.filter fun x => x != l } } }

/-- R218, R221: the ordering effect of an instruction: a release at system scope waits for the fabric. The wave stands at
the instruction until the release is complete. -/
def Iss.ordered (i : Iss) (release : Bool) (sys : Bool) : State :=
  if release && sys then (match (i.s.setWave i.key i.w).startFence i.key with
    | some s => s
    | none => i.done)
  else i.done

/-- R213, R218: whether an access releases at system scope. -/
def Iss.sysRelease (i : Iss) : Bool :=
  (i.row.op / 16 = 9 || i.row.op / 16 = 0xA) && isRelease i.v.order && i.v.scope = 4
/-- R213, R218: the release at system scope that comes before an access is performed, where it covers something under way. -/
def Iss.fenceFirst (i : Iss) (sys : Bool) : Option State :=
  if sys && !i.ex.isEmpty && !i.w.fenced then (i.s.setWave i.key i.w).startFence i.key else none

/-- R218: an ordered access whose Exec is empty. -/
def Iss.emptyOrder (i : Iss) : State := i.ordered (isRelease i.v.order) (i.v.scope = 4)

end Sys2Proof.Machine
end

