-- ==== Sys2Proof/Machine/Objects.lean ====
section
/-!
DEFINITION. Barrier objects in scratchpad (spec/08 R200, R201; spec/16 R401, R402) and how a wave waits on one.
-/
namespace Sys2Proof.Machine

/-- R174: the results of an instruction of variable latency arrive with an operation of the wave. -/
def Iss.loaded (i : Iss) (s : State) (outs : List (Nat × AluOut)) : State :=
  i.commit s (i.addOp (i.results (.op i.w.nextOp) i.v.d outs) .result) i.at_

/-! ### The object (R200) -/

/-- The fields of a barrier object. -/
structure BarObj where
  exp : Nat
  arr : Nat
  ph : Nat
  ovr : Bool
  cpe : Bool
  /-- bits 47:38 -/
  rsv : Nat
  wt : Nat
  time : Nat
  deriving DecidableEq, Repr

/-- R200: the object of 16 bytes. -/
def BarObj.ofNat (v : Nat) : BarObj where
  exp := bits v 0 16
  arr := bits v 16 16
  ph := bits v 32 4
  ovr := bit v 36
  cpe := bit v 37
  rsv := bits v 38 10
  wt := bits v 48 16
  time := bits v 64 64

def BarObj.toNat (o : BarObj) : Nat :=
  o.exp + 2 ^ 16 * o.arr + 2 ^ 32 * o.ph + 2 ^ 36 * b2n o.ovr + 2 ^ 37 * b2n o.cpe + 2 ^ 38 * o.rsv + 2 ^ 48 * o.wt
    + 2 ^ 64 * o.time

def State.readObj (s : State) (core a : Nat) : BarObj := BarObj.ofNat (ofBytes (s.spRead core a 16))
def State.writeObj (s : State) (core a : Nat) (o : BarObj) : State := s.spWrite core a (toBytes 16 o.toNat)

/-- R200: EXP 0, ARR beyond EXP or a nonzero reserved field. -/
def BarObj.bad (o : BarObj) : Bool := o.exp = 0 || decide (o.exp < o.arr) || o.rsv != 0

/-- R201: one arrival of a count: the object, and whether it is accepted. -/
def BarObj.arrive (o : BarObj) (n now : Nat) : BarObj × Bool :=
  if o.exp < o.arr + n then ({ o with ovr := true }, false)
  else if o.arr + n = o.exp then ({ o with ph := (o.ph + 1) % 16, arr := 0, time := now }, true)
  else ({ o with arr := o.arr + n }, true)

/-! ### Waiting -/

/-- A timeout of 0xFFFF_FFFF is none (R196, R201); a deadline that a save kept stays (R250, R401, R403). -/
def deadlineOf (kept : Option Nat) (now timeout : Nat) : Option Nat :=
  match kept with
  | some d => some d
  | none => if timeout = 2 ^ 32 - 1 then none else some (now + timeout)

/-- Whether a deadline has passed. -/
def State.past (s : State) (d : Option Nat) : Bool := match d with | some d => decide (d ≤ s.now) | none => false

/-- The predicate that ends a wait. -/
def Iss.endWait (i : Iss) (s : State) (p : Bool) : State :=
  let i := { i with w := { i.w with deadline := none } }
  i.loaded s (i.ex.map fun l => (l, AluOut.pred p))

/-- R201: a barwait returns: WT falls and the predicate is read. -/
def State.objReturn (s : State) (key a phase : Nat) : State :=
  let o := s.readObj (keyCore key) a
  let s := s.writeObj (keyCore key) a { o with wt := o.wt - 1 }
  s.finish key fun i => i.endWait i.s (o.ph != phase)

/-- R201: the waves of a core that wait on an object whose phase has moved return, in the order of their keys. -/
def State.objCheck (s : State) (core : Nat) : State :=
  s.waves.foldl (fun s (k, _) =>
    if keyCore k != core then s
    else match s.waitOf k with
      | .object a ph _ => if (s.readObj core a).ph != ph then s.objReturn k a ph else s
      | _ => s) s

/-- R201: BARWAIT_TIMEOUT: a waiting wave whose deadline has passed returns. -/
def State.objTimeout (s : State) (key : Nat) : State :=
  match s.waitOf key with
  | .object a ph d => if s.past d then s.objReturn key a ph else s
  | _ => s

/-! ### The instructions (R401) -/

/-- R401: the causes of an object address, and of the object found there unless it is to be initialised. -/
def Iss.objCz (i : Iss) (code : Nat) (check : BarObj → Bool) : List Cz :=
  let a := i.addrU
  let bad (c : Nat) : List Cz := [{ Cz.plain c i.ex with maddr := a }]
  if i.ex.isEmpty then []
  else if !i.s.inAlloc i.w.gang a 16 then bad code
  else if a % 16 != 0 || check (i.s.readObj i.core a) then bad 0x8B
  else []

/-- The access of an object instruction, which every lane in Exec makes. -/
def Iss.objAcc (i : Iss) : List LaneAcc := i.ex.map fun l => { lane := l, a := i.addrU, n := 16 }

/-- An object instruction that acts once for the wave. -/
def issueObj (r : Row) (v : View) (s : State) (code : Nat) (check : Iss → BarObj → Bool) (effect : Iss → State) : Res :=
  issueChecked r v s (fun i => i.pipesCz ++ i.objCz code (check i))
    (fun i => if i.ex.isEmpty || i.s.owned i.w.ctx i.core true i.objAcc || !i.pipesReady then ([], i.s)
      else i.localCheck (code - 8) i.objAcc) fun i =>
    if i.ex.isEmpty then i.done
    else if i.s.owned i.w.ctx i.core true i.objAcc then i.stall (.retry .copy)
    else if code != 0x68 && i.s.readsA i.core i.key i.objAcc then i.stall (.retry .array)
    else if !i.pipesReady then i.stall .pipe
    else effect i

/-- R201: the count that barinit takes. -/
def Iss.objExp (i : Iss) : Nat := i.w.operand i.v .i32 [] 0 i.v.c

def runBarinit (v : View) (s : State) : Res :=
  issueObj rowBarinit v s 0x69 (fun i o => o.wt != 0 || i.objExp = 0 || decide (65535 < i.objExp)) fun i =>
    i.commit ((i.s.writeObj i.core i.addrU { BarObj.ofNat 0 with exp := i.objExp }).objCheck i.core) (i.addToken i.w) i.at_
def execBarinit (f : LongF) (s : State) : Res := runBarinit f.view s

/-- The counts of the lanes in Exec, ascending, and the state after a pipe operand is popped. -/
def Iss.counts (i : Iss) : List (Nat × Nat) × State :=
  let (pops, s) := i.popAll
  (i.ex.map fun l => (l, i.operand pops (some .i32) i.v.c l), s)

/-- R201: the arrivals of lanes in order, and the lanes refused. -/
def arriveAll (now : Nat) : List (Nat × Nat) → BarObj → BarObj × List Nat
  | [], o => (o, [])
  | (l, n) :: rest, o =>
    match o.arrive n now with
    | (o, true) => arriveAll now rest o
    | (o, false) => (o, l :: rest.map (·.1))

def runBarrive (v : View) (s : State) : Res :=
  issueObj rowBarrive v s 0x6A (fun i o => o.bad || i.counts.1.any fun x => x.2 = 0) fun i =>
    let (cs, s) := i.counts
    let (o, refused) := arriveAll s.now cs (s.readObj i.core i.addrU)
    let s := (s.writeObj i.core i.addrU o).objCheck i.core
    match refused with
    | [] => i.commit s (i.addToken i.w) i.at_
    | l :: _ =>
      i.failAfter (s.setWave i.key i.w)
        { Cz.plain 0x83 refused with lane := l, maddr := i.addrU, adv := viewBytes v }
def execBarrive (f : LongF) (s : State) : Res := runBarrive f.view s

/-- The phase that barwait and bartest name. -/
def Iss.phase (i : Iss) : Nat := i.w.operand i.v .i32 [] 0 i.v.b % 16

def runBarwait (v : View) (s : State) : Res :=
  issueObj rowBarwait v s 0x68 (fun _ o => o.bad) fun i =>
    let o := i.s.readObj i.core i.addrU
    let d := deadlineOf i.w.deadline i.s.now (i.w.operand v .i32 [] 0 i.v.c)
    if o.ph != i.phase then i.endWait i.s true
    else if i.s.past d then i.endWait i.s false
    else (i.s.writeObj i.core i.addrU { o with wt := (o.wt + 1) % 65536 }).setWave i.key
      { i.w with wait := .object i.addrU i.phase d, deadline := d }
def execBarwait (f : LongF) (s : State) : Res := runBarwait f.view s

def runBartest (v : View) (s : State) : Res :=
  issueObj rowBartest v s 0x68 (fun _ o => o.bad) fun i =>
    i.loaded i.s (i.ex.map fun l => (l, AluOut.pred ((i.s.readObj i.core i.addrU).ph != i.phase)))
def execBartest (f : LongF) (s : State) : Res := runBartest f.view s

end Sys2Proof.Machine
end

