-- ==== Sys2Proof/Machine/Integer.lean ====
section
/-!
DEFINITION. Integer arithmetic: row 0x1_ (spec/14 R349 to R352).
-/
namespace Sys2Proof

/-- Whether the type of a 32-bit or 64-bit integer form is signed: every type of the row but .z32 and .z64 (R349). -/
def View.signed (v : View) : Bool := !(v.typeRaw = 7 || v.typeRaw = 8)

/-- The width of a form whose type may be 64 bits wide. -/
def View.tyBits (v : View) (dflt : Nat) : Nat := if is64 (v.typ dflt) then 64 else 32

end Sys2Proof

namespace Sys2Proof.Machine

/-- ext of R349: a `n`-bit value by its type. -/
def ext (signed : Bool) (n v : Nat) : Int := if signed then asS v n else ((v % 2 ^ n : Nat) : Int)

/-- Whether an integer lies in the range of an `n`-bit type. -/
def inRange (signed : Bool) (n : Nat) (x : Int) : Bool :=
  if signed then decide (-(2 ^ (n - 1) : Nat) ≤ x) && decide (x < (2 ^ (n - 1) : Nat))
  else decide (0 ≤ x) && decide (x < (2 ^ n : Nat))

/-- A result of `n` bits, 32 or 64. -/
def AluOut.ofBits (n v : Nat) : AluOut := if n = 64 then .dword v else .word v

/-- R349: a wrapped result, and IO for .chk when the exact one is out of range. -/
def chkOut (v : View) (n : Nat) (x : Int) : AluOut :=
  (AluOut.ofBits n (wrap x n)).flags (Flg.when (v.sub = 1 && !inRange v.signed n x) fIO)

/-- A two-operand 32-bit integer form. -/
def alu32 (lat : Nat) (fn : View → Nat → Nat → AluOut) : Alu :=
  Alu.mk3 tI tI tNo (latIs lat) domInt View.signed fun v a b _ => fn v a b

def aluIadd : Alu := alu32 4 fun v a b => chkOut v 32 (ext v.signed 32 a + ext v.signed 32 b)
def execIadd (f : LongF) (s : State) : Res := runAlu aluIadd rowIadd f.view s
def execIaddShort (f : ShortF) (s : State) : Res := runAlu aluIadd rowIadd f.view s
def aluIsub : Alu := alu32 4 fun v a b => chkOut v 32 (ext v.signed 32 a - ext v.signed 32 b)
def execIsub (f : LongF) (s : State) : Res := runAlu aluIsub rowIsub f.view s
def execIsubShort (f : ShortF) (s : State) : Res := runAlu aluIsub rowIsub f.view s

/-- R349: bits 31:0, 63:32 or 63:0 of a product modulo 2^64, by SUB. -/
def prodOut (v : View) (p : Int) : AluOut :=
  let u := wrap p 64
  if v.sub = 2 then .dword u else if v.sub = 1 then .word (hi32 u) else .word u

def aluImul : Alu := alu32 6 fun v a b => prodOut v (ext v.signed 32 a * ext v.signed 32 b)
def execImul (f : LongF) (s : State) : Res := runAlu aluImul rowImul f.view s
def execImulShort (f : ShortF) (s : State) : Res := runAlu aluImul rowImul f.view s

/-- C of imad is 64 bits wide for .wide. -/
def tMad (v : View) : Option OpTy := some (if v.sub = 2 then .i64 else .i32)
def aluImad : Alu := Alu.mk3 tI tI tMad (latIs 6) domInt View.signed fun v a b c =>
  prodOut v (ext v.signed 32 a * ext v.signed 32 b + ext v.signed (if v.sub = 2 then 64 else 32) c)
def execImad (f : LongF) (s : State) : Res := runAlu aluImad rowImad f.view s

/-- R350: quotient, remainder and flags. -/
def divide (signed : Bool) (a b : Nat) : Nat × Nat × Flg :=
  let x := ext signed 32 a
  let y := ext signed 32 b
  if y = 0 then (0xFFFFFFFF, a, fDZ)
  else if signed && x = -(2 ^ 31 : Nat) && y = -1 then (0x80000000, 0, fIO)
  else (wrap (x.tdiv y) 32, wrap (x - y * x.tdiv y) 32, 0)

/-- R350: .q, .r, or .qr, which pushes the remainder first. -/
def divOut (v : View) (a b : Nat) : AluOut :=
  let (q, m, f) := divide v.signed a b
  (if v.sub = 0 then AluOut.word q else if v.sub = 1 then AluOut.word m else AluOut.dword (pair64 q m)).flags f

def aluIdiv : Alu := Alu.mk3 tI tI tNo latT domInt View.signed fun v a b _ => divOut v a b
def execIdiv (f : LongF) (s : State) : Res := runAlu aluIdiv rowIdiv f.view s

def aluImin : Alu := alu32 4 fun v a b => .word (if ext v.signed 32 b < ext v.signed 32 a then b else a)
def execImin (f : LongF) (s : State) : Res := runAlu aluImin rowImin f.view s
def execIminShort (f : ShortF) (s : State) : Res := runAlu aluImin rowImin f.view s
def aluImax : Alu := alu32 4 fun v a b => .word (if ext v.signed 32 a < ext v.signed 32 b then b else a)
def execImax (f : LongF) (s : State) : Res := runAlu aluImax rowImax f.view s
def execImaxShort (f : ShortF) (s : State) : Res := runAlu aluImax rowImax f.view s

def aluIabs : Alu := Alu.mk3 tI tNo tNo (latIs 4) domInt View.signed fun v a _ _ =>
  (AluOut.word (asS a 32).natAbs).flags (Flg.when (v.sub = 1 && a = 0x80000000) fIO)
def execIabs (f : LongF) (s : State) : Res := runAlu aluIabs rowIabs f.view s
def execIabsShort (f : ShortF) (s : State) : Res := runAlu aluIabs rowIabs f.view s

/-- R349: the comparison of SUB 0 to 5. -/
def intCmp (cc : Nat) (a b : Int) : Bool :=
  match cc with
  | 0 => decide (a = b)
  | 1 => decide (a ≠ b)
  | 2 => decide (a < b)
  | 3 => decide (a ≤ b)
  | 4 => decide (b < a)
  | _ => decide (b ≤ a)

def aluIcmp : Alu := Alu.mk3 (tW 3) (tW 3) tNo (latIs 4) domInt sgnNo fun v a b _ =>
  .pred (intCmp v.sub (ext v.signed (v.tyBits 3) a) (ext v.signed (v.tyBits 3) b))
def execIcmp (f : LongF) (s : State) : Res := runAlu aluIcmp rowIcmp f.view s
def execIcmpShort (f : ShortF) (s : State) : Res := runAlu aluIcmp rowIcmp f.view s

/-- R349: clamped to the range of the type, with IO when it clamps. -/
def clampOut (signed : Bool) (x : Int) : AluOut :=
  let lo : Int := if signed then -(2 ^ 31 : Nat) else 0
  let hi : Int := if signed then (2 ^ 31 : Nat) - 1 else (2 ^ 32 : Nat) - 1
  if x < lo then (AluOut.word (wrap lo 32)).flags fIO
  else if hi < x then (AluOut.word (wrap hi 32)).flags fIO
  else .word (wrap x 32)

def aluIaddsat : Alu := alu32 4 fun v a b =>
  clampOut v.signed
    (if v.sub = 1 then ext v.signed 32 a - ext v.signed 32 b else ext v.signed 32 a + ext v.signed 32 b)
def execIaddsat (f : LongF) (s : State) : Res := runAlu aluIaddsat rowIaddsat f.view s
def execIaddsatShort (f : ShortF) (s : State) : Res := runAlu aluIaddsat rowIaddsat f.view s

def aluLea : Alu := Alu.mk3 (tW 3) tI tNo (latIs 4) domInt View.signed fun v a b _ =>
  AluOut.ofBits (v.tyBits 3) (wrap ((a : Int) + ext v.signed 32 b * (2 ^ v.sub : Nat)) (v.tyBits 3))
def execLea (f : LongF) (s : State) : Res := runAlu aluLea rowLea f.view s
def execLeaShort (f : ShortF) (s : State) : Res := runAlu aluLea rowLea f.view s

/-- How sel, mov and the moves between lanes read an operand of their type: constants of a float type are floats (R318). -/
def tMove (dflt : Nat) (v : View) : Option OpTy :=
  let t := v.typ dflt
  some (if is64 t then .i64 else if t = 10 then .f32 else if t = 11 then .pk false else if t = 12 then .pk true else .i32)

/-- R352: sel reads the predicate of its own lane; a uniform one that of the lowest lane in Exec. -/
def aluSel : Alu where
  ta := tMove 3
  tb := tMove 3
  tc := tNo
  lat := latIs 4
  dom := fun _ => domInt
  sgn := fun v => v.typ 3 = 0
  stale := fun i => (if i.v.d.isK then i.ex.take 1 else i.ex).any fun l => !i.w.ready ((i.w.lane l).predCell i.v.sub).due
  causes := fun _ => []
  fn := fun i l a b _ => AluOut.ofBits (i.v.tyBits 3) (if i.w.pred l i.v.sub then a else b)
def execSel (f : LongF) (s : State) : Res := runAlu aluSel rowSel f.view s
def execSelShort (f : ShortF) (s : State) : Res := runAlu aluSel rowSel f.view s

/-- R352: the low 8 or 16 bits extended, for the types 1, 2, 5 and 6. -/
def moveOut (v : View) (a : Nat) : AluOut :=
  let t := v.typ 3
  if t = 1 then .word (wrap (asS a 8) 32)
  else if t = 2 then .word (wrap (asS a 16) 32)
  else if t = 5 then .word (a % 2 ^ 8)
  else if t = 6 then .word (a % 2 ^ 16)
  else AluOut.ofBits (v.tyBits 3) a

def aluMov : Alu := Alu.mk3 (tMove 3) tNo tNo (latIs 4) domInt (fun v => v.typ 3 ≤ 2) fun v a _ _ => moveOut v a
def execMov (f : LongF) (s : State) : Res := runAlu aluMov rowMov f.view s
def execMovShort (f : ShortF) (s : State) : Res := runAlu aluMov rowMov f.view s

/-- A 64-bit form. -/
def alu64 (lat : Nat) (fn : View → Nat → Nat → Nat → AluOut) (tc : View → Option OpTy) : Alu :=
  Alu.mk3 tL tL tc (latIs lat) domInt sgnNo fn

def aluIadd64 : Alu := alu64 5 (fun v a b _ => chkOut v 64 (ext v.signed 64 a + ext v.signed 64 b)) tNo
def execIadd64 (f : LongF) (s : State) : Res := runAlu aluIadd64 rowIadd64 f.view s
def execIadd64Short (f : ShortF) (s : State) : Res := runAlu aluIadd64 rowIadd64 f.view s
def aluImad64 : Alu := alu64 6 (fun _ a b c => .dword ((a * b + c) % 2 ^ 64)) tL
def execImad64 (f : LongF) (s : State) : Res := runAlu aluImad64 rowImad64 f.view s
def aluIsub64 : Alu := alu64 5 (fun v a b _ => chkOut v 64 (ext v.signed 64 a - ext v.signed 64 b)) tNo
def execIsub64 (f : LongF) (s : State) : Res := runAlu aluIsub64 rowIsub64 f.view s
def execIsub64Short (f : ShortF) (s : State) : Res := runAlu aluIsub64 rowIsub64 f.view s

end Sys2Proof.Machine
end

