-- ==== Sys2Proof/Machine/Bits.lean ====
section
/-!
DEFINITION. Bit operations: row 0x2_ (spec/14 R353 to R355).
-/
namespace Sys2Proof.Machine

/-- A bitwise form of 32 or 64 bits. -/
def aluBits (tb : View → Option OpTy) (fn : Nat → Nat → Nat → Nat) : Alu :=
  Alu.mk3 (tW 9) tb tNo (latIs 4) domInt sgnNo fun v a b _ =>
    let n := v.tyBits 9
    AluOut.ofBits n (fn n a b)

def aluAnd : Alu := aluBits (tW 9) fun _ a b => a &&& b
def execAnd (f : LongF) (s : State) : Res := runAlu aluAnd rowAnd f.view s
def execAndShort (f : ShortF) (s : State) : Res := runAlu aluAnd rowAnd f.view s
def aluOr : Alu := aluBits (tW 9) fun _ a b => a ||| b
def execOr (f : LongF) (s : State) : Res := runAlu aluOr rowOr f.view s
def execOrShort (f : ShortF) (s : State) : Res := runAlu aluOr rowOr f.view s
def aluXor : Alu := aluBits (tW 9) fun _ a b => a ^^^ b
def execXor (f : LongF) (s : State) : Res := runAlu aluXor rowXor f.view s
def execXorShort (f : ShortF) (s : State) : Res := runAlu aluXor rowXor f.view s
def aluNot : Alu := aluBits tNo fun n a _ => 2 ^ n - 1 - a
def execNot (f : LongF) (s : State) : Res := runAlu aluNot rowNot f.view s
def execNotShort (f : ShortF) (s : State) : Res := runAlu aluNot rowNot f.view s

/-- A 32-bit form of two operands. -/
def aluBit32 (lat : Nat) (fn : View → Nat → Nat → Nat) : Alu :=
  Alu.mk3 tI tI tNo (latIs lat) domInt sgnNo fun v a b _ => .word (fn v a b)

/-- Left shift, 0 from 32 on (R353). -/
def shl32 (a c : Nat) : Nat := if c < 32 then a * 2 ^ c % 2 ^ 32 else 0
def shr32 (a c : Nat) : Nat := if c < 32 then a / 2 ^ c else 0
def sar32 (a c : Nat) : Nat := wrap (asS a 32 / (2 ^ min c 31 : Nat)) 32
def rot32 (a c : Nat) : Nat := let r := c % 32; (a * 2 ^ r % 2 ^ 32) + a / 2 ^ (32 - r)

def aluShl : Alu := aluBit32 4 fun _ a b => shl32 a b
def execShl (f : LongF) (s : State) : Res := runAlu aluShl rowShl f.view s
def execShlShort (f : ShortF) (s : State) : Res := runAlu aluShl rowShl f.view s
def aluShr : Alu := aluBit32 4 fun _ a b => shr32 a b
def execShr (f : LongF) (s : State) : Res := runAlu aluShr rowShr f.view s
def execShrShort (f : ShortF) (s : State) : Res := runAlu aluShr rowShr f.view s
def aluSar : Alu := aluBit32 4 fun _ a b => sar32 a b
def execSar (f : LongF) (s : State) : Res := runAlu aluSar rowSar f.view s
def execSarShort (f : ShortF) (s : State) : Res := runAlu aluSar rowSar f.view s
def aluRot : Alu := aluBit32 4 fun _ a b => rot32 a b
def execRot (f : LongF) (s : State) : Res := runAlu aluRot rowRot f.view s
def execRotShort (f : ShortF) (s : State) : Res := runAlu aluRot rowRot f.view s

/-- A 32-bit form of one operand. -/
def aluBit1 (fn : Nat → Nat) : Alu := Alu.mk3 tI tNo tNo (latIs 5) domInt sgnNo fun _ a _ _ => .word (fn a)

/-- The number of one bits among the low `n`. -/
def popcount (v : Nat) : Nat → Nat
  | 0 => 0
  | n + 1 => popcount v n + b2n (bit v n)
/-- The bits of `v` in reverse order, `n` of them. -/
def reverseBits (n v : Nat) : Nat := ((List.range n).map fun i => b2n (bit v i) * 2 ^ (n - 1 - i)).foldl (· + ·) 0
/-- The index of the lowest one bit among 32, or 32. -/
def ctz32 (a : Nat) : Nat := ((List.range 32).find? fun i => bit a i).getD 32

def aluPopc : Alu := aluBit1 fun a => popcount a 32
def execPopc (f : LongF) (s : State) : Res := runAlu aluPopc rowPopc f.view s
def execPopcShort (f : ShortF) (s : State) : Res := runAlu aluPopc rowPopc f.view s
def aluClz : Alu := aluBit1 fun a => 32 - blen a
def execClz (f : LongF) (s : State) : Res := runAlu aluClz rowClz f.view s
def execClzShort (f : ShortF) (s : State) : Res := runAlu aluClz rowClz f.view s
def aluCtz : Alu := aluBit1 ctz32
def execCtz (f : LongF) (s : State) : Res := runAlu aluCtz rowCtz f.view s
def execCtzShort (f : ShortF) (s : State) : Res := runAlu aluCtz rowCtz f.view s
def aluBrev : Alu := aluBit1 (reverseBits 32)
def execBrev (f : LongF) (s : State) : Res := runAlu aluBrev rowBrev f.view s
def execBrevShort (f : ShortF) (s : State) : Res := runAlu aluBrev rowBrev f.view s

/-- R354. -/
def bfx (signed : Bool) (a ctl : Nat) : Nat :=
  let e := if signed then wrap (asS a 32) 64 else a
  let len := min (bits ctl 8 8) 32
  let f := bits e (min (bits ctl 0 8) 63) len
  if len = 0 then 0 else if signed then wrap (asS f len) 32 else f
def aluBfx : Alu := aluBit32 5 fun v a b => bfx (v.sub = 1) a b
def execBfx (f : LongF) (s : State) : Res := runAlu aluBfx rowBfx f.view s

/-- R354: the bits of the field that lie below bit 32. -/
def bfi (a b ctl : Nat) : Nat :=
  let pos := bits ctl 0 8
  let n := min (bits ctl 8 8) (32 - pos)
  let m := (2 ^ n - 1) * 2 ^ pos
  (a &&& (2 ^ 32 - 1 - m % 2 ^ 32)) ||| (b % 2 ^ n * 2 ^ pos) % 2 ^ 32
def aluBfi : Alu := Alu.mk3 tI tI tI (latIs 5) domInt sgnNo fun _ a b c => .word (bfi a b c)
def execBfi (f : LongF) (s : State) : Res := runAlu aluBfi rowBfi f.view s

/-- R355. -/
def shf64 (sub a c : Nat) : Nat :=
  if sub = 0 then (if c < 64 then a * 2 ^ c % 2 ^ 64 else 0)
  else if sub = 1 then (if c < 64 then a / 2 ^ c else 0)
  else wrap (asS a 64 / (2 ^ min c 63 : Nat)) 64
def aluShf64 : Alu := Alu.mk3 tL tI tNo (latIs 5) domInt sgnNo fun v a b _ => .dword (shf64 v.sub a b)
def execShf64 (f : LongF) (s : State) : Res := runAlu aluShf64 rowShf64 f.view s

/-- R355: one result byte. -/
def bselByte (src ctl : Nat) : Nat :=
  let x := bits src (8 * bits ctl 0 3) 8
  let y := match bits ctl 4 2 with
    | 0 => x
    | 1 => 0
    | 2 => 255
    | _ => if bit x 7 then 255 else 0
  if bit ctl 6 then reverseBits 8 y else y
def bsel (a b c : Nat) : Nat :=
  ((List.range 4).map fun i => bselByte (pair64 a b) (bits c (8 * i) 8) * 2 ^ (8 * i)).foldl (· + ·) 0
def aluBsel : Alu := Alu.mk3 tI tI tI (latIs 5) domInt sgnNo fun _ a b c => .word (bsel a b c)
def execBsel (f : LongF) (s : State) : Res := runAlu aluBsel rowBsel f.view s

end Sys2Proof.Machine
end

