-- ==== Sys2Proof/Machine/Approx.lean ====
section
/-!
DEFINITION. The instructions whose result the spec bounds and does not fix: frsq and fdiv.apx (spec/15 R369) and ftrn (R370).
The value is the one that an opaque constant of Config names where that lies within the bound, and one computed here where
it does not (log 13). Fixed-point numbers have 128 fraction bits, which leaves the error of the computation far below the
slack of 2^-40 by which the bound is narrowed.
-/
namespace Sys2Proof

/-- Fraction bits of the fixed-point numbers. -/
def fxBits : Nat := 128
def fxOne : Nat := 2 ^ fxBits
/-- 2π and ln 2. -/
def fxTwoPi : Nat := 2138057168129933495719360746323741566601
def fxLn2 : Nat := 235865763225513294137944142764154484399

/-- The product of two fixed-point numbers. -/
def fxMul (a b : Nat) : Nat := a * b / fxOne
/-- `m · 2^e` as a fixed-point number, rounded down. -/
def fxOf (m : Nat) (e : Int) : Nat :=
  let k := e + fxBits
  if 0 ≤ k then m * 2 ^ k.toNat else m / 2 ^ (-k).toNat

/-- The series Σ t^j / j! from a term on. -/
def expSeries (t : Nat) : Nat → Nat → Nat → Nat
  | 0, _, _ => 0
  | n + 1, j, term => term + expSeries t n (j + 1) (fxMul term t / (j + 1))
/-- e^t for t below 1. -/
def fxExp (t : Nat) : Nat := expSeries t 45 0 fxOne

/-- Σ z^(2j+1) / (2j+1) from a power on. -/
def atanhSeries (zz : Nat) : Nat → Nat → Nat → Nat
  | 0, _, _ => 0
  | n + 1, j, p => p / (2 * j + 1) + atanhSeries zz n (j + 1) (fxMul p zz)
/-- ln x for a fixed-point x in [1, 2). -/
def fxLn (x : Nat) : Nat :=
  let z := (x - fxOne) * fxOne / (x + fxOne)
  2 * atanhSeries (fxMul z z) 50 0 z

/-- The alternating series of sin (from the power x) or cos (from 1): the terms with a plus and those with a minus. -/
def trigSeries (xx : Nat) : Nat → Nat → Nat → Int
  | 0, _, _ => 0
  | n + 1, j, term => (term : Int) - trigSeries xx n (j + 2) (fxMul term xx / ((j + 1) * (j + 2)))
/-- sin and cos of a fixed-point angle in [0, π]. -/
def fxSin (x : Nat) : Int := trigSeries (fxMul x x) 40 1 x
def fxCos (x : Nat) : Int := trigSeries (fxMul x x) 40 0 fxOne

/-- A fixed-point number as an exact value. -/
def fxVal (v : Int) : XR := .fin (decide (v < 0)) v.natAbs (-(fxBits : Int))

/-- The exponent of a unit in the last place of FP32 at a value. -/
def ulpExp (x : XR) : Int :=
  match x with
  | .fin _ m e => max (blen m + e - 24) (-149)
  | _ => -149

/-- Whether a value lies within a bound of another. -/
def within (x y bound : XR) : Bool := (XR.add .rn x y.negate).1.abs.le bound

/-- The bits named by Config if they are a finite FP32 value within the bound of `x`, else the given ones. -/
def pickWithin (pick own : Nat) (x bound : XR) : Nat :=
  match Fmt.f32.decode pick with
  | .fin n m e => if decide (pick < 2 ^ 32) && within (.fin n m e) x bound then pick else own
  | _ => own

/-- The bound of 2 ulp, narrowed by the slack. -/
def twoUlp (x : XR) : XR := .fin false (2 ^ 41 - 1) (ulpExp x - 40)
/-- 2^-k, narrowed by the slack. -/
def absBound (k : Int) : XR := .fin false (2 ^ 40 - 1) (-k - 40)

/-- IX, and UF below the smallest normal. -/
def inexactFlags (x : XR) : Flg := fIX ||| Flg.when (x.abs.lt (.fin false 1 (-126))) fUF

/-- R370: an inexact result: within the bound of a value known to 2^-100. -/
def bounded (fn a : Nat) (x bound : XR) : FR :=
  { v := pickWithin (Config.ftrnPick fn a) (Fmt.f32.round .rn x).v x bound, f := inexactFlags x }

/-- R370 .exp2. -/
def ftrnExp2 (a : Nat) : FR :=
  match Fmt.f32.decode a with
  | .nan s => { v := Fmt.f32.canon, f := Flg.when s fIV }
  | .inf n => { v := if n then 0 else 0x7F800000, f := 0 }
  | .fin n m e =>
    let fl := (roundAt .rd n m e 0).1
    let i : Int := if n then -(fl : Int) else fl
    let exact := !(roundAt .rd n m e 0).2
    if exact && decide (-149 ≤ i) && decide (i ≤ 127) then Fmt.f32.round .rn (.fin false 1 i)
    else if 128 ≤ i then { v := 0x7F800000, f := fOF ||| fIX }
    else if i < -150 then { v := 0, f := fUF ||| fIX }
    else
      let fr := fxOf m e % fxOne
      let f := if n && !exact then fxOne - fr else fr
      let x := (fxVal (fxExp (fxMul f fxLn2))).scale i
      bounded 0 a x (twoUlp x)

/-- R370 .log2. -/
def ftrnLog2 (a : Nat) : FR :=
  match Fmt.f32.decode a with
  | .nan s => { v := Fmt.f32.canon, f := Flg.when s fIV }
  | .inf n => if n then { v := Fmt.f32.canon, f := fIV } else { v := a, f := 0 }
  | .fin n m e =>
    if m = 0 then { v := 0xFF800000, f := fDZ }
    else if n then { v := Fmt.f32.canon, f := fIV }
    else
      let k : Int := blen m - 1
      let i := e + k
      if m = 2 ^ (blen m - 1) then { v := (Fmt.f32.round .rn (XR.ofInt i)).v, f := 0 }
      else
        let x := fxVal (i * fxOne + ((fxLn (fxOf m (-k)) * fxOne / fxLn2 : Nat) : Int))
        let near := decide (-1 ≤ i) && decide (i ≤ 0)
        { bounded 1 a x (if near then absBound 22 else twoUlp x) with f := fIX }

/-- R370: sin or cos of an angle up to 2^15: the value. -/
def trigValue (isCos : Bool) (n : Bool) (m : Nat) (e : Int) : Int :=
  let r := fxOf m e % fxTwoPi
  let half := fxTwoPi / 2
  if isCos then fxCos (if half < r then fxTwoPi - r else r)
  else
    let s := if half < r then -fxSin (fxTwoPi - r) else fxSin r
    if n then -s else s

/-- R370 .sin and .cos. Beyond 2^15 radians any value of [−1, 1]. -/
def ftrnTrig (isCos : Bool) (a : Nat) : FR :=
  let fn := if isCos then 3 else 2
  match Fmt.f32.decode a with
  | .nan s => { v := Fmt.f32.canon, f := Flg.when s fIV }
  | .inf _ => { v := Fmt.f32.canon, f := fIV }
  | .fin n m e =>
    if m = 0 then { v := if isCos then 0x3F800000 else a, f := 0 }
    else if (XR.fin false m e).le (.fin false 1 15) then
      let x := fxVal (trigValue isCos n m e)
      let x := if !isCos && blen m + e < -40 then .fin n m e else x
      bounded fn a x (absBound 21)
    else { v := pickWithin (Config.ftrnPick fn a) 0 (.fin false 0 0) (.fin false 1 0), f := fIX }

/-- R370. -/
def ftrn (fn a : Nat) : FR :=
  match fn with
  | 0 => ftrnExp2 a
  | 1 => ftrnLog2 a
  | 2 => ftrnTrig false a
  | _ => ftrnTrig true a

/-- 1/√(m · 2^e), exact but for its sticky last bit. -/
def rsqMag (m : Nat) (e : Int) : Nat × Int :=
  let k : Nat := 2 * blen m + 256 + (if (e % 2 = 0) then 0 else 1)
  let n := 2 ^ k / m
  let r := isqrt n (blen n / 2 + 1) 0
  (2 * r + (if r * r * m = 2 ^ k then 0 else 1), -((k : Int) + e) / 2 - 1)

/-- R369 frsq: one of the two neighbours, or the exact value. -/
def f32Rsq (a : Nat) : FR :=
  match Fmt.f32.decode a with
  | .nan s => { v := Fmt.f32.canon, f := Flg.when s fIV }
  | .inf n => if n then { v := Fmt.f32.canon, f := fIV } else { v := 0, f := 0 }
  | .fin n m e =>
    if m = 0 then { v := 0x7F800000 + b2n n * 2 ^ 31, f := fDZ }
    else if n then { v := Fmt.f32.canon, f := fIV }
    else
      let (r, k) := rsqMag m e
      Fmt.f32.round (if Config.frsqUpper a then .ru else .rd) (.fin false r k)

/-- R369 fdiv.apx: within 2 ulp of the rounded quotient where B is normal and not above 2^126 and the quotient normal;
where the quotient is not normal the spec gives no bound. -/
def f32DivApx (a b : Nat) : FR :=
  let y := Fmt.f32.decode b
  let sub := bits b 23 8 = 0
  let b0 := if sub then b2n (bit b 31) * 2 ^ 31 else b
  let sign := b2n (bit a 31 != bit b 31) * 2 ^ 31
  match Fmt.f32.decode a, y with
  | .fin _ m _, .fin _ _ _ =>
    if sub then Fmt.f32.div .rn a b0
    else if (XR.fin false 1 126).lt y.abs then { v := sign, f := if m = 0 then 0 else fUF ||| fIX }
    else if m = 0 then { v := sign, f := 0 }
    else
      let x := (XR.div (Fmt.f32.decode a) y).1
      let r := Fmt.f32.round .rn x
      let normal := (XR.fin false 1 (-126)).le x.abs && decide (r.v % 2 ^ 31 < 0x7F800000)
      let p := Config.fdivApxPick a b % 2 ^ 32
      let rx := Fmt.f32.decode r.v
      let v := if normal then pickWithin p r.v rx (.fin false 1 (ulpExp rx + 1)) else p
      let z := Fmt.f32.decode v
      let inf := match z with | .inf _ => true | _ => false
      let ix := !(z.eq x && r.f = 0)
      { v := v, f := Flg.when ix fIX ||| Flg.when inf fOF ||| Flg.when (ix && z.abs.lt (.fin false 1 (-126))) fUF }
  | _, _ => Fmt.f32.div .rn a b0

end Sys2Proof
end

