-- ==== Sys2Proof/Machine/Float.lean ====
section
/-!
DEFINITION. FP32 arithmetic: row 0x4_ (spec/15 R365 to R372).
-/
namespace Sys2Proof.Machine

/-- The word and the flags of a float result. -/
def AluOut.ofFR (r : FR) : AluOut := (AluOut.word r.v).flags r.f

/-- A form of row 0x4_ of two operands; the function takes the rounding mode. -/
def aluF2 (lat : View → Option Nat) (fn : View → Rnd → Nat → Nat → FR) : Alu :=
  Alu.mk3 tF tF tNo lat domF32 sgnNo fun v a b _ => .ofFR (fn v (Rnd.ofCode v.rnd) a b)
/-- A form of one operand. -/
def aluF1 (lat : View → Option Nat) (fn : View → Rnd → Nat → FR) : Alu :=
  Alu.mk3 tF tNo tNo lat domF32 sgnNo fun v a _ _ => .ofFR (fn v (Rnd.ofCode v.rnd) a)

def aluFadd : Alu := aluF2 (latIs 5) fun _ m a b => Fmt.f32.add m a b
def execFadd (f : LongF) (s : State) : Res := runAlu aluFadd rowFadd f.view s
def execFaddShort (f : ShortF) (s : State) : Res := runAlu aluFadd rowFadd f.view s
def aluFsub : Alu := aluF2 (latIs 5) fun _ m a b => Fmt.f32.sub m a b
def execFsub (f : LongF) (s : State) : Res := runAlu aluFsub rowFsub f.view s
def execFsubShort (f : ShortF) (s : State) : Res := runAlu aluFsub rowFsub f.view s
def aluFmul : Alu := aluF2 (latIs 5) fun _ m a b => Fmt.f32.mul m a b
def execFmul (f : LongF) (s : State) : Res := runAlu aluFmul rowFmul f.view s
def execFmulShort (f : ShortF) (s : State) : Res := runAlu aluFmul rowFmul f.view s
def aluFma : Alu := Alu.mk3 tF tF tF (latIs 5) domF32 sgnNo fun v a b c =>
  .ofFR (Fmt.f32.fma (Rnd.ofCode v.rnd) a b c)
def execFma (f : LongF) (s : State) : Res := runAlu aluFma rowFma f.view s
def aluFmin : Alu := aluF2 (latIs 5) fun v _ a b => if v.sub = 1 then Fmt.f32.minIeee a b else Fmt.f32.minNum a b
def execFmin (f : LongF) (s : State) : Res := runAlu aluFmin rowFmin f.view s
def execFminShort (f : ShortF) (s : State) : Res := runAlu aluFmin rowFmin f.view s
def aluFmax : Alu := aluF2 (latIs 5) fun v _ a b => if v.sub = 1 then Fmt.f32.maxIeee a b else Fmt.f32.maxNum a b
def execFmax (f : LongF) (s : State) : Res := runAlu aluFmax rowFmax f.view s
def execFmaxShort (f : ShortF) (s : State) : Res := runAlu aluFmax rowFmax f.view s
def aluFcmp : Alu := Alu.mk3 tF tF tNo (latIs 5) domF32 sgnNo fun v a b _ =>
  let r := fcmpX v.sub (Fmt.f32.decode a) (Fmt.f32.decode b)
  (AluOut.pred r.1).flags r.2
def execFcmp (f : LongF) (s : State) : Res := runAlu aluFcmp rowFcmp f.view s
def execFcmpShort (f : ShortF) (s : State) : Res := runAlu aluFcmp rowFcmp f.view s
def aluFdiv : Alu := aluF2 latT fun _ m a b => Fmt.f32.div m a b
def execFdiv (f : LongF) (s : State) : Res := runAlu aluFdiv rowFdiv f.view s
def aluFdivApx : Alu := aluF2 latT fun _ _ a b => f32DivApx a b
def execFdivApx (f : LongF) (s : State) : Res := runAlu aluFdivApx rowFdivApx f.view s
def aluFsqrt : Alu := aluF1 latT fun _ m a => Fmt.f32.sqrt m a
def execFsqrt (f : LongF) (s : State) : Res := runAlu aluFsqrt rowFsqrt f.view s
def aluFrcp : Alu := aluF1 latT fun _ m a => Fmt.f32.div m 0x3F800000 a
def execFrcp (f : LongF) (s : State) : Res := runAlu aluFrcp rowFrcp f.view s
def aluFrsq : Alu := aluF1 latT fun _ _ a => f32Rsq a
def execFrsq (f : LongF) (s : State) : Res := runAlu aluFrsq rowFrsq f.view s
def aluFtrn : Alu := aluF1 latT fun v _ a => ftrn v.sub a
def execFtrn (f : LongF) (s : State) : Res := runAlu aluFtrn rowFtrn f.view s
def aluFrnd : Alu := aluF1 (latIs 5) fun _ m a => f32Rnd m a
def execFrnd (f : LongF) (s : State) : Res := runAlu aluFrnd rowFrnd f.view s
def execFrndShort (f : ShortF) (s : State) : Res := runAlu aluFrnd rowFrnd f.view s
def aluFfract : Alu := aluF1 (latIs 5) fun _ _ a => f32Fract a
def execFfract (f : LongF) (s : State) : Res := runAlu aluFfract rowFfract f.view s
def execFfractShort (f : ShortF) (s : State) : Res := runAlu aluFfract rowFfract f.view s
def aluFclass : Alu := Alu.mk3 tF tNo tNo (latIs 5) domF32 sgnNo fun _ a _ _ => .word (f32Class a)
def execFclass (f : LongF) (s : State) : Res := runAlu aluFclass rowFclass f.view s
def execFclassShort (f : ShortF) (s : State) : Res := runAlu aluFclass rowFclass f.view s

/-- R372: B of .ldexp is an integer; .frexp pushes the exponent first. -/
def tScaleB (v : View) : Option OpTy := if v.sub = 0 then some .i32 else none
def scaleOut (v : View) (a b : Nat) : AluOut :=
  if v.sub = 0 then .ofFR (f32Ldexp (Rnd.ofCode v.rnd) a (asS b 32))
  else let (m, e, f) := f32Frexp a; (AluOut.dword (pair64 m e)).flags f
def aluFscale : Alu := Alu.mk3 tF tScaleB tNo (latIs 5) domF32 sgnNo fun v a b _ => scaleOut v a b
def execFscale (f : LongF) (s : State) : Res := runAlu aluFscale rowFscale f.view s
def execFscaleShort (f : ShortF) (s : State) : Res := runAlu aluFscale rowFscale f.view s

end Sys2Proof.Machine
end

