-- ==== Sys2Proof/Machine/Convert.lean ====
section
/-!
DEFINITION. Conversions: row 0x6_ (spec/15 R376 to R381, spec/12 R295 to R304).
-/
namespace Sys2Proof.Machine

/-- R376: the rounding mode; .sr takes bits 15:0 of B. -/
def rndSr (v : View) (rho : Nat) : Rnd := if v.rnd = 4 then .sr (rho % 65536) else Rnd.ofCode v.rnd

/-- R318, R319, R376: how an operand of a type is read; a constant code of a 16-bit float source stands for its number (log 76). -/
def opTyOf (t : Ty) : OpTy :=
  match t with
  | .f32 => .f32
  | .f16 => .pk false
  | .bf16 => .pk true
  | t => if t.width = 64 then .i64 else .i32

/-- R376: the domain of a conversion's flags. -/
def cvtDom (v : View) : Nat :=
  if v.cvtSrc = .f32 || v.cvtDst = .f32 then domF32
  else if v.cvtSrc.isFloat || v.cvtDst.isFloat then domPk else domInt

def aluCvt : Alu where
  ta := fun v => some (opTyOf v.cvtSrc)
  tb := fun v => if v.rnd = 4 then some .i32 else none
  tc := tNo
  lat := latIs 6
  dom := cvtDom
  sgn := fun v => v.cvtDst.signed
  stale := fun _ => false
  causes := fun _ => []
  fn := fun i _ a b _ =>
    let r := cvt i.v.cvtSrc i.v.cvtDst (rndSr i.v b) a
    (AluOut.ofBits (if i.v.cvtDst.width = 64 then 64 else 32) r.v).flags r.f
def execCvt (f : LongF) (s : State) : Res := runAlu aluCvt rowCvt f.view s
def execCvtShort (f : ShortF) (s : State) : Res := runAlu aluCvt rowCvt f.view s

/-- Byte `k` of a word. -/
def byteOf (x k : Nat) : Nat := bits x (8 * k) 8

/-- R378: the packed word of the codes of `xs`. -/
def quantAll (f : NFmt) (e sigma : Nat) (mode : Nat → Rnd) (sat : Bool) (xs : List Nat) : FR :=
  let rs := xs.zipIdx.map fun (x, j) => f.quant x e sigma (mode j) sat
  { v := (rs.zipIdx.map fun (r, j) => r.v * 2 ^ ((if f.slot = 4 then 4 else 8) * j)).foldl (· + ·) 0
    f := rs.foldl (fun g r => g ||| r.f) 0 }

/-- R378. -/
def aluCvtn : Alu where
  ta := tNo
  tb := tI
  tc := fun v => if v.rnd = 4 || bits v.sub 0 4 = 4 then some .i32 else none
  lat := latIs 8
  dom := fun _ => domNarrow
  sgn := sgnNo
  stale := fun _ => false
  causes := fun _ => []
  fn := fun i l _ b c =>
    let f := NFmt.ofCode (bits i.v.sub 0 4)
    let k := bits i.v.sub 6 2
    let mode (j : Nat) : Rnd := if i.v.rnd = 4 then .sr (rng c j l % 65536) else Rnd.ofCode i.v.rnd
    .ofFR (quantAll f (byteOf b k) (if f = .e2m1 then byteOf c k else 0) mode i.v.sat (i.w.span l i.v.a i.v.cvtnN))
def execCvtn (f : LongF) (s : State) : Res := runAlu aluCvtn rowCvtn f.view s

/-- R379: element I, or I and I + 1, widened. -/
def aluCvtw : Alu where
  ta := tI
  tb := fun v => if bits v.sub 0 4 ≤ 8 then some .i32 else none
  tc := fun v => if bits v.sub 0 4 = 4 then some .i32 else none
  lat := latIs 6
  dom := fun _ => domNarrow
  sgn := sgnNo
  stale := fun _ => false
  causes := fun _ => []
  fn := fun i _ a b c =>
    let f := NFmt.ofCode (bits i.v.sub 0 4)
    let j := bits i.v.sub 4 3
    let w (j : Nat) : FR := f.widen (f.elem a j) (byteOf b 0) (byteOf c 0)
    if !bit i.v.sub 7 then .ofFR (w j)
    else if i.v.typeRaw = 12 then
      let n (j : Nat) : FR := Fmt.bf16.round (Rnd.ofCode i.v.rnd) (Fmt.f32.decode (w j).v)
      (AluOut.word ((n j).v + 65536 * (n (j + 1)).v)).flags ((w j).f ||| (w (j + 1)).f ||| (n j).f ||| (n (j + 1)).f)
    else (AluOut.dword (pair64 (w j).v (w (j + 1)).v)).flags ((w j).f ||| (w (j + 1)).f)
def execCvtw (f : LongF) (s : State) : Res := runAlu aluCvtw rowCvtw f.view s

/-- R380: the signs of the lanes in Exec. -/
def aluSgnpk : Alu where
  ta := tF
  tb := tNo
  tc := tNo
  lat := latIs 6
  dom := fun _ => domF32
  sgn := sgnNo
  stale := fun _ => false
  causes := fun _ => []
  fn := fun i _ _ _ _ =>
    let pops := i.popAll.1
    .word (maskOfLanes (i.ex.filter fun l => bit (i.operand pops (some .f32) i.v.a l) 31))
def execSgnpk (f : LongF) (s : State) : Res := runAlu aluSgnpk rowSgnpk f.view s
def execSgnpkShort (f : ShortF) (s : State) : Res := runAlu aluSgnpk rowSgnpk f.view s

/-- R380: B with its sign flipped where bit l of A is set. -/
def aluSgnex : Alu where
  ta := tI
  tb := tF
  tc := tNo
  lat := latIs 6
  dom := fun _ => domF32
  sgn := sgnNo
  stale := fun _ => false
  causes := fun _ => []
  fn := fun _ l a b _ => .word (if bit a l then b ^^^ 0x80000000 else b)
def execSgnex (f : LongF) (s : State) : Res := runAlu aluSgnex rowSgnex f.view s
def execSgnexShort (f : ShortF) (s : State) : Res := runAlu aluSgnex rowSgnex f.view s

/-- The larger of two magnitudes, any NaN dominating. -/
def maxNan (x y : XR) : XR := if x.isNan then x else if y.isNan then y else if x.lt y then y else x

/-- R381: the scale of a block with largest magnitude `m`. -/
def blockScale (f : NFmt) (m : XR) : Nat × Flg :=
  if m.isZero then (0x7F, 0)
  else if m.isNan then (0xFF, 0)
  else match (List.range 255).find? fun (e : Nat) => (m.scale (127 - (e : Int))).le f.maxVal with
    | some e => (e, 0)
    | none => (254, fSA)

/-- The format that C of scl names. -/
def Iss.sclFmt (i : Iss) : Nat := bits (i.w.operand i.v .i32 [] 0 i.v.c) 0 4
/-- R381: whether a lane is a block lane. -/
def blockLane (sub j : Nat) : Bool := sub = 0 || decide (j % 16 < 4)
/-- R381. -/
def aluSclAny : Alu where
  ta := tF
  tb := tI
  tc := tNo
  lat := latIs 12
  dom := fun _ => domNarrow
  sgn := sgnNo
  stale := fun _ => false
  causes := fun i => if 8 < i.sclFmt then [Cz.plain 0x03 i.ex] else []
  fn := fun i j _ _ _ =>
    let pops := i.popAll.1
    let from_ := i.ex.filter fun l => i.operand pops (some .i32) i.v.b l % 32 = j
    let m := from_.foldl (fun m l => maxNan m (Fmt.f32.decode (i.operand pops (some .f32) i.v.a l)).abs) (.fin false 0 0)
    let (e, f) := if blockLane i.v.sub j then blockScale (NFmt.ofCode i.sclFmt) m else (0x7F, 0)
    (AluOut.word e).flags f
def aluScl : Alu := aluSclAny
def execScl (f : LongF) (s : State) : Res := runAlu aluScl rowScl f.view s
def aluScl32 : Alu := aluSclAny
def execScl32 (f : LongF) (s : State) : Res := runAlu aluScl32 rowScl32 f.view s

/-- R377. -/
def aluRngl : Alu where
  ta := tI
  tb := tI
  tc := tNo
  lat := latIs 4
  dom := fun _ => domF32
  sgn := sgnNo
  stale := fun _ => false
  causes := fun _ => []
  fn := fun _ l a b _ => .word (rng a b l)
def execRngl (f : LongF) (s : State) : Res := runAlu aluRngl rowRngl f.view s
def execRnglShort (f : ShortF) (s : State) : Res := runAlu aluRngl rowRngl f.view s

end Sys2Proof.Machine
end

