-- ==== Sys2Proof/Machine/Intervals.lean ====
section
/-!
DEFINITION. Interval instructions: row 0x7_ (spec/15 R382 to R384).
-/
namespace Sys2Proof.Machine

/-- The interval of a 64-bit operand (R382). -/
def itvOf (x : Nat) : Itv := Itv.mk (lo32 x) (hi32 x)
/-- An interval result, hi pushed first. -/
def AluOut.ofIR (r : IR) : AluOut := (AluOut.dword (pair64 r.v.lo r.v.hi)).flags r.f

/-- A form of two intervals, and of one. -/
def aluX2 (lat : View → Option Nat) (fn : Itv → Itv → IR) : Alu :=
  Alu.mk3 tX tX tNo lat domInt sgnNo fun _ a b _ => .ofIR (fn (itvOf a) (itvOf b))
def aluX1 (lat : View → Option Nat) (fn : Itv → IR) : Alu :=
  Alu.mk3 tX tNo tNo lat domInt sgnNo fun _ a _ _ => .ofIR (fn (itvOf a))

def aluXadd : Alu := aluX2 (latIs 8) Itv.add
def execXadd (f : LongF) (s : State) : Res := runAlu aluXadd rowXadd f.view s
def execXaddShort (f : ShortF) (s : State) : Res := runAlu aluXadd rowXadd f.view s
def aluXsub : Alu := aluX2 (latIs 8) Itv.sub
def execXsub (f : LongF) (s : State) : Res := runAlu aluXsub rowXsub f.view s
def execXsubShort (f : ShortF) (s : State) : Res := runAlu aluXsub rowXsub f.view s
def aluXmul : Alu := aluX2 (latIs 10) Itv.mul
def execXmul (f : LongF) (s : State) : Res := runAlu aluXmul rowXmul f.view s
def execXmulShort (f : ShortF) (s : State) : Res := runAlu aluXmul rowXmul f.view s
def aluXdiv : Alu := aluX2 latT Itv.div
def execXdiv (f : LongF) (s : State) : Res := runAlu aluXdiv rowXdiv f.view s
def aluXsqr : Alu := aluX1 (latIs 10) Itv.sqr
def execXsqr (f : LongF) (s : State) : Res := runAlu aluXsqr rowXsqr f.view s
def execXsqrShort (f : ShortF) (s : State) : Res := runAlu aluXsqr rowXsqr f.view s
def aluXsqrt : Alu := aluX1 latT Itv.sqrt
def execXsqrt (f : LongF) (s : State) : Res := runAlu aluXsqrt rowXsqrt f.view s
def aluXmin : Alu := aluX2 (latIs 8) Itv.min
def execXmin (f : LongF) (s : State) : Res := runAlu aluXmin rowXmin f.view s
def execXminShort (f : ShortF) (s : State) : Res := runAlu aluXmin rowXmin f.view s
def aluXmax : Alu := aluX2 (latIs 8) Itv.max
def execXmax (f : LongF) (s : State) : Res := runAlu aluXmax rowXmax f.view s
def execXmaxShort (f : ShortF) (s : State) : Res := runAlu aluXmax rowXmax f.view s
def aluXabs : Alu := aluX1 (latIs 8) Itv.abs
def execXabs (f : LongF) (s : State) : Res := runAlu aluXabs rowXabs f.view s
def execXabsShort (f : ShortF) (s : State) : Res := runAlu aluXabs rowXabs f.view s
def aluXhull : Alu := aluX2 (latIs 8) Itv.hull
def execXhull (f : LongF) (s : State) : Res := runAlu aluXhull rowXhull f.view s
def execXhullShort (f : ShortF) (s : State) : Res := runAlu aluXhull rowXhull f.view s

/-- R384: the intersection and then its predicate. -/
def aluXmeet : Alu := Alu.mk3 tX tX tNo (latIs 8) domInt sgnNo fun _ a b _ =>
  let (r, p) := Itv.meet (itvOf a) (itvOf b)
  { AluOut.ofIR r with preds := [p] }
def execXmeet (f : LongF) (s : State) : Res := runAlu aluXmeet rowXmeet f.view s
def execXmeetShort (f : ShortF) (s : State) : Res := runAlu aluXmeet rowXmeet f.view s

/-- R384: above and then below. -/
def aluXtest : Alu := Alu.mk3 tX tF tNo (latIs 8) domInt sgnNo fun _ a b _ =>
  let (above, below, f) := Itv.test (itvOf a) b
  { res := [], preds := [above, below], fl := f }
def execXtest (f : LongF) (s : State) : Res := runAlu aluXtest rowXtest f.view s
def execXtestShort (f : ShortF) (s : State) : Res := runAlu aluXtest rowXtest f.view s
def aluXmk : Alu := Alu.mk3 tF tF tNo (latIs 8) domInt sgnNo fun _ a b _ => .ofIR (Itv.mk' a b)
def execXmk (f : LongF) (s : State) : Res := runAlu aluXmk rowXmk f.view s
def execXmkShort (f : ShortF) (s : State) : Res := runAlu aluXmk rowXmk f.view s
def aluXmid : Alu := Alu.mk3 tX tNo tNo (latIs 8) domInt sgnNo fun _ a _ _ => .ofFR (Itv.mid (itvOf a))
def execXmid (f : LongF) (s : State) : Res := runAlu aluXmid rowXmid f.view s
def execXmidShort (f : ShortF) (s : State) : Res := runAlu aluXmid rowXmid f.view s

end Sys2Proof.Machine
end

