-- ==== Sys2Proof/Machine/Preds.lean ====
section
/-!
DEFINITION. Predicates, special registers and single lanes: row 0x3_ (spec/14 R356 to R358, spec/07 R171, R173).
-/
namespace Sys2Proof.Machine

/-- Whether a predicate depth has not arrived in a lane of Exec. -/
def Iss.predStale (i : Iss) (ds : List Nat) : Bool :=
  i.ex.any fun l => ds.any fun d => !i.w.ready ((i.w.lane l).predCell d).due

/-- An instruction that reads predicates by depth and pushes one. -/
def aluPreds (ds : View → List Nat) (fn : View → (Nat → Bool) → AluOut) : Alu where
  ta := tNo
  tb := tNo
  tc := tNo
  lat := latIs 4
  dom := fun _ => domInt
  sgn := sgnNo
  stale := fun i => i.predStale (ds i.v)
  causes := fun _ => []
  fn := fun i l _ _ _ => fn i.v (i.w.pred l)

def aluPand : Alu := aluPreds (fun v => [v.aRaw, v.bRaw]) fun v p => .pred (p v.aRaw && p v.bRaw)
def execPand (f : LongF) (s : State) : Res := runAlu aluPand rowPand f.view s
def execPandShort (f : ShortF) (s : State) : Res := runAlu aluPand rowPand f.view s
def aluPor : Alu := aluPreds (fun v => [v.aRaw, v.bRaw]) fun v p => .pred (p v.aRaw || p v.bRaw)
def execPor (f : LongF) (s : State) : Res := runAlu aluPor rowPor f.view s
def execPorShort (f : ShortF) (s : State) : Res := runAlu aluPor rowPor f.view s
def aluPxor : Alu := aluPreds (fun v => [v.aRaw, v.bRaw]) fun v p => .pred (p v.aRaw != p v.bRaw)
def execPxor (f : LongF) (s : State) : Res := runAlu aluPxor rowPxor f.view s
def execPxorShort (f : ShortF) (s : State) : Res := runAlu aluPxor rowPxor f.view s
def aluPnot : Alu := aluPreds (fun v => [v.aRaw]) fun v p => .pred (!p v.aRaw)
def execPnot (f : LongF) (s : State) : Res := runAlu aluPnot rowPnot f.view s
def execPnotShort (f : ShortF) (s : State) : Res := runAlu aluPnot rowPnot f.view s
def aluPpush : Alu := Alu.mk3 tI tNo tNo (latIs 4) domInt sgnNo fun _ a _ _ => .pred (a != 0)
def execPpush (f : LongF) (s : State) : Res := runAlu aluPpush rowPpush f.view s
def execPpushShort (f : ShortF) (s : State) : Res := runAlu aluPpush rowPpush f.view s

/-- R356: the depths move down by SUB + 1 and the others are false; each keeps the time at which its value arrives. -/
def dropPreds (n : Nat) (ps : List PCell) : List PCell := (ps.drop n ++ List.replicate n PCell.zero).take 8
def runPdrop (v : View) (s : State) : Res :=
  issue rowPdrop v s (fun _ => []) fun i =>
    let w := i.w.onLanes i.ex fun _ x => { x with preds := dropPreds (v.sub + 1) x.preds }
    i.commit i.s (i.addToken w) i.at_
def execPdrop (f : LongF) (s : State) : Res := runPdrop f.view s
def execPdropShort (f : ShortF) (s : State) : Res := runPdrop f.view s

def aluPget : Alu := aluPreds (fun _ => List.range 8) fun _ p =>
  .word (((List.range 8).map fun d => b2n (p d) * 2 ^ d).foldl (· + ·) 0)
def execPget (f : LongF) (s : State) : Res := runAlu aluPget rowPget f.view s
def execPgetShort (f : ShortF) (s : State) : Res := runAlu aluPget rowPget f.view s

/-- R173: the value of a special register in a lane. -/
def Iss.special (i : Iss) (n l : Nat) : Nat :=
  match n with
  | 0 => if (i.w.lane l).retired then 0 else i.s.codeAddr i.w.ctx (i.w.lane l).pc
  | 1 => l
  | 2 => i.w.flagsSeen.toNat
  | 3 => i.s.now
  | 4 => i.core
  | 5 => keyPart i.key
  | 6 => keySlot i.key
  | 7 => i.w.ctx
  | 8 => i.w.n
  | 9 => maskOfLanes i.w.liveLanes
  | 10 => maskOfLanes i.w.parkedLanes
  | _ => i.w.rstateSeen.toNat

/-- R357. -/
def aluRdsp : Alu where
  ta := tNo
  tb := tNo
  tc := tNo
  lat := latIs 4
  dom := fun _ => domInt
  sgn := sgnNo
  stale := fun i => (i.v.aRaw = 2 && i.w.flagsStale) || (i.v.aRaw = 11 && i.w.rstateStale)
  causes := fun _ => []
  fn := fun i l _ _ _ =>
    let n := i.v.aRaw
    AluOut.ofBits (if n = 0 || n = 3 || n = 11 then 64 else 32) (i.special n l)
def execRdsp (f : LongF) (s : State) : Res := runAlu aluRdsp rowRdsp f.view s
def execRdspShort (f : ShortF) (s : State) : Res := runAlu aluRdsp rowRdsp f.view s

/-- The value of B of wrsp. -/
def Iss.wrspValue (i : Iss) : Nat := i.w.operand i.v (if i.v.aRaw = 11 then .i64 else .i32) [] 0 i.v.b
/-- R173: the values that %flags and %rstate take; another raises 0x03. -/
def Iss.wrspOk (i : Iss) : Bool :=
  let x := i.wrspValue
  if i.v.aRaw = 2 then decide (x < 256) else x = 0 || (canonical x && x % 256 = 0)
/-- R357: wrsp acts once if Exec is not empty; its latency is 4 (R329). -/
def runWrsp (v : View) (s : State) : Res :=
  issue rowWrsp v s (fun i => if i.ex.isEmpty || i.wrspOk then [] else [Cz.plain 0x03 i.ex]) fun i =>
    let x := i.wrspValue
    let w := if i.ex.isEmpty then i.w
      else if v.aRaw = 2 then { i.w.writeFlags (BitVec.ofNat 8 x) with flagsWas := some (i.w.flagsSeen, i.w.cycle + 4) }
      else { i.w with rstate := BitVec.ofNat 64 x, rstateWas := some (i.w.rstateSeen, i.w.cycle + 4) }
    i.commit i.s (i.addToken w) i.at_
def execWrsp (f : LongF) (s : State) : Res := runWrsp f.view s
def execWrspShort (f : ShortF) (s : State) : Res := runWrsp f.view s

/-- R163: a 32-bit operand of a source lane, 0 for a retired one. -/
def Iss.sourceLane (i : Iss) (t : OpTy) (pops : List (Nat × Popped)) (src : Src) (l : Nat) : Nat :=
  if (i.w.lane l).retired then 0 else i.operand pops (some t) src l

/-- R358: A of lane B mod 32, for every lane or for a k register. -/
def aluRdlane : Alu where
  ta := tI
  tb := tI
  tc := tNo
  lat := latIs 6
  dom := fun _ => domInt
  sgn := sgnNo
  stale := fun i =>
    let j := i.w.operand i.v .i32 [] 0 i.v.b % 32
    !(i.w.lane j).retired && i.w.stale .i32 j i.v.a
  causes := fun _ => []
  fn := fun i _ _ b _ => .word (i.sourceLane .i32 i.popAll.1 i.v.a (b % 32))
def execRdlane (f : LongF) (s : State) : Res := runAlu aluRdlane rowRdlane f.view s
def execRdlaneShort (f : ShortF) (s : State) : Res := runAlu aluRdlane rowRdlane f.view s

/-- R358: named register D of lane B mod 32 takes the uniform A. -/
def runWrlane (v : View) (s : State) : Res :=
  issue rowWrlane v s (fun _ => []) fun i =>
    let due := i.due (some 6)
    let a := BitVec.ofNat 32 (i.w.operand v .i32 [] 0 v.a)
    let j := i.w.operand v .i32 [] 0 v.b % 32
    let w := match i.ex, v.d with
      | _ :: _, .named r => i.w.onLane j fun x => i.w.nameLane due x r a
      | _, _ => i.w
    i.commit i.s (i.addToken w) i.at_
def execWrlane (f : LongF) (s : State) : Res := runWrlane f.view s
/-- R358: the short form has D = 0, which raises 0x03. -/
def execWrlaneShort (f : ShortF) (s : State) : Res :=
  issue rowWrlaneShort f.view s (fun i => [Cz.plain 0x03 i.ex]) fun i => i.commit i.s i.w i.at_

end Sys2Proof.Machine
end

