-- ==== Sys2Proof/Machine/LaneOps.lean ====
section
/-!
DEFINITION. Lane operations: row 0x8_ (spec/14 R359 to R362, spec/07 R162, R163) but regroup.
-/
namespace Sys2Proof.Machine

/-- R324: a 32-bit result of the row's default type .s32 is extended by its sign in a k register. -/
def sgnS32 (v : View) : Bool := v.typ 3 = 0

/-- Whether A of some source lanes has not arrived; a retired one supplies 0 (R163). -/
def Iss.sourceStale (i : Iss) (t : OpTy) (ls : List Nat) : Bool :=
  ls.any fun l => !(i.w.lane l).retired && i.w.stale t l i.v.a

/-- How A is read, with a default for totality. -/
def Iss.moveTy (i : Iss) : OpTy := (tMove 3 i.v).getD .i32

/-- R359: the source lane of a lane. -/
def shflSource (sub l b : Nat) : Nat :=
  match sub with
  | 0 => b % 32
  | 1 => if b ≤ l then l - b else l
  | 2 => if l + b ≤ 31 then l + b else l
  | _ => l ^^^ (b % 32)

def aluShfl : Alu where
  ta := tMove 3
  tb := tI
  tc := tNo
  lat := latIs 6
  dom := fun _ => domInt
  sgn := sgnS32
  stale := fun i => i.sourceStale i.moveTy (i.ex.map fun l => shflSource i.v.sub l (i.w.operand i.v .i32 [] l i.v.b))
  causes := fun _ => []
  fn := fun i l _ b _ => AluOut.ofBits (i.v.tyBits 3) (i.sourceLane i.moveTy i.popAll.1 i.v.a (shflSource i.v.sub l b))
def execShfl (f : LongF) (s : State) : Res := runAlu aluShfl rowShfl f.view s
def execShflShort (f : ShortF) (s : State) : Res := runAlu aluShfl rowShfl f.view s

def aluBcast : Alu where
  ta := tMove 3
  tb := tI
  tc := tNo
  lat := latIs 6
  dom := fun _ => domInt
  sgn := sgnS32
  stale := fun i => i.sourceStale i.moveTy [i.w.operand i.v .i32 [] 0 i.v.b % 32]
  causes := fun _ => []
  fn := fun i _ _ b _ => AluOut.ofBits (i.v.tyBits 3) (i.sourceLane i.moveTy i.popAll.1 i.v.a (b % 32))
def execBcast (f : LongF) (s : State) : Res := runAlu aluBcast rowBcast f.view s
def execBcastShort (f : ShortF) (s : State) : Res := runAlu aluBcast rowBcast f.view s

/-- R360: the lanes of Exec whose predicate is true. -/
def Iss.ballot (i : Iss) : List Nat := i.ex.filter fun l => i.w.pred l i.v.aRaw

def aluVote : Alu where
  ta := tNo
  tb := tNo
  tc := tNo
  lat := latIs 6
  dom := fun _ => domInt
  sgn := sgnS32
  stale := fun i => i.predStale [i.v.aRaw]
  causes := fun _ => []
  fn := fun i _ _ _ _ =>
    if i.v.sub = 2 then .word (maskOfLanes i.ballot)
    else if i.v.sub = 1 then .pred (decide (i.ballot.length = i.ex.length))
    else .pred !i.ballot.isEmpty
def execVote (f : LongF) (s : State) : Res := runAlu aluVote rowVote f.view s
def execVoteShort (f : ShortF) (s : State) : Res := runAlu aluVote rowVote f.view s

def aluMcount : Alu where
  ta := tI
  tb := tNo
  tc := tNo
  lat := latIs 6
  dom := fun _ => domInt
  sgn := sgnS32
  stale := fun _ => false
  causes := fun _ => []
  fn := fun i _ a _ _ =>
    let pops := i.popAll.1
    .word (i.ex.filter fun j => i.operand pops (some .i32) i.v.a j == a).length
def execMcount (f : LongF) (s : State) : Res := runAlu aluMcount rowMcount f.view s
def execMcountShort (f : ShortF) (s : State) : Res := runAlu aluMcount rowMcount f.view s

def aluLanes : Alu where
  ta := tNo
  tb := tNo
  tc := tNo
  lat := latIs 4
  dom := fun _ => domInt
  sgn := sgnS32
  stale := fun _ => false
  causes := fun _ => []
  fn := fun i _ _ _ _ => .word (maskOfLanes i.ex)
def execLanes (f : LongF) (s : State) : Res := runAlu aluLanes rowLanes f.view s
def execLanesShort (f : ShortF) (s : State) : Res := runAlu aluLanes rowLanes f.view s

/-! ### redux and scan (R361) -/

/-- The type of R361: 0 signed, 7 unsigned, 9 bits, 10 float. -/
def reduceTy (v : View) : OpTy := if v.typ 3 = 10 then .f32 else .i32

/-- R361: one step of the operation `o`, in the type `t`. -/
def reduceOp (o t : Nat) (m : Rnd) (a b : Nat) : FR :=
  let less (x y : Nat) : Bool := decide (ext (t != 7) 32 x < ext (t != 7) 32 y)
  match o with
  | 0 => if t = 10 then Fmt.f32.add m a b else { v := (a + b) % 2 ^ 32, f := 0 }
  | 1 => if t = 10 then Fmt.f32.minNum a b else { v := if less b a then b else a, f := 0 }
  | 2 => if t = 10 then Fmt.f32.maxNum a b else { v := if less a b then b else a, f := 0 }
  | 3 => { v := a &&& b, f := 0 }
  | 4 => { v := a ||| b, f := 0 }
  | _ => { v := a ^^^ b, f := 0 }

/-- R361: the exclusive identity. -/
def reduceId (o t : Nat) : Nat :=
  match o with
  | 0 => if t = 10 then 0x80000000 else 0
  | 1 => if t = 10 then 0x7F800000 else if t = 7 then 0xFFFFFFFF else 0x7FFFFFFF
  | 2 => if t = 10 then 0xFF800000 else if t = 7 then 0 else 0x80000000
  | 3 => 0xFFFFFFFF
  | _ => 0

/-- One level of the tree: neighbours joined. -/
def joinPairs (f : Nat → Nat → FR) : List Nat → List Nat × Flg
  | a :: b :: r => let x := f a b; let (vs, g) := joinPairs f r; (x.v :: vs, x.f ||| g)
  | l => (l, 0)

/-- R361: the tree of five levels. -/
def reduxTree (f : Nat → Nat → FR) : Nat → List Nat → Nat × Flg
  | 0, l => (l.headD 0, 0)
  | n + 1, l => let (vs, g) := joinPairs f l; let (v, h) := reduxTree f n vs; (v, g ||| h)

/-- R361: the running values from an accumulator on. -/
def scanFrom (f : Nat → Nat → FR) : Nat → List Nat → List Nat × Flg
  | acc, [] => ([acc], 0)
  | acc, x :: xs => let y := f acc x; let (vs, g) := scanFrom f y.v xs; (acc :: vs, y.f ||| g)

/-- The operation of R361 that a view selects. -/
def Iss.reduceFn (i : Iss) : Nat → Nat → FR := reduceOp (bits i.v.sub 0 3) (i.v.typ 3) (Rnd.ofCode i.v.rnd)
/-- A of all lanes. -/
def Iss.allA (i : Iss) : List Nat :=
  let pops := i.popAll.1
  laneIds.map fun l => i.operand pops (some (reduceTy i.v)) i.v.a l

/-- R361: the lanes' values of a scan. -/
def Iss.scanned (i : Iss) : List Nat × Flg :=
  let a := i.allA
  if bit i.v.sub 3 then scanFrom i.reduceFn (reduceId (bits i.v.sub 0 3) (i.v.typ 3)) (a.take 31)
  else scanFrom i.reduceFn (a.headD 0) a.tail

def aluRedux : Alu where
  ta := fun v => some (reduceTy v)
  tb := tNo
  tc := tNo
  lat := latIs 12
  dom := fun v => if v.typ 3 = 10 then domF32 else domInt
  sgn := sgnS32
  stale := fun _ => false
  causes := Iss.convergeCz
  fn := fun i _ _ _ _ => let (x, f) := reduxTree i.reduceFn 5 i.allA; (AluOut.word x).flags f
def execRedux (f : LongF) (s : State) : Res := runAlu aluRedux rowRedux f.view s
def execReduxShort (f : ShortF) (s : State) : Res := runAlu aluRedux rowRedux f.view s

def aluScan : Alu where
  ta := fun v => some (reduceTy v)
  tb := tNo
  tc := tNo
  lat := latIs 12
  dom := fun v => if v.typ 3 = 10 then domF32 else domInt
  sgn := sgnS32
  stale := fun _ => false
  causes := Iss.convergeCz
  fn := fun i l _ _ _ => let (vs, f) := i.scanned; (AluOut.word (at? 0 vs l)).flags f
def execScan (f : LongF) (s : State) : Res := runAlu aluScan rowScan f.view s
def execScanShort (f : ShortF) (s : State) : Res := runAlu aluScan rowScan f.view s

/-! ### ddx and ddy (R362) -/

/-- The minuend and the subtrahend of the difference in quad position `p`. -/
def ddxPick (fine : Bool) (p : Nat) : Nat × Nat := if fine && decide (2 ≤ p) then (3, 2) else (1, 0)
def ddyPick (fine : Bool) (p : Nat) : Nat × Nat := if fine && p % 2 = 1 then (3, 1) else (2, 0)

/-- R362: the difference of two members of a lane's quad. -/
def aluQuad (pick : Bool → Nat → Nat × Nat) : Alu where
  ta := fun v => some (reduceTy v)
  tb := tNo
  tc := tNo
  lat := latIs 6
  dom := fun v => if v.typ 3 = 10 then domF32 else domInt
  sgn := sgnS32
  stale := fun i => i.sourceStale (reduceTy i.v) (i.ex.flatMap fun l =>
    let (x, y) := pick (i.v.sub = 1) (l % 4)
    [l - l % 4 + x, l - l % 4 + y])
  causes := fun _ => []
  fn := fun i l _ _ _ =>
    let (x, y) := pick (i.v.sub = 1) (l % 4)
    let pops := i.popAll.1
    let a := i.sourceLane (reduceTy i.v) pops i.v.a (l - l % 4 + x)
    let b := i.sourceLane (reduceTy i.v) pops i.v.a (l - l % 4 + y)
    if i.v.typ 3 = 10 then let r := Fmt.f32.sub (Rnd.ofCode i.v.rnd) a b; (AluOut.word r.v).flags r.f
    else .word (wrap ((a : Int) - b) 32)
def aluDdx : Alu := aluQuad ddxPick
def execDdx (f : LongF) (s : State) : Res := runAlu aluDdx rowDdx f.view s
def execDdxShort (f : ShortF) (s : State) : Res := runAlu aluDdx rowDdx f.view s
def aluDdy : Alu := aluQuad ddyPick
def execDdy (f : LongF) (s : State) : Res := runAlu aluDdy rowDdy f.view s
def execDdyShort (f : ShortF) (s : State) : Res := runAlu aluDdy rowDdy f.view s

end Sys2Proof.Machine
end

