-- ==== Sys2Proof/Machine/Packed.lean ====
section
/-!
DEFINITION. Packed FP16 and BF16: row 0x5_ (spec/15 R373 to R375).
-/
namespace Sys2Proof.Machine

/-- R373: the format of the elements. -/
def pkFmt (v : View) : Fmt := if v.typeRaw = 12 then .bf16 else .f16
/-- A packed operand. -/
def tP (v : View) : Option OpTy := some (.pk (v.typeRaw = 12))

/-- Element `j` of a packed word. -/
def half (x j : Nat) : Nat := bits x (16 * j) 16
/-- Two results, element 0 and element 1, packed. -/
def packFR (x y : FR) : AluOut := (AluOut.word (x.v + 65536 * y.v)).flags (x.f ||| y.f)

/-- A form of row 0x5_ that works on each element. -/
def aluPk (tc : View → Option OpTy) (fn : View → Fmt → Rnd → Nat → Nat → Nat → FR) : Alu :=
  Alu.mk3 tP tP tc (latIs 5) domPk sgnNo fun v a b c =>
    let e (j : Nat) : FR := fn v (pkFmt v) (Rnd.ofCode v.rnd) (half a j) (half b j) (half c j)
    packFR (e 0) (e 1)

def aluHadd2 : Alu := aluPk tNo fun v F m a b _ => if v.sub = 1 then F.sub m a b else F.add m a b
def execHadd2 (f : LongF) (s : State) : Res := runAlu aluHadd2 rowHadd2 f.view s
def execHadd2Short (f : ShortF) (s : State) : Res := runAlu aluHadd2 rowHadd2 f.view s
def aluHmul2 : Alu := aluPk tNo fun _ F m a b _ => F.mul m a b
def execHmul2 (f : LongF) (s : State) : Res := runAlu aluHmul2 rowHmul2 f.view s
def execHmul2Short (f : ShortF) (s : State) : Res := runAlu aluHmul2 rowHmul2 f.view s
def aluHfma2 : Alu := aluPk tP fun _ F m a b c => F.fma m a b c
def execHfma2 (f : LongF) (s : State) : Res := runAlu aluHfma2 rowHfma2 f.view s
def aluHmin2 : Alu := aluPk tNo fun _ F _ a b _ => F.minNum a b
def execHmin2 (f : LongF) (s : State) : Res := runAlu aluHmin2 rowHmin2 f.view s
def execHmin2Short (f : ShortF) (s : State) : Res := runAlu aluHmin2 rowHmin2 f.view s
def aluHmax2 : Alu := aluPk tNo fun _ F _ a b _ => F.maxNum a b
def execHmax2 (f : LongF) (s : State) : Res := runAlu aluHmax2 rowHmax2 f.view s
def execHmax2Short (f : ShortF) (s : State) : Res := runAlu aluHmax2 rowHmax2 f.view s

/-- R375: element 1's predicate is pushed first. -/
def aluHcmp2 : Alu := Alu.mk3 tP tP tNo (latIs 5) domPk sgnNo fun v a b _ =>
  let F := pkFmt v
  let e (j : Nat) : Bool × Flg := fcmpX v.sub (F.decode (half a j)) (F.decode (half b j))
  { res := [], preds := [(e 1).1, (e 0).1], fl := (e 0).2 ||| (e 1).2 }
def execHcmp2 (f : LongF) (s : State) : Res := runAlu aluHcmp2 rowHcmp2 f.view s
def execHcmp2Short (f : ShortF) (s : State) : Res := runAlu aluHcmp2 rowHcmp2 f.view s

/-- R374 hdot2: one FP32 result with one rounding; a NaN element sets IV. -/
def hdot2 (F : Fmt) (m : Rnd) (a b c : Nat) : FR :=
  let p := XR.mul (F.decode (half a 0)) (F.decode (half b 0))
  let q := XR.mul (F.decode (half a 1)) (F.decode (half b 1))
  let s := XR.add m p.1 q.1
  let t := XR.add m s.1 (Fmt.f32.decode c)
  let nanElem := [half a 0, half a 1, half b 0, half b 1].any fun x => (F.decode x).isNan
  let r := Fmt.f32.round m t.1
  { v := r.v, f := r.f ||| p.2 ||| q.2 ||| s.2 ||| t.2 ||| Flg.when nanElem fIV }
def aluHdot2 : Alu := Alu.mk3 tP tP tF (latIs 6) domPk sgnNo fun v a b c =>
  .ofFR (hdot2 (pkFmt v) (Rnd.ofCode v.rnd) a b c)
def execHdot2 (f : LongF) (s : State) : Res := runAlu aluHdot2 rowHdot2 f.view s

end Sys2Proof.Machine
end

