-- ==== Sys2Proof/Machine/AluTable.lean ====
section
/-!
DEFINITION. How each computing instruction of the opcode map computes, by its opcode: what run-ahead needs (spec/10 R237).
-/
namespace Sys2Proof.Machine

/-- The computation of an opcode of rows 0x1_ to 0x8_ (R329); none for the others. -/
def aluOf (op : Nat) (v : View) : Option Alu :=
  match op with
  | 32 => some aluAnd
  | 33 => some aluOr
  | 34 => some aluXor
  | 35 => some aluNot
  | 36 => some aluShl
  | 37 => some aluShr
  | 38 => some aluSar
  | 39 => some aluRot
  | 40 => some aluPopc
  | 41 => some aluClz
  | 42 => some aluCtz
  | 43 => some aluBrev
  | 44 => some aluBfx
  | 45 => some aluBfi
  | 46 => some aluShf64
  | 47 => some aluBsel
  | 96 => some aluCvt
  | 97 => some aluCvtn
  | 98 => some aluCvtw
  | 99 => some aluSgnpk
  | 100 => some aluSgnex
  | 101 => some (if v.sub = 1 then aluScl32 else aluScl)
  | 102 => some aluRngl
  | 64 => some aluFadd
  | 65 => some aluFsub
  | 66 => some aluFmul
  | 67 => some aluFma
  | 68 => some aluFmin
  | 69 => some aluFmax
  | 70 => some aluFcmp
  | 71 => some (if v.sub = 1 then aluFdivApx else aluFdiv)
  | 72 => some aluFsqrt
  | 73 => some aluFrcp
  | 74 => some aluFrsq
  | 75 => some aluFtrn
  | 76 => some aluFrnd
  | 77 => some aluFfract
  | 78 => some aluFclass
  | 79 => some aluFscale
  | 16 => some aluIadd
  | 17 => some aluIsub
  | 18 => some aluImul
  | 19 => some aluImad
  | 20 => some aluIdiv
  | 21 => some aluImin
  | 22 => some aluImax
  | 23 => some aluIabs
  | 24 => some aluIcmp
  | 25 => some aluIaddsat
  | 26 => some aluLea
  | 27 => some aluSel
  | 28 => some aluMov
  | 29 => some aluIadd64
  | 30 => some aluImad64
  | 31 => some aluIsub64
  | 112 => some aluXadd
  | 113 => some aluXsub
  | 114 => some aluXmul
  | 115 => some aluXdiv
  | 116 => some aluXsqr
  | 117 => some aluXsqrt
  | 118 => some aluXmin
  | 119 => some aluXmax
  | 120 => some aluXabs
  | 121 => some aluXhull
  | 122 => some aluXmeet
  | 123 => some aluXtest
  | 124 => some aluXmk
  | 125 => some aluXmid
  | 128 => some aluShfl
  | 129 => some aluBcast
  | 130 => some aluVote
  | 136 => some aluMcount
  | 137 => some aluLanes
  | 131 => some aluRedux
  | 132 => some aluScan
  | 133 => some aluDdx
  | 134 => some aluDdy
  | 80 => some aluHadd2
  | 81 => some aluHmul2
  | 82 => some aluHfma2
  | 83 => some aluHmin2
  | 84 => some aluHmax2
  | 85 => some aluHcmp2
  | 86 => some aluHdot2
  | 48 => some aluPand
  | 49 => some aluPor
  | 50 => some aluPxor
  | 51 => some aluPnot
  | 52 => some aluPpush
  | 54 => some aluPget
  | 55 => some aluRdsp
  | 57 => some aluRdlane
  | _ => none

end Sys2Proof.Machine
end

