-- ==== Sys2Proof/Machine/Control.lean ====
section
/-!
DEFINITION. Control instructions: row 0x0_ (spec/14 R342 to R348) but exit, the return stack
(R344, R345), yieldl (spec/07 R159) and tfence (spec/10 R245).
-/
namespace Sys2Proof.Machine

/-! ### The control instructions -/

/-- The lanes at the issue address that are not in Exec. -/
def Iss.offLanes (i : Iss) : List Nat := i.at_.filter fun l => !i.ex.contains l

/-- R156: each lane in Exec takes its target, and the others at the issue address go on. -/
def Iss.jump (i : Iss) (s : State) (w : Wave) (target : Nat → Nat) : State :=
  i.commit s (w.onLanes i.ex fun l x => { x with pc := target l }) i.offLanes

/-- A control instruction without causes of its own. -/
def runPlain (r : Row) (v : View) (s : State) (effect : Iss → State) : Res := issue r v s (fun _ => []) effect

def runNop (v : View) (s : State) : Res := runPlain rowNop v s fun i => i.commit i.s i.w i.at_
def execNop (f : LongF) (s : State) : Res := runNop f.view s
def execNopShort (f : ShortF) (s : State) : Res := runNop f.view s

/-- R342: the offset that a branch names. -/
def Iss.target (i : Iss) (disp : Int) : Nat := i.s.codeOff i.w.ctx (wrap (i.iaddr + disp) 64)

def runBr (v : View) (s : State) : Res :=
  runPlain rowBr v s fun i => let t := i.target v.brDisp; i.jump i.s i.w fun _ => t
def execBr (f : BrF) (s : State) : Res := runBr f.view s
def execBrShort (f : ShortBr) (s : State) : Res := runBr f.view s

/-- R343, R256: the forwarded code addresses of the lanes in Exec, and the state after a pipe operand is popped. -/
def Iss.codeTargets (i : Iss) : List (Nat × Nat) × State :=
  let (pops, s) := i.popAll
  (i.ex.map fun l => (l, i.s.forward i.w.ctx (i.operand pops (some .i64) i.v.a l)),
    if i.ex.isEmpty then s else s.readsAt ((s.ctx i.w.ctx).save + 0x100) 512)

/-- R343: 0x19 and 0x1A. -/
def Iss.targetCz (i : Iss) : List Cz :=
  let ts := i.codeTargets.1
  let c := i.s.ctx i.w.ctx
  let pick (code : Nat) (bad : Nat → Bool) : List Cz :=
    match ts.filter fun (_, t) => bad t with
    | [] => []
    | (l, t) :: r => [{ Cz.plain code (l :: r.map (·.1)) with maddr := t }]
  pick 0x19 (fun t => t % 4 != 0)
    ++ pick 0x1A fun t => decide (t < c.codeBase) || decide (c.codeBase + 4096 * c.codePages ≤ t)

/-- R343: the lanes in Exec go to their targets. -/
def Iss.jumpTo (i : Iss) (s : State) (w : Wave) (ts : List (Nat × Nat)) : State :=
  i.jump s w fun l => i.s.codeOff i.w.ctx ((find? ts l).getD 0)

/-- R344: the lanes in Exec whose return stack is full. -/
def Iss.fullCz (i : Iss) : List Cz :=
  match i.ex.filter fun l => decide (32 ≤ (i.w.lane l).ret.length) with
  | [] => []
  | ls => [Cz.plain 0x0F ls]

/-- R344: the return point of each lane in Exec is pushed; an entry beyond the eighth also goes to the live record. -/
def Iss.pushRet (i : Iss) (s : State) : State × Wave :=
  let w := i.w.onLanes i.ex fun _ x => { x with ret := i.nextPc :: x.ret }
  (i.ex.foldl (fun s l =>
    let j := (i.w.lane l).ret.length
    if 8 ≤ j then s.store (s.retAddr i.w.ctx i.key l j) 8 i.nextPc else s) s, w)

def runBri (v : View) (s : State) : Res :=
  issue rowBri v s (fun i => i.pipesCz ++ i.targetCz) fun i =>
    if !i.pipesReady then i.stall .pipe
    else let (ts, s) := i.codeTargets; i.jumpTo s i.w ts
def execBri (f : LongF) (s : State) : Res := runBri f.view s
def execBriShort (f : ShortF) (s : State) : Res := runBri f.view s

def runCall (v : View) (s : State) : Res :=
  issue rowCall v s Iss.fullCz fun i =>
    let t := i.target v.brDisp
    let (s, w) := i.pushRet i.s
    i.jump s w fun _ => t
def execCall (f : BrF) (s : State) : Res := runCall f.view s
def execCallShort (f : ShortBr) (s : State) : Res := runCall f.view s

def runCalli (v : View) (s : State) : Res :=
  issue rowCalli v s (fun i => i.fullCz ++ i.pipesCz ++ i.targetCz) fun i =>
    if !i.pipesReady then i.stall .pipe
    else
      let (ts, s) := i.codeTargets
      let (s, w) := i.pushRet s
      i.jumpTo s w ts
def execCalli (f : LongF) (s : State) : Res := runCalli f.view s
def execCalliShort (f : ShortF) (s : State) : Res := runCalli f.view s

/-- R345: 0x11 where a lane in Exec has nothing to pop. -/
def Iss.emptyCz (i : Iss) : List Cz :=
  match i.ex.filter fun l => (i.w.lane l).ret.isEmpty with
  | [] => []
  | ls => [Cz.plain 0x11 ls]

/-- R345: the newest return entry of a lane. -/
def Iss.popped (i : Iss) (l : Nat) : Nat := (i.s.refillLane i.w.ctx i.key l (i.w.lane l)).ret.headD 0

def runRet (v : View) (s : State) : Res :=
  issue rowRet v s Iss.emptyCz fun i =>
    let deep (l : Nat) : Bool := decide (8 < (i.w.lane l).ret.length)
    let s := (i.ex.filter deep).foldl (fun (s : State) l => s.readsAt (s.retAddr i.w.ctx i.key l ((i.w.lane l).ret.length - 1)) 8) i.s
    i.jump s (i.w.onLanes i.ex fun _ x => { x with ret := x.ret.tail }) i.popped
def execRet (f : LongF) (s : State) : Res := runRet f.view s
def execRetShort (f : ShortF) (s : State) : Res := runRet f.view s

/-- R159: the lanes in Exec are parked, after this issue. -/
def runYieldl (v : View) (s : State) : Res :=
  runPlain rowYieldl v s fun i =>
    (i.commit i.s i.w i.at_).onWave i.key fun w => w.onLanes i.ex fun _ x => { x with parked := some false }
def execYieldl (f : LongF) (s : State) : Res := runYieldl f.view s
def execYieldlShort (f : ShortF) (s : State) : Res := runYieldl f.view s

/-- R245, R347: what a tfence does once every token is clear. -/
def Iss.tfence (i : Iss) : State :=
  let w := i.w
  let give (code info : Nat) : State :=
    i.s.trap i.key w { pending := true, cause := code, lane := 0xFF, mask := maskOfLanes i.ex, iaddr := i.iaddr, maddr := 0,
                       info := info, adv := 0 }
  if w.trapMode then i.commit i.s w i.at_
  else match w.asyncs with
    | (c, q) :: _ => give c q
    | [] =>
      -- R84: as the gang was placed with it
      let en := match i.s.gang? w.gang with | some G => G.trapEn | none => (i.s.ctx w.ctx).trapEn
      match lowestEnabled w.flags en with
      | some f =>
        let info := w.flags.toNat + 2 ^ 32 * w.domains.toNat
        give (arithCause f (lowestDomain (domMask w.domains f))) info
      | none => i.commit i.s w i.at_

def runTfence (v : View) (s : State) : Res :=
  runPlain rowTfence v s fun i => if (List.range 6).all i.w.tokenClear then i.tfence else i.stall (.retry .token)
def execTfence (f : LongF) (s : State) : Res := runTfence f.view s
def execTfenceShort (f : ShortF) (s : State) : Res := runTfence f.view s

/-- R348: a cause that an instruction raises where Exec is not empty, with the next instruction as resume point (R247). -/
def Iss.selfCz (i : Iss) (code info : Nat) : List Cz :=
  if i.ex.isEmpty then [] else [{ Cz.plain code i.ex with info := info, adv := viewBytes i.v }]

def runTrap (v : View) (s : State) : Res :=
  issue rowTrap v s (fun i => i.selfCz 0x0C 0) fun i => i.commit i.s i.w i.at_
def execTrap (f : LongF) (s : State) : Res := runTrap f.view s
def execTrapShort (f : ShortF) (s : State) : Res := runTrap f.view s

def runBrk (v : View) (s : State) : Res :=
  issue rowBrk v s (fun i => i.selfCz 0x0D 0) fun i => i.commit i.s i.w i.at_
def execBrk (f : LongF) (s : State) : Res := runBrk f.view s
def execBrkShort (f : ShortF) (s : State) : Res := runBrk f.view s

end Sys2Proof.Machine
end

