-- ==== Sys2Proof/Machine/Start.lean ====
section
/-!
DEFINITION. The state in which a wave and its gang start: spec/04 R98.
-/
namespace Sys2Proof.Machine

/-- R98: a lane of a starting wave. -/
def Lane.start (n off : Nat) : Lane where
  pc := off
  parked := none
  shelf := List.replicate 16 Cell.zero
  named := List.replicate n Cell.zero
  preds := List.replicate 8 PCell.zero
  ret := []
  task := []

/-- R98: what k0 to k5 of a starting wave hold. -/
def startK (args payload index member base idx : Nat) : List KCell :=
  (List.range 32).map fun r =>
    let v := if r = 0 then args else if r = 1 then payload else if r = 2 then index else if r = 3 then member
      else if r = 4 then base else if r = 5 then idx else 0
    { KCell.zero with val := BitVec.ofNat 64 v }

/-- R98: a starting wave of a gang. -/
def Wave.start (gang idx ctx n off : Nat) (k : List KCell) (age : Nat) : Wave where
  gang := gang
  idx := idx
  ctx := ctx
  n := n
  lanes := List.replicate 32 (Lane.start n off)
  k := k
  flags := 0
  domains := 0
  ops := []
  carried := []
  asyncs := []
  rstate := 0
  flagsWas := none
  rstateWas := none
  trapMode := false
  dbgHalt := false
  fltPend := false
  deadline := none
  spawned := 0
  wait := .none
  words := []
  cycle := 0
  next := 0
  issued := 0
  active := false
  since := 0
  age := age
  turnAt := 0
  conflict := 0
  fenced := false
  stepped := false
  skip := false
  mesh := { verts := [], prims := [] }
  mxStamp := none
  emitted := false
  hostErr := false

/-- A gang with no wave yet: context, launch, linear index, member, ensemble, members, core, scratchpad base and bytes. -/
def Gang.start (ctx launch index member ens members core base scratch bytes prio age : Nat) : Gang where
  ctx := ctx
  launch := launch
  index := index
  member := member
  ens := ens
  members := members
  core := core
  base := base
  scratch := scratch
  bytes := bytes
  waves := []
  exited := []
  pre := false
  rend := false
  task := false
  callable := false
  slot := none
  prio := prio
  age := age
  barArr := []
  barN := 0
  barCnt := false
  ebarArr := []
  evict := none
  trapEn := 0
  pipes := List.replicate 8 none

end Sys2Proof.Machine
end

