-- ==== Sys2Proof/Machine/Fetch.lean ====
section
/-!
DEFINITION. Fetching an instruction and letting a wave issue: spec/13 R313, R333, spec/05 R120 to R122, spec/10 R241, R242.
-/
namespace Sys2Proof.Machine

/-- The bytes of the code heap of a context (R83). -/
def State.codeBytes (s : State) (ctx : Nat) : Nat := 4096 * (s.ctx ctx).codePages

/-- The lines of a core's code buffer of 32 KiB (R405). -/
def codeLines : Nat := 256

/-- R313, R227: the word at an offset of the code heap, through the page that holds it, from the code buffer, which takes the
line in where it does not hold it; or the cause. -/
def State.fetchWord (s : State) (core ctx off : Nat) : Except Cz W32 × State :=
  let va := s.codeAddr ctx off
  match s.translate (some core) ctx va Access.fetch with
  | (.error k, s) =>
    (.error { Cz.plain (memCause k Access.fetch) [] with maddr := va, pages := [(alignDown va 4096, false)] }, s)
  | (.ok x, s) =>
    let la := alignDown va 128
    match (s.core core).codeBuf.find? fun l => l.ctx = ctx && l.va = la with
    | some l => (.ok (BitVec.ofNat 32 (numAt l.bytes (va - la) 4)), s)
    | none =>
      let p : Piece := { va := la, x := { x with pa := alignDown x.pa 128 }, n := 128 }
      let fs := s.flawsOf (some core) false [p]
      let (bs, s) := (s.checkMem fs).readPhys (alignDown x.pa 128) 128
      -- R23: words whose check fails for good are not kept
      if fs.any fun f => f.fatal && f.meets x.pa 4 then (.error { Cz.plain (memCause 8 Access.fetch) [] with maddr := va }, s)
      else if fs.any Flaw.fatal then (.ok (BitVec.ofNat 32 (numAt bs (va - la) 4)), s)
      else (.ok (BitVec.ofNat 32 (numAt bs (va - la) 4)), s.onCore core fun c =>
        { c with codeBuf := c.codeBuf.drop (c.codeBuf.length + 1 - codeLines) ++ [{ ctx := ctx, va := la, bytes := bs }] })

/-- R313: at most `n` words from an offset on; beyond one that cannot be fetched no other is. -/
def State.fetchSome (core ctx : Nat) : Nat → Nat → State → List W32 × State
  | 0, _, s => ([], s)
  | n + 1, off, s =>
    match s.fetchWord core ctx off with
    | (.error _, s) => ([], s)
    | (.ok w, s) =>
      let (ws, s) := State.fetchSome core ctx n (off + 4) s
      (w :: ws, s)

/-- R313: `n` words from an offset on. -/
def State.fetchMore (core ctx : Nat) : Nat → Nat → State → Except Cz (List W32) × State
  | 0, _, s => (.ok [], s)
  | n + 1, off, s =>
    match s.fetchWord core ctx off with
    | (.error c, s) => (.error c, s)
    | (.ok w, s) =>
      match State.fetchMore core ctx n (off + 4) s with
      | (.error c, s) => (.error c, s)
      | (.ok ws, s) => (.ok (w :: ws), s)

/-- R313, R333: the words of the instruction at an offset; a fetch that is not aligned raises 0x0A, one outside the heap
0x12. Of an instruction whose later words lie past the end of the heap the words before it are given. -/
def State.fetch (s : State) (core ctx off : Nat) : Except Cz (List W32) × State :=
  let va := s.codeAddr ctx off
  let at_ (c : Nat) : Cz := { Cz.plain c [] with maddr := va }
  if va % 4 != 0 then (.error (at_ 0x0A), s)
  else if s.codeBytes ctx < off + 4 then (.error (at_ 0x12), s)
  else
    match s.fetchWord core ctx off with
    | (.error c, s) => (.error c, s)
    | (.ok w, s) =>
      let n := lenWords (bits w.toNat 0 2)
      if s.codeBytes ctx < off + 4 * n then
        let (ws, s) := State.fetchSome core ctx ((s.codeBytes ctx - off) / 4 - 1) (off + 4) s
        (.ok (w :: ws), s)
      else
        match State.fetchMore core ctx (n - 1) (off + 4) s with
        | (.error c, s) => (.error c, s)
        | (.ok ws, s) => (.ok (w :: ws), s)

/-! ### Tokens of the next instruction (R174, R314, R315) -/

/-- R313 to R315: SY, TW and TS of an instruction's words, whatever its opcode. -/
def wordsSy (ws : List W32) : Bool := match ws with | w :: _ => bit w.toNat 31 | [] => false
def wordsX2 (ws : List W32) : Nat :=
  match ws with
  | w :: _ :: x2 :: _ => if bits w.toNat 0 2 = 1 || bits w.toNat 0 2 = 3 then x2.toNat else 0
  | _ => 0

/-- The tokens that words wait for. -/
def wordsWait (ws : List W32) : List Nat := (List.range 6).filter fun t => wordsSy ws || bit (bits (wordsX2 ws) 17 6) t

/-- R174: whether the tokens that words wait for are clear and the one they set has room. -/
def Wave.wordsLet (w : Wave) (ws : List W32) : Bool :=
  (wordsWait ws).all (w.tokenClear ·)
    && (let ts := bits (wordsX2 ws) 14 3
        ts = 0 || ts = 7 || decide (w.tokenCount (ts - 1) < 63))

/-- R121: whether words wait for a token that an access to memory has set. -/
def Wave.memoryHolds (w : Wave) (ws : List W32) : Bool :=
  (wordsWait ws).any fun t => (w.ops.any fun o => o.token = t + 1 && o.mem) || w.carried.any fun c => c.token = t && c.count != 0

/-- The words of a wave's next instruction, as far as they can be fetched; the state does not change. -/
def State.peekWords (s : State) (key : Nat) (w : Wave) : List W32 :=
  match w.unpark.issuePc with
  | none => []
  | some pc => match (s.fetch (keyCore key) w.ctx pc).1 with
    | .ok ws => ws
    | .error _ => []

/-- R174: whether the tokens of its next instruction let a wave issue; a wave without an operation need not look. -/
def State.tokensLet (s : State) (key : Nat) (w : Wave) : Bool :=
  (w.ops.isEmpty && w.carried.isEmpty) || w.wordsLet (s.peekWords key w)

/-! ### The active and the pending set (R120 to R122) -/

/-- The waves of a partition that are in its active set (R120). -/
def State.activeOf (s : State) (part : Nat) : List (Nat × Wave) :=
  s.waves.filter fun (k, w) => k / 32 = part && w.active

/-- The core cycle that a partition has reached. -/
def State.partNow (s : State) (part : Nat) : Nat := max (Sparse.get 0 s.clocks part) (s.dev.milli / 1000)

/-- A wave leaves the active set. -/
def Wave.demote (w : Wave) (since : Nat) : Wave := { w with active := false, since := since }

/-- R121, R438: a wave enters the active set, in a place that was free or, as a swap, in one that another wave left; a swap takes 4 cycles. -/
def State.promote (s : State) (key : Nat) (swap : Bool) : State :=
  let n := s.sched.nextAge
  let now := s.partNow (key / 32)
  let s := { s with sched := { s.sched with nextAge := n + 1 } }
  match s.wave? key with
  | some w =>
    let s := s.setWave key { w with active := true, since := n, next := if swap then max w.next (now + 4) else w.next }
    if swap then s.perf (keyCore key) w.ctx 5 1 else s
  | none => s

/-- Whether a wave waits for something that an event brings about (R121). -/
def Wave.waiting (w : Wave) : Bool := w.wait != .none || w.dbgHalt

/-- Whether the gang of a wave is to be saved, so that the wave issues no more (R253). -/
def State.evicted (s : State) (w : Wave) : Bool := match s.gang? w.gang with | some G => G.evict.isSome | none => false

/-- R121: whether a wave leaves the active set: it waits, or its next instruction waits for a token that an access to memory has set. -/
def State.mustWait (s : State) (key : Nat) (w : Wave) : Bool :=
  w.waiting || (!(w.ops.isEmpty && w.carried.isEmpty) && w.memoryHolds (s.peekWords key w))

/-- R120: whether a wave is ready at a cycle. -/
def State.readyAt (s : State) (key : Nat) (w : Wave) (c : Nat) : Bool :=
  !w.waiting && !s.evicted w && !w.heldLanes.isEmpty && decide (w.next ≤ c) && s.tokensLet key w

/-- R121, R122: whether a wave of the pending set is ready. -/
def State.pendReady (s : State) (key : Nat) (w : Wave) : Bool := !w.active && s.readyAt key w (s.partNow (key / 32))

/-- The wave of a list that has stood longest, the older first of those that stand as long. -/
def longest : List (Nat × Wave) → Option (Nat × Wave)
  | [] => none
  | x :: l => match longest l with
    | none => some x
    | some y =>
      if x.2.since < y.2.since || (x.2.since = y.2.since && x.2.age < y.2.age) then some x else some y

/-- The ready waves of the pending set of a partition. -/
def State.pending_ (s : State) (part : Nat) : List (Nat × Wave) := s.waves.filter fun (k, w) => k / 32 = part && s.pendReady k w

/-- R121: so many places of the active set are taken by the pending waves that have been ready longest; the first `free` of them
stood free. -/
def State.fillActive (part : Nat) : Nat → Nat → State → State
  | 0, _, s => s
  | n + 1, free, s =>
    match longest (s.pending_ part) with
    | none => s
    | some (k, _) => State.fillActive part n (free - 1) (s.promote k (free = 0))

/-- R121: waves of a partition that must wait leave the active set, pending waves are seen to be ready, and those that have been so
longest take the free places. -/
def State.balancePart (s : State) (part : Nat) : State :=
  let before := (s.activeOf part).length
  let n := s.sched.nextAge
  let s := { s with sched := { s.sched with nextAge := n + 1 }
                    waves := s.waves.map fun (x : Nat × Wave) =>
    if x.1 / 32 != part then x
    else if x.2.active then (x.1, if s.mustWait x.1 x.2 then x.2.demote 0 else x.2)
    else if s.pendReady x.1 x.2 then (x.1, if x.2.since = 0 then { x.2 with since := n } else x.2)
    else (x.1, { x.2 with since := 0 }) }
  State.fillActive part (8 - (s.activeOf part).length) (8 - before) s

/-- The partitions that have pending waves. -/
def State.pendingParts (s : State) : List Nat := ((s.waves.filter fun x => !x.2.active).map fun x => x.1 / 32).eraseDups

/-- R121: what the partitions do between two steps. -/
def State.balance (s : State) : State := s.pendingParts.foldl State.balancePart s

/-- The cycle at which a wave issues: the first at which it may, and a lag while no collector is free. -/
def State.issueAt (s : State) (key : Nat) (w : Wave) (lag : Nat) : Nat := max (s.partNow (key / 32)) w.next + min lag 12

/-- R120: whether it is a wave's turn at a cycle: no older wave of the active set is ready, and none that is ready has gone without an issue for
64 cycles, unless this one has too and is older. -/
def State.firstAt (s : State) (key : Nat) (w : Wave) (c : Nat) : Bool :=
  let long (x : Wave) : Bool := decide (x.turnAt + 64 ≤ c)
  (s.activeOf (key / 32)).all fun (k, x) =>
    k = key || !s.readyAt k x c || (if long w then !long x || decide (w.age < x.age) else !long x && decide (w.age < x.age))

/-- R333: the causes beside those of its words that an instruction which cannot run may raise. -/
def Iss.otherCz (i : Iss) : List Cz :=
  let coll := [0xD2, 0xD3, 0xD0, 0xD1, 0xB1, 0xBA, 0x9B, 0x83, 0x84].contains i.row.op
  i.baseCz ++ (if coll then i.convergeCz else [])
  ++ (if i.row.op = 0x87 && i.ex != i.w.heldLanes then [Cz.plain 0x08 i.ex] else [])
  ++ (if i.row.op = 0x3A && i.v.dRaw = 0 then [Cz.plain 0x03 i.ex] else [])

/-- R242: words that are not an instruction raise the lowest cause that they and the state give. -/
def State.raiseBad (s : State) (key cause : Nat) (other : Iss → List Cz) (i : Option Instr) : State :=
  match s.wave? key with
  | none => s
  | some w =>
    let pc := w.issuePc.getD retiredPc
    let at_ := w.liveLanes.filter fun l => (w.lane l).pc = pc
    let own := Cz.plain cause at_
    let (l, ex) := match i.bind Instr.row with
      | some (r, v) =>
        (match { s with cur := key }.iss r v with
          | some i => (other i, i.ex)
          | none => ([], at_))
      | none => ([], at_)
    match lowestCz ({ own with mask := ex } :: l) with
    | some c => s.raise key w (s.codeAddr w.ctx pc) c
    | none => s

/-- R333: what an instruction whose later words lie past the end of the heap may raise besides 0x0B and the causes of the words that
were fetched: those that its fields in these words meet. -/
def Iss.partCz (i : Iss) : List Cz := i.namedCz ++ i.dbgCz ++ i.staleCz i.guardStale

/-- What comes of a wave's turn to issue. -/
inductive Issued where
  /-- it cannot issue: it waits, or its tokens are not clear, or it is not its turn -/
  | no
  /-- the machine has gone on without running an instruction: the wave raised a cause -/
  | took (s : State)
  /-- the instruction that the wave runs, in the state where it stands ready -/
  | run (i : Instr) (s : State)

/-- R120, R155, R159, R313: a wave's turn: its parked lanes are looked at, the instruction at its issue address is fetched and
decoded. -/
noncomputable def State.turnOf (s : State) (key lag conflict : Nat) : Issued :=
  match s.wave? key with
  | none => .no
  | some w =>
    let c := s.issueAt key w lag
    if w.waiting || s.evicted w || !w.active || !s.firstAt key w c then .no
    else
      let w := w.unpark
      match w.issuePc with
      | none => .no
      | some pc =>
        let w := { w with cycle := c, turnAt := c, conflict := conflict, words := [] }
        let s2 := { s.setWave key w with cur := key, clocks := Sparse.set 0 s.clocks (key / 32) (c + 1) }
        match s2.fetch (keyCore key) w.ctx pc with
        | (.error c, s3) =>
          .took (s3.raise key w (s3.codeAddr w.ctx pc) { c with mask := w.liveLanes.filter fun l => (w.lane l).pc = pc })
        | (.ok ws, s3) =>
          if !w.wordsLet ws then .no
          else
            let s4 := s3.setWave key { w with words := ws }
            match decodeWords ws with
            | .ok i _ => .run i s4
            | .bad c _ i => .took (s4.raiseBad key c Iss.otherCz i)
            | .short _ =>
              let (c, i) := decodePart ws
              .took (s4.raiseBad key c Iss.partCz i)

end Sys2Proof.Machine
end

