-- ==== Sys2Proof/Machine/RunAhead.lean ====
section
/-!
DEFINITION. Run-ahead: how a wave that meets a not-present page finds the pages that its next instructions would miss, for
one entry of the host fault queue (spec/10 R237). It runs on a copy of the state, of which nothing remains but the pages.
-/
namespace Sys2Proof.Machine

/-- The operation that poisoned values of the shadow state wait for: it never completes. -/
def poisonId : Nat := 2 ^ 60

/-- The shadow state and the batch so far. -/
structure Shadow where
  s : State
  batch : List FaultPage

/-- R237: a not-present page joins the batch if it is near enough and there is room. -/
def Shadow.add (x : Shadow) (w : Bool) (p : Nat) : Shadow :=
  if x.batch.any fun q => q.1 = p then
    { x with batch := x.batch.map fun q => if q.1 = p then (p, q.2 || w) else q }
  else
    match x.batch with
    | [] => { x with batch := [(p, w)] }
    | (p0, _) :: _ =>
      let d := if p0 ≤ p then (p - p0) / 4096 else (p0 - p) / 4096
      if x.batch.length < 16 && decide (d ≤ 32767) then { x with batch := x.batch ++ [(p, w)] } else x

def Shadow.addAll (x : Shadow) (w : Bool) (ps : List Nat) : Shadow := ps.foldl (fun x p => x.add w p) x

/-- The wave of the shadow state between two instructions: every operation has completed but the one that poisons. -/
def Wave.shadow (w : Wave) : Wave :=
  { w with ops := [{ id := poisonId, token := 0, kind := .result, mem := false }], carried := [], wait := .none, cycle := w.next }

/-- The wave as it looks when only poisoned values have not arrived. -/
def Wave.later (w : Wave) : Wave := { w with cycle := w.cycle + 1000 }

/-- Whether an instruction reads a poisoned value in a lane. -/
def Iss.poisoned (i : Iss) (l : Nat) : Bool :=
  let w := i.w.later
  w.staleUse (i.row.a i.v) i.v.a l || w.staleUse (i.row.b i.v) i.v.b l || w.staleUse (i.row.c i.v) i.v.c l

/-- Whether the address of its access is poisoned in a lane. -/
def Iss.addrPoisoned (i : Iss) (l : Nat) : Bool :=
  let w := i.w.later
  w.staleUse (i.row.a i.v) i.v.a l || w.staleUse (i.row.b i.v) i.v.b l

/-- Whether its guard is poisoned. -/
def Iss.guardPoisoned (i : Iss) : Bool :=
  match i.v.ctl.guard with
  | none => false
  | some g => i.at_.any fun l => !i.w.later.ready ((i.w.lane l).predCell g.depth.toNat).due

/-- A lane's first `n` shelf entries, `m` predicates and named results poisoned. -/
def poisonLane (d : Dst) (n m : Nat) (x : Lane) : Lane :=
  let mk (c : Cell) : Cell := { c with due := .op poisonId }
  { x with
    shelf := x.shelf.zipIdx.map fun (c, j) => if j < n then mk c else c
    preds := x.preds.zipIdx.map fun (c, j) => if j < m then { c with due := .op poisonId } else c
    named := match d with
      | .named r => x.named.zipIdx.map fun (c, j) => if r ≤ j && decide (j < r + n) then mk c else c
      | _ => x.named }

/-- The results of an instruction poisoned in some lanes, or in its uniform register. -/
def Wave.poison (w : Wave) (d : Dst) (n m : Nat) (ls : List Nat) : Wave :=
  match d with
  | .k r => if ls.isEmpty then w
    else { w with k := w.k.zipIdx.map fun (c, j) => if j = r then { c with due := .op poisonId } else c }
  | _ => w.onLanes ls fun _ x => poisonLane d n m x

/-- R237: the instructions that run-ahead does not pass: rows 0xC_ to 0xF_, those it lists, and every pipe operand. -/
def nonSpeculable (i : Iss) : Bool :=
  decide (0xC0 ≤ i.row.op) || !i.pops.isEmpty || i.pushes.isSome
    || [0x08, 0x09, 0x0A, 0x87, 0x9A, 0x9B, 0x9D, 0x9E, 0x9F, 0xB0, 0xB1, 0xB2, 0xB3, 0xB4, 0xB6, 0xB7, 0xB8, 0xBA].contains i.row.op

/-- Instructions whose lanes read other lanes. -/
def crossLane (op : Nat) : Bool := decide (0x80 ≤ op && op ≤ 0x89) || [0x39, 0x63, 0x65].contains op

/-- The shadow after an instruction that answered a next state. -/
def Shadow.after (x : Shadow) (r : Res) : Option Shadow :=
  match r with
  | .next t => some { x with s := t }
  | _ => none

/-- R237: a computing instruction. -/
def Shadow.alu (x : Shadow) (i : Iss) (f : Alu) : Option Shadow :=
  if !(i.namedCz ++ f.causes i).isEmpty then none
  else
    let any := crossLane i.row.op && i.w.heldLanes.any i.poisoned
    let bad := i.ex.filter fun l => any || i.poisoned l || f.stale { i with w := i.w.later }
    let n := match i.ex with
      | [] => (0, 0)
      | l :: _ =>
        let o := f.fn i l (i.operand [] (f.ta i.v) i.v.a l) (i.operand [] (f.tb i.v) i.v.b l) (i.operand [] (f.tc i.v) i.v.c l)
        (o.res.length, o.preds.length)
    let s := aluEffect f i
    some { x with s := s.onWave i.key fun w => w.poison i.v.d n.1 n.2 bad }

/-- The causes other than not-present pages that lanes meet. -/
def otherCz (a : Access) (l : List LaneX) : Bool :=
  l.any fun x => match x.cz a with | some c => c.code != memCause 0 a | none => false

/-- R237: an access to global memory. A load gives its value where its page is present and its block in L1 or L2. -/
def Shadow.global (x : Shadow) (i : Iss) (a : Access) (accs : List LaneAcc) (n : Nat) : Option Shadow :=
  let live := accs.filter fun q => !i.addrPoisoned q.lane
  let (t, s) := State.xlatePages (some i.core) i.w.ctx a (pagesOf live) i.s
  let ls := live.map fun q => { acc := q, res := piecesFrom t (pagePieces q.a q.n) : LaneX }
  if otherCz a ls then none
  else if a.w && ls.any (fun q => q.pieces.any fun p => p.x.ord = 0) then none
  else
    let x := x.addAll a.w (missing t)
    let near (ps : List Piece) : Bool :=
      (pieceBlocks ps).all fun b => (s.core i.core).l1.contains b || Config.l2Holds b s.freeCtr
    let hit := ls.filterMap fun q => match q.res with
      | .ok ps => if !a.w && near ps then some (q.acc.lane, (s.readPieces ps).1) else none
      | .error _ => none
    let outs := hit.map fun (l, bs) => (l, loadOut i.v.memTy bs)
    let zero : AluOut := { res := List.replicate n 0, preds := [], fl := 0 }
    let w := match i.v.d with
      | .k r => (match outs with
        | (_, o) :: _ => i.w.setK .now r (kValue i.v.memTy.signed o.res)
        | [] => i.w)
      | d => i.results .now d (i.ex.map fun l => (l, (find? outs l).getD zero))
    let bad := i.ex.filter fun l => !(outs.any fun o => o.1 = l)
    let bad := match i.v.d with | .k _ => if outs.isEmpty then i.ex else [] | _ => bad
    let w := if n = 0 then i.w else w.poison i.v.d n 0 bad
    some { x with s := i.commit { s with freeCtr := s.freeCtr + 1 } w i.at_ }

/-- R237: an access to the scratchpad or the weight store; stores and atomics are not performed. -/
def Shadow.local (x : Shadow) (i : Iss) (write : Bool) (read : Nat → Nat → List Byte) (n : Nat) : Option Shadow :=
  let outs := i.ex.map fun l => (l, loadOut i.v.memTy (read (i.addr l) i.v.memBytes))
  let w := if n = 0 then i.w else i.results .now i.v.d outs
  let bad := i.ex.filter fun l => write || i.addrPoisoned l
  some { x with s := i.commit i.s (if n = 0 then w else w.poison i.v.d n 0 bad) i.at_ }

/-- The words that the datum of an access has as a result. -/
def Iss.memWords (i : Iss) : Nat := if i.v.memTy.width = 64 then 2 else 1

/-- The lanes and addresses of an access that acts once for the wave. -/
def Iss.accsK (i : Iss) : List LaneAcc := match i.ex with
  | [] => []
  | l :: _ => [{ lane := l, a := i.addr l, n := i.v.memBytes }]

/-- R237: the accesses of rows 0x9_ and 0xA_. -/
def Shadow.mem (x : Shadow) (i : Iss) : Option Shadow :=
  let inSp := i.ex.all fun l => i.addrPoisoned l || i.s.inAlloc i.w.gang (i.addr l) i.v.memBytes
  let sp (a n : Nat) : List Byte := i.s.spRead i.core a n
  match i.row.op with
  | 0x90 => x.global i (Access.read.at i.v.order) i.accs i.memWords
  | 0x91 => x.global i (Access.write.at i.v.order) i.accs 0
  | 0x92 => if inSp then x.local i false sp i.memWords else none
  | 0x93 => if inSp then x.local i true sp 0 else none
  | 0x94 => x.local i false (fun a n => readBytes i.s.wstore (i.core / 48 * 2 ^ 31 + a % 2 ^ 31) n) i.memWords
  | 0x95 => x.global i (Access.read.at i.v.order) i.accsK i.memWords
  | 0x96 => x.global i (Access.write.at i.v.order) i.accsK 0
  | 0xA0 => x.global i Access.atomic i.accs i.memWords
  | 0xA4 => x.global i Access.atomic i.accs i.memWords
  | 0xA2 => x.global i Access.atomic i.accs 0
  | 0xA1 => if inSp then x.local i true sp i.memWords else none
  | 0xA5 => if inSp then x.local i true sp i.memWords else none
  | 0xA3 => if inSp then x.local i true sp 0 else none
  | _ => some { x with s := i.commit i.s i.w i.at_ }

/-- R237: a control instruction, run when it raises nothing and what it reads is not poisoned. -/
def Shadow.control (x : Shadow) (i : Iss) : Option Shadow :=
  if i.ex.any i.poisoned then none
  else
    match i.row.op with
    | 0x01 => x.after (runBr i.v i.s)
    | 0x02 => if i.targetCz.isEmpty then x.after (runBri i.v i.s) else none
    | 0x03 => if i.fullCz.isEmpty then x.after (runCall i.v i.s) else none
    | 0x04 => if (i.fullCz ++ i.targetCz).isEmpty then x.after (runCalli i.v i.s) else none
    | 0x05 => if i.emptyCz.isEmpty then x.after (runRet i.v i.s) else none
    | 0x06 => some { x with s := i.commit i.s (i.w.onLanes i.ex fun _ l => { l with pc := retiredPc }) i.offLanes }
    | 0x07 => x.after (runYieldl i.v i.s)
    | 0x35 => x.after (runPdrop i.v i.s)
    | 0x38 => if i.ex.isEmpty || i.wrspOk then x.after (runWrsp i.v i.s) else none
    | 0x3A => x.after (runWrlane i.v i.s)
    | 0xB5 =>
      let o := i.s.spRead i.core i.addrU 16
      if i.addrU % 16 != 0 || !i.s.inAlloc i.w.gang i.addrU 16 then none
      else
        let p := bits (ofBytes o) 32 4 != i.w.operand i.v .i32 [] 0 i.v.b % 16
        some { x with s := i.commit i.s (i.results .now .shelf (i.ex.map fun l => (l, AluOut.pred p))) i.at_ }
    | _ => some { x with s := i.commit i.s i.w i.at_ }

/-- R237: one instruction of the shadow state; none where run-ahead stops. -/
def Shadow.run (x : Shadow) (i : Iss) : Option Shadow :=
  if nonSpeculable i || i.guardPoisoned || !i.namedCz.isEmpty then none
  else
    match aluOf i.row.op i.v with
    | some f => x.alu i f
    | none => if i.row.op / 16 = 9 || i.row.op / 16 = 0xA then x.mem i else x.control i

/-- R237: the next instruction of the shadow wave, fetched and decoded; none where there is none. -/
def Shadow.next (x : Shadow) (key : Nat) : Option Iss :=
  match x.s.wave? key with
  | none => none
  | some w =>
    let w := w.shadow.unpark
    match w.issuePc with
    | none => none
    | some pc =>
      match (x.s.setWave key w).fetch (keyCore key) w.ctx pc with
      | (.error _, _) => none
      | (.ok ws, s) =>
        match if ws.length < lenWords (bits (at? 0 ws 0).toNat 0 2) then none else rowOfWords ws with
        | none => none
        | some (r, v) => if (r.causes v).isEmpty then { s with cur := key }.iss r v else none

/-- R237: at most so many instructions, while the batch has room. -/
def Shadow.loop (key : Nat) : Nat → Shadow → Shadow
  | 0, x => x
  | n + 1, x =>
    if 16 ≤ x.batch.length then x
    else
      match x.next key with
      | none => x
      | some i => match x.run i with
        | none => x
        | some y => Shadow.loop key n y

/-- What an instruction that meets a not-present page would push, where it is none of the plain accesses: words and predicates. -/
def futureWords (op : Nat) : Nat × Nat :=
  match op with
  | 0x9D => (2, 1)
  | 0xB6 => (0, 1)
  | 0xEB => (4, 0)
  | 0xED => (1, 0)
  | _ => (0, 0)

/-- R237: the shadow after an instruction that meets a not-present page and is none of the plain accesses: its results are poisoned. -/
def Shadow.skip (x : Shadow) (i : Iss) : Shadow :=
  let n := futureWords i.row.op
  let zero : AluOut := { res := List.replicate n.1 0, preds := List.replicate n.2 false, fl := 0 }
  let w := if n = (0, 0) then i.w else (i.results .now i.v.d (i.ex.map fun l => (l, zero))).poison i.v.d n.1 n.2 i.ex
  { x with s := i.commit i.s w i.at_ }

/-- R237: the batch of an instruction that meets not-present pages. -/
def Iss.runAhead (i : Iss) (pages : List FaultPage) : List FaultPage :=
  let i := { i with w := i.w.shadow }
  let x : Shadow := { s := i.s, batch := pages }
  let plain := (i.row.op / 16 = 9 || i.row.op / 16 = 0xA) && i.row.op != 0x9D
  (Shadow.loop i.key 64 (if plain then (x.mem i).getD (x.skip i) else x.skip i)).batch

/-- R237: a wave whose fault is recorded runs ahead and posts its batch; not one whose gang is to be saved (R255). -/
def State.goAhead (s : State) (key : Nat) : Option State :=
  match s.wave? key with
  | none => none
  | some w =>
    match w.wait with
    | .ahead cause pages =>
      if s.evicted w then none
      else
        let w := { w with wait := .none }
        let batch := match (s.setWave key w).pending key with
          | some i => i.runAhead pages
          | none => pages
        some (s.postWave key w cause 0 (s.codeAddr w.ctx (w.issuePc.getD retiredPc)) batch)
    | _ => none

end Sys2Proof.Machine
end

