-- ==== Sys2Proof/Machine/LoadStore.lean ====
section
/-!
DEFINITION. Row 0x9_: loads, stores, cache maintenance, futures and local memory management (spec/16 R389 to R394), and the
one way in which an instruction of a wave accesses global memory (spec/10 R232 to R242).
-/
namespace Sys2Proof.Machine

/-! ### Global accesses -/

/-- R237, R238: the pages that the entry of a posted cause lists. -/
def Access.postPages (a : Access) (t : List (Nat × Except Nat Xlated)) (c : Cz) : Cz :=
  if c.code = memCause 0 a then { c with pages := nearPages a.w (missing t) } else c.onePage a.w

/-- R190, R392: whether L1 answers what the instruction reads of lines that it holds: ld and ldk but with CACHE 2. -/
def Iss.viaL1 (i : Iss) : Bool := [0x90, 0x95].contains i.row.op && bits i.v.sub 3 2 != 2

/-- R255: HALT reaches the wave together with a page that is not present: the fault is recorded against the instruction. -/
def Iss.halted (i : Iss) (a : Access) (l : List LaneAcc) (c : Cz) : Iss :=
  if c.code = 0 && !(missing (State.xlatePages (some i.core) i.w.ctx a (pagesOf l) i.s).1).isEmpty then
    { i with w := { i.w with fltPend := true } } else i

/-- R209: whether accesses to strongly ordered pages wait for such a read of the wave that a slice still holds (R199). -/
def Iss.soHeld (i : Iss) (ls : List LaneX) : Bool :=
  (i.s.mem.deferred.any fun d => d.wave = i.key && d.so) && (allPieces ls).any fun p => p.x.ord = 0

/-- An instruction that accesses global memory: its causes before translation, whether it releases at system scope, the accesses, those that watchpoints see, what
it waits for, what the pages must allow, and what it does with the translated lanes. -/
def issueGlobalW (r : Row) (v : View) (s : State) (a : Access) (sys : Iss → Bool) (accs watched : Iss → List LaneAcc)
    (hold : Iss → Option Wait) (pre : Iss → List Cz) (effect : Iss → List LaneX → Except Cz State) : Res :=
  match s.iss r v with
  | none => .fault .noWave
  | some i =>
    if !i.tokensOk then .next s
    else if i.readHeld then .next (i.stall (.retry .token))
    else
      let l := accs i
      let early := lowestCz (i.baseCz ++ i.watchCz a (watched i) ++ i.pipesCz ++ pre i)
      match early.filter fun c => decide (c.code < 0x40) with
      | some c => .next ((i.halted a l c).fail c)
      | none =>
        match hold i with
        | some w => .next (i.stall w)
        | none =>
          if early.isNone && !i.pipesReady then .next (i.stall .pipe)
          else match (if early.isNone then i.fenceFirst (sys i) else none) with
          | some f => .next f
          | none =>
          let (t, s1) := State.xlatePages (some i.core) i.w.ctx a (pagesOf l) i.s
          let ls := l.map fun x => { acc := x, res := piecesFrom t (pagePieces x.a x.n) : LaneX }
          let host (x : LaneX) : Bool := x.pieces.any fun p => p.x.isHost
          let lost := if i.w.hostErr then ls.filter host else []
          let i1 := { i with s := s1, w := { i.w with hostErr := i.w.hostErr && !ls.any host } }
          let met := ls.filterMap (LaneX.cz a) ++ lost.map fun x => ⟨memCause 13 a, x.acc.lane, x.acc.a⟩
          let fs := s1.flawsMet (some i.core) i.viaL1 a ls
          let ue := ueLanes a ls fs
          let checked : Iss := { i1 with s := s1.checkMem fs }
          match lowestCz (early.toList ++ laneCz (met ++ ue)) with
          | some c =>
            if ue.any fun x => x.code = c.code then .next (checked.fail c)
            else .next (i1.fail (a.postPages t c))
          | none =>
            if i.soHeld ls then .next (i.stall (.retry .token))
            else if s1.ownedPa (allPieces ls) then .next (i.stall (.retry .copy))
            else
            match effect checked ls with
            | .ok s2 => .next s2
            | .error c =>
              -- R42: a refused write has held its blocks and closed their entries
              .next ((if c.code = memCause 6 a then { i1 with s := s1.closePieces (allPieces ls) } else i1).fail c)

/-- R224: an access that names bytes a copy entry owns waits. -/
def Iss.ownedHold (accs : Iss → List LaneAcc) (i : Iss) : Option Wait :=
  if i.s.owned i.w.ctx i.core false (accs i) then some (.retry .copy) else none

/-- An access of the lanes to global memory. -/
def issueGlobal (r : Row) (v : View) (s : State) (a : Access) (accs : Iss → List LaneAcc)
    (pre : Iss → List Cz) (effect : Iss → List LaneX → Except Cz State) : Res :=
  issueGlobalW r v s a Iss.sysRelease accs accs (Iss.ownedHold accs) pre effect

/-- The bytes that each lane reads, and the state after the reads. -/
def readLanes (ls : List LaneX) (s : State) (hits : List Nat := []) : List (Nat × List Byte) × State :=
  ls.foldl (fun (acc, s) x =>
    let (b, s) := State.readPieces s x.pieces hits
    (acc ++ [(x.acc.lane, b)], s)) (([] : List (Nat × List Byte)), s)

/-- R36, R190: the blocks that L1 answers. -/
def Iss.hits (i : Iss) : List Nat := if i.viaL1 then (i.s.core i.core).l1 else []

/-- R392: CACHE. -/
def Iss.cache (i : Iss) : Nat := bits i.v.sub 3 2

/-- R389, R390: a load of each lane in Exec. -/
def runLd (v : View) (s : State) : Res :=
  issueGlobal rowLd v s (Access.read.at v.order) Iss.accs (fun _ => []) fun i ls =>
    if i.ex.isEmpty then .ok i.emptyOrder
    else
      let s := i.s.l1Loads i.core i.w.ctx i.cache (allPieces ls)
      let (bs, s) := readLanes ls s i.hits
      .ok (i.loaded s (bs.map fun (l, b) => (l, loadOut v.memTy b)))
def execLd (f : LongF) (s : State) : Res := runLd f.view s

/-- R42, R43: the writes of an instruction; a refused one gives the out-of-space cause. -/
def Iss.writeLanes (i : Iss) (a : Access) (ls : List LaneX) (ps : List WritePart) : Except Cz State :=
  let held := (i.s.core i.core).l1
  match i.s.writeParts (i.s.checks i.core) a.r ps with
  | some s => .ok (s.l1Stores i.core i.w.ctx i.cache held (allPieces ls))
  | none => .error { Cz.plain (memCause 6 a) (ls.map (·.acc.lane)) with maddr := match ls with | x :: _ => x.acc.a | [] => 0 }

/-- R389, R390: a store of each lane in Exec; of lanes that write one byte the highest wins. -/
def runSt (v : View) (s : State) : Res :=
  issueGlobal rowSt v s (Access.write.at v.order) Iss.accs (fun _ => []) fun i ls =>
    if i.ex.isEmpty then .ok i.emptyOrder
    else
      (i.afterPops.writeLanes Access.write ls (ls.flatMap fun x => partsOf x.pieces (storeBytes v.memTy (i.data x.acc.lane)))).map
        fun s => i.commit s (i.addToken i.w) i.at_
def execSt (f : LongF) (s : State) : Res := runSt f.view s

/-- R387, R390: a uniform load. -/
def runLdk (v : View) (s : State) : Res :=
  issueGlobal rowLdk v s (Access.read.at v.order) Iss.accsK (fun _ => []) fun i ls =>
    if i.ex.isEmpty then .ok i.emptyOrder
    else
      let s := i.s.l1Loads i.core i.w.ctx i.cache (allPieces ls)
      let (bs, s) := readLanes ls s i.hits
      let res := match bs with | (_, b) :: _ => (loadOut v.memTy b).res | [] => []
      let w := match v.d with | .k r => i.w.setK (.op i.w.nextOp) r (kValue v.memTy.signed res) | _ => i.w
      .ok (i.commit s (i.addOp w .result) i.at_)
def execLdk (f : LongF) (s : State) : Res := runLdk f.view s

/-- R387, R390: a uniform store. -/
def runStk (v : View) (s : State) : Res :=
  issueGlobal rowStk v s (Access.write.at v.order) Iss.accsK (fun _ => []) fun i ls =>
    if i.ex.isEmpty then .ok i.emptyOrder
    else
      (i.writeLanes Access.write ls (ls.flatMap fun x => partsOf x.pieces (storeBytes v.memTy (i.data x.acc.lane)))).map
        fun s => i.commit s (i.addToken i.w) i.at_
def execStk (f : LongF) (s : State) : Res := runStk f.view s

/-! ### Scratchpad and weight store -/

/-- R180: the bank of a scratchpad byte address of a core with so many ways, and the cycles of one access: the largest number of
distinct words that its lanes name in a bank. -/
def spBank (ways a : Nat) : Nat := a / 4 % (16 * ways)
def spCycles (ways : Nat) (l : List LaneAcc) : Nat :=
  let words := (l.flatMap fun x => (List.range ((x.a % 4 + x.n + 3) / 4)).map fun j => x.a / 4 + j).eraseDups
  (words.map fun w => (words.filter fun u => spBank ways (4 * u) = spBank ways (4 * w)).length).foldl max 1

/-- R388, R438: an instruction that accesses the scratchpad; the cycles beyond the first are bank-conflict cycles. -/
def issueLocal (r : Row) (v : View) (s : State) (code : Nat) (accs : Iss → List LaneAcc) (pre : Iss → List Cz)
    (effect : Iss → State) : Res :=
  issueChecked r v s (fun i => i.pipesCz ++ pre i ++ i.scratchCz code (accs i))
    (fun i => if i.s.owned i.w.ctx i.core true (accs i) || !i.pipesReady then ([], i.s) else i.localCheck (code - 8) (accs i)) fun i =>
    if i.s.owned i.w.ctx i.core true (accs i) then i.stall (.retry .copy)
    else if code != 0x68 && i.s.readsA i.core i.key (accs i) then i.stall (.retry .array)
    else if !i.pipesReady then i.stall .pipe
    else match i.fenceFirst i.sysRelease with
    | some s => s
    | none =>
      effect { i with s := i.s.perf i.core i.w.ctx 4 (spCycles (i.s.core i.core).ways (accs i) - 1) }

def runLds (v : View) (s : State) : Res :=
  issueLocal rowLds v s 0x68 Iss.accs (fun _ => []) fun i =>
    if i.ex.isEmpty then i.emptyOrder
    else i.loaded i.s (i.accs.map fun x => (x.lane, loadOut v.memTy (i.s.spRead i.core x.a x.n)))
def execLds (f : LongF) (s : State) : Res := runLds f.view s

def runSts (v : View) (s : State) : Res :=
  issueLocal rowSts v s 0x69 Iss.accs (fun _ => []) fun i =>
    if i.ex.isEmpty then i.emptyOrder
    else
      let s := i.accs.foldl (fun s x => s.spWrite i.core x.a (storeBytes v.memTy (i.data x.lane))) i.popAll.2
      let s := s.objCheck i.core
      i.commit s (i.addToken i.w) i.at_
def execSts (f : LongF) (s : State) : Res := runSts f.view s

/-- R186: the die of a core, and a byte of its weight store. -/
def dieOf (core : Nat) : Nat := core / 48
def State.wsRead (s : State) (die a n : Nat) : List Byte :=
  (List.range n).map fun j => Sparse.get 0 s.wstore (die * 2 ^ 31 + (a + j) % 2 ^ 31)

/-- R187: the bank group of a byte of the weight store, the group that refreshes at a timestamp, and the ticks to the next window's
start. -/
def bankGroup (o : Nat) : Nat := o / 4096 % 16
def refreshing (t : Nat) : Bool := decide (t % 1000 < 256)
def groupRefreshes (t g : Nat) : Bool := refreshing t && t / 1000 % 16 = g
def toWindow (t : Nat) : Nat := (1000 - t % 1000) % 1000

/-- R391, R187: a lane that reads a bank group which refreshes gets its value when the window ends. -/
def runLdw (v : View) (s : State) : Res :=
  issueChecked rowLdw v s (fun _ => []) (fun i =>
      let fs := i.s.dieFlaws (dieOf i.core) i.accs
      (ueLocal 0x60 (i.accs.map fun x => { x with a := x.a % 2 ^ 31 }) fs, i.s.checkStore fs)) fun i =>
    let bank := (i.accs.map fun x => bankGroup x.a).find? (groupRefreshes i.s.now)
    (i.loaded i.s (i.accs.map fun x => (x.lane, loadOut v.memTy (i.s.wsRead (dieOf i.core) x.a x.n)))).onWave i.key fun w =>
      { w with ops := w.ops.map fun o => if o.id = i.w.nextOp then { o with bank := bank } else o }
def execLdw (f : LongF) (s : State) : Res := runLdw f.view s

/-! ### Cache maintenance (R392) -/

/-- R392: a lane's block comes into L1 where its page translates and has R; otherwise the lane is dropped. -/
def prefLane (i : Iss) (s : State) (l : Nat) : State :=
  match s.translate (some i.core) i.w.ctx (i.addr l) Access.read with
  | (.error _, s) => s
  | (.ok x, s) =>
    if x.isHost then s
    else
      let b := x.pa / 256
      -- R36, R37: a block that L1 does not hold is read at its slice
      let s1 := (State.l1Load i.core i.w.ctx (if bits i.v.sub 3 2 = 0 then 0 else 1) s b).onCore i.core fun c =>
        c.tagLines i.w.ctx [{ va := i.addr l, x := x, n := 1 }]
      if (s.core i.core).l1.contains b then s1 else s1.reachBlock b

def runPref (v : View) (s : State) : Res :=
  issue rowPref v s (fun _ => []) fun i => i.commit (i.ex.foldl (prefLane i) i.s) (i.addToken i.w) i.at_
def execPref (f : LongF) (s : State) : Res := runPref f.view s

/-- R392: a write is performed when its store issues, so no line of L1 is modified and cflush has nothing to write back. -/
def runCflush (v : View) (s : State) : Res :=
  issue rowCflush v s (fun _ => []) fun i => i.commit i.s (i.addToken i.w) i.at_
def execCflush (f : LongF) (s : State) : Res := runCflush f.view s

/-- R392: whether a block is a held line of a range of virtual addresses; nothing is translated. -/
def State.heldLine (s : State) (core ctx lo hi b : Nat) : Bool :=
  (s.core core).l1Tags.any fun t =>
    t.block = b && t.ctx = ctx && decide (alignDown lo 256 ≤ t.va) && decide (t.va < alignUp hi 256)

/-- R392: cinv drops the lines of the range, or all. -/
def runCinv (v : View) (s : State) : Res :=
  issue rowCinv v s (fun _ => []) fun i =>
    let s := if i.ex.isEmpty then i.s
      else if v.sub = 1 then i.s.onCore i.core fun c => { c with l1 := [] }
      else
        let lo := i.w.operand v .i64 [] 0 v.a
        let hi := lo + i.w.operand v .i32 [] 0 v.b
        i.s.onCore i.core fun c => { c with l1 := c.l1.filter fun b => !i.s.heldLine i.core i.w.ctx lo hi b }
    i.commit s (i.addToken i.w) i.at_
def execCinv (f : LongF) (s : State) : Res := runCinv f.view s

/-! ### cresize (R182) -/

/-- R394: cresize asks for ways; its result arrives when the resize is done. -/
def runCresize (v : View) (s : State) : Res :=
  issue rowCresize v s (fun _ => []) fun i =>
    if i.ex.isEmpty then i.commit i.s (i.addToken i.w) i.at_
    else
      let op := i.w.nextOp
      let s := i.s.onCore i.core fun c =>
        { c with resize := c.resize ++ [{ ways := min 20 (i.w.operand v .i32 [] 0 v.a), asker := some (i.key, op) }] }
      let w := i.results (.op op) v.d (i.ex.map fun l => (l, AluOut.word 0))
      i.commit s (i.addOp w .resize) i.at_
def execCresize (f : LongF) (s : State) : Res := runCresize f.view s

/-! ### wsync (R188) -/

/-- The whole core cycles that so many nanoseconds hold at a clock in MHz (R14, R188). -/
def cyclesIn (cclk ns : Nat) : Nat := cclk * ns / 1000

/-- R188: whether a wsync of n cycles may end at a timestamp. -/
def wsyncOver (cclk n t : Nat) : Bool :=
  let m := min n (cyclesIn cclk 744)
  !refreshing t && decide (m ≤ cyclesIn cclk (1000 - t % 1000))

/-- R394: the wave waits, before it goes on, until the weight store of its die leaves it n cycles. -/
def runWsync (v : View) (s : State) : Res :=
  issue rowWsync v s (fun _ => []) fun i =>
    if i.ex.isEmpty || wsyncOver i.s.dev.cclk (min 4095 (i.w.operand v .i32 [] 0 v.a)) i.s.now then
      i.commit i.s (i.addToken i.w) i.at_
    else i.stall (.retry .window)
def execWsync (f : LongF) (s : State) : Res := runWsync f.view s

/-! ### Futures (R197 to R199, R393) -/

/-- R393: an address that is not aligned raises kind 3 as well. -/
def Iss.futureCz (i : Iss) (code : Nat) : List Cz :=
  laneCz (i.ex.filterMap fun l => if i.addr l % 8 = 0 then none else some ⟨code, l, i.addr l⟩)

/-- The accesses of the future forms: 8 bytes each; a misaligned one is not translated. -/
def Iss.accs8 (i : Iss) : List LaneAcc :=
  i.ex.map fun l => { lane := l, a := alignDown (i.addr l) 8, n := 8 }

/-- The 8-byte word of a lane's translated access. -/
def LaneX.word8 (x : LaneX) : Nat := match x.pieces with | p :: _ => p.x.pa / 8 | [] => 0

def State.isFull (s : State) (w : Nat) : Bool := Sparse.get false s.mem.full w
def State.setFull (s : State) (w : Nat) (b : Bool) : State :=
  { s with mem := { s.mem with full := Sparse.set false s.mem.full w b } }

/-- R199: what the answer or the refusal of an ldfut lane pushes: the words, then the predicate. -/
def futOut (ok : Bool) (v : Nat) : AluOut := { (AluOut.dword (if ok then v else 0)) with preds := [ok] }
/-- What stands in the places of a lane that has no answer yet, whose values are on their way: which word each is to hold,
0 for the low one. -/
def futHold : AluOut := { res := [1, 0], preds := [false], fl := 0 }

/-- R199: how many requests the deferral buffer of a slice holds (mode D), and how many entries a core's wait table has. -/
def deferMax : Nat := 64
def waitMax : Nat := 64

/-- R196, R199: the wait-table entries of a core in use. -/
def State.waitUsed (s : State) (core : Nat) : Nat :=
  (s.waves.filter fun (k, w) => keyCore k = core && (match w.wait with | .word _ _ _ e => e | _ => false)).length
    + (s.mem.deferred.filter fun d => d.table && keyCore d.wave = core).length

/-- R199: whether a lane whose word is empty may wait: in mode W the table has room, in mode D the slice's buffer. -/
def State.futRoom (s : State) (core : Nat) (futW : Bool) (word : Nat) : Bool :=
  if futW then decide (s.waitUsed core < waitMax)
  else
    let sl := Config.sliceOf (word / 32) % 64
    decide ((s.mem.deferred.filter fun d => !d.table && Config.sliceOf (d.word / 32) % 64 = sl).length < deferMax)

/-- R199: one lane of an ldfut: it is answered, waits, or is refused. -/
def futLane (key op : Nat) (futW : Bool) (acc : List (Nat × AluOut) × State) (x : LaneX) : List (Nat × AluOut) × State :=
  let (outs, s) := acc
  let l := x.acc.lane
  let s := s.closePieces x.pieces
  if s.isFull x.word8 then
    let (b, s) := s.readPieces x.pieces
    (outs ++ [(l, futOut true (ofBytes b))], s)
  else
    if s.futRoom (keyCore key) futW x.word8 then
      (outs ++ [(l, futHold)], { s with mem := { s.mem with deferred := s.mem.deferred ++
        [{ wave := key, op := op, lane := l, word := x.word8, table := futW, so := x.pieces.any fun p => p.x.ord = 0 }] } })
    else (outs ++ [(l, futOut false 0)], s)

/-- R199, R393: ldfut. Its operation completes with the last answer; in mode W the wave sleeps until then. -/
def runLdfut (v : View) (s : State) : Res :=
  issueGlobal rowLdfut v s Access.read.future Iss.accs8 (fun i => i.futureCz 0x4C) fun i ls =>
    let futW := (i.s.ctx i.w.ctx).futW
    let op := i.w.nextOp
    let (outs, s1) := ls.foldl (futLane i.key op futW) (([] : List (Nat × AluOut)), i.s)
    let left := (s1.mem.deferred.filter fun d => d.wave = i.key && d.op = op).length
    let w := i.results (.op op) v.d outs
    if left = 0 then .ok (i.commit s1 (i.addOp w .result) i.at_)
    else
      let w := i.addOp w (.future left)
      .ok (i.commit s1 (if futW then { w with wait := .future op } else w) i.at_)
def execLdfut (f : LongF) (s : State) : Res := runLdfut f.view s

/-- The word of a datum that a place is to hold. -/
def wordOf (v : Nat) (place : W32) : W32 := if place = 0 then BitVec.ofNat 32 v else BitVec.ofNat 32 (v / 2 ^ 32)

/-- R199: an answer takes the places that the instruction took when it issued. -/
def Cell.answer (id v : Nat) (c : Cell) : Cell :=
  { c with
    val := if c.due = .op id then wordOf v c.val else c.val
    prior := c.prior.map fun (x, d) => (if d = .op id then wordOf v x else x, d) }
def PCell.answer (id : Nat) (ok : Bool) (p : PCell) : PCell :=
  { p with
    val := if p.due = .op id then ok else p.val
    prior := p.prior.map fun (x, d) => (if d = .op id then ok else x, d) }

/-- R199: an ldfut lane is answered with a word, or refused. -/
def Lane.answer (id : Nat) (ans : Option Nat) (x : Lane) : Lane :=
  let v := ans.getD 0
  { x with
    shelf := x.shelf.map (Cell.answer id v)
    named := x.named.map (Cell.answer id v)
    preds := x.preds.map (PCell.answer id ans.isSome) }

/-- A deferred lane leaves the list with its answer, or refused (none). -/
def State.endDeferred (s : State) (d : Deferred) (ans : Option Nat) : State :=
  let s := { s with mem := { s.mem with deferred := s.mem.deferred.erase d } }
  let s := s.onWave d.wave fun w =>
    let w := w.onLane d.lane (Lane.answer d.op ans)
    if w.wait = .future d.op && !(s.mem.deferred.any fun x => x.wave = d.wave && x.op = d.op) then { w with wait := .none } else w
  s.countDown d.wave d.op

/-- R199: a word that has been filled answers the lanes that wait for it, in order. -/
def State.answerFuture (s : State) (word : Nat) : State :=
  (s.mem.deferred.filter fun d => d.word = word).foldl (fun s d =>
    s.endDeferred d (some (ofBytes (s.peekPhys (8 * word) 8)))) s

/-- Whether an element stands in a list more than once, or again later. -/
def twice (l : List Nat) (x : Nat) : Bool := decide (1 < (l.filter fun y => y = x).length)

/-- R198, R393: stfill. -/
def runStfill (v : View) (s : State) : Res :=
  issueGlobal rowStfill v s Access.write.future Iss.accs8 (fun i => i.futureCz 0x4D) fun i ls =>
    let words := ls.map LaneX.word8
    match laneCz (ls.filterMap fun x => if i.s.isFull x.word8 || twice words x.word8 then some ⟨0x85, x.acc.lane, x.acc.a⟩ else none) with
    | c :: _ => .error c
    | [] =>
      (i.afterPops.writeLanes Access.write ls (ls.flatMap fun x => partsOf x.pieces (toBytes 8 (i.operandC .i64 x.acc.lane)))).map
        fun s =>
          let s := words.foldl (fun s w => s.setFull w true) s
          words.foldl State.answerFuture (i.commit s (i.addToken i.w) i.at_)
def execStfill (f : LongF) (s : State) : Res := runStfill f.view s

/-- R198: streset empties the words and keeps their values. -/
def runStreset (v : View) (s : State) : Res :=
  issueGlobal rowStreset v s Access.write.future Iss.accs8 (fun i => i.futureCz 0x4D) fun i ls =>
    .ok (i.commit (ls.foldl (fun s x => (s.closePieces x.pieces).setFull x.word8 false) i.s) (i.addToken i.w) i.at_)
def execStreset (f : LongF) (s : State) : Res := runStreset f.view s

end Sys2Proof.Machine
end

