-- ==== Sys2Proof/Machine/Atomics.lean ====
section
/-!
DEFINITION. Row 0xA_: atomics of global memory and of the scratchpad (spec/16 R395 to R398, spec/08 R189).
-/
namespace Sys2Proof.Machine

/-- R396: what an atomic operation writes, by its code, the type, the value found and the operand. -/
def atomNew (op : Nat) (t : Ty) (old v : Nat) : Nat :=
  let m := 2 ^ t.width
  match op with
  | 0 => (old + v) % m
  | 1 => (old + (m - v % m)) % m
  | 2 => if t = .f32 then (Fmt.f32.minNum old v).v else if t.toInt v < t.toInt old then v % m else old
  | 3 => if t = .f32 then (Fmt.f32.maxNum old v).v else if t.toInt old < t.toInt v then v % m else old
  | 4 => old &&& (v % m)
  | 5 => old ||| (v % m)
  | 6 => old ^^^ (v % m)
  | 7 => v % m
  | 8 => if v = 0 then (old + 1) % 2 ^ 32 else (old + 1) % v
  | 9 => if v = 0 then (old + (2 ^ 32 - 1)) % 2 ^ 32 else (old % v + v - 1) % v
  | _ => (Fmt.f32.add .rn old v).v

/-- What a lane's atomic does with the value it finds: the value it writes, if it writes. -/
abbrev AtomFn := Nat → Nat → Option Nat

/-- R396: atom and red. -/
def Iss.atomFn (i : Iss) : AtomFn := fun l old => some (atomNew (bits i.v.sub 0 4) i.v.memTy old (i.data l))

/-- R397: the compare and the swap value of a lane. -/
def Iss.casOperand (i : Iss) (l : Nat) : Nat × Nat :=
  if i.v.memTy.width = 64 then
    match i.w.span l i.v.c 4 with
    | [a, b, c, d] => (pair64 a b, pair64 c d)
    | _ => (0, 0)
  else
    let x := i.operandC .i64 l
    (lo32 x, hi32 x)

/-- R397: cas: the word is written if it equals the compare value. -/
def Iss.casFn (i : Iss) : AtomFn := fun l old =>
  let (c, n) := i.casOperand l
  if old = c then some n else none

/-- R212, R398: 0x52 for an address that is not aligned to the width. -/
def Iss.alignCz (i : Iss) : List Cz :=
  laneCz (i.ex.filterMap fun l => if i.addr l % i.v.memBytes = 0 then none else some ⟨0x52, l, i.addr l⟩)

/-- The aligned accesses of an atomic, which never cross a page. -/
def Iss.atomAccs (i : Iss) : List LaneAcc :=
  i.ex.map fun l => { lane := l, a := alignDown (i.addr l) i.v.memBytes, n := i.v.memBytes }

/-- R189, R398: the lanes one at a time, ascending: the value each finds, and the writes. -/
def atomLanes (n : Nat) (f : AtomFn) : List (Nat × Nat × Option Bool) → Sparse Byte → List (Nat × Nat) × List WritePart × Sparse Byte
  | [], m => ([], [], m)
  | (l, pa, comp) :: rest, m =>
    let old := ofBytes (readBytes m pa n)
    match f l old with
    | some v =>
      let d := toBytes n v
      let (os, ps, m) := atomLanes n f rest (writeBytes m pa d)
      ((l, old) :: os, { pa := pa, data := d, comp := comp } :: ps, m)
    | none =>
      let (os, ps, m) := atomLanes n f rest m
      ((l, old) :: os, ps, m)

/-- The physical address and C bit of a lane's aligned access. -/
def LaneX.place (x : LaneX) : Nat × Nat × Option Bool :=
  match x.pieces with
  | p :: _ => (x.acc.lane, p.x.pa, some p.x.comp)
  | [] => (x.acc.lane, 0, none)

/-- A global atomic; `res` says whether the old values are results. -/
def runAtomG (r : Row) (res : Bool) (f : Iss → AtomFn) (v : View) (s : State) : Res :=
  issueGlobal r v s Access.atomic Iss.atomAccs Iss.alignCz fun i ls =>
    if i.ex.isEmpty then .ok i.emptyOrder
    else
      let s1 := i.s.closePieces (allPieces ls)
      let (olds, ps, _) := atomLanes v.memBytes (f i) (ls.map LaneX.place) s1.mem.cells
      (Iss.writeLanes { i with s := i.popAll.2.closePieces (allPieces ls) } Access.atomic ls ps).map fun s =>
        if res then i.loaded s (olds.map fun (l, o) => (l, loadOut v.memTy (toBytes v.memBytes o)))
        else i.commit s (i.addToken i.w) i.at_

/-- A scratchpad atomic. -/
def runAtomS (r : Row) (res : Bool) (f : Iss → AtomFn) (v : View) (s : State) : Res :=
  issueLocal r v s 0x6A Iss.accs Iss.alignCz fun i =>
    if i.ex.isEmpty then i.emptyOrder
    else
      let (olds, _, m) := atomLanes v.memBytes (f i) (i.ex.map fun l => (l, i.addr l, none)) (i.s.core i.core).scratch
      let s := (i.popAll.2.onCore i.core fun c => { c with scratch := m }).objCheck i.core
      if res then i.loaded s (olds.map fun (l, o) => (l, loadOut v.memTy (toBytes v.memBytes o)))
      else i.commit s (i.addToken i.w) i.at_

def execAtom (f : LongF) (s : State) : Res := runAtomG rowAtom true Iss.atomFn f.view s
def execAtoms (f : LongF) (s : State) : Res := runAtomS rowAtoms true Iss.atomFn f.view s
def execRed (f : LongF) (s : State) : Res := runAtomG rowRed false Iss.atomFn f.view s
def execReds (f : LongF) (s : State) : Res := runAtomS rowReds false Iss.atomFn f.view s
def execCas (f : LongF) (s : State) : Res := runAtomG rowCas true Iss.casFn f.view s
def execCass (f : LongF) (s : State) : Res := runAtomS rowCass true Iss.casFn f.view s

end Sys2Proof.Machine
end

