-- ==== Sys2Proof/Machine/Collectives.lean ====
section
/-!
DEFINITION. The collectives of gangs and ensembles: the barriers (spec/16 R399, R400) and rrot (spec/08 R183, spec/16 R394).
A collective whose tokens are not clear tries again when one clears.
-/
namespace Sys2Proof.Machine

/-! ### The waves of gangs -/

/-- The waves of a gang that have not exited: index and key. -/
def Gang.left (G : Gang) : List (Nat × Nat) :=
  G.waves.zipIdx.filterMap fun (k, j) => if G.exited.contains j then none else some (j, k)

/-- The resident gangs of an ensemble. -/
def State.ensGangs (s : State) (e : Nat) : List (Nat × Gang) := s.gangs.filter fun x => x.2.ens = e

/-- Waves of a list go on to their next instruction. -/
def State.doneAll (s : State) (ks : List Nat) : State := ks.foldl (fun s k => s.finish k Iss.done) s

/-- A collective with every lane in Exec, once the wave's tokens are clear. -/
def issueColl (r : Row) (v : View) (s : State) (causes : Iss → List Cz) (effect : Iss → State) : Res :=
  issue r v s (fun i => i.convergeCz ++ causes i) fun i =>
    if (List.range 6).all i.w.tokenClear then effect i else i.stall (.retry .token)

/-! ### bar (R399) -/

/-- Whether the waves of a gang with these indices stand waiting at a barrier; one that was stopped or saved there arrives no
second time when it comes back to it (R250, R251). -/
def State.standAt (s : State) (G : Gang) (js : List Nat) (x : Wait) : Bool :=
  G.left.all fun y => !js.contains y.1 || s.waitOf y.2 = x

/-- R399: whether the present phase of a gang is complete. -/
def Gang.barOver (G : Gang) : Bool :=
  if G.barArr.isEmpty then false
  else if G.barCnt then decide (G.barN ≤ G.barArr.length)
  else G.left.all fun x => G.barArr.contains x.1

/-- R399: a complete phase lets its waves go on. -/
def State.barCheck (s : State) (g : Nat) : State :=
  match s.gang? g with
  | none => s
  | some G =>
    if G.barOver && s.standAt G G.barArr .bar then
      (s.setGang g { G with barArr := [], barN := 0, barCnt := false }).doneAll
        ((G.left.filter fun x => G.barArr.contains x.1).map (·.2))
    else s

/-- R399: a wave arrives with a count, or without one. -/
def Iss.barArrive (i : Iss) (n : Option Nat) : State :=
  match i.s.gang? i.w.gang with
  | none => i.done
  | some G =>
    let c := n.getD G.left.length
    let cnt := G.barCnt || n.isSome
    if G.barArr.contains i.w.idx then (i.s.setWave i.key { i.w with wait := .bar }).barCheck i.w.gang
    else if !G.barArr.isEmpty && cnt && c != G.barN then i.fail (Cz.plain 0x82 i.ex)
    else
      let G := { G with barArr := G.barArr ++ [i.w.idx], barN := if G.barArr.isEmpty then c else G.barN, barCnt := cnt }
      ((i.s.setWave i.key { i.w with wait := .bar }).setGang i.w.gang G).barCheck i.w.gang

def runBar (v : View) (s : State) : Res := issueColl rowBar v s (fun _ => []) fun i => i.barArrive none
def execBar (f : LongF) (s : State) : Res := runBar f.view s
def execBarShort (f : ShortF) (s : State) : Res := runBar f.view s

/-- The uniform count of bar.cnt. -/
def Iss.barN (i : Iss) : Nat := i.w.operand i.v .i32 [] 0 i.v.a

def runBarCnt (v : View) (s : State) : Res :=
  issueColl rowBarCnt v s
    (fun i => if i.barN = 0 || decide (32 < i.barN) then [Cz.plain 0x03 i.ex] else []) fun i => i.barArrive (some i.barN)
def execBarCnt (f : LongF) (s : State) : Res := runBarCnt f.view s

/-! ### ebar (R400) -/

/-- R400: a phase that every wave of every member has arrived in is complete. -/
def State.ebarCheck (s : State) (e : Nat) : State :=
  let gs := s.ensGangs e
  if gs.any (fun x => !x.2.ebarArr.isEmpty) && gs.all (fun x => x.2.left.all fun y => x.2.ebarArr.contains y.1)
      && gs.all (fun x => s.standAt x.2 x.2.ebarArr .ebar) then
    (gs.foldl (fun s x => s.onGang x.1 fun G => { G with ebarArr := [] }) s).doneAll (gs.flatMap fun x => x.2.left.map (·.2))
  else s

/-- R400: whether the gang of a wave is no member of an ensemble. -/
def Iss.noEnsemble (i : Iss) : Bool := match i.s.gang? i.w.gang with | some G => G.task || G.callable | none => true

def runEbar (v : View) (s : State) : Res :=
  issueColl rowEbar v s (fun i => if i.noEnsemble then [Cz.plain 0x93 i.ex] else []) fun i =>
    match i.s.gang? i.w.gang with
    | none => i.done
    | some G =>
      ((i.s.setWave i.key { i.w with wait := .ebar }).setGang i.w.gang { G with
        ebarArr := if G.ebarArr.contains i.w.idx then G.ebarArr else G.ebarArr ++ [i.w.idx] }).ebarCheck G.ens
def execEbar (f : LongF) (s : State) : Res := runEbar f.view s
def execEbarShort (f : ShortF) (s : State) : Res := runEbar f.view s

/-! ### rrot (R183) -/

/-- What one member brings: its wave, its gang, source, destination, length, direction. -/
structure Rot where
  key : Nat
  gang : Nat
  G : Gang
  src : Nat
  dst : Nat
  len : Nat
  up : Bool
  deriving DecidableEq, Repr

/-- The operands of an rrot. -/
def Iss.rotA (i : Iss) : Nat := i.w.operand i.v .i32 [] 0 i.v.a
def Iss.rotB (i : Iss) : Nat := i.w.operand i.v .i32 [] 0 i.v.b
def Iss.rotL (i : Iss) : Nat := i.w.operand i.v .i32 [] 0 i.v.c

/-- The first wave of a member that waits at rrot. -/
def State.rotOf (s : State) (x : Nat × Gang) : Option Rot :=
  (x.2.left.find? fun y => s.waitOf y.2 = .rrot).bind fun y =>
    (s.pending y.2).map fun i =>
      { key := y.2, gang := x.1, G := x.2, src := i.rotA, dst := i.rotB, len := i.rotL, up := i.v.sub = 0 }

/-- R183: the neighbour of a member. -/
def Rot.next (r : Rot) : Nat := (r.G.member + (if r.up then 1 else r.G.members - 1)) % r.G.members

/-- R183: the neighbour's gang, unless it is over. -/
def Rot.target (rs : List Rot) (r : Rot) : Option Rot := rs.find? fun x => x.G.member = r.next

/-- R23: the words that a sender reads and whose check fails. -/
def State.rotFlaws (s : State) (r : Rot) : List Flaw := s.coreFlaws r.G.core 4 false [{ lane := 0, a := r.src, n := r.len }]

/-- R183 step 2, R23: the cause of a sender. -/
def State.rotCz (s : State) (rs : List Rot) (r : Rot) : Option Cz :=
  let all := List.range 32
  if !s.inAlloc r.gang r.src r.len then some { Cz.plain 0x68 all with maddr := r.src }
  else if (s.rotFlaws r).any Flaw.fatal then some { Cz.plain 0x60 all with maddr := r.src }
  else
    match Rot.target rs r with
    | some t => if s.inAlloc t.gang r.dst r.len then none else some { Cz.plain 0x69 all with maddr := r.dst }
    | none => some { Cz.plain 0x69 all with maddr := r.dst }

/-- R224: whether a copy entry owns bytes that the rotation touches. -/
def State.rotOwned (s : State) (rs : List Rot) : Bool :=
  rs.any fun r =>
    s.owned r.G.ctx r.G.core true [{ lane := 0, a := r.src, n := r.len }]
      || (match Rot.target rs r with
        | some t => s.owned t.G.ctx t.G.core true [{ lane := 0, a := r.dst, n := r.len }]
        | none => false)

/-- R21: the words that senders read have been checked. -/
def State.rotRead (s : State) (rs : List Rot) : State := rs.foldl (fun s r => s.checkCore r.G.core (s.rotFlaws r)) s

/-- R183 step 4: every source is read before any destination is written. -/
def State.rotMove (s : State) (rs : List Rot) : State :=
  let data := rs.filterMap fun r => (Rot.target rs r).map fun t => (t.G.core, r.dst, s.spRead r.G.core r.src r.len)
  (data.foldl (fun s (c, a, b) => s.spWrite c a b) s)

/-- R183: the device acts once every member that is not over has a wave at rrot. -/
def State.rotCheck (s : State) (e : Nat) : State :=
  let gs := (s.ensGangs e).filter fun x => !x.2.left.isEmpty
  let rs := gs.filterMap s.rotOf
  match rs with
  | [] => s
  | r0 :: _ =>
    if rs.length != gs.length then s
    else if rs.any fun r => r.len != r0.len || r.up != r0.up then
      rs.foldl (fun s r => s.finish r.key fun i => i.fail (Cz.plain 0x8A (List.range 32))) s
    else
      let bad := rs.filterMap fun r => (s.rotCz rs r).map fun c => (r, c)
      if !bad.isEmpty then
        bad.foldl (fun s (r, c) => s.finish r.key fun i => i.fail c) (s.rotRead ((bad.filter fun x => x.2.code = 0x60).map (·.1)))
      else if s.rotOwned rs then s
      else
        let s := ((s.rotRead rs).rotMove rs).doneAll (rs.map (·.key))
        rs.foldl (fun s r => s.objCheck r.G.core) s

/-- R183, R224: the rotations that waited for bytes which a copy entry owned are looked at again. -/
def State.rotAll (s : State) : State := ((s.gangs.map (·.2.ens)).eraseDups).foldl State.rotCheck s

/-- R394, R183: the length of an rrot. -/
def Iss.rotCz (i : Iss) : List Cz :=
  if decide (i.rotL < 4) || decide (65536 < i.rotL) || i.rotL % 4 != 0 then [Cz.plain 0x03 i.ex] else []

def runRrot (v : View) (s : State) : Res :=
  issueColl rowRrot v s Iss.rotCz fun i =>
    match i.s.gang? i.w.gang with
    | none => i.done
    | some G => (i.s.setWave i.key { i.w with wait := .rrot }).rotCheck G.ens
def execRrot (f : LongF) (s : State) : Res := runRrot f.view s

end Sys2Proof.Machine
end

