-- ==== Sys2Proof/Machine/Matrix.lean ====
section
/-!
DEFINITION. Row 0xD_: the matrix array of a core (spec/17 R409 to R417), its ownership (spec/05 R127, R128) and its sums
(spec/12 R299, R300, R305, R306).
-/
namespace Sys2Proof.Machine

/-! ### Ownership (R127, R128, R410) -/

/-- A change to the matrix array of a core. -/
def State.onMx (s : State) (core : Nat) (f : Matrix → Matrix) : State := s.onCore core fun c => { c with mx := f c.mx }

/-- The gang of a wave. -/
def State.gangOf (s : State) (key : Nat) : Option Nat := (s.wave? key).map (·.gang)

/-- R410: a wave becomes the owner: it finds the accumulators and the step count of its own gang, the image it was saved with,
or zeros. -/
def Matrix.give (m : Matrix) (key : Nat) (gang : Option Nat) (image : Option (Sparse W32 × W32)) : Matrix :=
  let (a, k) := match image with
    | some x => x
    | none => if m.gang = gang then (m.acc, m.kcnt) else ([], 0)
  { m with owner := some key, gang := gang, acc := a, kcnt := k }

/-- R127: an array without owner goes to the head of the FIFO, if there is one. A restored wave that has not issued its mxacq again keeps its
stamp, by which that finds the array given (R128). -/
def State.grantMx (s : State) (core : Nat) : State :=
  match (s.core core).mx.owner, (s.core core).mx.fifo with
  | none, h :: rest =>
    let s := s.onMx core fun m => { m.give h.wave (s.gangOf h.wave) h.image with fifo := rest }
    match s.waitOf h.wave with
    | .matrixFifo => (s.onWave h.wave fun w => { w with mxStamp := none }).finish h.wave Iss.done
    | _ => s.wake .array
  | _, _ => s

/-- R127: the owner gives up the array. -/
def State.passMx (s : State) (core : Nat) : State := (s.onMx core fun m => { m with owner := none }).grantMx core

/-- R127: a place in the FIFO by the time the wave asked; one that regains its accumulators stands at the head (R128). -/
def mxEnter (x : MxWaiter) : List MxWaiter → List MxWaiter
  | [] => [x]
  | y :: l =>
    if x.image.isSome || (y.image.isNone && decide (x.stamp < y.stamp)) then x :: y :: l else y :: mxEnter x l

/-- R128: whether a wave waits to regain the array. -/
def State.mxFormer (s : State) (key : Nat) : Bool :=
  (s.core (keyCore key)).mx.fifo.any fun x => x.wave = key && x.image.isSome

/-- R409: whether the wave holds the array. -/
def Iss.holdsMx (i : Iss) : Bool := (i.s.core i.core).mx.owner = some i.key

/-- R409: 0x8F for a wave that does not own the array. -/
def Iss.ownCz (i : Iss) : List Cz := if i.holdsMx then [] else [Cz.plain 0x8F i.ex]

/-- Whether K-steps that a wave has issued are not done, on the array of a core. -/
def Matrix.busy (m : Matrix) (key : Nat) : Bool := m.ops.any fun o => o.wave = key
def State.mxBusy (s : State) (key : Nat) : Bool := (s.core (keyCore key)).mx.busy key
/-- The number that stands for the wave of K-steps and other operations once the wave has exited and left its slot (R157). -/
def leftKey : Nat := 2 ^ 32

/-- R128, R409: an instruction of the row: one of a former owner waits before issue until the wave holds the array. -/
def issueRowD (r : Row) (v : View) (s : State) (causes : Iss → List Cz) (effect : Iss → State) : Res :=
  match s.iss r v with
  | none => .fault .noWave
  | some i =>
    if i.tokensOk && i.s.mxFormer i.key && !i.holdsMx then .next (i.stall (.retry .array)) else issue r v s causes effect

/-- An instruction of an owner. -/
def issueMx (r : Row) (v : View) (s : State) (causes : Iss → List Cz) (effect : Iss → State) : Res :=
  issueRowD r v s (fun i => i.ownCz ++ causes i) effect

/-- R411, R127: mxacq. -/
def runMxacq (v : View) (s : State) : Res :=
  issueRowD rowMxacq v s (fun i => i.convergeCz ++ if i.holdsMx && i.w.mxStamp.isNone then [Cz.plain 0x90 i.ex] else []) fun i =>
    let m := (i.s.core i.core).mx
    if i.holdsMx then Iss.done { i with w := { i.w with mxStamp := none } }
    else if m.fifo.any fun x => x.wave = i.key then i.stall .matrixFifo
    else if m.owner.isNone && m.fifo.isEmpty then
      Iss.done { i with s := i.s.onMx i.core fun m => m.give i.key (some i.w.gang) none }
    else
      let stamp := i.w.mxStamp.getD i.s.sched.nextAge
      let s := { i.s with sched := { i.s.sched with nextAge := i.s.sched.nextAge + 1 } }
      let s := s.onMx i.core fun m => { m with fifo := mxEnter { stamp := stamp, wave := i.key, image := none } m.fifo }
      (s.setWave i.key { i.w with wait := .matrixFifo, mxStamp := some stamp }).grantMx i.core
def execMxacq (f : LongF) (s : State) : Res := runMxacq f.view s
def execMxacqShort (f : ShortF) (s : State) : Res := runMxacq f.view s

/-- R411, R127: mxrel passes ownership when the K-steps of the wave are done. -/
def runMxrel (v : View) (s : State) : Res :=
  issueRowD rowMxrel v s (fun i => i.convergeCz ++ if i.holdsMx then [] else [Cz.plain 0x88 i.ex]) fun i =>
    if i.s.mxBusy i.key then i.stall .matrixRel
    else i.done.passMx i.core
def execMxrel (f : LongF) (s : State) : Res := runMxrel f.view s
def execMxrelShort (f : ShortF) (s : State) : Res := runMxrel f.view s

/-- R411: mxwait. -/
def runMxwait (v : View) (s : State) : Res :=
  issueMx rowMxwait v s (fun _ => []) fun i =>
    if !i.ex.isEmpty && i.s.mxBusy i.key then i.stall .matrixDrain else i.done
def execMxwait (f : LongF) (s : State) : Res := runMxwait f.view s
def execMxwaitShort (f : ShortF) (s : State) : Res := runMxwait f.view s

/-! ### mma and mmas -/

/-- R12: the dot width of a format: the elements that 64 bits hold. -/
def dotWidth (f : NFmt) : Nat := 64 / f.slot

/-- The A and B operands of mma and mmas. -/
def Iss.mxA (i : Iss) : Nat := i.w.operand i.v .i64 [] 0 i.v.a
def Iss.mxB (i : Iss) : Nat := i.w.operand i.v .i64 [] 0 i.v.b

/-- The accesses of the rows of A: 64 rows of 8 bytes for each K-step. -/
def Iss.rowsA (i : Iss) (steps : Nat) : List LaneAcc :=
  (List.range 64).map fun r => { lane := 0, a := i.mxA + 8 * steps * r, n := 8 * steps }

/-- R412: alignment, range and possession of the operands. -/
def Iss.tileCz (i : Iss) (steps : Nat) : List Cz :=
  let bad (c : Nat) (b : Bool) (a : Nat) : List Cz := if b then [{ Cz.plain c i.ex with maddr := a }] else []
  bad 0x03 (i.mxA % 64 != 0 || i.mxB % 64 != 0 || decide (32768 < i.mxB + 8 * steps)) 0
  ++ (if bit i.v.sub 4 then []
      else match (i.rowsA steps).find? fun x => !i.s.inAlloc i.w.gang x.a x.n with
        | some x => [{ Cz.plain 0x68 i.ex with maddr := x.a }]
        | none => [])
  ++ bad 0x89 ((i.s.core i.core).breg.holder != some i.w.gang) 0

/-- The rows of A as they stand. -/
def Iss.readA (i : Iss) (steps : Nat) : List (List Byte) :=
  (i.rowsA steps).map fun x =>
    if bit i.v.sub 4 then i.s.wsRead (dieOf i.core) x.a x.n else i.s.spRead i.core x.a x.n

/-- R21: the words of A and of the B-region whose check fails, which are checked as the instruction issues (log 53). -/
def Iss.flawsA (i : Iss) (steps : Nat) : List Flaw :=
  if bit i.v.sub 4 then i.s.dieFlaws (dieOf i.core) (i.rowsA steps) else i.s.coreFlaws i.core 4 false (i.rowsA steps)
def Iss.flawsB (i : Iss) (steps : Nat) : List Flaw :=
  i.s.coreFlaws i.core 5 false ((List.range 64).map fun c => { lane := 0, a := 32768 * c + i.mxB, n := 8 * steps })
def Iss.checkTile (i : Iss) (steps : Nat) : State :=
  ((if bit i.v.sub 4 then i.s.checkStore (i.flawsA steps) else i.s.checkCore i.core (i.flawsA steps))).checkCore i.core (i.flawsB steps)

/-- R413, R414, R417: an mma or mmas enters the array; at most two are unfinished. -/
def Iss.startMma (i : Iss) (steps : Nat) (scales specials : List Nat) (blk32 : Bool) : State :=
  let m := (i.s.core i.core).mx
  if 2 ≤ m.ops.length then i.stall (.retry .array)
  else if !bit i.v.sub 4 && i.s.owned i.w.ctx i.core true (i.rowsA steps) then i.stall (.retry .copy)
  else if (i.flawsA steps ++ i.flawsB steps).any Flaw.fatal then { i with s := i.checkTile steps }.fail (Cz.plain 0x60 i.ex)
  else
    let i : Iss := { i with s := i.checkTile steps }
    let o : MxOp :=
      { wave := i.key, ctx := i.w.ctx, op := i.w.nextOp, aAt := i.mxA, weights := bit i.v.sub 4, fmt := bits i.v.sub 0 4, acc := i.v.cRaw, rows := i.readA steps, bOff := i.mxB
        k := 0, steps := steps, scales := scales, specials := specials, blk32 := blk32 }
    i.commit (i.s.onMx i.core fun m => { m with ops := m.ops ++ [o] }) (i.addOp i.w .matrix) i.at_

/-- R413: IMM9 counts K in units of eight dot widths. -/
def mmaSteps (v : View) : Nat := 8 * v.imm9.toNat

/-- R413. -/
def runMma (r : Row) (v : View) (s : State) : Res :=
  issueMx r v s (fun i => i.convergeCz ++ i.tileCz (mmaSteps v)) fun i => i.startMma (mmaSteps v) [] [] false
def execMma (f : LongF) (s : State) : Res := runMma rowMma f.view s
def execMmaSg1 (f : LongF) (s : State) : Res := runMma rowMmaSg1 f.view s

/-- The scale register of mmas. -/
def scaleReg (v : View) : Nat := match v.d with | .named r => r | _ => 0
/-- R414: whether the format has special bytes, in the register after the scales. -/
def hasSpecial (v : View) : Bool := bits v.sub 0 4 = 4

/-- R414: the byte of a lane's register that K selects. -/
def Iss.laneByte (i : Iss) (r l : Nat) : Nat := byteOf (i.w.nVal l r) (bits i.v.sub 6 2)

/-- R414: whether a scale or special byte has not arrived. -/
def Iss.scaleStale (i : Iss) : Bool :=
  i.ex.any fun l =>
    !i.w.ready ((i.w.lane l).namedCell (scaleReg i.v)).due
      || (hasSpecial i.v && !i.w.ready ((i.w.lane l).namedCell (scaleReg i.v + 1)).due)

/-- R414: the K-steps of a chunk of 64. -/
def mmasSteps (v : View) : Nat := 64 / dotWidth (NFmt.ofCode (bits v.sub 0 4))

/-- R414. -/
def runMmas (r : Row) (v : View) (s : State) : Res :=
  issueMx r v s (fun i =>
      i.convergeCz
      ++ (if hasSpecial v && decide (i.w.n ≤ scaleReg v + 1) then [Cz.plain 0x07 i.ex] else [])
      ++ i.staleCz i.scaleStale ++ i.tileCz (mmasSteps v)) fun i =>
    i.startMma (mmasSteps v) (laneIds.map (i.laneByte (scaleReg v)))
      (laneIds.map fun l => if hasSpecial v then i.laneByte (scaleReg v + 1) l else 0) (bit v.sub 5)
def execMmas (f : LongF) (s : State) : Res := runMmas rowMmas f.view s
def execMmas32 (f : LongF) (s : State) : Res := runMmas rowMmas32 f.view s

/-! ### A K-step (R305, R306) -/

/-- A tile as a dense list, from the entries of a sparse array at and after a key. -/
def denseFrom : Nat → Nat → Sparse W32 → List W32
  | 0, _, _ => []
  | n + 1, lo, [] => 0 :: denseFrom n (lo + 1) []
  | n + 1, lo, (k, v) :: m => if k = lo then v :: denseFrom n (lo + 1) m else 0 :: denseFrom n (lo + 1) ((k, v) :: m)

/-- The entries of a dense list from a key on. -/
def sparseFrom : Nat → List W32 → Sparse W32
  | _, [] => []
  | lo, v :: l => Sparse.cons 0 lo v (sparseFrom (lo + 1) l)

/-- The 4,096 cells of an accumulator, row by row. -/
def Matrix.tile (m : Matrix) (a : Nat) : List W32 :=
  denseFrom 4096 (4096 * a) (m.acc.filter fun (k, _) => k / 4096 = a)
/-- An accumulator replaced. -/
def Matrix.setTile (m : Matrix) (a : Nat) (t : List W32) : Matrix :=
  { m with acc := (m.acc.filter fun (k, _) => decide (k / 4096 < a)) ++ sparseFrom (4096 * a) t
                    ++ (m.acc.filter fun (k, _) => decide (a < k / 4096)) }

/-- The exact sum of products; a NaN, an infinity times zero and opposite infinities give a NaN. -/
def dotX : List XR → List XR → XR
  | a :: as, b :: bs =>
    match as with
    | [] => (XR.mul a b).1
    | _ => (XR.add .rn (XR.mul a b).1 (dotX as bs)).1
  | _, _ => .fin false 0 0

/-- R305: one cell: the accumulator plus the sum, rounded once. -/
def cellFloat (acc : W32) (g : XR) : FR :=
  let x := Fmt.f32.decode acc.toNat
  let r := XR.add .rn x g
  let r : XR × Flg := (r.1, Flg.when (g.isNan || x.isS) fIV ||| r.2)
  Fmt.f32.fin .rn r

/-- R306: one integer cell. -/
def cellInt (acc : W32) (g : Int) : FR :=
  let v := acc.toInt + g
  { v := wrap v 32, f := Flg.when (decide (v < -(2 ^ 31 : Nat)) || decide ((2 ^ 31 : Nat) ≤ v)) fIO }

/-- The integer value of a narrow code of an integer format or SG1. -/
def xrInt : XR → Int
  | .fin neg m e => let v : Int := (m * 2 ^ e.toNat : Nat); if neg then -v else v
  | _ => 0

def dotI (as bs : List XR) : Int := ((as.zip bs).map fun (a, b) => xrInt a * xrInt b).foldl (· + ·) 0

/-- R300: the lane that holds the scale of a block of A: rows `i`, K columns `j`; and of B: K `j`, columns `c`. -/
def laneA (blk32 : Bool) (i j : Nat) : Nat := if blk32 then 2 * (i / 32) + j / 32 else 4 * (i / 16) + j / 16
def laneB (blk32 : Bool) (j c : Nat) : Nat := 16 + (if blk32 then 2 * (j / 32) + c / 32 else 4 * (j / 16) + c / 16)

/-- The decoded elements of a K-step's 64 bits, with the scale and special byte of a lane. -/
def MxOp.decode (o : MxOp) (w lane : Nat) : List XR :=
  let f := NFmt.ofCode o.fmt
  let e := if o.scales.isEmpty then 127 else at? 0 o.scales lane
  let σ := at? 0 o.specials lane
  (List.range (dotWidth f)).map fun i => f.decode (f.elem w i) e σ

/-- R305, R306: whether the format sums as integers. -/
def sumsInt (f : NFmt) : Bool := f.isInt || f = .sg1

/-- One row of cells: the row's elements of A, the columns of B, the cells. -/
def rowCells (int : Bool) (as : List XR) : List (List XR) → List W32 → List FR
  | b :: bs, c :: cs => (if int then cellInt c (dotI as b) else cellFloat c (dotX as b)) :: rowCells int as bs cs
  | _, _ => []

/-- All the cells, 64 a row. -/
def allCells (int : Bool) (bs : List (List XR)) : List (List XR) → List W32 → List FR
  | [], _ => []
  | as :: rest, cs => rowCells int as bs (cs.take 64) ++ allCells int bs rest (cs.drop 64)

/-- R305: the cells after one K-step of an instruction, from the B-region's bytes and the cells before it. -/
def MxOp.step (o : MxOp) (breg : Sparse Byte) (cells : List W32) : List FR :=
  let k := o.k * dotWidth (NFmt.ofCode o.fmt)
  let as := o.rows.zipIdx.map fun (row, r) => o.decode (numAt row (8 * o.k) 8) (laneA o.blk32 r k)
  let bs := (List.range 64).map fun c =>
    o.decode (ofBytes (readBytes breg (32768 * c + o.bOff + 8 * o.k) 8)) (laneB o.blk32 k c)
  allCells (sumsInt (NFmt.ofCode o.fmt)) bs as cells

/-- R411, R128: what waits for the K-steps of a wave goes on when none is left. -/
def State.afterSteps (s : State) (core key : Nat) : State :=
  if (s.core core).mx.busy key then s
  else match s.waitOf key with
    | .matrixRel => (s.finish key Iss.done).passMx core
    | .matrixDrain => s.finish key Iss.done
    | _ =>
      if (s.core core).mx.owner = some key && (match s.wave? key with | some w => w.heldLanes.isEmpty | none => true) then
        s.passMx core
      else s

/-- R187: whether a K-step reads a bank group of the weight store that refreshes at a timestamp. -/
def MxOp.atWindow (o : MxOp) (t : Nat) : Bool :=
  o.weights && (List.range 64).any fun r => groupRefreshes t (bankGroup (o.aAt + 8 * o.steps * r + 8 * o.k))

/-- R413, R305: the oldest unfinished instruction of a core's array completes one K-step. -/
def State.kStep (s : State) (core : Nat) : State :=
  match (s.core core).mx.ops with
  | [] => s
  | o :: rest =>
    if o.atWindow s.now then s else
    let c := s.core core
    let out := o.step c.breg.mem (c.mx.tile o.acc)
    let o' := { o with k := o.k + 1 }
    let last := decide (o.steps ≤ o.k + 1)
    let s := s.onMx core fun m =>
      { m.setTile o.acc (out.map fun x => BitVec.ofNat 32 x.v) with
        kcnt := m.kcnt + 1, ops := if last then rest else o' :: rest }
    let s := s.onWave o.wave fun w => w.setFlags (out.foldl (fun f x => f ||| x.f) 0) domNarrow
    let s := s.perf core o.ctx 7 1
    if last then ((s.completeOp o.wave o.op).afterSteps core o.wave).wake .array else s

/-! ### Moves -/

/-- An instruction that acts on the array after every K-step of earlier ones (R417). -/
def issueTile (r : Row) (v : View) (s : State) (causes : Iss → List Cz) (effect : Iss → State) : Res :=
  issueMx r v s (fun i => if i.ex.isEmpty then [] else causes i) fun i =>
    if i.ex.isEmpty then i.done
    else if i.s.mxBusy i.key then i.stall (.retry .array)
    else effect i

/-- R410: acczero. -/
def runAcczero (v : View) (s : State) : Res :=
  issueTile rowAcczero v s (fun _ => []) fun i =>
    i.commit (i.s.onMx i.core fun m => { m with acc := m.acc.filter fun (k, _) => k / 4096 != v.cRaw }) (i.addToken i.w) i.at_
def execAcczero (f : LongF) (s : State) : Res := runAcczero f.view s

/-- R415: the bytes of a cell in scratchpad. -/
def accBytes (v : View) : Nat := if bits v.sub 0 4 = 11 || bits v.sub 0 4 = 12 then 2 else 4
/-- The format that a tile move converts to, if it does. -/
def accFmt (v : View) : Option Fmt :=
  match bits v.sub 0 4 with
  | 11 => some .f16
  | 12 => some .bf16
  | _ => none

/-- R415: the address of the tile in scratchpad. -/
def Iss.tileAddr (i : Iss) : Nat := i.w.operand i.v .i32 [] 0 i.v.a

/-- R415: the causes of a tile move. -/
def Iss.moveCz (i : Iss) (code : Nat) : List Cz :=
  (if i.tileAddr % 64 = 0 then [] else [Cz.plain 0x03 i.ex])
  ++ (if i.s.inAlloc i.w.gang i.tileAddr (4096 * accBytes i.v) then [] else [{ Cz.plain code i.ex with maddr := i.tileAddr }])

/-- The access of a tile move. -/
def Iss.tileAcc (i : Iss) : List LaneAcc := [{ lane := 0, a := i.tileAddr, n := 4096 * accBytes i.v }]

/-- R415: accst. -/
def runAccst (v : View) (s : State) : Res :=
  issueTile rowAccst v s (fun i => i.moveCz 0x69) fun i =>
    if i.s.owned i.w.ctx i.core true i.tileAcc then i.stall (.retry .copy)
    else
      let out : List FR := ((i.s.core i.core).mx.tile v.cRaw).map fun x =>
        match accFmt v with
        | some f => f.fin .rn (Fmt.f32.decode x.toNat, Flg.when (Fmt.f32.decode x.toNat).isS fIV)
        | none => { v := x.toNat, f := 0 }
      let s := (i.s.spWrite i.core i.tileAddr (out.flatMap fun x => toBytes (accBytes v) x.v)).objCheck i.core
      i.commit s (i.addToken (i.w.setFlags (out.foldl (fun f x => f ||| x.f) 0) domNarrow)) i.at_
def execAccst (f : LongF) (s : State) : Res := runAccst f.view s

/-- R415: accld. -/
def runAccld (v : View) (s : State) : Res :=
  issueTile rowAccld v s (fun i => i.moveCz 0x68) fun i =>
    if i.s.owned i.w.ctx i.core true i.tileAcc then i.stall (.retry .copy)
    else
      let fs := i.s.coreFlaws i.core 4 false i.tileAcc
      let i : Iss := { i with s := i.s.checkCore i.core fs }
      if fs.any Flaw.fatal then i.fail { Cz.plain 0x60 i.ex with maddr := i.tileAddr }
      else
      let n := accBytes v
      let bs := i.s.spRead i.core i.tileAddr (4096 * n)
      let cell (j : Nat) : W32 :=
        let x := numAt bs (n * j) n
        BitVec.ofNat 32 (match accFmt v with | some f => widenBits f .f32 x | none => x)
      i.commit (i.s.onMx i.core fun m => m.setTile v.cRaw ((List.range 4096).map cell)) (i.addToken i.w) i.at_
def execAccld (f : LongF) (s : State) : Res := runAccld f.view s

/-- R416: accrd: a row of cells and the step count, as they stand between two K-steps. -/
def runAccrd (v : View) (s : State) : Res :=
  issueMx rowAccrd v s
    (fun i => if !i.ex.isEmpty && decide (63 < i.w.operand v .i32 [] 0 v.a) then [Cz.plain 0x03 i.ex] else []) fun i =>
    if i.ex.isEmpty then i.done
    else
      let m := (i.s.core i.core).mx
      let row := i.w.operand v .i32 [] 0 v.a
      let cell (c : Nat) : W32 := Sparse.get 0 m.acc (4096 * v.cRaw + 64 * row + c)
      let outs := i.ex.map fun l => (l, { res := [cell (2 * l + 1), cell (2 * l)], preds := [], fl := 0 : AluOut })
      let w := i.results (.op i.w.nextOp) v.d outs
      let w := match v.b with | .k r => w.setK (.op i.w.nextOp) r m.kcnt.toNat | _ => w
      i.commit i.s (i.addOp w .result) i.at_
def execAccrd (f : LongF) (s : State) : Res := runAccrd f.view s

end Sys2Proof.Machine
end

