-- ==== Sys2Proof/Machine/CopyEngine.lean ====
section
/-!
DEFINITION. Row 0xC_ (spec/16 R406 to R408): the appends to copy queues (spec/08 R191, R192; spec/04 R86), and the copy
engine: how it starts an entry, moves it block by block and completes it (R193 to R195, R224), with the sending side of
puts and messages (spec/03 R63 to R75).
-/
namespace Sys2Proof.Machine

/-! ### Records and waves -/

/-- R86: the words of a core's copy-queue record of a context: QBASE, HEAD, TAIL, PROG, STATE. -/
def State.queueAt (s : State) (ctx core : Nat) : Nat := (s.ctx ctx).engblk + 0x400 + 64 * core
def State.queueWord (s : State) (ctx core j : Nat) : Nat := ofBytes (s.peekPhys (s.queueAt ctx core + 8 * j) 8)
def State.setQueueWord (s : State) (ctx core j v : Nat) : State := s.store (s.queueAt ctx core + 8 * j) 8 v

def State.qBase (s : State) (ctx core : Nat) : Nat := s.queueWord ctx core 0
def State.qHead (s : State) (ctx core : Nat) : Nat := s.queueWord ctx core 1
def State.qTail (s : State) (ctx core : Nat) : Nat := s.queueWord ctx core 2
def State.qProg (s : State) (ctx core : Nat) : Nat := s.queueWord ctx core 3

/-- R86: STATE: bit 0 where an entry is held, bit 1 where one is stopped on a fault. -/
def State.queueState (s : State) (ctx core : Nat) : State :=
  let es := (s.core core).copies.filter fun e => e.ctx = ctx
  let held := es.any fun e => e.stat = .held
  let stop := es.any fun e => match e.stat with | .stopped _ => true | _ => false
  let v := b2n held + 2 * b2n stop
  if s.queueWord ctx core 4 = v then s else s.setQueueWord ctx core 4 v

/-- The key of a wave of a gang that has not exited and is resident. -/
def State.keyOf (s : State) (who : Option (Nat × Nat)) : Option Nat :=
  match who with
  | none => none
  | some (g, idx) => (s.gang? g).bind fun G => if G.exited.contains idx then none else (G.waves[idx]?)

/-- The key of a resident wave of a gang, which may have exited: its token still counts (R157). -/
def State.slotOf (s : State) (who : Option (Nat × Nat)) : Option Nat :=
  who.bind fun x => (s.waves.find? fun y => y.2.gang = x.1 && y.2.idx = x.2).map (·.1)

/-- The saved gang of a number: its context and where it was saved. -/
def State.savedGang (s : State) (g : Nat) : Option (Nat × Saved) :=
  (s.sched.launches.flatMap fun l => (l.saved.filter fun v => v.gang = g).map fun v => (l.ctx, v)).head?

/-- R251: the physical address of a gang slot. -/
def State.slotAt (s : State) (ctx slot : Nat) : Nat := (s.ctx ctx).save + 0x40000000 + 0x800000 * slot

/-- Whether a cause for the wave that appended an entry can be delivered: to the wave, its record, or a host queue with room
(R195). -/
def State.canTell (s : State) (ctx : Nat) (who : Option (Nat × Nat)) : Bool :=
  (s.keyOf who).isSome || (who.bind fun w => s.savedGang w.1).isSome || !s.fqFull ctx

/-- R195, R245: a cause for the wave that appended an entry; for one that has exited, the host fault queue. -/
def State.tell (s : State) (core ctx : Nat) (who : Option (Nat × Nat)) (cause seq : Nat) : State :=
  match s.keyOf who with
  | some k => s.asyncCause k cause seq
  | none =>
    match who.bind fun w => (s.savedGang w.1).map fun v => (w.2, v) with
    | some (idx, c, v) => s.asyncRecord (s.slotAt c v.slot + 0x40000 + 24576 * idx) cause seq
    | none => s.postFault ctx (faultEntry s.now (coreSrc core) cause 4 seq [])

/-! ### Entries (R192) -/

def CopyEntry.len (e : CopyEntry) : Nat := if e.kind = 2 then bits (e.word 3) 32 32 * bits (e.word 3) 0 32 else e.word 3
def CopyEntry.cw (e : CopyEntry) : Bool := bit (e.word 0) 8
def CopyEntry.ba (e : CopyEntry) : Bool := bit (e.word 0) 9
def CopyEntry.dg (e : CopyEntry) : Bool := bit (e.word 0) 10
def CopyEntry.cval (e : CopyEntry) : Nat := bits (e.word 0) 32 32
def CopyEntry.cwOff (e : CopyEntry) : Nat := bits (e.word 6) 0 21
def CopyEntry.bOff (e : CopyEntry) : Nat := bits (e.word 6) 32 21
def CopyEntry.acnt (e : CopyEntry) : Nat := bits (e.word 7) 32 16
/-- A put: origin window and offset; destination node, window and offset. -/
def CopyEntry.oWin (e : CopyEntry) : Nat := bits (e.word 1) 40 8
def CopyEntry.oOff (e : CopyEntry) : Nat := bits (e.word 1) 0 40
def CopyEntry.node (e : CopyEntry) : Nat := if e.kind = 4 then bits (e.word 2) 48 12 else bits (e.word 2) 0 12
def CopyEntry.tWin (e : CopyEntry) : Nat := bits (e.word 2) 40 8
def CopyEntry.tOff (e : CopyEntry) : Nat := bits (e.word 2) 0 40
def CopyEntry.remote (e : CopyEntry) : Bool := bit (e.word 2) 12

/-- R192, R195: whether a field is invalid. -/
def CopyEntry.invalid (e : CopyEntry) : Bool :=
  let w := e.word
  bits (w 0) 19 13 != 0 || decide (4 < bits (w 0) 16 3) || bits (w 0) 14 2 != 0 || bits (w 0) 4 4 != 0
  || bits (w 6) 53 11 != 0 || bits (w 6) 21 11 != 0 || bits (w 7) 48 16 != 0
  || (e.ba && (e.acnt = 0 || e.bOff % 16 != 0)) || (e.cw && e.cwOff % 4 != 0)
  || (match e.kind with
    | 1 => w 3 = 0 || decide (2 ^ 40 < w 3) || w 4 != 0 || w 5 != 0
    | 2 =>
      let rows := bits (w 3) 32 32
      let n := bits (w 3) 0 32
      rows = 0 || decide (2 ^ 20 < rows) || n = 0 || decide (2 ^ 24 < n) || decide (w 5 < n)
    | 3 => e.spc != 0 || w 3 = 0 || w 3 % 64 != 0 || decide (2 ^ 21 < w 2 + w 3) || w 4 != 0 || w 5 != 0
    | 4 => e.spc != 0 || bits (w 1) 48 16 != 0 || bits (w 2) 60 4 != 0 || decide (2 ^ 24 < w 3) || w 4 != 0 || w 5 != 0
    | 5 => decide (1 < e.spc) || w 1 % 64 != 0 || bits (w 2) 13 51 != 0 || w 3 != 64 || w 4 != 0 || w 5 != 0
    | _ => true)

/-- Whether the source and the destination of an entry lie in scratchpad. -/
def CopyEntry.srcScratch (e : CopyEntry) : Bool := (e.kind = 1 || e.kind = 2) && 2 ≤ e.spc || e.kind = 5 && e.spc = 1

/-- The scratchpad ranges that an entry reads or writes: address and bytes. -/
def CopyEntry.ranges (e : CopyEntry) : List (Nat × Nat) :=
  let rows (a p : Nat) : List (Nat × Nat) :=
    if e.kind = 2 then
      let n := bits (e.word 3) 32 32
      -- the rows lie between the first and the last; the scratchpad cannot hold addresses beyond its size
      let last := (a + (n - 1) * p) % 2 ^ 64
      let far := decide (2 ^ 21 < (n - 1) * p)
      [(a, bits (e.word 3) 0 32), (if far then 2 ^ 64 else last, bits (e.word 3) 0 32)]
    else [(a, e.word 3)]
  (if e.srcScratch then rows (e.word 1) (e.word 4) else []) ++ (if e.toScratch then rows (e.word 2) (e.word 5) else [])
  ++ (if e.cw then [(e.cwOff, 4)] else []) ++ (if e.ba then [(e.bOff, 16)] else [])

/-- R181: whether a range lies in the allocation, on this core, of the gang that appended the entry. -/
def State.entryAlloc (s : State) (core : Nat) (who : Option (Nat × Nat)) (a n : Nat) : Bool :=
  match who with
  | some (g, _) => s.gangCore g = core && s.inAlloc g a n
  | none => false

/-! ### The append (R191, R406, R407) -/

/-- A uniform operand of 64 bits. -/
def Iss.uni64 (i : Iss) (src : Src) : Nat := i.w.operand i.v .i64 [] 0 src

/-- R406: whether the instruction has a completion block, and its first register. -/
def hasBlock (v : View) : Bool := v.cw || v.ba || v.dg
def blockReg (v : View) : Nat := v.imm9.toNat % 32

/-- R406: word 0 of an entry of a kind. -/
def Iss.copyWord0 (i : Iss) (kind spc : Nat) : Nat :=
  let v := i.v
  kind + 2 ^ 8 * b2n v.cw + 2 ^ 9 * b2n v.ba + 2 ^ 10 * b2n v.dg + 2 ^ 11 * b2n v.ord + 2 ^ 12 * spc + 2 ^ 16 * v.scope
    + 2 ^ 32 * (if hasBlock v then lo32 (i.w.kVal (blockReg v + 2)) else 0)

/-- R406, R407: an entry with its completion block. -/
def Iss.copyWords (i : Iss) (kind spc : Nat) (body : List Nat) : List W64 :=
  let blk (j : Nat) : Nat := if hasBlock i.v then i.w.kVal (blockReg i.v + j) else 0
  ([i.copyWord0 kind spc] ++ body ++ [blk 0, blk 1]).map (BitVec.ofNat 64)

/-- The k registers that an append reads besides its operands. -/
def Iss.blockRegs (i : Iss) : List Nat := if hasBlock i.v then [0, 1, 2].map (· + blockReg i.v) else []

/-- The address in the ring of the entry of sequence number n + 1. -/
def State.ringAt (s : State) (ctx core n : Nat) : Nat := (s.qBase ctx core + 64 * (n % 256)) % 2 ^ 64

/-- R224: what waits for bytes that copy entries own looks at them again: waves and rotations. -/
def State.bytesFree (s : State) : State := (s.wake .copy).rotAll

/-- R185: whether another gang holds the B-region or is about to be given it. -/
def BRegion.others (b : BRegion) (g : Nat) : Bool :=
  match b.holder, b.next with
  | some h, _ => h != g
  | none, some h => h != g
  | none, none => false
def Iss.bHeld (i : Iss) : Bool := (i.s.core i.core).breg.others i.w.gang

/-- R185: the gang whose wave waits first for the zeroing is given the B-region. -/
def State.awaitB (s : State) (key : Nat) : State :=
  match s.wave? key with
  | some w =>
    if w.wait = .retry .zeroing then
      s.onCore (keyCore key) fun c => { c with breg := { c.breg with next := c.breg.next <|> some w.gang } }
    else s
  | none => s
def awaitingB (key : Nat) : Res → Res
  | .next s => .next (s.awaitB key)
  | r => r

/-- R185: a gang takes the B-region where it is free. -/
def State.claimB (s : State) (core g : Nat) : State :=
  s.onCore core fun c =>
    if c.breg.holder.isNone then { c with breg := { c.breg with
      holder := some g
      ctx := (match s.gang? g with | some G => G.ctx | none => 0)
      gangIdx := (match s.gang? g with | some G => G.index | none => 0) } } else c

/-- Words of the window table, and the fields of R69. -/
def State.winWord (s : State) (w j : Nat) : Nat := (Sparse.get 0 s.fab.windows (8 * w + j)).toNat
def State.winBase (s : State) (w : Nat) : Nat := bits (s.winWord w 1) 12 45 * 4096
def State.winBytes (s : State) (w : Nat) : Nat := bits (s.winWord w 2) 0 28 * 4096

/-- R71: the checks of the origin window. -/
def State.originOk (s : State) (e : CopyEntry) : Bool :=
  let w0 := s.winWord e.oWin 0
  bit w0 63 && bit w0 61 && bits w0 48 6 = e.ctx && decide (e.oOff + e.word 3 ≤ s.winBytes e.oWin)

/-- An entry that has not started. -/
def freshEntry (ctx seq : Nat) (words : List W64) (who : Option (Nat × Nat)) : CopyEntry :=
  { ctx := ctx, seq := seq, words := words, who := who, done := 0, crc := BitVec.allOnes 32, stat := .run }

/-- R191, R174: the entry stands in the ring: TAIL rises, the token counts it, and the wave goes on; the origin window
of a put is looked at now (R71). -/
def Iss.appended (i : Iss) (s : State) (kind : Nat) (words : List W64) : State :=
  let ctx := i.w.ctx
  let seq := (s.qTail ctx i.core + 1) % 2 ^ 64
  let s := s.setQueueWord ctx i.core 2 seq
  let s := s.onCore i.core fun c =>
    { c with copyOwners := c.copyOwners ++
      [{ ctx := ctx, seq := seq, gang := i.w.gang, idx := i.w.idx, kind := kind
         origin := kind != 4 || i.s.originOk (freshEntry ctx seq words none) }] }
  let s := if kind = 3 then s.claimB i.core i.w.gang else s
  i.commit s (if i.v.ts = 0 then i.w else i.addOp i.w (.copy i.core seq)) i.at_

/-- R406: an instruction that appends the entry `words`. -/
def issueAppend (r : Row) (v : View) (s : State) (regs : Iss → List Nat) (pre : Iss → List Cz) (words : Iss → List W64) : Res :=
  let kind (i : Iss) : Nat := bits (at? 0 (words i) 0).toNat 0 4
  let queue (i : Iss) : Bool := i.s.qBase i.w.ctx i.core != 0
  awaitingB s.cur <| issueGlobalW r v s (Access.write.at 0) (fun i => bits (at? 0 (words i) 0).toNat 16 3 = 4)
    (fun i => match i.ex with
      | l :: _ => if queue i then [{ lane := l, a := i.s.ringAt i.w.ctx i.core (i.s.qTail i.w.ctx i.core), n := 64 }] else []
      | [] => [])
    (fun _ => [])
    (fun i =>
      if i.ex.isEmpty || !queue i || (kind i = 3 && i.bHeld) then none
      else if (i.s.qTail i.w.ctx i.core + 2 ^ 64 - i.s.qHead i.w.ctx i.core) % 2 ^ 64 = 256 then some (.retry .queue)
      else if kind i = 3 && (i.s.core i.core).breg.zeroing then some (.retry .zeroing)
      else i.ownedHold fun i => [{ lane := 0, a := i.s.ringAt i.w.ctx i.core (i.s.qTail i.w.ctx i.core), n := 64 }])
    (fun i =>
      i.staleCz ((regs i).any fun k => !i.w.ready (i.w.kCell k).due)
      ++ (if i.ex.isEmpty then []
          else pre i ++ (if queue i then [] else [Cz.plain 0xA8 i.ex])
            ++ (if kind i = 3 && i.bHeld then [Cz.plain 0x89 i.ex] else [])))
    fun i ls =>
      -- R406: at the scope of the entry
      if i.ex.isEmpty then .ok (i.ordered true (bits (at? 0 (words i) 0).toNat 16 3 = 4))
      else
        let held := (i.s.core i.core).l1
        let bytes := (words i).flatMap fun (w : W64) => toBytes 8 w.toNat
        let s := i.s.writeFree (ls.flatMap fun x => partsOf x.pieces bytes)
        .ok (i.appended (s.l1Stores i.core i.w.ctx 0 held (allPieces ls)) (kind i) (words i))

def runCpy (v : View) (s : State) : Res :=
  issueAppend rowCpy v s Iss.blockRegs (fun _ => []) fun i =>
    i.copyWords 1 v.sub [i.uni64 v.a, i.uni64 v.b, i.uni64 v.c, 0, 0]
def execCpy (f : LongF) (s : State) : Res := runCpy f.view s

/-- R407: the k register that C of cpy2d names. -/
def cpyK (v : View) : Nat := match v.c with | .k r => r | _ => 0

def runCpy2d (v : View) (s : State) : Res :=
  issueAppend rowCpy2d v s (fun i => i.blockRegs ++ [0, 1, 2].map (· + cpyK v)) (fun _ => []) fun i =>
    i.copyWords 2 v.sub ([i.uni64 v.a, i.uni64 v.b] ++ [0, 1, 2].map fun j => i.w.kVal (cpyK v + j))
def execCpy2d (f : LongF) (s : State) : Res := runCpy2d f.view s

def runCpyb (v : View) (s : State) : Res :=
  issueAppend rowCpyb v s Iss.blockRegs (fun _ => []) fun i =>
    i.copyWords 3 0 [i.uni64 v.a, i.uni64 v.b, i.uni64 v.c, 0, 0]
def execCpyb (f : LongF) (s : State) : Res := runCpyb f.view s

def runPut (v : View) (s : State) : Res :=
  issueAppend rowPut v s Iss.blockRegs (fun _ => []) fun i =>
    i.copyWords 4 0 [i.uni64 v.a, i.uni64 v.b, i.uni64 v.c, 0, 0]
def execPut (f : LongF) (s : State) : Res := runPut f.view s

/-- R407: word 2 of a message. -/
def Iss.msgNode (i : Iss) : Nat := if i.v.sub = 1 then 2 ^ 12 + bits (i.w.operand i.v .i32 [] 0 i.v.b) 0 12 else 0

def runMsg (v : View) (s : State) : Res :=
  issueAppend rowMsg v s Iss.blockRegs (fun _ => []) fun i => i.copyWords 5 0 [i.uni64 v.a, i.msgNode, 64, 0, 0]
def execMsg (f : LongF) (s : State) : Res := runMsg f.view s

/-- R408: the scratchpad address of qput, and the entry there. -/
def Iss.qputA (i : Iss) : Nat := i.w.operand i.v .i32 [] 0 i.v.a
def Iss.qputWords (i : Iss) : List W64 :=
  let b := i.s.spRead i.core i.qputA 64
  (List.range 8).map fun j => BitVec.ofNat 64 (numAt b (8 * j) 8)

def runQput (v : View) (s : State) : Res :=
  match s.iss rowQput v with
  | none => .fault .noWave
  | some i =>
    let own : List LaneAcc := [{ lane := 0, a := i.qputA, n := 64 }]
    let reads := i.tokensOk && i.baseCz.isEmpty && !i.ex.isEmpty
    let fs := if reads && i.s.inAlloc i.w.gang i.qputA 64 && i.qputA % 16 = 0 then i.s.coreFlaws i.core 4 false own else []
    if reads && i.s.owned i.w.ctx i.core true own then .next (i.stall (.retry .copy))
    else if fs.any Flaw.fatal then .next ({ i with s := i.s.checkCore i.core fs }.fail { Cz.plain 0x60 i.ex with maddr := i.qputA })
    else
      issueAppend rowQput v (s.checkCore i.core fs) (fun _ => [])
        (fun i => (if i.s.inAlloc i.w.gang i.qputA 64 then [] else [{ Cz.plain 0x68 i.ex with maddr := i.qputA }])
          ++ (if i.qputA % 16 = 0 then [] else [{ Cz.plain 0x8B i.ex with maddr := i.qputA }])) Iss.qputWords
def execQput (f : LongF) (s : State) : Res := runQput f.view s

/-- R408: qseq. -/
def runQseq (v : View) (s : State) : Res :=
  issue rowQseq v s (fun _ => []) fun i =>
    let x := i.s.queueWord i.w.ctx i.core (if v.sub = 1 then 3 else 2)
    let i := { i with s := if i.ex.isEmpty then i.s else i.s.readsAt (i.s.queueAt i.w.ctx i.core) 40 }
    match v.d with
    | .k r => if i.ex.isEmpty then i.commit i.s (i.addOp i.w .result) i.at_
      else i.commit i.s (i.addOp (i.w.setK (.op i.w.nextOp) r x) .result) i.at_
    | _ => i.loaded i.s (i.ex.map fun l => (l, AluOut.dword x))
def execQseq (f : LongF) (s : State) : Res := runQseq f.view s

/-- R408: cpwait. -/
def runCpwait (v : View) (s : State) : Res :=
  issue rowCpwait v s (fun _ => []) fun i =>
    if i.ex.isEmpty || decide (i.uni64 v.a ≤ i.s.qProg i.w.ctx i.core) then i.commit i.s (i.addToken i.w) i.at_
    else i.stall (.retry .prog)
def execCpwait (f : LongF) (s : State) : Res := runCpwait f.view s

/-! ### The engine: entries in flight -/

/-- A change to one entry in flight. -/
def State.onEntry (s : State) (core ctx seq : Nat) (f : CopyEntry → CopyEntry) : State :=
  s.onCore core fun c => { c with copies := c.copies.map fun e => if e.ctx = ctx && e.seq = seq then f e else e }

/-- An entry takes a new status: STATE of its record follows. -/
def State.setStat (s : State) (core : Nat) (e : CopyEntry) (x : CopyStat) : State :=
  (s.onEntry core e.ctx e.seq fun e => { e with stat := x }).queueState e.ctx core

/-- R193 step 4: PROG passes the complete entries that follow it; `fuel` is their number. -/
def State.advance (s : State) (core ctx : Nat) : Nat → State
  | 0 => s
  | n + 1 =>
    let next := (s.qProg ctx core + 1) % 2 ^ 64
    if (s.core core).copies.any fun e => e.ctx = ctx && e.seq = next && e.stat = .complete then
      let s := s.setQueueWord ctx core 3 next
      State.advance
        (s.onCore core fun c => { c with copies := c.copies.filter fun e => !(e.ctx = ctx && e.seq = next) }) core ctx n
    else s

/-- R254: carried tokens that await an entry of this core's queue clear when PROG reaches it. -/
def State.clearCarried (s : State) (core ctx : Nat) : State :=
  let p := s.qProg ctx core
  let past (w : Wave) : Wave :=
    if w.ctx = ctx then { w with carried := w.carried.filter fun c => !(c.core = core && decide (c.seq ≤ p)) } else w
  State.wake { s with waves := s.waves.map fun x => (x.1, past x.2) } .token

/-- R406: the token that an append set clears. -/
def State.clearCopy (s : State) (core seq : Nat) (who : Option (Nat × Nat)) : State :=
  match s.slotOf who with
  | none => s
  | some k =>
    match (s.wave? k).bind fun w => w.ops.find? fun o => o.kind = .copy core seq with
    | some o => s.completeOp k o.id
    | none => s

/-- R193, R195: whether the object of an entry takes its arrival, and the cause if it does not. -/
def State.entryArrive (s : State) (core : Nat) (e : CopyEntry) (digest : Bool) : State × Nat :=
  let o := s.readObj core e.bOff
  if digest then (s.writeObj core e.bOff { o with cpe := true }, 0)
  else if o.bad then (s, 0x8B)
  else
    match o.arrive e.acnt s.now with
    | (o, true) => (s.writeObj core e.bOff o, 0)
    | (o, false) => (s.writeObj core e.bOff o, 0x83)

/-- R193 to R195: an entry completes with a cause, 0 for none: the completion word, the arrival, PROG, the token, and the cause
for the wave. -/
def State.endEntry (s : State) (core : Nat) (e : CopyEntry) (code : Nat) : State :=
  let code := if code = 0 && e.dg && e.crc.toNat != bits (e.word 7) 0 32 then 0x84 else code
  let s := if e.cw && e.cwOff % 4 = 0 && s.entryAlloc core e.who e.cwOff 4 then
      s.spWrite core e.cwOff (toBytes 4 (if code = 0 then e.cval else 2 ^ 32 - 1 - e.cval)) else s
  let (s, code) := if e.ba && (code = 0 || code = 0x84) && e.bOff % 16 = 0 && s.entryAlloc core e.who e.bOff 16 then
      (let r := s.entryArrive core e (code = 0x84)
       (r.1, if code = 0 then r.2 else code)) else (s, code)
  let s := s.objCheck core
  let s := s.onEntry core e.ctx e.seq fun e => { e with stat := .complete }
  let s := (s.advance core e.ctx (s.core core).copies.length).clearCarried core e.ctx
  let s := s.clearCopy core e.seq e.who
  let s := if code = 0 then s else s.tell core e.ctx e.who code e.seq
  (s.wake .prog).bytesFree

/-! ### The engine: starting an entry (R191, R224) -/

/-- R185: what the start of a B-region entry finds: it may go on, must wait, or is refused. DESIGN CHOICE (log 77): refused as well
where the gang that appended it is not on the core any more, and so can hold no region there. -/
def State.bFree (s : State) (core : Nat) (who : Option (Nat × Nat)) : Option Bool :=
  let b := (s.core core).breg
  match who with
  | none => some false
  | some (g, _) =>
    if b.others g || s.gangCore g != core || (s.gang? g).isNone then some false
    else if b.zeroing then none
    else some true

/-- R195: the cause that ends an entry before any byte moves, 0 for none. -/
def State.startCz (s : State) (core : Nat) (e : CopyEntry) : Nat :=
  let l := (if e.invalid then [0xA8] else [])
    ++ (if e.invalid || e.ranges.all fun (a, n) => s.entryAlloc core e.who a n then [] else [0x6B])
    ++ (if !e.invalid && e.kind = 3 && s.bFree core e.who = some false then [0x89] else [])
  (lowest l).getD 0

/-- The entry at HEAD of a queue, as its bytes in the ring and the core's notes give it. -/
def State.headEntry (s : State) (core ctx : Nat) (words : List W64) : CopyEntry :=
  let seq := (s.qHead ctx core + 1) % 2 ^ 64
  match (s.core core).copyOwners.find? fun o => o.ctx = ctx && o.seq = seq with
  | some o => { freshEntry ctx seq words (some (o.gang, o.idx)) with origin := o.origin }
  | none =>
    let e := freshEntry ctx seq words none
    { e with origin := e.kind != 4 || s.originOk e }

/-- R191: the engine reads the entry at HEAD through the context's tables. -/
def State.readEntry (s : State) (core ctx : Nat) : Except (Nat × Nat) (List Piece) × State :=
  let a := s.ringAt ctx core (s.qHead ctx core)
  State.translatePieces (some core) ctx Access.engRead (rangePieces 2 a 64) s

/-- The words of the pieces of an entry. -/
def State.wordsOf (s : State) (ps : List Piece) : List W64 × State :=
  let (b, s) := s.readPieces ps
  ((List.range 8).map fun j => BitVec.ofNat 64 (numAt b (8 * j) 8), s)

/-- R191: the entries that the engine has in flight. -/
def State.inFlight (s : State) (core : Nat) : Nat := ((s.core core).copies.filter fun e => e.stat != .complete).length

/-- R192, R185: whether the entry at HEAD must wait: ORD for earlier entries, a kind-3 entry for the zeroing. -/
def State.headWaits (s : State) (core ctx : Nat) : Bool :=
  match s.readEntry core ctx with
  | (.ok ps, s1) =>
    let e := s1.headEntry core ctx (s1.wordsOf ps).1
    (bit (e.word 0) 11 && s.qProg ctx core != s.qHead ctx core)
      || (!e.invalid && e.kind = 3 && (s.bFree core e.who).isNone)
  | _ => false

/-- R191, R195: whether the engine may take the next entry of a context's queue. -/
def State.canStart (s : State) (core ctx : Nat) : Bool :=
  (s.ctx ctx).state = .run && s.qHead ctx core != s.qTail ctx core && !bit (s.queueWord ctx core 4) 1 && !s.headWaits core ctx

/-- R191: the queues are taken round-robin in ascending context number: the next that has an entry to start. -/
def State.nextQueue (s : State) (core : Nat) : Option Nat :=
  ((List.range 64).map fun j => ((s.core core).copyLast + 1 + j) % 64).find? (s.canStart core)

/-- The engine takes the entry at HEAD. -/
def State.take (s : State) (core : Nat) (e : CopyEntry) : State :=
  let s := s.setQueueWord e.ctx core 1 e.seq
  let s := s.onCore core fun c =>
    { c with copies := c.copies ++ [e], copyLast := e.ctx
             copyOwners := c.copyOwners.filter fun o => !(o.ctx = e.ctx && o.seq = e.seq) }
  (s.queueState e.ctx core).wake .queue

/-- R195: a translation fault of the engine: an entry of the host queue, at whose index the entry stops. -/
def State.engineFault (s : State) (core : Nat) (e : CopyEntry) (cause va : Nat) (w : Bool) : State × Nat :=
  let p := s.fqPidx e.ctx
  (s.postFault e.ctx (faultEntry s.now (coreSrc core) cause 1 e.seq [(alignDown va 4096, w)]), p)

/-- R191, R195, R224: COPY_ENTRY_START. -/
def State.startEntry (s : State) (core ctx : Nat) : State :=
  if decide (64 ≤ s.inFlight core) || s.nextQueue core != some ctx then s
  else
    match s.readEntry core ctx with
    | (.error (k, va), s1) =>
      let c := memCause k Access.engRead
      let e := s1.headEntry core ctx []
      if toHostQueue c then
        if s1.fqFull ctx then s
        else
          let (s2, p) := s1.engineFault core e c va false
          (s2.onCore core fun x => { x with copies := x.copies ++ [{ e with stat := .stopped p }], copyLast := ctx }).queueState ctx core
      else (s1.take core { e with stat := .ended c }).sentWhole core ctx e.seq []
    | (.ok ps, s1) =>
      let fs := s1.flawsOf (some core) false ps
      let s2 := s1.checkMem fs
      if fs.any Flaw.fatal then
        let e := s2.headEntry core ctx []
        (s2.take core { e with stat := .ended (memCause 8 Access.engRead) }).sentWhole core ctx e.seq []
      else
        let (ws, s2) := s2.wordsOf ps
        let e := s2.headEntry core ctx ws
        match s2.startCz core e with
        | 0 =>
          let s3 := if e.kind = 3 then (match e.who with | some (g, _) => s2.claimB core g | none => s2) else s2
          s3.take core e
        | c =>
          (s2.take core { e with stat := .ended c }).sentWhole core ctx e.seq []

/-! ### The engine: moving a block -/

/-- CRC-32C of a byte (R194): the reflected polynomial 0x1EDC6F41, eight steps. -/
def crcStep (c : W32) : W32 := if c.getLsbD 0 then (c >>> 1) ^^^ 0x82F63B78#32 else c >>> 1
def crcByte (c : W32) (b : Byte) : W32 :=
  let x := c ^^^ (b.setWidth 32)
  crcStep (crcStep (crcStep (crcStep (crcStep (crcStep (crcStep (crcStep x)))))))
/-- R194: the CRC so far, kept complemented as an entry holds it, over more bytes. -/
def crcBytes (c : W32) (bs : List Byte) : W32 := bs.foldl crcByte c

/-- Where the payload byte `done` of an entry lies: source, destination, and how many follow in its row. -/
def CopyEntry.cursor (e : CopyEntry) (done : Nat) : Nat × Nat × Nat :=
  if e.kind = 2 then
    let n := bits (e.word 3) 0 32
    let r := done / n
    let o := done % n
    ((e.word 1 + r * e.word 4 + o) % 2 ^ 64, (e.word 2 + r * e.word 5 + o) % 2 ^ 64, n - o)
  else ((e.word 1 + done) % 2 ^ 64, (e.word 2 + done) % 2 ^ 64, e.word 3 - done)

/-- The rows and parts of rows, from a payload byte on, that lie in one block of the destination: source, destination, bytes; `fuel` bounds
their number. -/
def CopyEntry.segments (e : CopyEntry) (block : Nat) : Nat → Nat → List (Nat × Nat × Nat)
  | 0, _ => []
  | fuel + 1, done =>
    let (a, d, n) := e.cursor done
    if e.len ≤ done || d / 256 != block then []
    else
      let n := min n (256 - d % 256)
      (a, d, n) :: e.segments block fuel (done + n)

/-- R42: what one step moves: all that comes next and lies in one block of the destination. -/
def CopyEntry.next (e : CopyEntry) : List (Nat × Nat × Nat) := e.segments ((e.cursor e.done).2.1 / 256) 256 e.done

/-- What the engine meets at a block: done, refused for space, a cause with the address met. -/
inductive BlockRes where
  | ok (s : State)
  | full (s : State) (va : Nat)
  | bad (s : State) (cause va : Nat) (w : Bool)

/-- Read bytes of a source of an entry. -/
def State.engRead (s : State) (core : Nat) (e : CopyEntry) (a n : Nat) : Except (Nat × Nat) (List Byte) × State :=
  if e.srcScratch then
    let fs := s.coreFlaws core 4 false [{ lane := 0, a := a, n := n }]
    let s := s.checkCore core fs
    if fs.any Flaw.fatal then (.error (memCause 8 Access.engRead, a), s) else (.ok (s.spRead core a n), s)
  else
    match State.translatePieces (some core) e.ctx Access.engRead (rangePieces 2 a n) s with
    | (.error (k, va), s) => (.error (memCause k Access.engRead, va), s)
    | (.ok ps, s) =>
      let fs := s.flawsOf (some core) false ps
      let s := s.checkMem fs
      if fs.any Flaw.fatal then (.error (memCause 8 Access.engRead, a), s)
      else
        let (b, s) := s.readPieces ps
        (.ok b, s)

/-- The bytes of every segment, each with its destination. -/
def State.engReads (core : Nat) (e : CopyEntry) :
    List (Nat × Nat × Nat) → State → Except (Nat × Nat) (List (Nat × List Byte)) × State
  | [], s => (.ok [], s)
  | (a, d, n) :: rest, s =>
    match s.engRead core e a n with
    | (.error x, s) => (.error x, s)
    | (.ok b, s) =>
      match State.engReads core e rest s with
      | (.error x, s) => (.error x, s)
      | (.ok l, s) => (.ok ((d, b) :: l), s)

/-- R42, R197, R211: the engine writes what lies in one block of global memory. -/
def State.engWrite (s : State) (core : Nat) (e : CopyEntry) (l : List (Nat × List Byte)) : BlockRes :=
  let d := match l with | (d, _) :: _ => d | [] => 0
  match State.translatePieces (some core) e.ctx Access.engWrite (l.map fun (d, b) => (d, b.length)) s with
  | (.error (k, va), s) => .bad s (memCause k Access.engWrite) va true
  | (.ok ps, s) =>
    let x : LaneX := { acc := { lane := 0, a := d, n := 0 }, res := .ok ps }
    let fs := s.flawsMet (some core) false Access.engWrite [x]
    if (Access.engWrite.rule ps).any (· = 3) then .bad s (memCause 3 Access.engWrite) d true
    else if fs.any Flaw.fatal then .bad (s.checkMem fs) (memCause 8 Access.engWrite) d true
    else
      let s := s.checkMem fs
      match s.writeParts (s.checks core) false ((ps.zip l).map fun (p, _, b) => { pa := p.x.pa, data := b, comp := some p.x.comp }) with
      | some s => .ok s
      | none => .full (s.closePieces ps) d

/-- One block of a copy (kinds 1 to 3). -/
def State.copyBlock (s : State) (core : Nat) (e : CopyEntry) : BlockRes :=
  let l := e.next
  let d := (e.cursor e.done).2.1
  -- a gang that has left the core takes its scratchpad and its B-region with it (R181, R185)
  if l.any fun (a, d, n) => (e.srcScratch && !s.entryAlloc core e.who a n) || (e.toScratch && !s.entryAlloc core e.who d n) then
    .bad s 0x6B d true
  else if e.kind = 3 && s.bFree core e.who != some true then .bad s 0x89 d true
  else
  match State.engReads core e l s with
  | (.error (c, va), s) => .bad s c va false
  | (.ok parts, s) =>
    let data := parts.flatMap (·.2)
    let note (s : State) : State := s.onEntry core e.ctx e.seq fun e =>
      { e with done := e.done + data.length, crc := if e.dg then crcBytes e.crc data else e.crc }
    if e.kind = 3 then
      .ok (note (s.onCore core fun c => { c with
        breg := { c.breg with mem := writeBytes c.breg.mem d data }
        flaws := c.flaws.filter fun f => !(f.place = 5 && decide (d ≤ f.addr) && decide (f.addr + 8 ≤ d + data.length)) }))
    else if e.toScratch then .ok ((note (parts.foldl (fun s (d, b) => s.spWrite core d b) s)).objCheck core)
    else
      match s.engWrite core e parts with
      | .ok s => .ok (note s)
      | x => x

/-- R43: a copy entry is held for space. -/
def State.holdEntry (s : State) (core : Nat) (e : CopyEntry) (va : Nat) : State :=
  let h : Held := { wave := none, core := core, ctx := e.ctx, seq := e.seq, cause := memCause 6 Access.engWrite, addr := va
                    time := s.dev.tsNow, posted := false }
  State.setStat { s with bln := { s.bln with held := s.bln.held ++ [h] }, mem := s.mem.stat 2 1 } core e .held

/-- The wait for the answer to an entry. -/
def State.fabWaitOf (s : State) (core : Nat) (e : CopyEntry) : Option FabWait :=
  s.fab.waits.find? fun q => q.core = core && q.ctx = e.ctx && q.seq = e.seq

/-- R78: whether a link is up. -/
def Link.up (x : Link) : Bool := decide (2 ≤ x.state)

/-- An entry ends with a cause; of a put or message that is under way nothing more is sent, and a release that covers it goes on behind
the packets that have been (R66). -/
def State.endSend (s : State) (core : Nat) (e : CopyEntry) (code : Nat) : State :=
  let ls := match s.fabWaitOf core e with
    | some q => q.links.filter fun l => (Sparse.get Link.reset s.fab.links l).up
    | none => []
  let s : State := { s with fab := { s.fab with
    waits := s.fab.waits.filter fun q => !(q.core = core && q.ctx = e.ctx && q.seq = e.seq) } }
  (s.setStat core e (.ended code)).sentWhole core e.ctx e.seq ls

/-- R195: what an entry does with what it met at a block; `s0` is the state before, to which a full host queue returns. -/
def State.afterBlock (s0 : State) (core : Nat) (e : CopyEntry) : BlockRes → State
  | .ok s => s.bytesFree
  | .full s va => s.holdEntry core e va
  | .bad s c va w =>
    if toHostQueue c then
      if s.fqFull e.ctx then s0
      else
        let (s1, p) := s.engineFault core e c va w
        (s1.setStat core e (.stopped p)).bytesFree
    else (s.endSend core e c).bytesFree

/-! ### Puts and messages: the sending side -/

/-- R64: the link to a node, none where the device itself is meant; the outer none where there is no way. -/
def State.routeTo (s : State) (node : Nat) : Option (Option Nat) :=
  if node = s.fab.node then some none
  else
    let r := Sparse.get { v := false, link := 0 : Route } s.fab.routes node
    if r.v && decide (r.link < 12) && (Sparse.get Link.reset s.fab.links r.link).up then some (some r.link) else none

/-- R73, R78: the source records a refused put or message and raises interrupt 4. -/
def State.fabRefused (s : State) (core node win reason : Nat) : State :=
  let f := s.fab
  let f := if f.errVld then f
    else { f with errVld := true, errTime := s.dev.tsNow, errSrc := coreSrc core, errNode := node, errWin := win, errReason := reason }
  { s with fab := f }.irq 4

/-- R73: a put or message fails, at the source or by what comes back. -/
def State.failSend (s : State) (core : Nat) (e : CopyEntry) (win reason : Nat) : State :=
  (s.fabRefused core e.node win reason).endSend core e 0x73

/-- A packet goes to a link, or to the device itself. -/
def State.emit (s : State) (link : Option Nat) (p : FabPacket) : State :=
  match link with
  | some l => { s with fab := { s.fab with sent := s.fab.sent ++ [(l, p)] } }
  | none => { s with fab := { s.fab with loop := s.fab.loop ++ [p] } }

/-- R23: bytes of an origin window; none where their check fails. -/
def State.readOrigin (s : State) (a n : Nat) : Option (List Byte) × State :=
  let fs := s.flawsAt none false a n
  let s := s.checkMem fs
  if fs.any Flaw.fatal then (none, s) else (let (b, s) := s.readPhys a n; (some b, s))

/-- R63, R71: the next packet of a put on its way over a link, or to the device itself. DESIGN CHOICE (log 77): a put of length 0 is one
write packet without data. -/
def State.putPacket (s : State) (core : Nat) (e : CopyEntry) (id : Nat) (link : Option Nat) (data : List Byte) : State :=
  let n := data.length
  let p : WritePacket :=
    { src := s.fab.node, dst := e.node, id := id, win := e.tWin, key := bits (s.winWord e.oWin 0) 32 16, off := e.tOff
      total := e.word 3, pos := e.done, data := data }
  let s := (s.emit link (.write p)).onEntry core e.ctx e.seq fun e =>
    { e with done := e.done + n, crc := if e.dg then crcBytes e.crc data else e.crc }
  if e.word 3 ≤ e.done + n then
    let s : State := { s with fab := { s.fab with
      waits := s.fab.waits.map fun q => if q.id = id then { q with whole := true } else q
      stats := bump s.fab.stats 0 1 } }
    let s := s.setStat core e .sent
    if link.isNone then s else s.sentWhole core e.ctx e.seq ((s.fabWaitOf core e).elim [] FabWait.links)
  else s

/-- A put or message takes a number, and waits for its answer. -/
def State.newWait (s : State) (core : Nat) (e : CopyEntry) (link : Option Nat) (win : Nat) (whole : Bool) : State :=
  let q : FabWait :=
    { id := s.fab.nextPut, core := core, ctx := e.ctx, seq := e.seq, node := e.node, links := link.toList, win := win
      msg := e.kind = 5, whole := whole }
  { s with fab := { s.fab with waits := s.fab.waits ++ [q], nextPut := s.fab.nextPut + 1 } }

/-- The packets of an entry that is under way take a link. -/
def State.overLink (s : State) (id : Nat) (link : Option Nat) : State :=
  { s with fab := { s.fab with waits := s.fab.waits.map fun q =>
      if q.id = id then { q with links := ascending (link.toList ++ q.links) } else q } }

/-- R64, R71 to R73, R77: a step of a put: every packet asks the route and FAB_CTRL.EN. -/
def State.putBlock (s : State) (core : Nat) (e : CopyEntry) : State :=
  if !e.origin then s.failSend core e e.oWin 7
  else if !s.fab.en then s.failSend core e e.tWin 8
  else
    match s.routeTo e.node with
    | none => s.failSend core e e.tWin 8
    | some l =>
      let a := s.winBase e.oWin + e.oOff + e.done
      match s.readOrigin a (min 256 (e.word 3 - e.done)) with
      | (none, s) => s.afterBlock core e (.bad s (memCause 8 Access.engRead) a false)
      | (some data, s) =>
        match s.fabWaitOf core e with
        | some q => (s.overLink q.id l).putPacket core e q.id l data
        | none => (s.newWait core e l e.oWin false).putPacket core e s.fab.nextPut l data

/-- R74, R75: a message is sent, over the fabric or to this device's own arming table. -/
def State.sendMsg (s : State) (core : Nat) (e : CopyEntry) (data : List Byte) : State :=
  let s := s.onEntry core e.ctx e.seq fun e => { e with crc := if e.dg then crcBytes e.crc data else e.crc }
  if !e.remote then
    let m : Message :=
      { data := data, kind := 2, src := coreSrc core, who := e.ctx, seq := e.seq, time := 0, entry := none }
    State.setStat { s with host := { s.host with queued := s.host.queued ++ [m] } } core e .sent
  else if !s.fab.en then s.failSend core e 0 8
  else
    match s.routeTo e.node with
    | none => s.failSend core e 0 8
    | some l =>
      let id := s.fab.nextPut
      let s := s.newWait core e l 0 true
      let s := { s with fab := { s.fab with stats := bump s.fab.stats 3 1 } }
      let s := s.emit l (.msg { src := s.fab.node, dst := e.node, id := id, data := data })
      let s := s.setStat core e .sent
      match l with
      | some l => s.sentWhole core e.ctx e.seq [l]
      | none => s

/-- R74: a step of a message: its release comes first, then its bytes are read. -/
def State.msgBlock (s : State) (core : Nat) (e : CopyEntry) : State :=
  let earlier := match e.who with
    | some (g, i) => (s.unsent g i).filter fun x => x != (core, e.ctx, e.seq)
        && (x.1 != core || x.2.1 != e.ctx || decide (x.2.2 < e.seq))
    | none => []
  let links := match e.who with | some (g, i) => s.usedLinks g i | none => []
  if e.done = 0 && (s.fab.fences.any fun f => f.who = .entry core e.ctx e.seq) then s
  else if e.done = 0 && !(earlier.isEmpty && links.isEmpty) then s.addFence (.entry core e.ctx e.seq) earlier links
  else if e.srcScratch && !s.entryAlloc core e.who (e.word 1) 64 then s.afterBlock core e (.bad s 0x6B (e.word 1) false)
  else
    match s.engRead core e (e.word 1) 64 with
    | (.error (c, va), s1) => s.afterBlock core e (.bad s1 c va false)
    | (.ok data, s1) => s1.sendMsg core e data

/-- COPY_BLOCK_WRITE: the oldest running entry of a context that has something left to move makes one step. -/
def State.blockStep (s : State) (core ctx : Nat) : State :=
  match (s.core core).copies.find? fun e => e.ctx = ctx && e.stat = .run && (decide (3 < e.kind) || decide (e.done < e.len)) with
  | none => s
  | some e =>
    if e.kind = 4 then s.putBlock core e
    else if e.kind = 5 then s.msgBlock core e
    else s.afterBlock core e (s.copyBlock core e)

/-- COPY_ENTRY_COMPLETE: the oldest entry of a context that has nothing left to move completes. -/
def State.completeStep (s : State) (core ctx : Nat) : State :=
  let code (e : CopyEntry) : Option Nat := match e.stat with
    | .ended c => some c
    | .run => if decide (e.kind < 4) && decide (e.len ≤ e.done) then some 0 else none
    | _ => none
  match (s.core core).copies.findSome? fun e => if e.ctx = ctx then (code e).map fun c => (e, c) else none with
  | none => s
  | some (e, c) =>
    -- the CRC is compared complemented (R194)
    let e := { e with crc := ~~~e.crc }
    if s.canTell ctx e.who then s.endEntry core e c else s

/-! ### Going on after a fault or a hold -/

/-- R195: entries stopped on a fault go on once FQ_CIDX has passed the fault entry; one whose own read faulted is read again. -/
def State.passFaults (s : State) (ctx : Nat) : State :=
  let cidx := s.fqCidx ctx
  let ended (e : CopyEntry) : Bool := e.ctx = ctx && (match e.stat with
    | .stopped p => decide (p < cidx)
    | _ => false)
  s.cores.foldl (fun s (k, c) =>
    if c.copies.any ended then
      (s.onCore k fun c => { c with copies :=
        (c.copies.filter fun e => !(ended e && e.words.isEmpty)).map fun e => if ended e then { e with stat := .run } else e }).queueState ctx k
    else s) s

/-- R51: a held entry goes on. -/
def State.resumeEntry (s : State) (core ctx seq : Nat) : State :=
  (s.onEntry core ctx seq fun e => { e with stat := if e.stat = .held then .run else e.stat }).queueState ctx core

def execCopyEntryStart (core ctx : Nat) (s : State) : Res := .next (s.startEntry core ctx)
def execCopyBlockWrite (core ctx : Nat) (s : State) : Res := .next (s.blockStep core ctx)
def execCopyEntryComplete (core ctx : Nat) (s : State) : Res := .next (s.completeStep core ctx)

end Sys2Proof.Machine
end

