-- ==== Sys2Proof/Machine/Evaluator.lean ====
section
/-!
DEFINITION. What the evaluator of field bytecode computes with: the steps of a unit that reads memory and calls (spec/11 R264
to R268), and the numbers of the three modes with their operations (spec/18 R442 to R448, spec/12 R307 to R310).
-/
namespace Sys2Proof.Machine

/-! ### Steps of a unit -/

/-- Why an evaluation does not go on: a cause, a fault of memory, a call that has no answer yet, or a loop that the spec gives
no end (R264 over neighbouring numbers). -/
inductive Stop where
  | fail (code : Nat)
  | fault (kind va : Nat) (w : Bool)
  | call (entry named scr : Nat) (payload : List Nat)
  | endless
  deriving DecidableEq, Repr

/-- What an evaluation carries: the state, the answers still to be taken from the ray's log, the log, and the noise symbols that
collapses have used (R448). -/
structure Walker where
  s : State
  seen : List (List Byte)
  log : List (List Byte)
  syms : Nat

/-- A step of a unit: an access or call is answered once, and the answer stays (R268: earlier progress is kept). -/
abbrev Eval (α : Type) := Walker → Except Stop α × Walker

def Eval.ret {α : Type} (x : α) : Eval α := fun w => (.ok x, w)
def Eval.stop {α : Type} (e : Stop) : Eval α := fun w => (.error e, w)
def Eval.fail {α : Type} (code : Nat) : Eval α := Eval.stop (.fail code)

def Eval.andThen {α β : Type} (m : Eval α) (f : α → Eval β) : Eval β := fun w =>
  match m w with
  | (.ok x, w) => f x w
  | (.error e, w) => (.error e, w)

/-- The same step for the elements of a list. -/
def Eval.each {α β : Type} (f : α → Eval β) : List α → Eval (List β)
  | [] => .ret []
  | x :: xs => (f x).andThen fun y => (Eval.each f xs).andThen fun ys => .ret (y :: ys)

/-- An access: its answer comes from the log, or is performed and enters it. -/
def Eval.ask (f : State → Except Stop (List Byte) × State) : Eval (List Byte) := fun w =>
  match w.seen with
  | x :: rest => (.ok x, { w with seen := rest })
  | [] =>
    match f w.s with
    | (.ok x, s) => (.ok x, { w with s := s, log := w.log ++ [x] })
    | (.error e, s) => (.error e, { w with s := s })

/-- A read of virtual memory by a unit of a core. -/
def readFor (core : Option Nat) (ctx : Nat) (a : Access) (va n : Nat) : Eval (List Byte) := Eval.ask fun s =>
  match State.translatePieces core ctx a (rangePieces (n / 4096 + 2) va n) s with
  | (.error (k, x), s) => (.error (.fault k x false), s)
  | (.ok ps, s) =>
    let fs := s.flawsOf core false ps
    let s := s.checkMem fs
    if fs.any Flaw.fatal then (.error (.fault 8 va false), s)
    else
      let (b, s) := s.readPieces ps
      (.ok b, s)

/-! ### FP32 -/

def f32add (a b : Nat) : Nat := (Fmt.f32.add .rn a b).v
def f32sub (a b : Nat) : Nat := (Fmt.f32.sub .rn a b).v
def f32mul (a b : Nat) : Nat := (Fmt.f32.mul .rn a b).v
def f32div (a b : Nat) : Nat := (Fmt.f32.div .rn a b).v
def f32fma (a b c : Nat) : Nat := (Fmt.f32.fma .rn a b c).v
def f32max (a b : Nat) : Nat := (Fmt.f32.maxNum a b).v
def f32min (a b : Nat) : Nat := (Fmt.f32.minNum a b).v
def f32neg (a : Nat) : Nat := a ^^^ 0x80000000
def f32abs (a : Nat) : Nat := a % 2 ^ 31
def f32rnd (m : Rnd) (x : XR) : Nat := (Fmt.f32.round m x).v
def f32lt (a b : Nat) : Bool := (fx a).lt (fx b)
def f32nan (a : Nat) : Bool := (fx a).isNan
def f32fin (a : Nat) : Bool := decide (a % 2 ^ 31 < 0x7F800000)

/-- R443: clamp. -/
def f32clamp (a lo hi : Nat) : Nat := f32min (f32max a lo) hi

/-! ### The operations of a mode (R442, R443) -/

/-- The steps of which every opcode is made, in one mode. -/
structure Mode (α : Type) where
  const : Nat → α
  add : α → α → Eval α
  sub : α → α → Eval α
  mul : α → α → Eval α
  div : α → α → Eval α
  min : α → α → Eval α
  max : α → α → Eval α
  neg : α → Eval α
  abs : α → Eval α
  sq : α → Eval α
  sqrt : α → Eval α
  floor : α → Eval α
  sin : α → Eval α
  cos : α → Eval α
  clamp : α → Nat → Nat → Eval α
  /-- R446: whether min (false) or max (true) takes b's tag -/
  pickB : Bool → α → α → Bool
  /-- R445, R447: the test u ≤ 0, and u' -/
  le0 : α → Bool
  clip0 : α → Eval α
  /-- the bounds that a call or brick sees, what the interval of a brick becomes, and what the answer of a call becomes -/
  hull : α → Itv
  ofItv : Itv → Bool → Eval α
  ofCall : Itv → α

/-! ### Point mode (R443) -/

def pointMode : Mode Nat where
  const := id
  add a b := .ret (f32add a b)
  sub a b := .ret (f32sub a b)
  mul a b := .ret (f32mul a b)
  div a b := .ret (f32div a b)
  min a b := .ret (Fmt.f32.minIeee a b).v
  max a b := .ret (Fmt.f32.maxIeee a b).v
  neg a := .ret (f32neg a)
  abs a := .ret (f32abs a)
  sq a := .ret (f32mul a a)
  sqrt a := .ret (Fmt.f32.sqrt .rn a).v
  floor a := .ret (f32Rnd .rd a).v
  sin a := .ret (ftrn 2 a).v
  cos a := .ret (ftrn 3 a).v
  clamp a lo hi := .ret (f32clamp a lo hi)
  pickB mx a b := if mx then f32lt a b else f32lt b a
  le0 u := !f32lt 0 u
  clip0 u := .ret u
  hull a := { lo := a, hi := a }
  ofItv x _ := .ret x.lo
  ofCall x := x.lo

/-! ### Interval mode (R447) -/

/-- An interval, and whether the point result that it stands for may be a NaN: it is then the whole line (R447, R449). -/
structure IV where
  v : Itv
  nan : Bool
  deriving DecidableEq, Repr

def IV.whole : IV := { v := Itv.whole, nan := true }
def IV.of (x : Itv) : IV :=
  if f32nan x.lo || f32nan x.hi then .whole else { v := { lo := posZero x.lo, hi := posZero x.hi }, nan := false }
/-- The result of a step, the whole line where a NaN is possible. -/
def IV.step (nan : Bool) (r : IR) : IV := if nan then .whole else { v := r.v, nan := false }

def IV.hasPos (a : IV) : Bool := a.v.hi = fPosInf
def IV.hasNeg (a : IV) : Bool := a.v.lo = fNegInf
def IV.hasInf (a : IV) : Bool := a.hasPos || a.hasNeg || a.v.lo = fPosInf || a.v.hi = fNegInf
/-- An interval from a constant. -/
def IV.const (b : Nat) : IV := if f32nan b then .whole else { v := { lo := posZero b, hi := posZero b }, nan := false }

def IV.add (a b : IV) : IV := .step (a.nan || b.nan || (a.hasPos && b.hasNeg) || (a.hasNeg && b.hasPos)) (Itv.add a.v b.v)
def IV.sub (a b : IV) : IV := .step (a.nan || b.nan || (a.hasPos && b.hasPos) || (a.hasNeg && b.hasNeg)) (Itv.sub a.v b.v)
def IV.mul (a b : IV) : IV :=
  .step (a.nan || b.nan || (a.v.has0 && b.hasInf) || (a.hasInf && b.v.has0)) (Itv.mul a.v b.v)
def IV.div (a b : IV) : IV :=
  .step (a.nan || b.nan || (a.v.has0 && b.v.has0) || (a.hasInf && b.hasInf)) (Itv.div a.v b.v)
def IV.min (a b : IV) : IV := .step (a.nan || b.nan) (Itv.min a.v b.v)
def IV.max (a b : IV) : IV := .step (a.nan || b.nan) (Itv.max a.v b.v)
def IV.abs (a : IV) : IV := .step a.nan (Itv.abs a.v)
def IV.sq (a : IV) : IV := .step a.nan (Itv.sqr a.v)
def IV.sqrt (a : IV) : IV := .step (a.nan || f32lt a.v.lo 0) (Itv.sqrt a.v)
def IV.neg (a : IV) : IV := if a.nan then .whole else .of a.v.flip
def IV.floor (a : IV) : IV := if a.nan then .whole else .of { lo := (f32Rnd .rd a.v.lo).v, hi := (f32Rnd .rd a.v.hi).v }
def IV.clamp (a : IV) (lo hi : Nat) : IV :=
  if a.nan && f32nan lo && f32nan hi then .whole else .of { lo := f32clamp a.v.lo lo hi, hi := f32clamp a.v.hi lo hi }

/-- A finite FP32 value as a fixed-point number (Approx.lean). -/
def fxSigned (a : Nat) : Int :=
  match fx a with
  | .fin n m e => if n then -(fxOf m e : Int) else fxOf m e
  | _ => 0

/-- sin or cos of a finite value, within 2^-100. -/
def trigOf (isCos : Bool) (a : Nat) : Int := match fx a with | .fin n m e => trigValue isCos n m e | _ => 0

/-- Whether some number `at_ + k · 2π` lies between two fixed-point numbers. -/
def meetsPhase (at_ lo hi : Int) : Bool := decide (lo ≤ at_ + (hi - at_) / (fxTwoPi : Int) * fxTwoPi)

/-- R447: the range of sin or cos, widened by 2^-21, clipped and rounded outward. -/
def trigRange (isCos : Bool) (a : Itv) : Itv :=
  let lo := fxSigned a.lo
  let hi := fxSigned a.hi
  let top : Int := if isCos then 0 else (fxTwoPi / 4 : Nat)
  let p := trigOf isCos a.lo
  let q := trigOf isCos a.hi
  let one : Int := fxOne
  let mx := if meetsPhase top lo hi then one else max p q
  let mn := if meetsPhase (top + (fxTwoPi / 2 : Nat)) lo hi then -one else min p q
  let w : Int := (2 ^ (fxBits - 21) : Nat)
  (outItv (fxVal (max (-one) (mn - w))) (fxVal (min one (mx + w))) 0 true).v

def IV.trig (isCos : Bool) (a : IV) : IV :=
  if a.nan || a.v.bad || !f32fin a.v.lo || !f32fin a.v.hi then .whole
  else if f32lt 0x47000000 (f32abs a.v.lo) || f32lt 0x47000000 (f32abs a.v.hi) then
    { v := { lo := 0xBF800000, hi := 0x3F800000 }, nan := false }
  else { v := trigRange isCos a.v, nan := false }

def itvMode : Mode IV where
  const := IV.const
  add a b := .ret (a.add b)
  sub a b := .ret (a.sub b)
  mul a b := .ret (a.mul b)
  div a b := .ret (a.div b)
  min a b := .ret (a.min b)
  max a b := .ret (a.max b)
  neg a := .ret a.neg
  abs a := .ret a.abs
  sq a := .ret a.sq
  sqrt a := .ret a.sqrt
  floor a := .ret a.floor
  sin a := .ret (a.trig false)
  cos a := .ret (a.trig true)
  clamp a lo hi := .ret (a.clamp lo hi)
  pickB mx a b := if mx then f32lt a.v.hi b.v.hi else f32lt b.v.lo a.v.lo
  le0 u := !f32lt 0 u.v.hi
  clip0 u := .ret { u with v := { u.v with lo := if f32lt u.v.lo 0 then 0 else u.v.lo } }
  hull a := a.v
  ofItv x nan := .ret (if nan then .whole else .of x)
  ofCall x := if x.bad then .whole else .of x

/-! ### Affine mode (R309, R310, R448) -/

/-- An affine value: centre, coefficients x1 to x4, error term. -/
structure Aff where
  c : Nat
  x : List Nat
  e : Nat
  deriving DecidableEq, Repr

/-- R310: the value that stands for anything. -/
def Aff.any : Aff := { c := 0, x := [0, 0, 0, 0], e := fPosInf }
/-- R310: a NaN or an infinite part makes it so. -/
def Aff.fix (a : Aff) : Aff := if f32fin a.c && a.x.all f32fin && f32fin a.e then a else .any
/-- An addition to an error term, rounded ru. -/
def addUp (e : Nat) (x : XR) : Nat := f32rnd .ru (XR.add .rn (fx e) x).1
/-- R309: the radius. -/
def Aff.radius (a : Aff) : Nat := addUp (a.x.foldl (fun r x => addUp r (fx x).abs) 0) (fx a.e)
/-- R309: the enclosure. -/
def Aff.enclosure (a : Aff) : Itv :=
  let r := fx a.radius
  { lo := posZero (f32rnd .rd (XR.add .rn (fx a.c) r.negate).1), hi := posZero (f32rnd .ru (XR.add .rn (fx a.c) r).1) }

/-- A result whose parts are known exactly: each rounded rn, and the rounding errors added to the error term. -/
def Aff.round (c : XR) (x : List XR) (e : Nat) (remainder : XR) : Aff :=
  let c' := f32rnd .rn c
  let x' := x.map (f32rnd .rn)
  let errs := ((c, c') :: x.zip x').map fun (p, q) => (XR.add .rn p (fx q).negate).1.abs
  Aff.fix { c := c', x := x', e := addUp (errs.foldl addUp e) remainder }

/-- R310: a sum or difference; `f` negates for a difference. -/
def Aff.sum (a b : Aff) (f : XR → XR) : Aff :=
  let plus (p q : Nat) : XR := (XR.add .rn (fx p) (f (fx q))).1
  .round (plus a.c b.c) ((a.x.zip b.x).map fun (p, q) => plus p q) (addUp a.e (fx b.e)) xzero

/-- R310: a product. -/
def Aff.mul (a b : Aff) : Aff :=
  let times (p q : Nat) : XR := (XR.mul (fx p) (fx q)).1
  let both (p q r t : Nat) : XR := (XR.add .rn (times p q) (times r t)).1
  let e := f32rnd .ru (both (f32abs a.c) b.e (f32abs b.c) a.e)
  .round (times a.c b.c) ((a.x.zip b.x).map fun (p, q) => both a.c q b.c p) e (fx (f32rnd .ru (times a.radius b.radius)))

def Aff.neg (a : Aff) : Aff := { a with c := f32neg a.c, x := a.x.map f32neg }

/-- R448: the radius of an interval about its midpoint. -/
def itvReach (r : Itv) : Nat :=
  let c := r.mid.v
  f32max (f32rnd .ru (XR.add .rn (fx c) (fx r.lo).negate).1) (f32rnd .ru (XR.add .rn (fx r.hi) (fx c).negate).1)

/-- R448: a step that collapses. -/
def collapse (r : IV) : Eval Aff := fun w =>
  let p := itvReach r.v
  if r.v.bad || r.v.isWhole || !f32fin p then (.ok .any, w)
  else if w.syms < 3 then
    (.ok (Aff.fix { c := r.v.mid.v, x := setAt [0, 0, 0, 0] (w.syms + 1) p, e := 0 }), { w with syms := w.syms + 1 })
  else (.ok (Aff.fix { c := r.v.mid.v, x := [0, 0, 0, 0], e := p }), w)

/-- The interval that a collapsing step sees. -/
def Aff.iv (a : Aff) : IV := { v := a.enclosure, nan := false }

/-- R448: min and max, of enclosures that do not overlap the chosen operand. -/
def Aff.pick (a b : Aff) (mx : Bool) : Eval Aff :=
  let x := a.enclosure
  let y := b.enclosure
  if f32lt x.hi y.lo then .ret (if mx then b else a)
  else if f32lt y.hi x.lo then .ret (if mx then a else b)
  else collapse (if mx then a.iv.max b.iv else a.iv.min b.iv)

/-- R267: an answer to a call in affine mode is taken as centre plus error term. -/
def Aff.ofCall (x : Itv) : Aff :=
  if x.bad || x.isWhole || !f32fin (itvReach x) then .any else Aff.fix { c := x.mid.v, x := [0, 0, 0, 0], e := itvReach x }

def affMode : Mode Aff where
  const b := Aff.fix { c := b, x := [0, 0, 0, 0], e := 0 }
  add a b := .ret (a.sum b id)
  sub a b := .ret (a.sum b XR.negate)
  mul a b := .ret (a.mul b)
  div a b := collapse (a.iv.div b.iv)
  min a b := a.pick b false
  max a b := a.pick b true
  neg a := .ret a.neg
  abs a := if !f32lt a.enclosure.lo 0 then .ret a else if !f32lt 0 a.enclosure.hi then .ret a.neg else collapse a.iv.abs
  sq a := .ret (a.mul a)
  sqrt a := collapse a.iv.sqrt
  floor a := collapse a.iv.floor
  sin a := collapse (a.iv.trig false)
  cos a := collapse (a.iv.trig true)
  clamp a lo hi := collapse (a.iv.clamp lo hi)
  pickB mx a b :=
    if mx then f32lt a.enclosure.hi b.enclosure.hi else f32lt b.enclosure.lo a.enclosure.lo
  le0 u := !f32lt 0 u.enclosure.hi
  clip0 u := u.pick { c := 0, x := [0, 0, 0, 0], e := 0 } true
  hull := Aff.enclosure
  ofItv x nan := collapse (if nan then .whole else .of x)
  ofCall := Aff.ofCall

end Sys2Proof.Machine
end

