-- ==== Sys2Proof/Machine/Bytecode.lean ====
section
/-!
DEFINITION. Field bytecode (spec/18 R439 to R454): its layout and validation, its opcodes in the three modes, the brick
samples (spec/11 R269, R270), and the rewrite of the pre-pass.
-/
namespace Sys2Proof.Machine

/-! ### Layout and validation (R440, R441) -/

/-- An opcode of a stream: its code and its operand bytes. -/
structure BcOp where
  code : Nat
  args : List Nat
  deriving DecidableEq, Repr

/-- A valid bytecode: its flags, constants and the opcodes through the first end. -/
structure Bytecode where
  flags : Nat
  consts : List Nat
  ops : List BcOp
  deriving DecidableEq, Repr

/-- R443, R444: operand bytes, pops, pushes and constants of an opcode. -/
def opShape (code : Nat) : Option (Nat × Nat × Nat × Nat) :=
  match code with
  | 0x00 => some (0, 1, 0, 0)
  | 0x01 => some (1, 0, 1, 1)
  | 0x02 | 0x03 | 0x04 => some (0, 0, 1, 0)
  | 0x05 => some (0, 1, 2, 0)
  | 0x06 => some (0, 2, 2, 0)
  | 0x07 => some (0, 1, 0, 0)
  | 0x08 => some (2, 1, 1, 0)
  | 0x10 | 0x11 | 0x12 | 0x13 | 0x14 | 0x15 => some (0, 2, 1, 0)
  | 0x16 => some (1, 2, 1, 1)
  | 0x17 => some (0, 2, 1, 0)
  | 0x18 | 0x19 | 0x1A | 0x1B | 0x1C => some (0, 1, 1, 0)
  | 0x1D => some (1, 1, 1, 2)
  | 0x1E | 0x1F => some (0, 1, 1, 0)
  | 0x20 => some (0, 4, 1, 0)
  | 0x21 => some (0, 6, 1, 0)
  | 0x22 => some (0, 2, 1, 0)
  | 0x23 => some (0, 3, 1, 0)
  | 0x24 => some (1, 3, 3, 12)
  | 0x30 => some (1, 3, 1, 1)
  | 0x31 => some (1, 3, 1, 3)
  | 0x32 => some (1, 3, 1, 4)
  | 0x33 => some (1, 3, 1, 2)
  | 0x34 => some (1, 3, 1, 4)
  | 0x35 => some (1, 3, 1, 2)
  | 0x36 => some (1, 3, 1, 7)
  | 0x38 => some (1, 3, 1, 2)
  | 0x3C => some (2, 3, 1, 0)
  | _ => none

/-- R441: the walk of a stream; each opcode takes at least one of the `fuel` bytes. The error is the cause. -/
def bcWalk (nconst maxd : Nat) : Nat → Nat → List Nat → Except Nat (List BcOp)
  | 0, _, _ => .error 0xA5
  | _, _, [] => .error 0xA5
  | fuel + 1, depth, c :: rest =>
    match opShape c with
    | none => .error 0xA0
    | some (n, pops, pushes, ks) =>
      if rest.length < n then .error 0xA5
      else
        let op : BcOp := { code := c, args := rest.take n }
        if decide (0 < ks) && decide (nconst < rest.headD 0 + ks) then .error 0xA3
        else if depth < pops then .error 0xA2
        else if maxd < depth - pops + pushes then .error 0xA1
        else if c = 0 then (if depth = 1 then .ok [op] else .error 0xA7)
        else (bcWalk nconst maxd fuel (depth - pops + pushes) (rest.drop n)).map fun l => op :: l

/-- R440: the bytes of a bytecode by its header. -/
def bcTotal (head : List Byte) : Nat := 8 + 4 * numAt head 3 1 + numAt head 0 2

/-- R440, R441: a header that no bytecode has. -/
def bcHeadBad (raw : List Byte) : Bool :=
  let maxd := numAt raw 2 1
  decide (numAt raw 0 2 = 0) || decide (maxd = 0) || decide (16 < maxd) || numAt raw 6 1 != 1 || numAt raw 7 1 != 0
    || decide (4 ≤ numAt raw 4 2)

/-- R440, R441: the bytecode that bytes hold, or the cause. -/
def parseBc (raw : List Byte) : Except Nat Bytecode :=
  let slen := numAt raw 0 2
  let nconst := numAt raw 3 1
  if bcHeadBad raw then .error 0xA4
  else
    let stream := ((raw.drop (8 + 4 * nconst)).take slen).map BitVec.toNat
    (bcWalk nconst (numAt raw 2 1) slen 0 stream).map fun ops =>
      { flags := numAt raw 4 2, consts := (List.range nconst).map fun j => numAt raw (8 + 4 * j) 4, ops := ops }

/-! ### Composite steps (R443, R444) -/

section Steps
variable {α : Type} (M : Mode α)

def len2 (a b : α) : Eval α :=
  (M.sq a).andThen fun p => (M.sq b).andThen fun q => (M.add p q).andThen M.sqrt
def len3 (x y z : α) : Eval α :=
  (M.sq x).andThen fun p => (M.sq y).andThen fun q => (M.add p q).andThen fun s =>
    (M.sq z).andThen fun r => (M.add s r).andThen M.sqrt
def dot2 (a0 a1 b0 b1 : α) : Eval α :=
  (M.mul a0 b0).andThen fun p => (M.mul a1 b1).andThen fun q => M.add p q
def dot3 (x y z a b c : α) : Eval α :=
  (dot2 M x y a b).andThen fun s => (M.mul z c).andThen fun t => M.add s t

/-- R444: box. -/
def stepBox (x y z bx by_ bz : α) : Eval α :=
  let q (p b : α) : Eval α := (M.abs p).andThen fun a => M.sub a b
  let zero := M.const 0
  (q x bx).andThen fun qx => (q y by_).andThen fun qy => (q z bz).andThen fun qz =>
    (M.max qx zero).andThen fun mx => (M.max qy zero).andThen fun my => (M.max qz zero).andThen fun mz =>
      (len3 M mx my mz).andThen fun o =>
        (M.max qy qz).andThen fun t => (M.max qx t).andThen fun u => (M.min u zero).andThen fun n => M.add o n

/-- R444: caps. -/
def stepCaps (x y z ax ay az bx by_ bz r : α) : Eval α :=
  (M.sub x ax).andThen fun px => (M.sub y ay).andThen fun py => (M.sub z az).andThen fun pz =>
  (M.sub bx ax).andThen fun qx => (M.sub by_ ay).andThen fun qy => (M.sub bz az).andThen fun qz =>
  (dot3 M px py pz qx qy qz).andThen fun n => (dot3 M qx qy qz qx qy qz).andThen fun d =>
  (M.div n d).andThen fun t => (M.clamp t 0 0x3F800000).andThen fun s =>
    let w (p q : α) : Eval α := (M.mul q s).andThen fun m => M.sub p m
    (w px qx).andThen fun wx => (w py qy).andThen fun wy => (w pz qz).andThen fun wz =>
      (len3 M wx wy wz).andThen fun l => M.sub l r

/-- R444: a primitive of a point with its constants as values. -/
def stepPrim (code : Nat) (x y z : α) (c : List α) : Eval α :=
  let k (j : Nat) : α := at? (M.const 0) c j
  let zero := M.const 0
  match code with
  | 0x30 => (len3 M x y z).andThen fun l => M.sub l (k 0)
  | 0x31 => stepBox M x y z (k 0) (k 1) (k 2)
  | 0x32 => (stepBox M x y z (k 0) (k 1) (k 2)).andThen fun d => M.sub d (k 3)
  | 0x33 => (len2 M x z).andThen fun l => (M.sub l (k 0)).andThen fun u => (len2 M u y).andThen fun v => M.sub v (k 1)
  | 0x34 => (dot3 M x y z (k 0) (k 1) (k 2)).andThen fun d => M.add d (k 3)
  | 0x35 =>
    (len2 M x z).andThen fun l => (M.sub l (k 0)).andThen fun dx => (M.abs y).andThen fun a => (M.sub a (k 1)).andThen fun dy =>
      (M.max dx dy).andThen fun m => (M.min m zero).andThen fun n =>
        (M.max dx zero).andThen fun ox => (M.max dy zero).andThen fun oy => (len2 M ox oy).andThen fun o => M.add n o
  | _ => stepCaps M x y z (k 0) (k 1) (k 2) (k 3) (k 4) (k 5) (k 6)

/-- R445: smin of two values with the constant's bits. -/
def stepSmin (a b : α) (k : Nat) : Eval α :=
  (M.min a b).andThen fun m =>
    if !f32lt 0 k then .ret m
    else
      (M.sub a b).andThen fun d => (M.abs d).andThen fun e => (M.sub (M.const k) e).andThen fun u =>
        if M.le0 u then .ret m
        else
          (M.clip0 u).andThen fun u => (M.mul u u).andThen fun n => (M.mul (M.const 0x40800000) (M.const k)).andThen fun d =>
            (M.div n d).andThen fun q => M.sub m q

end Steps

/-! ### Bricks (R269, R270, R451) -/

/-- A brick: position of its first sample, spacing, samples an axis, and its bytes. -/
structure Brick where
  b : List Nat
  s : Nat
  n : Nat
  raw : List Byte

/-- R269: whether the header of a brick is valid, and the samples an axis. -/
def brickN (h : List Byte) : Option Nat :=
  let s := numAt h 0x0C 4
  let dim := numAt h 0x10 4
  if f32fin s && f32lt 0 s && decide (dim ≤ 1) && numAt h 0x14 44 = 0 then some (4 * 2 ^ dim) else none

/-- R451: the brick at an address, read by the given step; `code` is the cause of an invalid one. -/
def getBrick (rd : Nat → Nat → Eval (List Byte)) (code addr : Nat) : Eval Brick :=
  if addr % 64 != 0 then .fail code
  else (rd addr 64).andThen fun h =>
    match brickN h with
    | none => .fail code
    | some n => (rd (addr + 64) (2 * n * n * n)).andThen fun raw =>
      .ret { b := (List.range 3).map fun j => numAt h (4 * j) 4, s := numAt h 0x0C 4, n := n, raw := raw }

/-- A sample, as FP16 bits and widened. -/
def Brick.half (k : Brick) (i j l : Nat) : Nat := numAt k.raw (2 * (i + k.n * (j + k.n * l))) 2
def Brick.at_ (k : Brick) (i j l : Nat) : Nat := widenBits .f16 .f32 (k.half i j l)

/-- R270: u along an axis, before it is clamped. -/
def Brick.u (k : Brick) (a p : Nat) : Nat := f32div (f32sub p (at? 0 k.b a)) k.s
/-- The FP32 number N − 1. -/
def Brick.top (k : Brick) : Nat := f32OfInt (k.n - 1 : Nat)
/-- R270: u clamped. -/
def Brick.clampU (k : Brick) (u : Nat) : Nat := f32min (f32max u 0) k.top
/-- The cell of a clamped u. -/
def Brick.cell (k : Brick) (u : Nat) : Nat := match fx u with | .fin _ m e => min (roundAt .rz false m e 0).1 (k.n - 2) | _ => 0

/-- R270: a + f (b − a). -/
def lerp (a b f : Nat) : Nat := f32fma f (f32sub b a) a
/-- Two lerps and one between them. -/
def bilerp (a b c d f g : Nat) : Nat := lerp (lerp a b f) (lerp c d f) g

/-- R270: distance and gradient. -/
def brickSample (k : Brick) (p : List Nat) : Nat × List Nat :=
  let u (a : Nat) : Nat := k.u a (at? 0 p a)
  let clip (a : Nat) : Bool := f32lt (u a) 0 || f32lt k.top (u a)
  let i (a : Nat) : Nat := k.cell (k.clampU (u a))
  let f (a : Nat) : Nat := f32sub (k.clampU (u a)) (f32OfInt (i a))
  let v (x y z : Nat) : Nat := k.at_ (i 0 + x) (i 1 + y) (i 2 + z)
  let d := lerp (bilerp (v 0 0 0) (v 1 0 0) (v 0 1 0) (v 1 1 0) (f 0) (f 1))
    (bilerp (v 0 0 1) (v 1 0 1) (v 0 1 1) (v 1 1 1) (f 0) (f 1)) (f 2)
  let dx (y z : Nat) : Nat := f32sub (v 1 y z) (v 0 y z)
  let dy (x z : Nat) : Nat := f32sub (v x 1 z) (v x 0 z)
  let dz (x y : Nat) : Nat := f32sub (v x y 1) (v x y 0)
  let g := [bilerp (dx 0 0) (dx 1 0) (dx 0 1) (dx 1 1) (f 1) (f 2), bilerp (dy 0 0) (dy 1 0) (dy 0 1) (dy 1 1) (f 0) (f 2),
    bilerp (dz 0 0) (dz 1 0) (dz 0 1) (dz 1 1) (f 0) (f 1)]
  (d, g.zipIdx.map fun (x, a) => if clip a then 0 else f32div x k.s)

/-- R451: the samples at the corners of the cells that a box touches; none where a bound is no number. -/
def brickRange (k : Brick) (a : Nat) (x : Itv) : Option (List Nat) :=
  let lo := k.u a x.lo
  let hi := k.u a x.hi
  if x.bad || f32nan lo || f32nan hi then none
  else
    let i := k.cell (k.clampU lo)
    let j := k.cell (k.clampU hi)
    some ((List.range (j + 2 - i)).map (· + i))

/-- R451: interval mode, and whether a NaN is possible. -/
def brickItv (k : Brick) (x y z : Itv) : Itv × Bool :=
  match brickRange k 0 x, brickRange k 1 y, brickRange k 2 z with
  | some xs, some ys, some zs =>
    let hs := xs.flatMap fun i => ys.flatMap fun j => zs.map fun l => Fmt.f16.decode (k.half i j l)
    if hs.any fun v => match v with | .fin _ _ _ => false | _ => true then (Itv.whole, true)
    else
      let m := hs.foldl xmin2 (.inf false)
      let mx := hs.foldl xmax2 (.inf true)
      let w := (hs.foldl (fun a b => xmax2 a b.abs) xzero).scale (-20)
      ((outItv (XR.add .rn m w.negate).1 (XR.add .rn mx w).1 0 true).v, false)
  | _, _, _ => (Itv.whole, true)

/-! ### Evaluation -/

/-- How an evaluation reaches memory and calls: reads of virtual memory, and the answer to a call with its index, argument byte
and the bounds of its point (none: R450's pre-pass rule). -/
structure BcEnv where
  rd : Nat → Nat → Eval (List Byte)
  call : Nat → Nat → List Itv → Option (Eval Itv)

section Run
variable {α : Type} (M : Mode α) (env : BcEnv) (point : Bool)

/-- R446: the first nonzero tag. -/
def firstTag {β : Type} (l : List (β × Nat)) : Nat := ((l.map (·.2)).find? (· != 0)).getD 0

/-- R451. -/
def runBrick (bc : Bytecode) (i : Nat) (x y z : α) : Eval α :=
  (getBrick env.rd 0xA3 (pair64 (at? 0 bc.consts i) (at? 0 bc.consts (i + 1)))).andThen fun k =>
    if point then M.ofItv { lo := (brickSample k [(M.hull x).lo, (M.hull y).lo, (M.hull z).lo]).1, hi := 0 } false
    else
      let r := brickItv k (M.hull x) (M.hull y) (M.hull z)
      M.ofItv r.1 r.2

/-- R443: an opcode on the values it pops, deepest first: what it pushes, deepest first. -/
def runOp (bc : Bytecode) (coords : List α) (op : BcOp) (vs : List (α × Nat)) : Eval (List (α × Nat)) :=
  let t := firstTag vs
  let i := op.args.headD 0
  let k (j : Nat) : Nat := at? 0 bc.consts (i + j)
  let one (m : Eval α) : Eval (List (α × Nat)) := m.andThen fun v => .ret [(v, t)]
  match op.code, vs with
  | 0x01, _ => .ret [(M.const (k 0), 0)]
  | 0x05, [a] => .ret [a, a]
  | 0x06, [a, b] => .ret [b, a]
  | 0x07, _ => .ret []
  | 0x08, [a] => .ret [(a.1, i + 256 * at? 0 op.args 1)]
  | 0x10, [a, b] => one (M.add a.1 b.1)
  | 0x11, [a, b] => one (M.sub a.1 b.1)
  | 0x12, [a, b] => one (M.mul a.1 b.1)
  | 0x13, [a, b] => one (M.div a.1 b.1)
  | 0x14, [a, b] => (M.min a.1 b.1).andThen fun v => .ret [(v, if M.pickB false a.1 b.1 then b.2 else a.2)]
  | 0x15, [a, b] => (M.max a.1 b.1).andThen fun v => .ret [(v, if M.pickB true a.1 b.1 then b.2 else a.2)]
  | 0x16, [a, b] => (stepSmin M a.1 b.1 (k 0)).andThen fun v => .ret [(v, if M.pickB false a.1 b.1 then b.2 else a.2)]
  | 0x17, [a, b] =>
    one ((M.div a.1 b.1).andThen fun q => (M.floor q).andThen fun f => (M.mul b.1 f).andThen fun m => M.sub a.1 m)
  | 0x18, [a] => one (M.neg a.1)
  | 0x19, [a] => one (M.abs a.1)
  | 0x1A, [a] => one (M.sq a.1)
  | 0x1B, [a] => one (M.sqrt a.1)
  | 0x1C, [a] => one (M.floor a.1)
  | 0x1D, [a] => one (M.clamp a.1 (k 0) (k 1))
  | 0x1E, [a] => one (M.sin a.1)
  | 0x1F, [a] => one (M.cos a.1)
  | 0x20, [a, b, c, d] => one (dot2 M a.1 b.1 c.1 d.1)
  | 0x21, [a, b, c, d, e, f] => one (dot3 M a.1 b.1 c.1 d.1 e.1 f.1)
  | 0x22, [a, b] => one (len2 M a.1 b.1)
  | 0x23, [a, b, c] => one (len3 M a.1 b.1 c.1)
  | 0x24, [x, y, z] =>
    let row (r : Nat) : Eval (α × Nat) :=
      let c (j : Nat) : α := M.const (k (4 * r + j))
      (dot3 M x.1 y.1 z.1 (c 0) (c 1) (c 2)).andThen fun d => (M.add d (c 3)).andThen fun v => .ret (v, t)
    Eval.each row [0, 1, 2]
  | 0x38, [x, y, z] => one (runBrick M env point bc i x.1 y.1 z.1)
  | 0x3C, [x, y, z] =>
    (match env.call i (at? 0 op.args 1) [M.hull x.1, M.hull y.1, M.hull z.1] with
      | some m => one (m.andThen fun r => .ret (M.ofCall r))
      | none => (M.ofItv Itv.whole false).andThen fun v => .ret [(v, 0)])
  | code, [x, y, z] => one (stepPrim M code x.1 y.1 z.1 ((List.range 7).map fun j => M.const (k j)))
  | code, _ => .ret [(at? (M.const 0) coords (code - 2), 0)]

/-- The opcodes through the end, on a stack whose top is first. -/
def runOps (bc : Bytecode) (coords : List α) : List BcOp → List (α × Nat) → Eval (α × Nat)
  | [], st => .ret (st.headD (M.const 0, 0))
  | op :: rest, st =>
    if op.code = 0 then .ret (st.headD (M.const 0, 0))
    else
      let n := match opShape op.code with | some (_, n, _, _) => n | none => 0
      (runOp M env point bc coords op (st.take n).reverse).andThen fun out =>
        runOps bc coords rest (out.reverse ++ st.drop n)

/-- R442: one evaluation: the value that end pops and its tag. -/
def evalBc (bc : Bytecode) (coords : List α) : Eval (α × Nat) := fun w =>
  runOps M env point bc coords bc.ops [] { w with syms := 0 }

end Run

def evalPoint (env : BcEnv) (bc : Bytecode) (p : List Nat) : Eval (Nat × Nat) := evalBc pointMode env true bc p
def evalItv (env : BcEnv) (bc : Bytecode) (box : List Itv) : Eval (Itv × Nat) :=
  (evalBc itvMode env false bc (box.map IV.of)).andThen fun r => .ret (r.1.v, r.2)
def evalAff (env : BcEnv) (bc : Bytecode) (xs : List Aff) : Eval (Itv × Nat) :=
  (evalBc affMode env false bc xs).andThen fun r => .ret (r.1.enclosure, r.2)

/-- R439, R441: a bytecode read by the given step, or the cause: the header, and only under a good one the rest. -/
def loadBc (rd : Nat → Nat → Eval (List Byte)) (addr : Nat) : Eval (Bytecode × List Byte) :=
  if addr % 4 != 0 then .fail 0xA4
  else (rd addr 8).andThen fun h =>
    if bcHeadBad h then .fail 0xA4
    else (rd (addr + 8) (bcTotal h - 8)).andThen fun rest =>
      match parseBc (h ++ rest) with
      | .ok bc => .ret (bc, h ++ rest)
      | .error c => .fail c

/-! ### The pre-pass rewrite (R452 to R454) -/

/-- A value of the pre-pass: its interval, its number, the opcode that produced it and the first opcode of its span. -/
structure PVal where
  v : IV
  tag : Nat
  id : Nat
  at_ : Nat
  from_ : Nat

/-- R452: the values that each opcode consumed, deepest first, in the order of the opcodes. -/
def pruneTrace (env : BcEnv) (bc : Bytecode) (box : List IV) : List BcOp → Nat → Nat → List PVal → Eval (List (List PVal))
  | [], _, _, _ => .ret []
  | op :: rest, j, id, st =>
    let n := match opShape op.code with | some (_, n, _, _) => n | none => 0
    let ins := (st.take n).reverse
    if op.code = 0 then .ret [ins]
    else
      (runOp itvMode env false bc box op (ins.map fun p => (p.v, p.tag))).andThen fun out =>
        let first := match ins with | p :: _ => p.from_ | [] => j
        let new := out.zipIdx.map fun (x, m) => { v := x.1, tag := x.2, id := id + m, at_ := j, from_ := first : PVal }
        (pruneTrace env bc box rest (j + 1) (id + out.length) (new.reverse ++ st.drop n)).andThen fun l => .ret (ins :: l)

/-- R452: whether the span of a value is closed. -/
def spanClosed (ops : List BcOp) (ins : List (List PVal)) (p : PVal) : Bool :=
  (ops.zip ins).zipIdx.all fun ((op, l), j) =>
    let inside := decide (p.from_ ≤ j) && decide (j ≤ p.at_)
    !(inside && (op.code = 5 || op.code = 6 || op.code = 7))
    && l.all fun q =>
      let made := decide (p.from_ ≤ q.at_) && decide (q.at_ ≤ p.at_)
      if inside then made else !made || q.id = p.id

/-- What the rewrite does with each opcode: the code it keeps, none where it is removed. -/
abbrev Kept := List (Option BcOp)

/-- Opcodes of a range removed. -/
def removeSpan (kept : Kept) (a b : Nat) : Kept :=
  kept.zipIdx.map fun (x, j) => if decide (a ≤ j) && decide (j ≤ b) then none else x

/-- R453: the rule of an opcode. -/
def pruneRule (bc : Bytecode) (ins : List (List PVal)) (kept : Kept) (j : Nat) : Kept :=
  match at? none kept j with
  | none => kept
  | some op =>
    let k (n : Nat) : Nat := at? 0 bc.consts (op.args.headD 0 + n)
    match op.code, at? [] ins j with
    | 0x14, [a, b] => choose a b (if f32lt a.v.v.hi b.v.v.lo then some b else if f32lt b.v.v.hi a.v.v.lo then some a else none) kept
    | 0x15, [a, b] => choose a b (if f32lt b.v.v.hi a.v.v.lo then some b else if f32lt a.v.v.hi b.v.v.lo then some a else none) kept
    | 0x16, [a, b] =>
      let d := (a.v.sub b.v).v
      if f32fin (k 0) && f32lt 0 (k 0) && (!f32lt d.lo (k 0) || !f32lt (f32neg (k 0)) d.hi) then
        choose a b (if f32lt a.v.v.hi b.v.v.lo then some b else if f32lt b.v.v.hi a.v.v.lo then some a else none)
          (setAt kept j (some { code := 0x14, args := [] }))
      else kept
    | 0x1D, [a] => if f32lt (k 0) a.v.v.lo && f32lt a.v.v.hi (k 1) then setAt kept j none else kept
    | 0x19, [a] =>
      if f32lt 0 a.v.v.lo then setAt kept j none
      else if f32lt a.v.v.hi 0 then setAt kept j (some { code := 0x18, args := [] }) else kept
    | _, _ => kept
where
  /-- R453: the span of the operand that cannot win is removed with the opcode, where both spans are closed. -/
  choose (a b : PVal) (lose : Option PVal) (kept : Kept) : Kept :=
    match lose with
    | some p =>
      if spanClosed bc.ops ins a && spanClosed bc.ops ins b then setAt (removeSpan kept p.from_ p.at_) j none else kept
    | none => kept

/-- R454: the greatest depth of a stream. -/
def maxDepth : List BcOp → Nat → Nat
  | [], d => d
  | op :: rest, d =>
    match opShape op.code with
    | some (_, pops, pushes, _) => max d (maxDepth rest (d - pops + pushes))
    | none => d

/-- R452 to R454: the specialised bytecode. -/
def pruneBc (env : BcEnv) (bc : Bytecode) (box : List Itv) : Eval (List Byte) :=
  (pruneTrace env bc (box.map IV.of) bc.ops 0 0 []).andThen fun ins =>
    let kept := (List.range bc.ops.length).foldl (pruneRule bc ins) (bc.ops.map some)
    let ops := kept.filterMap id
    let stream := ops.flatMap fun op => op.code :: op.args
    .ret (toBytes 2 stream.length ++ toBytes 1 (maxDepth ops 0) ++ toBytes 1 bc.consts.length ++ toBytes 2 (bc.flags ||| 1)
      ++ toBytes 1 1 ++ toBytes 1 0 ++ (bc.consts.flatMap (toBytes 4)) ++ stream.flatMap (toBytes 1))

end Sys2Proof.Machine
end

