-- ==== Sys2Proof/Machine/Tasks.lean ====
section
/-!
DEFINITION. Launches and tasks: the descriptor (spec/04 R95, R96), the queues of the distributor (spec/05 R104, R117), spawns,
homes and the task queue (spec/06 R131 to R145), and the instructions tspawn, targ, tqry, pclose and launch (spec/17 R418 to
R422).
-/
namespace Sys2Proof.Machine

/-! ### The launch descriptor (R95) -/

/-- What reading a descriptor gives. -/
inductive DescRes where
  | ok (d : Desc)
  | fault (kind va : Nat)
  | invalid

/-- R95: a code address of a context. -/
def State.codeOk (s : State) (ctx e : Nat) : Bool :=
  e % 4 = 0 && decide ((s.ctx ctx).codeBase ≤ e) && decide (e < (s.ctx ctx).codeBase + s.codeBytes ctx)

/-- Whether bytes of a range are all zero. -/
def zeroAt (bs : List Byte) (o n : Nat) : Bool := numAt bs o n = 0

/-- R95: what a descriptor says of its member, and whether it is within limits. -/
def memberOf (bs : List Byte) : Member :=
  { entry := numAt bs 0 8, named := numAt bs 0x2C 1, waves := numAt bs 0x2D 1, scratch := numAt bs 0x30 4 }
def State.memberOk (s : State) (ctx : Nat) (m : Member) : Bool :=
  s.codeOk ctx m.entry && [8, 16, 32, 48, 64].contains m.named && decide (1 ≤ m.waves) && decide (m.waves ≤ 32)
    && decide ((m.waves + 3) / 4 ≤ min 32 (196608 / (2048 + 128 * m.named)))
    && m.scratch % 256 = 0 && decide (m.scratch ≤ 1310720)
/-- The fields of a member's descriptor that must be zero. -/
def memberZero (bs : List Byte) : Bool :=
  zeroAt bs 8 0x24 && zeroAt bs 0x2E 2 && zeroAt bs 0x34 0x4C

/-- R95: a pipe binding, and its bits that must be zero. -/
def bindingOf (w : Nat) : Option Binding :=
  if bit w 31 then
    some { prod := bits w 29 2, prodPipe := bits w 27 2, cons := bits w 25 2, consPipe := bits w 23 2, size := bits w 0 13 }
  else none

/-- No element occurs twice. -/
def distinct : List Nat → Bool
  | [] => true
  | x :: l => !l.contains x && distinct l

/-- The pipe storage bound to a member, in bytes. -/
def pipeBytes (ps : List Binding) (m : Nat) : Nat := ((ps.filter fun b => b.cons = m).map fun b => 4 * b.size).foldl (· + ·) 0

/-- R95: the bindings are within limits. -/
def bindingsOk (ms : List Member) (ps : List Binding) : Bool :=
  ps.all (fun b => decide (b.prod < ms.length) && decide (b.cons < ms.length) && decide (1 ≤ b.size) && decide (b.size ≤ 4096))
    && distinct (ps.map fun b => 4 * b.prod + b.prodPipe) && distinct (ps.map fun b => 4 * b.cons + b.consPipe)
    && (ms.zipIdx.all fun (m, j) => decide (m.scratch + pipeBytes ps j ≤ 1310720))

/-- R95: the descriptor of 128 bytes with the descriptors of its further members. -/
def State.parseDesc (s : State) (ctx : Nat) (bs : List Byte) (more : List (List Byte)) : Option Desc :=
  let ms := memberOf bs :: more.map memberOf
  let x := numAt bs 0x20 4
  let y := numAt bs 0x24 4
  let z := numAt bs 0x28 4
  let words := (List.range 4).map fun j => numAt bs (0x58 + 4 * j) 4
  let ps := words.filterMap bindingOf
  let flags := numAt bs 0x34 4
  let ok := ms.all (s.memberOk ctx) && more.all memberZero
    && numAt bs 0x10 8 % 8 = 0
    && [x, y, z].all (fun g => g != 0) && decide (x * y * z < 2 ^ 48)
    && decide (numAt bs 0x2F 1 < 8) && decide (flags < 8) && zeroAt bs 0x38 8 && zeroAt bs 0x68 24
    && words.all (fun w => bits w 13 10 = 0) && bindingsOk ms ps
    && (!bit flags 1 || (x = 1 && y = 1 && z = 1 && ms.length = 1 && numAt bs 0x2D 1 = 1))
  if ok then
    some { args := numAt bs 8 8, doneAddr := numAt bs 0x10 8, doneVal := BitVec.ofNat 64 (numAt bs 0x18 8), total := x * y * z
           prio := numAt bs 0x2F 1, pre := bit flags 0, task := bit flags 1, rend := bit flags 2, members := ms, pipes := ps }
  else none

/-- Reads the descriptors of further members. -/
def State.readMembers (core : Option Nat) (ctx : Nat) : List Nat → State → Except (Nat × Nat) (List (List Byte)) × State
  | [], s => (.ok [], s)
  | a :: rest, s =>
    match s.readVirt core ctx a 128 Access.read with
    | (.error e, s) => (.error e, s)
    | (.ok b, s) =>
      match State.readMembers core ctx rest s with
      | (.error e, s) => (.error e, s)
      | (.ok bs, s) => (.ok (b :: bs), s)

/-- R92, R422: a descriptor is read through the context's page tables. -/
def State.readDesc (s : State) (core : Option Nat) (ctx addr : Nat) : DescRes × State :=
  match s.readVirt core ctx addr 128 Access.read with
  | (.error (k, va), s) => (.fault k va, s)
  | (.ok bs, s) =>
    let n := numAt bs 0x2E 1
    let mem := (List.range 3).map fun j => numAt bs (0x40 + 8 * j) 8
    if n = 0 || decide (4 < n) || (mem.drop (n - 1)).any (fun a => a != 0) || (mem.take (n - 1)).any (fun a => a % 128 != 0) then
      (.invalid, s)
    else
      match State.readMembers core ctx (mem.take (n - 1)) s with
      | (.error (k, va), s) => (.fault k va, s)
      | (.ok more, s) =>
        match s.parseDesc ctx bs more with
        | some d => (.ok d, s)
        | none => (.invalid, s)

/-! ### The distributor's queues (R104, R117) -/

/-- R130: the SCH_STAT counters, in the order of R129. -/
def State.schStat (s : State) (i n : Nat) : State :=
  { s with sched := { s.sched with stats := bump s.sched.stats i n } }

/-- R117: a reservation is given up: its resources are free again. -/
def State.cancelReserve (s : State) : State :=
  match s.sched.reserve with
  | none => s
  | some r =>
    let s := r.gangs.foldl (fun s (g, core, _) =>
      s.onCore core fun c => { c with allocs := c.allocs.filter fun a => a.gang != g }) s
    { s with sched := { s.sched with reserve := none } }

/-- A launch by its number. -/
def State.launch? (s : State) (id : Nat) : Option Launch := s.sched.launches.find? fun l => l.id = id
def State.onLaunch (s : State) (id : Nat) (f : Launch → Launch) : State :=
  { s with sched := { s.sched with launches := s.sched.launches.map fun l => if l.id = id then f l else l } }

/-- The effective priority of a launch (R104), by the CEIL that its context has now (R84). -/
def State.effPrio (s : State) (ctx p : Nat) : Nat := min p (s.ctx ctx).ceil

/-- R104, R117: a launch joins its queue; a reservation of lower priority is cancelled. -/
def State.enqueue (s : State) (l : Launch) : State :=
  let l := { l with id := s.sched.nextLaunch, time := s.dev.tsNow }
  let lower := match s.sched.reserve.bind fun r => s.launch? r.launch with
    | some x => decide (s.effPrio x.ctx x.prio < s.effPrio l.ctx l.prio)
    | none => false
  let s := if lower then s.cancelReserve.schStat 1 1 else s
  { s with sched := { s.sched with launches := s.sched.launches ++ [l], nextLaunch := s.sched.nextLaunch + 1 } }

/-- A launch of a descriptor, not yet in a queue. -/
def Launch.of (ctx : Nat) (d : Desc) (k1 prio src : Nat) : Launch where
  id := 0
  ctx := ctx
  desc := d
  k1 := BitVec.ofNat 64 k1
  prio := prio
  time := 0
  src := src
  nextIdx := 0
  live := 0
  saved := []
  arm := none
  node := none
  tasks := none
  rays := []
  mesh := none
  rstate := 0

/-! ### Records and folds (R131 to R137) -/

/-- R134: the NAMED code. -/
def namedCode (n : Nat) : Nat := if n = 8 then 0 else if n = 16 then 1 else if n = 32 then 2 else if n = 48 then 3 else 4
def namedOf (c : Nat) : Nat := if c = 0 then 8 else if c = 1 then 16 else if c = 2 then 32 else if c = 3 then 48 else 64

/-- R134: the image of a record. -/
def TaskRec.image (r : TaskRec) : List Byte :=
  let m := r.oper + 2 ^ 4 * r.prio + 2 ^ 7 * b2n r.rend + 2 ^ 8 * r.nwords + 2 ^ 12 * namedCode r.named + 2 ^ 15 * b2n r.pre
    + 2 ^ 16 * r.scr + 2 ^ 29 * b2n r.orig
  (r.pay.flatMap fun (w : W32) => toBytes 4 w.toNat) ++ toBytes 8 r.entry.toNat ++ toBytes 4 r.key.toNat ++ toBytes 4 m
    ++ toBytes 4 r.folds.toNat ++ toBytes 4 0 ++ toBytes 8 r.born.toNat
    ++ (if r.orig then toBytes 8 r.doneAddr.toNat ++ toBytes 8 r.doneVal.toNat
          ++ toBytes 2 (match r.arm with | some a => a | none => 2 ^ 15)
        else List.replicate 18 0)
    ++ toBytes 2 r.ctx ++ List.replicate 44 0

/-- R134: a record from its image. -/
def TaskRec.ofImage (b : List Byte) : TaskRec :=
  let m := numAt b 0x2C 4
  { pay := (List.range 8).map fun j => BitVec.ofNat 32 (numAt b (4 * j) 4)
    entry := BitVec.ofNat 64 (numAt b 0x20 8), key := BitVec.ofNat 32 (numAt b 0x28 4), orig := bit m 29, scr := bits m 16 13
    pre := bit m 15, named := namedOf (bits m 12 3), nwords := bits m 8 4, rend := bit m 7, prio := bits m 4 3, oper := bits m 0 4
    folds := BitVec.ofNat 32 (numAt b 0x30 4), born := BitVec.ofNat 64 (numAt b 0x38 8)
    doneAddr := BitVec.ofNat 64 (numAt b 0x40 8), doneVal := BitVec.ofNat 64 (numAt b 0x48 8)
    arm := if bit (numAt b 0x50 2) 15 then none else some (bits (numAt b 0x50 2) 0 12), ctx := bits (numAt b 0x52 2) 0 6 }

/-- R136: the record that a spawn creates. -/
def TaskRec.fresh (r : TaskRec) : TaskRec :=
  if r.oper = 11 then { r with pay := r.pay.take 1 ++ List.replicate 7 0, nwords := 1 } else { r with nwords := 0 }

/-- R136: minimumNumber and the sum of FP32 with the canonical NaN. -/
def foldAdd (a b : Nat) : Nat := (Fmt.f32.add .rn a b).v
def argLess (s w : Nat) : Bool :=
  let x := Fmt.f32.decode s
  let y := Fmt.f32.decode w
  ltZero x y || (y.isNan && !x.isNan)

/-- R136: the payload after a fold of a spawn's payload into a record's. -/
def foldPay (oper nwords : Nat) (w s : List W32) : List W32 :=
  let w0 : W32 := at? 0 w 0
  let s0 : W32 := at? 0 s 0
  let first (v : Nat) : List W32 := setAt w 0 (BitVec.ofNat 32 v)
  match oper with
  | 1 => setAt w 0 (w0 + s0)
  | 2 => first (foldAdd w0.toNat s0.toNat)
  | 3 => if s0.toInt < w0.toInt then setAt w 0 s0 else w
  | 4 => if w0.toInt < s0.toInt then setAt w 0 s0 else w
  | 5 => first (Fmt.f32.minNum w0.toNat s0.toNat).v
  | 6 => setAt w 0 (w0 ||| s0)
  | 7 => setAt w 0 (w0 &&& s0)
  | 9 => s
  | 10 => if argLess s0.toNat w0.toNat then setAt (setAt w 0 s0) 1 (at? 0 s 1) else w
  | 11 => setAt w nwords s0
  | 12 => setAt w 0 (w0 + 1)
  | _ => w

/-- R136: a fold of a spawn into a record. -/
def TaskRec.fold (w s : TaskRec) : TaskRec :=
  { w with pay := foldPay w.oper w.nwords w.pay s.pay
           nwords := if w.oper = 11 then w.nwords + 1 else w.nwords
           folds := if w.folds = BitVec.allOnes 32 then w.folds else w.folds + 1
           prio := max w.prio s.prio, rend := w.rend || s.rend }

/-! ### Homes (R135, R139 to R141) -/

/-- R135. -/
def homeOf (key : W32) : Nat := ((key * 0x9E3779B1#32) >>> 28).toNat

def State.home (s : State) (h : Nat) : Home := Sparse.get Home.reset s.ctq.homes h
def State.setHome (s : State) (h : Nat) (x : Home) : State :=
  { s with ctq := { s.ctq with homes := Sparse.set Home.reset s.ctq.homes h x } }
/-- R150: the CTQ_STAT counters, in the order of R149. -/
def State.ctqStat (s : State) (i n : Nat) : State := { s with ctq := { s.ctq with stats := bump s.ctq.stats i n } }

/-- A spawn is on its way to its home (R135). DEDUCED (log 8): it arrives in the cycle of the SPAWN_ARRIVE that takes it up. -/
def State.present (s : State) (x : Spawn) : State :=
  let h := homeOf x.rec_.key
  s.setHome h { s.home h with spawns := (s.home h).spawns ++ [x] }

/-- R133: whether a record that waits takes a spawn. -/
def HomeRec.takes (w : HomeRec) (r : TaskRec) : Bool :=
  !w.sealed_ && r.oper != 0 && w.rec_.ctx = r.ctx && w.rec_.entry = r.entry && w.rec_.key = r.key && w.rec_.oper = r.oper

/-- A list with the first element that meets a test replaced. -/
def mapFirst {α : Type} (p : α → Bool) (f : α → α) : List α → List α
  | [] => []
  | x :: l => if p x then f x :: l else x :: mapFirst p f l

/-- R140, R141: a spawn that needs a record of its own: the home, the spill ring, or none has room. -/
def State.createRec (s : State) (h : Nat) (r : TaskRec) (came : Nat) : Option State :=
  let c := s.ctx r.ctx
  let x := s.home h
  if x.recs.length < 2048 then
    some ((s.setHome h { x with recs := x.recs ++ [{ rec_ := r.fresh, sealed_ := false, into := none, arrived := came }] }).ctqStat 2 1)
  else if c.ctqLog2 != 0 && decide (c.ctqPidx - c.ctqCidx < 2 ^ c.ctqLog2) then
    let s := s.writePhys (c.ctqBase + 128 * (c.ctqPidx % 2 ^ c.ctqLog2)) r.fresh.image none
    let s := s.onCtx r.ctx fun c => { c with ctqPidx := c.ctqPidx + 1 }
    let times := Sparse.get [] s.ctq.spills r.ctx ++ [s.plinth]
    some (State.ctqStat { s with ctq := { s.ctq with spills := Sparse.set [] s.ctq.spills r.ctx times } } 3 1)
  else none

/-- R139: one spawn at its home, by the cycle of its arrival; whether it was accepted. -/
def State.treat (s : State) (h : Nat) (r : TaskRec) (came : Nat) : State × Bool :=
  let x := s.home h
  match x.recs.find? fun w => w.takes r with
  | some w =>
    if w.rec_.oper = 11 && decide (8 ≤ w.rec_.nwords) then
      let s := (s.setHome h { x with recs := mapFirst (fun w => w.takes r) (fun w => { w with sealed_ := true }) x.recs }).ctqStat 4 1
      match s.createRec h r came with
      | some s => (s.ctqStat 0 1, true)
      | none => (s, false)
    else
      (((s.setHome h { x with recs := mapFirst (fun w => w.takes r) (fun w => { w with rec_ := w.rec_.fold r }) x.recs }).ctqStat
        1 1).ctqStat 0 1, true)
  | none =>
    match s.createRec h r came with
    | some s => (s.ctqStat 0 1, true)
    | none => (s, false)

/-- R142, R422: a spawn is accepted: a tspawn is over with its last lane, and the token of a launch counts one less. -/
def State.spawnAccepted (s : State) (x : Spawn) : State :=
  match x.who with
  | .none => s
  | .launch g idx op =>
    match s.slotOf (some (g, idx)) with
    | some k => s.completeOp k op
    | none => s
  | .lane g idx l =>
    match s.keyOf (some (g, idx)) with
    | none => s
    | some k =>
      let s := s.onWave k fun w => { w with spawned := w.spawned ||| 2 ^ l }
      match s.waitOf k, s.pending k with
      | .spawns, some i =>
        if i.ex.all fun l => bit i.w.spawned l then
          s.finish k fun i => Iss.done { i with w := { i.w with spawned := 0 } }
        else s
      | _, _ => s

/-- R139: the spawns at a home in arrival order; those that find no room stay. -/
def State.arrivals (h : Nat) : List Spawn → State → List Spawn × State
  | [], s => ([], s)
  | x :: xs, s =>
    match s.treat h x.rec_ (x.came.getD s.plinth) with
    | (s, true) => State.arrivals h xs (s.spawnAccepted x)
    | (s, false) =>
      let (l, s) := State.arrivals h xs s
      (x :: l, s)

/-- R135: a spawn among those of the same cycle, by source number; those of one source keep their order. -/
def srcInsert (x : Spawn) : List Spawn → List Spawn
  | [] => [x]
  | y :: l => if x.src ≤ y.src then x :: y :: l else y :: srcInsert x l

/-- R135: the spawns at a home in arrival order, now that those on their way have arrived. -/
def Home.inOrder (x : Home) (now : Nat) : List Spawn :=
  (x.spawns.filter fun y => y.came.isSome)
    ++ ((x.spawns.filter fun y => y.came.isNone).foldr srcInsert []).map fun y => { y with came := some now }

/-! ### Gathering (R143 to R145) -/

/-- R143: the task waves of a home and context that are not committed. -/
def State.uncommitted (s : State) (h ctx : Nat) : Nat :=
  (s.sched.launches.filter fun l => l.ctx = ctx && l.nextIdx = 0 && (match l.tasks with
    | some t => t.home = h
    | none => false)).length

/-- R143: whether two records belong to one group. -/
def TaskRec.group (a b : TaskRec) : Bool := a.ctx = b.ctx && a.entry = b.entry && a.named = b.named && a.scr = b.scr

/-- R256: the ENTRY of a task record, forwarded as the record is gathered. -/
def State.forwardRec (s : State) (r : TaskRec) : TaskRec :=
  { r with entry := BitVec.ofNat 64 (s.forward r.ctx r.entry.toNat) }

/-- R145: the launch of a formed wave. -/
def State.taskLaunch (s : State) (h : Nat) (rs : List TaskRec) : State :=
  match rs.map s.forwardRec with
  | [] => s
  | r :: l =>
    let rs := r :: l
    let d : Desc :=
      { args := rs.length, doneAddr := 0, doneVal := 0, total := 1, prio := 0, pre := rs.all (·.pre), task := false
        rend := rs.any (·.rend), members := [{ entry := r.entry.toNat, named := r.named, waves := 1, scratch := 256 * r.scr }]
        pipes := [] }
    let l := Launch.of r.ctx d 0 ((rs.map (·.prio)).foldl max 0) (0x080 + h)
    ((s.enqueue { l with tasks := some { home := h, recs := rs } }).ctqStat 5 1).ctqStat 6 rs.length

/-- R143, R144: the records of a home that may be selected. -/
def State.eligible (s : State) (h : Nat) (w : HomeRec) : Bool :=
  w.into.isNone && decide (s.uncommitted h w.rec_.ctx < s.ctq.qmax)

/-- R144: from which plinth cycle on the group of a record is taken: at once if it is full, else when its oldest record has the age
CTQ_GATHER_WAIT.WAIT. -/
def groupDue (wait : Nat) (es : List HomeRec) (w : HomeRec) : Nat :=
  let g := es.filter fun x => x.rec_.group w.rec_
  if 32 ≤ g.length then 0 else (match g with | o :: _ => o.arrived | [] => w.arrived) + wait

/-- R144: the first plinth cycle whose gatherer step forms a wave of the records that a home has. -/
def State.gatherDue (s : State) (h : Nat) : Option Nat :=
  let es := (s.home h).recs.filter (s.eligible h)
  match es.map (groupDue s.ctq.wait es) with
  | [] => none
  | c :: cs => some (max (s.home h).nextGather (cs.foldl min c))

/-- R144: the record that leads the group a home takes in a cycle: the first eligible one whose group is due. -/
def State.gatherLead (s : State) (h cycle : Nat) : Option HomeRec :=
  let es := (s.home h).recs.filter (s.eligible h)
  es.find? fun w => decide (groupDue s.ctq.wait es w ≤ cycle)

/-- R139: whether the gatherer has a step to make before the home treats the spawns of this cycle. -/
def State.gatherFirst (s : State) (h : Nat) : Bool :=
  match s.gatherDue h with
  | some c => decide (c ≤ s.plinth)
  | none => false

/-- SPAWN_ARRIVE: R139: a home treats its spawns once in a cycle, after its gatherer step. -/
def State.spawnArrive (s : State) (h : Nat) : State :=
  if decide (s.plinth < (s.home h).nextArrive) || s.gatherFirst h then s
  else
    let (left, s) := State.arrivals h ((s.home h).inOrder s.plinth) s
    let x := s.home h
    s.setHome h { x with spawns := left, nextArrive := s.plinth + 1, nextGather := max x.nextGather (s.plinth + 1) }

def execSpawnArrive (home : Nat) (s : State) : Res := .next (s.spawnArrive home)

/-- The first `n` elements that meet a test, changed. -/
def mapFirstN {α : Type} (p : α → Bool) (f : α → α) : Nat → List α → List α
  | _, [] => []
  | 0, l => l
  | n + 1, x :: l => if p x then f x :: mapFirstN p f n l else x :: mapFirstN p f (n + 1) l

/-- R144, R145: the gatherer step of a home in a plinth cycle. -/
def State.gatherAt (s : State) (h cycle : Nat) : State :=
  match s.gatherLead h cycle with
  | none => s
  | some o =>
    let x := s.home h
    let sel (w : HomeRec) : Bool := s.eligible h w && w.rec_.group o.rec_
    let rs := ((x.recs.filter sel).take 32).map (·.rec_)
    let id := s.sched.nextLaunch
    (s.setHome h { x with
      recs := mapFirstN sel (fun w => { w with sealed_ := true, into := some id }) 32 x.recs
      nextGather := cycle + 1 }).taskLaunch h rs

/-- GATHER_STEP: the first step of the gatherer that forms a wave, if its cycle has come. -/
def State.gather (s : State) (h : Nat) : State :=
  match s.gatherDue h with
  | some c => if c ≤ s.plinth then s.gatherAt h c else s
  | none => s

def execGatherStep (home : Nat) (s : State) : Res := .next (s.gather home)

/-- The record at a place of a context's spill ring. -/
def State.spillRec (s : State) (ctx n : Nat) : TaskRec :=
  let c := s.ctx ctx
  TaskRec.ofImage (s.peekPhys (c.ctqBase + 128 * (n % 2 ^ c.ctqLog2)) 128)

/-- R144: the records at the head of a context's ring that share a group, where they are full in number or old enough. -/
def State.spillGroup (s : State) (ctx : Nat) : List TaskRec :=
  let c := s.ctx ctx
  match (List.range (c.ctqPidx - c.ctqCidx)).map fun j => s.spillRec ctx (c.ctqCidx + j) with
  | [] => []
  | r :: l =>
    let rs := ((r :: l).takeWhile fun x => x.group r).take 32
    let old := match Sparse.get [] s.ctq.spills ctx with | t :: _ => decide (t + s.ctq.wait ≤ s.plinth) | [] => true
    if decide (s.uncommitted 16 ctx < s.ctq.qmax) && (rs.length = 32 || old) then rs else []

/-- R144: the context that the spill gatherer serves. DEDUCED (log 8): 'one context at a time in ascending context number' means the
lowest-numbered context whose ring holds a group to take, one wave a cycle. -/
def State.spillTurn (s : State) : Option Nat := (List.range 64).find? fun c => !(s.spillGroup c).isEmpty

/-- SPILL_GATHER: R144: a wave of the records at the head of a context's ring. -/
def State.spillGather (s : State) (ctx : Nat) : State :=
  if decide (s.plinth < s.ctq.spillNext) || s.spillTurn != some ctx then s
  else
    let c := s.ctx ctx
    let rs := s.spillGroup ctx
    let times := Sparse.get [] s.ctq.spills ctx
    let s := (List.range rs.length).foldl (fun (s : State) j =>
      s.readsAt (c.ctqBase + 128 * ((c.ctqCidx + j) % 2 ^ c.ctqLog2)) 128) s
    let s := s.onCtx ctx fun c => { c with ctqCidx := c.ctqCidx + rs.length }
    let s := { s with ctq := { s.ctq with
      spills := Sparse.set [] s.ctq.spills ctx (times.drop rs.length), spillNext := s.plinth + 1 } }
    s.taskLaunch 16 (rs.map fun x => { x with ctx := ctx })

def execSpillGather (ctx : Nat) (s : State) : Res := .next (s.spillGather ctx)

/-! ### A launch or a task from a descriptor (R92, R96, R422) -/

/-- R96: the record of a task descriptor. -/
def State.descRec (s : State) (ctx : Nat) (d : Desc) (prio : Nat) (pay : List Byte) (arm : Option Nat) : TaskRec :=
  let m := at? { entry := 0, named := 8, waves := 1, scratch := 0 } d.members 0
  { pay := (List.range 8).map fun j => BitVec.ofNat 32 (numAt pay (4 * j) 4)
    entry := BitVec.ofNat 64 m.entry, key := 0, orig := true, scr := m.scratch / 256, pre := d.pre, named := m.named, nwords := 0
    rend := d.rend, prio := prio, oper := 0, folds := 1, born := s.dev.tsNow, doneAddr := BitVec.ofNat 64 d.doneAddr
    doneVal := d.doneVal, arm := arm, ctx := ctx }

/-- R92, R96, R422: what a valid descriptor starts: a launch in its queue, or the spawn of its task. -/
def State.startDesc (s : State) (ctx : Nat) (d : Desc) (k1 prio src : Nat) (pay : List Byte) (arm : Option Nat) (who : Spawner) :
    State :=
  if d.task then s.present { rec_ := s.descRec ctx d prio pay arm, who := who, src := src, came := none }
  else s.enqueue { Launch.of ctx d k1 prio src with arm := arm }

/-! ### The instructions -/

/-- The effective priority at which a wave runs. -/
def Iss.prio (i : Iss) : Nat := match i.s.gang? i.w.gang with | some G => G.prio | none => 0
/-- R423: whether the wave's launch renders. -/
def Iss.rend (i : Iss) : Bool := match i.s.gang? i.w.gang with | some G => G.rend | none => false

/-- R132: whether a task header is valid. -/
def headerOk (h : Nat) : Bool :=
  bits h 32 32 = 0 && bits h 24 8 = 0x5A && bits h 21 3 = 0 && decide (bits h 8 13 ≤ 5120)
    && [8, 16, 32, 48, 64].contains (bits h 0 8)

/-- The entry of a tspawn, and its header's place. -/
def Iss.taskEntry (i : Iss) : Nat := i.uni64 i.v.a
def Iss.headerAcc (i : Iss) : List LaneAcc :=
  [{ lane := i.ex.headD 0, a := (i.taskEntry + 2 ^ 64 - 8) % 2 ^ 64, n := 8 }]

/-- R131: the spawn of a lane. -/
def Iss.spawnOf (i : Iss) (h l : Nat) : Spawn :=
  { rec_ :=
      { pay := (i.w.span l i.v.c 8).map (BitVec.ofNat 32), entry := BitVec.ofNat 64 i.taskEntry
        key := BitVec.ofNat 32 (i.w.operand i.v .i32 [] l i.v.b), orig := false, scr := bits h 8 13, pre := true
        named := bits h 0 8, nwords := 0, rend := i.rend, prio := i.prio, oper := bits i.v.md 6 4, folds := 1
        born := i.s.dev.tsNow, doneAddr := 0, doneVal := 0, arm := none, ctx := i.w.ctx }
    who := .lane i.w.gang i.w.idx l, src := coreSrc i.core, came := none }

/-- R142, R418: the lanes not yet accepted present their spawns, and the wave waits for them. -/
def Iss.spawnAll (i : Iss) (s : State) (h : Nat) : State :=
  let ls := i.ex.filter fun l => !bit i.w.spawned l
  if ls.isEmpty then Iss.done { i with s := s, w := { i.w with spawned := 0 } }
  else ls.foldl (fun s l => s.present (i.spawnOf h l)) (s.setWave i.key { i.w with wait := .spawns })

def runTspawn (v : View) (s : State) : Res :=
  issueGlobalW rowTspawn v s Access.read (fun _ => false) Iss.headerAcc (fun _ => []) (Iss.ownedHold Iss.headerAcc)
    (fun i => (if 13 ≤ bits v.md 6 4 then [Cz.plain 0x8C i.ex] else [])
      ++ (if i.s.codeOk i.w.ctx i.taskEntry then [] else [Cz.plain 0x8D i.ex]))
    fun i ls =>
      let (b, s) := readLanes ls i.s
      let h := match b with | (_, b) :: _ => ofBytes b | [] => 0
      if headerOk h then .ok (i.spawnAll s h) else .error (Cz.plain 0x8D i.ex)
def execTspawn (f : LongF) (s : State) : Res := runTspawn f.view s

/-- Whether the gang of a wave runs tasks (R419). -/
def Iss.isTask (i : Iss) : Bool := match i.s.gang? i.w.gang with | some G => G.task || G.callable | none => false

/-- R419: a word of the record of the lane. -/
def aluTarg : Alu where
  ta := tI
  tb := tNo
  tc := tNo
  lat := latT
  dom := fun _ => domInt
  sgn := sgnNo
  stale := fun _ => false
  causes := fun i =>
    (if !i.ex.isEmpty && decide (12 < i.w.operand i.v .i32 [] 0 i.v.a) then [Cz.plain 0x03 i.ex] else [])
    ++ (if i.isTask then [] else [Cz.plain 0x92 i.ex])
  fn := fun i l a _ _ => .word (numAt (i.w.lane l).task (4 * a) 4)
def execTarg (f : LongF) (s : State) : Res := runAlu aluTarg rowTarg f.view s

/-- R420: the records of a context with an entry in the homes and the spill ring. -/
def State.countTasks (s : State) (ctx entry : Nat) : Nat :=
  let homes := (List.range 16).map fun h => ((s.home h).recs.filter fun w => w.rec_.ctx = ctx && w.rec_.entry.toNat = entry).length
  let c := s.ctx ctx
  let ring := (List.range (c.ctqPidx - c.ctqCidx)).filter fun j => (s.spillRec ctx (c.ctqCidx + j)).entry.toNat = entry
  min (2 ^ 32 - 1) (homes.foldl (· + ·) 0 + ring.length)

/-- R420: the pipe that a raw index names: the one bound in, else the one bound out, and which it is. -/
def Iss.rawPipe (i : Iss) : Option (Bool × Pipe) :=
  match i.s.pipeEnd i.w.gang i.v.aRaw true, i.s.pipeEnd i.w.gang i.v.aRaw false with
  | some (_, _, p), _ => some (true, p)
  | none, some (_, _, p) => some (false, p)
  | none, none => none

/-- R420. -/
def aluTqry : Alu where
  ta := fun v => if v.sub = 0 then some .i64 else none
  tb := tNo
  tc := tNo
  lat := latT
  dom := fun _ => domInt
  sgn := sgnNo
  stale := fun _ => false
  causes := fun i => if i.v.sub != 0 && i.rawPipe.isNone then [Cz.plain 0x87 i.ex] else []
  fn := fun i _ a _ _ =>
    if i.v.sub = 0 then .word (i.s.countTasks i.w.ctx a)
    else match i.rawPipe with
      | some (inn, p) => if i.v.sub = 1 then .word (if inn then p.count else p.size - p.count) else .pred p.closed
      | none => .word 0
def execTqry (f : LongF) (s : State) : Res := runAlu aluTqry rowTqry f.view s

/-- R421. -/
def runPclose (v : View) (s : State) : Res :=
  issue rowPclose v s
    (fun i => if (i.s.pipeEnd i.w.gang v.aRaw false).isNone then [Cz.plain 0x87 i.ex] else []) fun i =>
    match i.ex, i.s.pipeEnd i.w.gang v.aRaw false with
    | _ :: _, some (g, j, p) => i.commit (i.s.setPipe g j { p with closed := true }) (i.addToken i.w) i.at_
    | _, _ => i.commit i.s (i.addToken i.w) i.at_
def execPclose (f : LongF) (s : State) : Res := runPclose f.view s
def execPcloseShort (f : ShortF) (s : State) : Res := runPclose f.view s

/-- A cause of a read that the device makes for an instruction. -/
def Iss.readFault (i : Iss) (s : State) (k va : Nat) : State :=
  { i with s := s }.fail ({ Cz.plain (memCause k Access.read) i.ex with maddr := va }.onePage false)

/-- R422: launch. -/
def runLaunch (v : View) (s : State) : Res :=
  issue rowLaunch v s (fun i => if !i.ex.isEmpty && i.uni64 v.a % 128 != 0 then [Cz.plain 0x91 i.ex] else []) fun i =>
    if i.ex.isEmpty then i.commit i.s (i.addToken i.w) i.at_
    else
      let a := i.uni64 v.a
      if i.s.owned i.w.ctx i.core false [{ lane := 0, a := a, n := 128 }] then i.stall (.retry .copy)
      else
        match i.s.readDesc (some i.core) i.w.ctx a with
        | (.fault k va, s) => i.readFault s k va
        | (.invalid, s) => { i with s := s }.fail (Cz.plain 0x91 i.ex)
        | (.ok d, s) =>
          let go (pay : List Byte) (s : State) : State :=
            let (who, w) :=
              if v.ts = 0 then (Spawner.none, i.w)
              else (Spawner.launch i.w.gang i.w.idx i.w.nextOp, i.addOp i.w (if d.task then .spawn else .result))
            i.commit (s.startDesc i.w.ctx d 0 d.prio (coreSrc i.core) pay none who) w i.at_
          if d.task then
            match s.readVirt (some i.core) i.w.ctx d.args 32 Access.read with
            | (.error (k, va), s) => i.readFault s k va
            | (.ok pay, s) => go pay s
          else go [] s
def execLaunch (f : LongF) (s : State) : Res := runLaunch f.view s

end Sys2Proof.Machine
end

