-- ==== Sys2Proof/Machine/Units.lean ====
section
/-!
DEFINITION. What the marcher and the traversal unit share (spec/11 R262 to R268): rays and how they go on, the depth atomic,
calls and their callable waves, fault batches, and the record forms of the instructions (spec/17 R423, R425).
-/
namespace Sys2Proof.Machine

/-! ### Records (R262, R265, R275, R423) -/

/-- R423: the record address of a lane. -/
def Iss.recA (i : Iss) (l : Nat) : Nat :=
  wrap ((i.w.operand i.v .i64 [] 0 i.v.a : Nat) + (i.w.operand i.v .i32 [] l i.v.b % 2 ^ 32 : Nat) + i.v.disp) 64

/-- R423: 0xB2 in a wave whose launch does not render. -/
def Iss.rendCz (i : Iss) : List Cz := if i.rend then [] else [Cz.plain 0xB2 i.ex]

/-- A cause of the lanes in Exec that meet a condition, with their address. -/
def Iss.badLanes (i : Iss) (code : Nat) (a : Nat → Nat) (bad : Nat → Bool) : List Cz :=
  laneCz (i.ex.filterMap fun l => if bad l then some ⟨code, l, a l⟩ else none)

/-- The record accesses of the lanes in Exec. -/
def Iss.recAccs (i : Iss) (n : Nat) : List LaneAcc := i.ex.map fun l => { lane := l, a := i.recA l, n := n }

/-- Fields that march and trace records share: origin, direction, interval, FLAGS, USER, DEPTH. -/
def recO (b : List Byte) : List Nat := (List.range 3).map fun j => numAt b (4 * j) 4
def recD (b : List Byte) : List Nat := (List.range 3).map fun j => numAt b (0x10 + 4 * j) 4
def recTmin (b : List Byte) : Nat := numAt b 0x0C 4
def recTmax (b : List Byte) : Nat := numAt b 0x1C 4
def recFlags (b : List Byte) : Nat := numAt b 0x28 4
def recUser (b : List Byte) : Nat := numAt b 0x2C 4
def recDepth (b : List Byte) : Nat := numAt b 0x30 8
def recView (b : List Byte) : Nat := bits (recFlags b) 16 7
def recEps (b : List Byte) : Nat := bits (recFlags b) 0 16

/-- R262: 0 ≤ TMIN ≤ TMAX with TMAX finite, and a finite direction that is not zero. -/
def recLineOk (b : List Byte) : Bool :=
  f32fin (recTmax b) && !f32nan (recTmin b) && !f32lt (recTmin b) 0 && !f32lt (recTmax b) (recTmin b)
    && (recD b).all f32fin && (recD b).any fun d => f32abs d != 0

/-- R265: a result record: T, three words, MAT, USER, STATUS, CODE. -/
def resultRec (ws : List Nat) : List Byte := ws.flatMap (toBytes 4)
def missRec (user status code : Nat) : List Byte := resultRec [fPosInf, 0, 0, 0, 0, user, status, code]

/-- R264: the point at t on a line, one multiply-add a component. -/
def pointAt (o d : List Nat) (t : Nat) : List Nat := (o.zip d).map fun (o, d) => f32fma t d o

/-! ### The depth key and its atomic (R266) -/

/-- A row of a matrix of FP32 values applied to a point, exactly. -/
def rowTimes (m : List Nat) (p : List Nat) : XR :=
  ((m.zip (p ++ [0x3F800000])).map fun (a, b) => (XR.mul (fx a) (fx b)).1).foldl (fun s x => (XR.add .rn s x).1) xzero

/-- R266: the key of a point under a matrix: −clip_z / clip_w, rounded once; `free` where the spec states none. -/
def depthKeyOf (m : List Nat) (p : List Nat) (free : W32) : Nat :=
  let z := rowTimes ((m.drop 8).take 4) p
  let w := rowTimes ((m.drop 12).take 4) p
  match z, w with
  | .fin _ mz _, .fin _ mw _ =>
    if mw = 0 then free.toNat else if mz = 0 then 0x80000000 else f32rnd .rn (XR.div z w).1.negate
  | _, _ => free.toNat

/-- R266: the depth atomic of a unit: 1 where the key replaced the stored one. -/
def depthAtomic (core : Option Nat) (ctx va key : Nat) : Eval (List Byte) := Eval.ask fun s =>
  match State.translatePieces core ctx Access.engAtomic [(va, 4)] s with
  | (.error (k, x), s) => (.error (.fault k x true), s)
  | (.ok ps, s) =>
    match Access.engAtomic.rule ps with
    | some k => (.error (.fault k va true), s)
    | none =>
      let fs := s.flawsOf core false ps
      let s := s.checkMem fs
      if fs.any Flaw.fatal then (.error (.fault 8 va true), s)
      else
        let (b, s) := (s.closePieces ps).readPieces ps
        let old := ofBytes b
        if old != key && f32min old key = key then (.ok [1], s.writeAtomic (partsOf ps (toBytes 4 key)))
        else (.ok [0], s)

/-- R266: the depth step of a hit: the raster state block that %rstate named, its view table and matrix, then the atomic.
`inv` is the cause of a VIEW that the block does not have. -/
def writeDepth (core : Option Nat) (ctx rstate view depth : Nat) (p : List Nat) : Eval Nat :=
  let rd := readFor core ctx Access.engRead
  (rd rstate 16).andThen fun b =>
    if numAt b 8 4 ≤ view then .fail 0xB1
    else (rd ((numAt b 0 8 + 64 * view) % 2 ^ 64) 64).andThen fun mb =>
      let m := (List.range 16).map fun j => numAt mb (4 * j) 4
      Eval.andThen (fun w => (.ok (depthKeyOf m p (Config.depthKey w.s.freeCtr)), { w with s := w.s.fresh.2 })) fun key =>
        (depthAtomic core ctx depth key).andThen fun r => .ret (numAt r 0 1)

/-! ### Calls (R267, R450) -/

/-- R267: a call of the routine at an entry, whose task header gives the shape; the answer's bytes. -/
def callRoutine (core : Option Nat) (ctx entry : Nat) (payload : List Nat) : Eval (List Byte) :=
  (readFor core ctx Access.engRead ((entry + 2 ^ 64 - 8) % 2 ^ 64) 8).andThen fun h => fun w =>
    let h := ofBytes h
    if headerOk h && w.s.codeOk ctx entry then
      Eval.ask (fun s => (.error (.call entry (bits h 0 8) (bits h 8 13) payload), s)) w
    else (.error (.fail 0xA6), w)

/-- R267, R450: a call of bytecode through CALLTAB. The length of a table is a free value, of at least one entry (log 78). -/
def bcCall (core : Option Nat) (ctx calltab : Nat) (itv : Bool) (n g : Nat) (box : List Itv) : Eval Itv :=
  if calltab = 0 || decide (Config.callTableRest calltab + 1 ≤ n) then .fail 0xA6
  else (readFor core ctx Access.engRead ((calltab + 8 * n) % 2 ^ 64) 8).andThen fun e =>
    (callRoutine core ctx (ofBytes e) ((box.flatMap fun x => [x.lo, x.hi]) ++ [b2n itv + 2 ^ 8 * g])).andThen fun a =>
      .ret { lo := numAt a 0 4, hi := numAt a 4 4 }

/-! ### Rays -/

/-- A unit of a core: the marcher or the traversal unit. -/
inductive UnitKind where
  | march | trace
  deriving DecidableEq, Repr

def Core.raysOf (c : Core) : UnitKind → List Ray
  | .march => c.rays
  | .trace => c.travRays
def State.setRays (s : State) (core : Nat) (k : UnitKind) (l : List Ray) : State :=
  s.onCore core fun c => match k with | .march => { c with rays := l } | .trace => { c with travRays := l }
def State.raysOf (s : State) (core : Nat) (k : UnitKind) : List Ray := (s.core core).raysOf k
def State.ray? (s : State) (core : Nat) (k : UnitKind) (id : Nat) : Option Ray := (s.raysOf core k).find? fun r => r.id = id
def State.onRay (s : State) (core : Nat) (k : UnitKind) (id : Nat) (f : Ray → Ray) : State :=
  s.setRays core k ((s.raysOf core k).map fun r => if r.id = id then f r else r)

/-- The number of a unit among those that post fault batches, and its source number (R28). -/
def unitOf (core : Nat) : UnitKind → Nat
  | .march => 0x100 + core
  | .trace => 0x200 + core
def unitSrc (u : Nat) : Nat := if 0x200 ≤ u then u - 0x100 else u

/-- R425: the rays of a wave's lane that have not been delivered, oldest first; lantern rays are not counted. -/
def Ray.isOf (r : Ray) (w : Wave) (l : Nat) : Bool := r.gang = w.gang && r.idx = w.idx && r.lane = l
def State.laneRays (s : State) (core : Nat) (k : UnitKind) (w : Wave) (l : Nat) : List Ray :=
  (s.raysOf core k).filter fun r => r.isOf w l && !r.lantern

/-- R265, R425: a ray has its result: it is counted, and its instruction counts one ray less; a lantern ray, or one whose wave
has left, is dropped. -/
def State.endRay (s : State) (core : Nat) (k : UnitKind) (r : Ray) (res : List Byte) : State :=
  let s := if r.lantern || (s.wave? r.wave).isNone then s.setRays core k ((s.raysOf core k).filter fun x => x.id != r.id)
    else s.onRay core k r.id fun r => { r with stat := .done, result := res, log := [] }
  let s := s.perf core r.ctx (match k with | .march => 8 | .trace => 9) 1
  (s.countDown r.wave r.op).wake .rays

/-- The status of a ray that a cause ends: 5 for an invalid ray, else 4 (R262, R265, R275). -/
def failStatus (code : Nat) : Nat := if code = 0xA9 || code = 0xAA || code = 0xB1 then 5 else 4

/-- R265, R280: a ray that a cause ends; a lantern ray is dropped and its wave told (R245). -/
def State.failRay (s : State) (core : Nat) (k : UnitKind) (r : Ray) (code : Nat) : State :=
  let s := if r.lantern then s.asyncCause r.wave code 0 else s
  s.endRay core k r (missRec (recUser r.record) (failStatus code) code)

/-- R268: the kinds of faults at which a ray parks. -/
def parks (kind : Nat) : Bool := kind = 0 || kind = 1 || kind = 15

/-- A ray run on from its log. -/
def Ray.walk (r : Ray) (f : Eval (List Byte)) (s : State) : Except Stop (List Byte) × Walker :=
  f { s := s, seen := r.log, log := r.log, syms := 0 }

/-! ### Fault batches (R268) -/

/-- Whether a fault joins an open batch: kind 0 in reach of page 0, while fewer than 16 pages are listed. -/
def Batch.takes (b : Batch) (p : Parked) : Bool :=
  decide (p.cause < 0x44) && p.ctx = b.ctx && decide (b.pages.length < 16)
    && (match b.pages with
      | (q, _) :: _ => decide (p.page ≤ q + 32767 * 4096) && decide (q ≤ p.page + 32767 * 4096)
      | [] => true)

/-- A page added once. -/
def addPage (l : List (Nat × Bool)) (p : Nat) (w : Bool) : List (Nat × Bool) :=
  if l.any fun x => x.1 = p then l.map fun x => if x.1 = p then (p, x.2 || w) else x else l ++ [(p, w)]

/-- R268: a unit parks a ray on a fault. -/
def parkIn (unit : Nat) (p : Parked) : List Batch → List Batch
  | [] => [{ unit := unit, ctx := p.ctx, cause := p.cause, pages := [(p.page, p.w)], rays := [p.ray], later := [], posted := none }]
  | b :: bs =>
    if b.unit = unit && b.posted.isNone then
      (if b.takes p then { b with pages := addPage b.pages p.page p.w, rays := b.rays ++ [p.ray] }
        else { b with later := b.later ++ [p] }) :: bs
    else b :: parkIn unit p bs

def State.park (s : State) (unit : Nat) (p : Parked) : State := { s with batches := parkIn unit p s.batches }

/-- R240, R268: the batch that a unit collects is posted; those that had to wait for it start their own. -/
def State.postBatch (s : State) (unit : Nat) : State :=
  match s.batches.find? fun b => b.unit = unit && b.posted.isNone with
  | none => s
  | some b =>
    if s.fqFull b.ctx then s
    else
      let p := s.fqPidx b.ctx
      let cause := if decide (b.cause < 0x44) then 0x43 else b.cause
      let s := s.postFault b.ctx (faultEntry s.now (unitSrc unit) cause 3 0 b.pages)
      let s : State := { s with batches := s.batches.map fun x =>
        if x.unit = unit && x.posted.isNone then { x with posted := some p, later := [] } else x }
      b.later.foldl (fun s p => s.park unit p) s

/-- R268 step 4: the rays of the posted batches of a unit that FQ_CIDX has passed go on. -/
def State.resumeParked (s : State) (unit : Nat) : State :=
  let ended (b : Batch) : Bool := b.unit = unit && (match b.posted with | some p => decide (p < s.fqCidx b.ctx) | none => false)
  let ids := (s.batches.filter ended).flatMap (·.rays)
  let s : State := { s with batches := s.batches.filter fun b => !ended b }
  let go (s : State) (k : UnitKind) (core : Nat) : State :=
    s.setRays core k ((s.raysOf core k).map fun r => if ids.contains r.id then { r with stat := .run } else r)
  if 0x200 ≤ unit then go s .trace (unit - 0x200)
  else if unit < 0x1C0 then go s .march (unit - 0x100)
  else s

def execFaultBatchPost (unit : Nat) (s : State) : Res := .next (s.postBatch unit)
def execParkedRayResume (unit : Nat) (s : State) : Res := .next (s.resumeParked unit)

/-! ### The callable gatherer (R267) -/

/-- R267, R144: the records of a core's gatherer that form the next wave: those of the oldest one's group that is full or old
enough. -/
def State.callGroup (s : State) (core : Nat) : List CallRec :=
  let cs := (s.core core).calls
  let group (c : CallRec) : List CallRec := cs.filter fun x => x.ctx = c.ctx && x.entry = c.entry && x.named = c.named && x.scr = c.scr
  match cs.find? fun c => decide (32 ≤ (group c).length) || decide (c.arrived + s.ctq.wait ≤ s.plinth) with
  | some c => (group c).take 32
  | none => []

/-- The record of a callable wave's lane (R134, R267). -/
def CallRec.rec_ (c : CallRec) : TaskRec where
  pay := c.payload
  entry := c.entry
  key := 0
  orig := false
  scr := c.scr
  pre := true
  named := c.named
  nwords := 0
  rend := true
  prio := c.prio
  oper := 0
  folds := 1
  born := c.born
  doneAddr := 0
  doneVal := 0
  arm := none
  ctx := c.ctx

/-- CALLABLE_GATHER: R267: a wave of calls is enqueued. -/
def State.gatherCalls (s : State) (core : Nat) : State :=
  match s.callGroup core with
  | [] => s
  | c :: cs =>
    -- R256: ENTRY is forwarded here
    let g := (c :: cs).map fun x => { x with entry := BitVec.ofNat 64 (s.forward x.ctx x.entry.toNat) }
    let s := s.onCore core fun k => { k with calls := k.calls.filter fun x => !(g.any fun y => y.handle = x.handle) }
    let d : Desc :=
      { args := g.length, doneAddr := 0, doneVal := 0, total := 1, prio := 0, pre := true, task := false, rend := true
        members := [{ entry := s.forward c.ctx c.entry.toNat, named := c.named, waves := 1, scratch := 256 * c.scr }], pipes := [] }
    let l := Launch.of c.ctx d 0 ((g.map (·.prio)).foldl max 0) (coreSrc core)
    s.enqueue { l with tasks := some { home := 17, recs := g.map CallRec.rec_ }, rays := g.map fun x => (core, x.handle.toNat) }

def execCallableGather (core : Nat) (s : State) : Res := .next (s.gatherCalls core)

/-- The suspended ray of a core that a handle names (R267, R278). -/
def State.calledRay (s : State) (core : Nat) (k : UnitKind) (h : Nat) : Option Ray :=
  (s.raysOf core k).find? fun r => r.stat = .called && r.handle.toNat = h

/-- R267, R278: a suspended ray is answered and goes on. -/
def State.answerRay (s : State) (core : Nat) (k : UnitKind) (id : Nat) (ans : List Byte) : State :=
  s.onRay core k id fun r => { r with stat := .run, log := r.log ++ [ans] }

/-- R267: a callable wave that is over leaves the rays that it has not answered with 0xA6. -/
def State.abandonCalls (s : State) (l : Launch) : State :=
  l.rays.foldl (fun s (core, h) =>
    [UnitKind.march, UnitKind.trace].foldl (fun (s : State) k =>
      match s.calledRay core k h with
      | some r => s.failRay core k r 0xA6
      | none => s) s) s

/-- A ray suspends at a call: it takes a handle, and its record goes to the gatherer; `put` completes payload and state. -/
def State.suspend (s : State) (core : Nat) (k : UnitKind) (r : Ray) (entry named scr : Nat) (log : List (List Byte))
    (put : W32 → List Nat × List Byte) : State :=
  let h : W32 := Config.rayHandleBase + BitVec.ofNat 32 s.sched.nextRay
  let (pay, saved) := put h
  let c : CallRec :=
    { ctx := r.ctx, handle := h, entry := BitVec.ofNat 64 entry, named := named, scr := scr
      payload := pay.map (BitVec.ofNat 32), prio := r.prio, arrived := s.plinth, born := s.dev.tsNow }
  let s : State := { s with sched := { s.sched with nextRay := s.sched.nextRay + 1 } }
  (s.onRay core k r.id fun r => { r with stat := .called, log := log, handle := h, saved := saved }).onCore core fun x =>
    { x with calls := x.calls ++ [c] }

/-! ### Submission and results (R423 to R426) -/

/-- R423: whether a lane has room for another ray of the unit; lantern rays count. -/
def State.rayRoom (s : State) (core : Nat) (k : UnitKind) (w : Wave) (l : Nat) : Bool :=
  decide (((s.raysOf core k).filter fun r => r.isOf w l).length < 16)

/-- The rays that an instruction gives to a unit, one a lane. -/
def Iss.submit (i : Iss) (k : UnitKind) (affine lantern : Bool) (area : Nat → Nat) : State :=
  let op := i.w.nextOp
  let rays := i.ex.zipIdx.map fun (l, j) =>
    { id := i.s.sched.nextRay + j, wave := i.key, gang := i.w.gang, idx := i.w.idx, lane := l, op := op, ctx := i.w.ctx
      prio := i.prio, record := i.s.spRead i.core (i.recA l) 64, affine := affine, lantern := lantern, area := area l
      rstate := i.w.rstateSeen, stat := .run, log := [], handle := 0, saved := [], result := [] : Ray }
  let s := i.s.setRays i.core k (i.s.raysOf i.core k ++ rays)
  let s : State := { s with sched := { s.sched with nextRay := s.sched.nextRay + rays.length } }
  i.commit s (i.addOp i.w (.rays rays.length)) i.at_

/-- R425: the CODE of a delivered record that has STATUS 4 or 5. -/
def resultCode (b : List Byte) : Option Nat :=
  let st := numAt b 0x18 1
  if st = 4 || st = 5 then some (numAt b 0x1C 4) else none

/-- R425: mchres and rayres. -/
def runResults (r : Row) (k : UnitKind) (v : View) (s : State) : Res :=
  issue r v s
    (fun i => i.scratchCz 0x69 (i.recAccs 32) ++ i.badLanes 0x03 i.recA (fun l => i.recA l % 16 != 0) ++ i.rendCz
      ++ i.badLanes 0xB3 i.recA fun l => (i.s.laneRays i.core k i.w l).isEmpty) fun i =>
    let rays := i.ex.filterMap fun l => ((i.s.laneRays i.core k i.w l).head?).map fun x => (l, x)
    if i.s.owned i.w.ctx i.core true (i.recAccs 32) then i.stall (.retry .copy)
    else if rays.any fun x => x.2.stat != .done then i.stall (.retry .rays)
    else if i.s.readsA i.core i.key (i.recAccs 32) then i.stall (.retry .array)
    else
      let s := rays.foldl (fun s x => State.spWrite s i.core (i.recA x.1) x.2.result) i.s
      let s := s.setRays i.core k ((s.raysOf i.core k).filter fun y => !(rays.any fun x => x.2.id = y.id))
      let s := (s.objCheck i.core).wake .rays
      match rays.filterMap fun x => (resultCode x.2.result).map fun c => (x.1, c) with
      | [] => i.commit s (i.addToken i.w) i.at_
      | (l, c) :: rest => i.failAfter (s.setWave i.key i.w) (Cz.plain c (l :: rest.map (·.1)))

end Sys2Proof.Machine
end

