-- ==== Sys2Proof/Machine/Marcher.lean ====
section
/-!
DEFINITION. The marcher: march rays (spec/11 R262 to R267), the steps of its rays, and the instructions mch, mchres, raysus.march,
bfetch, prune and fbrun (spec/17 R424 to R431).
-/
namespace Sys2Proof.Machine

/-! ### A march (R262, R264, R265) -/

/-- Fields of a march record. -/
def mchMode (b : List Byte) : Nat := bits (recFlags b) 24 2
def mchSpc (b : List Byte) : Bool := bit (recFlags b) 26
def noDepth (b : List Byte) : Bool := bit (recFlags b) 23
def mchBc (b : List Byte) : Nat := numAt b 0x20 8
def mchTab (b : List Byte) : Nat := numAt b 0x38 8
/-- R266: whether the ray writes depth. -/
def mchDepth (b : List Byte) : Bool := recDepth b != 0 && !noDepth b

/-- R262, R266: whether a march record is invalid. -/
def mchInvalid (b : List Byte) (affine : Bool) (rstate : W64) : Bool :=
  bits (recFlags b) 27 5 != 0 || mchMode b = 3 || (mchMode b = 1 && !affine) || !recLineOk b || recDepth b % 4 != 0
    || (mchDepth b && rstate = 0)

/-- A read of a gang's scratchpad by the marcher (R262: SPC); 0x6B outside the allocation. -/
def readScratch (core gang a n : Nat) : Eval (List Byte) := Eval.ask fun s =>
  if s.inAlloc gang a n then (.ok (s.spRead core a n), s) else (.error (.fail 0x6B), s)

/-- R262: how the marcher reads the bytecode of a ray: virtual memory, or the scratchpad. -/
def bcReader (spc : Bool) (core ctx gang : Nat) : Nat → Nat → Eval (List Byte) :=
  if spc then readScratch core gang else readFor (some core) ctx Access.engRead

/-- ε, 2^-10, and ε · max(t, 2^-10) (R264, R265). -/
def epsOf (b : List Byte) : XR := .fin false (recEps b) (-20)
def epsAt (eps : XR) (t : Nat) : XR :=
  (XR.mul eps (if (fx t).lt (.fin false 1 (-10)) then .fin false 1 (-10) else fx t)).1

/-- R264: whether a point value is a hit at t. -/
def hitsAt (eps : XR) (t f : Nat) : Bool := f32nan f || f32lt f 0 || (fx f).abs.lt (epsAt eps t)

/-- What the march of a segment or ray gives: a hit with its STATUS and tag, the step limit, or nothing, with the steps left. -/
inductive MarchOut where
  | hit (t status tag : Nat)
  | limit
  | passed (left : Nat)
  deriving DecidableEq, Repr

/-- A field along a line: point and segment evaluations. -/
structure Field where
  point : List Nat → Eval (Nat × Nat)
  seg : Nat → Nat → Eval (Itv × Nat)

/-- R264: point-mode sphere tracing from t while t < b, with so many steps left before the limit. -/
def tracePoint (F : Field) (o d : List Nat) (eps : XR) (b : Nat) : Nat → Nat → Eval MarchOut
  | 0, t => if f32lt t b then (F.point (pointAt o d t)).andThen fun _ => .ret .limit else .ret (.passed 0)
  | left + 1, t =>
    if f32lt t b then
      (F.point (pointAt o d t)).andThen fun r =>
        if hitsAt eps t r.1 then .ret (.hit t 1 r.2) else tracePoint F o d eps b left (f32add t r.1)
    else .ret (.passed (left + 1))

/-- R264: the segments of a ray; `fuel` is more than the splits of any ray that ends. -/
def traceSegs (F : Field) (o d : List Nat) (eps : XR) (byPoint : Bool) (limit : XR) :
    Nat → Nat → List (Nat × Nat) → Eval MarchOut
  | 0, _, _ => .stop .endless
  | _, left, [] => .ret (.passed left)
  | fuel + 1, left, (a, b) :: rest =>
    let pt : Eval MarchOut := (tracePoint F o d eps b left a).andThen fun r =>
      match r with
      | .passed left => traceSegs F o d eps byPoint limit fuel left rest
      | r => .ret r
    if byPoint then pt
    else
      (F.seg a b).andThen fun r =>
        if f32lt 0 r.1.lo then traceSegs F o d eps byPoint limit fuel left rest
        else if f32lt r.1.hi 0 then .ret (.hit a 2 r.2)
        else if limit.lt (XR.add .rn (fx b) (fx a).negate).1 then
          let m := f32rnd .rn ((XR.add .rn (fx a) (fx b)).1.scale (-1))
          traceSegs F o d eps byPoint limit fuel left ((a, m) :: (m, b) :: rest)
        else pt

/-- R264: the march of a line over [lo, hi]. -/
def march (F : Field) (o d : List Nat) (lo hi : Nat) (eps : XR) (byPoint : Bool) (maxStep : Nat) : Eval MarchOut :=
  traceSegs F o d eps byPoint ((XR.add .rn (fx hi) (fx lo).negate).1.scale (-6)) 4096 maxStep [(lo, hi)]

/-- R264: the box of a segment: each coordinate over [a, b], rounded outward; of an origin that is a NaN, NaNs. -/
def segBox (o d : List Nat) (a b : Nat) : List Itv := (o.zip d).map fun (o, d) =>
  let at_ (t : Nat) : XR := (XR.fma .rn (fx t) (fx d) (fx o)).1
  let p := at_ a
  let q := at_ b
  { lo := f32rnd .rd (if q.lt p then q else p), hi := f32rnd .ru (if p.lt q then q else p) }

/-- R448: the affine coordinates of a segment. -/
def segAff (o d : List Nat) (a b : Nat) : List Aff :=
  let tm := f32rnd .rn ((XR.add .rn (fx a) (fx b)).1.scale (-1))
  let h := f32rnd .ru ((XR.add .rn (fx b) (fx a).negate).1.scale (-1))
  (o.zip d).map fun (o, d) =>
    let c := f32fma tm d o
    let x := f32mul h d
    let sum := [fx c, fx x, (XR.mul (fx tm) (fx d)).1].foldl (fun s y => (XR.add .rn s y.abs).1) xzero
    Aff.fix { c := c, x := [x, 0, 0, 0], e := f32rnd .ru (sum.scale (-22)) }

/-- R265: the gradient along an axis at a point, with half width h. -/
def gradAxis (F : Field) (p : List Nat) (h : XR) (axis : Nat) : Eval Nat :=
  let moved (h : XR) : List Nat := setAt p axis (f32rnd .rn (XR.add .rn (fx (at? 0 p axis)) h).1)
  (F.point (moved h)).andThen fun u => (F.point (moved h.negate)).andThen fun v =>
    .ret (f32rnd .rn (XR.div (XR.add .rn (fx u.1) (fx v.1).negate).1 (h.scale 1)).1)

/-- g / |g|, each component rounded once; a zero g gives zeros. -/
def unitOfG (g : List Nat) : List Nat :=
  if g.all fun x => f32abs x = 0 then g.map fun _ => 0
  else
    let s := g.foldl (fun s x => (XR.add .rn s (XR.mul (fx x) (fx x)).1).1) xzero
    g.map fun x =>
      let m := (XR.sqrt (XR.div (XR.mul (fx x) (fx x)).1 s).1).1
      f32rnd .rn (if (fx x).neg? then m.negate else m)

/-- R265: the normal at a hit. -/
def normalAt (F : Field) (p : List Nat) (h : XR) : Eval (List Nat) :=
  (Eval.each (gradAxis F p h) [0, 1, 2]).andThen fun g => .ret (unitOfG g)

/-- R264, R265: the field of a bytecode along a line. -/
def bcField (env : Bool → BcEnv) (bc : Bytecode) (o d : List Nat) (affine : Bool) : Field where
  point p := evalPoint (env false) bc p
  seg a b := if affine then evalAff (env true) bc (segAff o d a b) else evalItv (env true) bc (segBox o d a b)

/-- MCH_CFG.MAXSTEP of a core; 0 counts as 1 (R288). -/
def State.maxSteps (s : State) (core : Nat) : Nat := max 1 (s.core core).maxStep

/-- R439: whether bytecode declares that it has no affine form (NOAFF). -/
def Bytecode.noAff (b : Bytecode) : Bool := bit b.flags 1

/-- R264 to R266: the result record of a march ray. -/
def marchRay (core : Nat) (r : Ray) : Eval (List Byte) := fun w =>
  let b := r.record
  if mchInvalid b r.affine r.rstate then (.ok (missRec (recUser b) 5 0xA9), w)
  else
    let o := recO b
    let d := recD b
    let env (itv : Bool) : BcEnv :=
      { rd := readFor (some core) r.ctx Access.engRead, call := fun n g box => some (bcCall (some core) r.ctx (mchTab b) itv n g box) }
    let eps := epsOf b
    ((loadBc (bcReader (mchSpc b) core r.ctx r.gang) (mchBc b)).andThen fun bc =>
      let F := bcField env bc.1 o d (mchMode b = 1 && !bc.1.noAff)
      (march F o d (recTmin b) (recTmax b) eps (mchMode b = 2) (w.s.maxSteps core)).andThen fun out =>
        match out with
        | .passed _ => .ret (missRec (recUser b) 0 0)
        | .limit => .ret (missRec (recUser b) 3 0)
        | .hit t st tag =>
          let p := pointAt o d t
          (normalAt F p (epsAt eps t)).andThen fun n =>
            (if mchDepth b then writeDepth (some core) r.ctx r.rstate.toNat (recView b) (recDepth b) p else .ret 0).andThen fun dw =>
              .ret (resultRec ([t] ++ n ++ [tag, recUser b, st + 2 ^ 8 * dw, 0]))) w

/-! ### The steps of rays -/

/-- What a step of a unit asks of a ray. -/
inductive RayStep where
  | complete | suspend | park
  deriving DecidableEq, Repr

/-- One step of a ray: it runs on from its log as far as it goes, and the step is taken if that is what it comes to; `put` gives the
payload and saved state of a call, `after` what a suspension writes. -/
def State.rayStep (s : State) (core : Nat) (k : UnitKind) (id : Nat) (what : RayStep) (run : Ray → Eval (List Byte))
    (put : Ray → List Nat → W32 → List Nat × List Byte) (after : Ray → List Byte → State → State) : State :=
  match s.ray? core k id with
  | none => s
  | some r =>
    if r.stat != .run then s
    else
      match what, r.walk (run r) s with
      | .complete, (.ok res, w) => w.s.endRay core k r res
      | .complete, (.error (.fail c), w) => w.s.failRay core k r c
      | .complete, (.error (.fault kind _ _), w) =>
        if parks kind then s else w.s.failRay core k r (memCause kind Access.engRead)
      | .suspend, (.error (.call entry named scr pay), w) =>
        let t := w.s.suspend core k r entry named scr w.log (put r pay)
        match t.ray? core k id with
        | some q => after q q.saved t
        | none => t
      | .park, (.error (.fault kind va wr), w) =>
        if parks kind then
          (w.s.onRay core k id fun q => { q with stat := .parked, log := w.log }).park (unitOf core k)
            { ray := id, ctx := r.ctx, cause := memCause kind Access.engRead, page := alignDown va 4096, w := wr }
        else s
      | _, _ => s

/-- A march ray's payload: the words of R267 with the handle as word 7. -/
def marchPut (_ : Ray) (pay : List Nat) (h : W32) : List Nat × List Byte := (pay ++ [h.toNat], [])

def State.marchStep (s : State) (core id : Nat) (what : RayStep) : State :=
  s.rayStep core .march id what (marchRay core) marchPut fun _ _ s => s

/-- MARCH_RAY_COMPLETE. -/
def execMarchRayComplete (core ray : Nat) (s : State) : Res := .next (s.marchStep core ray .complete)

/-! ### mch, mchres, raysus.march -/

/-- R424: the causes of a record of 64 bytes; `bad` is the cause of a misaligned one. -/
def Iss.rec64Cz (i : Iss) (bad : Nat) : List Cz :=
  i.scratchCz 0x68 (i.recAccs 64) ++ i.badLanes bad i.recA (fun l => i.recA l % 16 != 0) ++ i.rendCz
    ++ i.staleCz i.w.rstateStale

/-- R263: the rays in the sort window. -/
def Core.window (c : Core) : Nat := (c.rays.filter fun r => r.stat != .done).length

/-- R424, R263, R423: mch. -/
def runMch (r : Row) (affine : Bool) (v : View) (s : State) : Res :=
  issueChecked r v s (fun i => i.rec64Cz 0xA9) (fun i => i.localCheck 0x60 (i.recAccs 64)) fun i =>
    if i.s.owned i.w.ctx i.core true (i.recAccs 64) then i.stall (.retry .copy)
    else if !(i.ex.all (i.s.rayRoom i.core .march i.w)) || decide (256 < (i.s.core i.core).window + i.ex.length) then
      i.stall (.retry .rays)
    else if i.ex.isEmpty then i.commit i.s (i.addToken i.w) i.at_
    else i.submit .march affine false fun _ => 0
def execMch (f : LongF) (s : State) : Res := runMch rowMch false f.view s
def execMchAff (f : LongF) (s : State) : Res := runMch rowMchAff true f.view s

def execMchres (f : LongF) (s : State) : Res := runResults rowMchres .march f.view s

/-- The suspended march ray of a context that a handle names. -/
def State.marchCall (s : State) (ctx h : Nat) : Option (Nat × Ray) :=
  s.cores.findSome? fun (c, _) => ((s.calledRay c .march h).filter fun r => r.ctx = ctx).map fun r => (c, r)

/-- The handle that a lane names, and whether a lower lane names it too. -/
def Iss.lowI (i : Iss) (l : Nat) : Nat := i.w.operand i.v .i32 [] l i.v.a
def Iss.repeats (i : Iss) (f : Nat → Nat) (l : Nat) : Bool := i.ex.any fun m => decide (m < l) && f m = f l

/-- R427: the march form. -/
def runRaysusMarch (v : View) (s : State) : Res :=
  issue rowRaysusMarch v s
    (fun i => i.badLanes 0xAC (fun _ => 0) (fun l => (i.s.marchCall i.w.ctx (i.lowI l)).isNone || i.repeats i.lowI l) ++ i.rendCz) fun i =>
    let s := i.ex.foldl (fun (s : State) l =>
      match s.marchCall i.w.ctx (i.lowI l) with
      | none => s
      | some (c, r) =>
        let x : Itv := { lo := i.w.operand v .f32 [] l v.b, hi := i.w.operand v .f32 [] l v.c }
        let x := if x.bad then Itv.whole else x
        s.answerRay c .march r.id (toBytes 4 x.lo ++ toBytes 4 x.hi)) i.s
    i.commit s (i.addToken i.w) i.at_
def execRaysusMarch (f : LongF) (s : State) : Res := runRaysusMarch f.view s

/-! ### bfetch (R429) -/

/-- R271: a unit's evaluation for one instruction, without a log. -/
def evalNow {α : Type} (m : Eval α) (s : State) : Except Stop α × State :=
  match m { s := s, seen := [], log := [], syms := 0 } with
  | (r, w) => (r, w.s)

/-- How an instruction reads memory for its unit: translation failures are those of a read. -/
def Iss.unitRead (i : Iss) : Nat → Nat → Eval (List Byte) := readFor (some i.core) i.w.ctx Access.read

/-- The address of a uniform 64-bit operand. -/
def Iss.uniA (i : Iss) : Nat := i.w.operand i.v .i64 [] 0 i.v.a

/-- R429: the results of a lane, in push order. -/
def bfetchOut (k : Brick) (p : List Nat) : AluOut :=
  let (d, g) := brickSample k p
  { res := (g.reverse ++ [d]).map (BitVec.ofNat 32), preds := [], fl := 0 }

/-- R429: an instruction that a stop of its evaluation ends. -/
def Iss.stopped (i : Iss) (s : State) (e : Stop) : State :=
  let i := { i with s := s }
  match e with
  | .fail c => i.fail (Cz.plain c i.ex)
  | .fault k va _ => i.readFault s k va
  | _ => s

def runBfetch (v : View) (s : State) : Res :=
  issue rowBfetch v s
    (fun i => (if !i.ex.isEmpty && i.uniA % 64 != 0 then [{ Cz.plain 0xAE i.ex with maddr := i.uniA }] else []) ++ i.rendCz) fun i =>
    if i.ex.isEmpty then i.commit i.s (i.addToken i.w) i.at_
    else
      match evalNow (getBrick i.unitRead 0xAE i.uniA) i.s with
      | (.ok k, s) => i.loaded s (i.ex.map fun l => (l, bfetchOut k (i.w.span l v.b 3)))
      | (.error e, s) => i.stopped s e
def execBfetch (f : LongF) (s : State) : Res := runBfetch f.view s

/-! ### prune (R272, R430) -/

/-- R430: a k register by its name, counted from the one that C names. -/
def Iss.kOf (i : Iss) (n : Nat) : Nat := match i.v.c with | .k r => i.w.kVal (r + n) | _ => 0
def Iss.kStale (i : Iss) (n : Nat) : Bool :=
  match i.v.c with
  | .k r => (List.range n).any fun j => !i.w.ready (i.w.kCell (r + j)).due
  | _ => false

/-- The scratchpad address of the box. -/
def Iss.boxA (i : Iss) : Nat := i.w.operand i.v .i32 [] 0 i.v.b

def boxOf (b : List Byte) : List Itv := (List.range 3).map fun a => { lo := numAt b (8 * a) 4, hi := numAt b (8 * a + 4) 4 }

/-- R272: the specialised bytecode. -/
def Iss.pruned (i : Iss) : Eval (List Byte) :=
  (loadBc i.unitRead i.uniA).andThen fun bc =>
    pruneBc { rd := i.unitRead, call := fun _ _ _ => none } bc.1 (boxOf (i.s.spRead i.core i.boxA 24))

def runPrune (v : View) (s : State) : Res :=
  issueChecked rowPrune v s
    (fun i => if i.ex.isEmpty then [] else
      i.staleCz (i.kStale 2)
      ++ (if i.uniA % 16 != 0 || i.boxA % 16 != 0 || i.kOf 0 % 16 != 0 then [Cz.plain 0x03 i.ex] else [])
      ++ i.scratchCz 0x68 [{ lane := i.ex.headD 0, a := i.boxA, n := 24 }] ++ i.rendCz)
    (fun i => i.localCheck 0x60 (if i.ex.isEmpty then [] else [{ lane := i.ex.headD 0, a := i.boxA, n := 24 }])) fun i =>
    let out := i.kOf 0
    if i.ex.isEmpty then i.commit i.s (i.addToken i.w) i.at_
    else if i.s.owned i.w.ctx i.core true [{ lane := 0, a := i.boxA, n := 24 }, { lane := 0, a := out, n := i.kOf 1 }] then
      i.stall (.retry .copy)
    else if i.s.readsA i.core i.key [{ lane := 0, a := out, n := i.kOf 1 }] then i.stall (.retry .array)
    else
      match evalNow i.pruned i.s with
      | (.error e, s) => i.stopped s e
      | (.ok b, s) =>
        if decide (i.kOf 1 < b.length) || !s.inAlloc i.w.gang out b.length then { i with s := s }.fail (Cz.plain 0xAD i.ex)
        else
          let s := (State.spWrite s i.core out b).objCheck i.core
          match v.d with
          | .k r => i.commit s (i.addOp (i.w.setK (.op i.w.nextOp) r b.length) .result) i.at_
          | _ => i.loaded s (i.ex.map fun l => (l, .word b.length))
def execPrune (f : LongF) (s : State) : Res := runPrune f.view s

/-! ### fbrun (R431) -/

def fbFlags (b : List Byte) : Nat := numAt b 8 4
/-- R431: whether a record is not to be evaluated. -/
def fbInvalid (b : List Byte) : Bool :=
  bits (fbFlags b) 27 5 != 0 || bits (fbFlags b) 0 24 != 0 || (bits (fbFlags b) 24 2 != 0 && bits (fbFlags b) 24 2 != 2)
    || !zeroAt b 0x0C 4 || !zeroAt b 0x28 8

/-- R431: LO, HI, TAG, CODE of a record. -/
def Iss.fbEval (i : Iss) (b : List Byte) : Eval (List Byte) :=
  let env : BcEnv :=
    { rd := readFor (some i.core) i.w.ctx Access.engRead, call := fun _ _ _ => some (.fail 0xA6) }
  (loadBc (bcReader (bit (fbFlags b) 26) i.core i.w.ctx i.w.gang) (numAt b 0 8)).andThen fun bc =>
    let box := boxOf (b.drop 0x10)
    if bits (fbFlags b) 24 2 = 2 then
      (evalPoint env bc.1 (box.map (·.lo))).andThen fun r => .ret (resultRec [r.1, r.1, r.2, 0])
    else (evalItv env bc.1 box).andThen fun r => .ret (resultRec [r.1.lo, r.1.hi, r.2, 0])

/-- A record that a cause ends. -/
def fbError (code : Nat) : List Byte := resultRec [0x7FC00000, 0x7FC00000, 0, code]

/-- R268: a lane that meets a fault of a kind at which rays park: the wave waits at its instruction for the host's answer. -/
def Iss.fbPark (i : Iss) (s : State) (kind va : Nat) : State :=
  s.postWave i.key i.w (memCause kind Access.engRead) 3 0 [(alignDown va 4096, false)]

/-- R431: the lanes in ascending order, each from its record; none where one waits for the host. -/
def Iss.fbLanes (i : Iss) : List Nat → State → Except (State × Nat × Nat) State
  | [], s => .ok s
  | l :: ls, s =>
    let b := s.spRead i.core (i.recA l) 64
    let put (s : State) (r : List Byte) : State := s.spWrite i.core (i.recA l + 0x30) r
    if fbInvalid b then i.fbLanes ls s
    else
      match evalNow (i.fbEval b) s with
      | (.ok r, s) => i.fbLanes ls (put s r)
      | (.error (.fail c), s) => i.fbLanes ls (put s (fbError c))
      | (.error (.fault k va _), s) =>
        if parks k then .error (s, k, va) else i.fbLanes ls (put s (fbError (memCause k Access.engRead)))
      | (.error _, s) => i.fbLanes ls (put s (fbError 0xA6))

def runFbrun (v : View) (s : State) : Res :=
  issueChecked rowFbrun v s
    (fun i => i.scratchCz 0x69 (i.recAccs 64) ++ i.badLanes 0x03 i.recA (fun l => i.recA l % 16 != 0) ++ i.rendCz)
    (fun i => i.localCheck 0x60 (i.recAccs 64)) fun i =>
    if i.s.owned i.w.ctx i.core true (i.recAccs 64) then i.stall (.retry .copy)
    else if i.s.readsA i.core i.key (i.recAccs 64) then i.stall (.retry .array)
    else
      let bad := i.ex.filter fun l => fbInvalid (i.s.spRead i.core (i.recA l) 64)
      match i.fbLanes i.ex i.s with
      | .error (s, k, va) => i.fbPark s k va
      | .ok s =>
        let s := s.objCheck i.core
        if bad.isEmpty then i.commit s (i.addToken i.w) i.at_
        else i.failAfter (s.setWave i.key i.w) (Cz.plain 0xB4 bad)
def execFbrun (f : LongF) (s : State) : Res := runFbrun f.view s

end Sys2Proof.Machine
end

