-- ==== Sys2Proof/Machine/Traversal.lean ====
section
/-!
DEFINITION. The traversal unit: nodes and leaves, the short stack, procedural leaves and their answers, results and lantern rays
(spec/11 R273 to R280), the instructions rayq, rayres, raysus and lant (spec/17 R425 to R428), and the steps of rays that both
units have (R267, R268).
-/
namespace Sys2Proof.Machine

/-! ### Exact geometry -/

/-- A rational number; the denominator is positive. -/
structure Frac where
  n : Int
  d : Nat
  deriving DecidableEq, Repr

def Frac.lt (a b : Frac) : Bool := decide (a.n * b.d < b.n * a.d)
def Frac.max (a b : Frac) : Frac := if a.lt b then b else a
def Frac.min (a b : Frac) : Frac := if b.lt a then b else a
/-- A quotient of integers, the divisor not 0. -/
def Frac.quot (n d : Int) : Frac := { n := if d < 0 then -n else n, d := d.natAbs }
/-- A rational rounded to FP32. -/
def Frac.f32 (m : Rnd) (a : Frac) : Nat := f32rnd m (XR.div (XR.ofInt a.n) (XR.ofInt a.d)).1

/-- A finite FP32 value in units of 2^-149. -/
def unitsOf (a : Nat) : Int := match fx a with | .fin n m e => unitsAt n m e (-149) | _ => 0
/-- A finite FP32 value as a rational. -/
def fracOf (a : Nat) : Frac := { n := unitsOf a, d := 2 ^ 149 }

/-- The interval of t in which a line meets a box, cut to [lo, hi]; an infinite bound of the box bounds nothing. -/
def slabs (lo hi : Frac) : List (Nat × Nat × Nat × Nat) → Option (Frac × Frac)
  | [] => some (lo, hi)
  | (o, d, bl, bh) :: rest =>
    let no := unitsOf o
    let nd := unitsOf d
    if nd = 0 then
      (if (f32fin bl && decide (no < unitsOf bl)) || (f32fin bh && decide (unitsOf bh < no)) then none else slabs lo hi rest)
    else
      let t (b : Nat) : Frac := Frac.quot (unitsOf b - no) nd
      let (first, last) := if nd < 0 then (bh, bl) else (bl, bh)
      let lo := if f32fin first then lo.max (t first) else lo
      let hi := if f32fin last then hi.min (t last) else hi
      if hi.lt lo then none else slabs lo hi rest

/-- A vector of integers. -/
abbrev IVec := Int × Int × Int
def IVec.sub (a b : IVec) : IVec := (a.1 - b.1, a.2.1 - b.2.1, a.2.2 - b.2.2)
def IVec.cross (a b : IVec) : IVec :=
  (a.2.1 * b.2.2 - a.2.2 * b.2.1, a.2.2 * b.1 - a.1 * b.2.2, a.1 * b.2.1 - a.2.1 * b.1)
def IVec.dot (a b : IVec) : Int := a.1 * b.1 + a.2.1 * b.2.1 + a.2.2 * b.2.2
def ivecOf (l : List Nat) : IVec := (unitsOf (at? 0 l 0), unitsOf (at? 0 l 1), unitsOf (at? 0 l 2))

/-- R274: where a line meets a closed triangle; nowhere if it is parallel to it or the triangle has no area. -/
def triHit (o d a b c : IVec) : Option Frac :=
  let n := IVec.cross (IVec.sub b a) (IVec.sub c a)
  let det := IVec.dot n d
  let oa := IVec.sub a o
  let ob := IVec.sub b o
  let oc := IVec.sub c o
  let u := IVec.dot d (IVec.cross oc ob)
  let v := IVec.dot d (IVec.cross oa oc)
  let w := IVec.dot d (IVec.cross ob oa)
  if det != 0 && ((decide (0 ≤ u) && decide (0 ≤ v) && decide (0 ≤ w)) || (decide (u ≤ 0) && decide (v ≤ 0) && decide (w ≤ 0))) then
    some (Frac.quot (IVec.dot n oa) det)
  else none

/-! ### Trace records (R275, R280) -/

def trcRoot (b : List Byte) : Nat := numAt b 0x20 8
def trcMask (b : List Byte) : Nat := bits (recFlags b) 24 8
def trcAny (b : List Byte) : Bool := bit (recFlags b) 23
/-- R275, R280: BASE. -/
def trcBase (b : List Byte) (lantern : Bool) : Nat := if lantern then alignDown (trcRoot b) (2 ^ 39) else numAt b 0x38 8

/-- R275: whether a node address lies in reach of BASE. -/
def nodeAt (base a : Nat) : Bool := a % 128 = 0 && decide (base ≤ a) && decide (a < base + 2 ^ 39)

/-- R275, R280, R266: whether a record is outside the limits. -/
def trcInvalid (b : List Byte) (lantern : Bool) (rstate : W64) : Bool :=
  !recLineOk b || trcBase b lantern % 128 != 0 || !nodeAt (trcBase b lantern) (trcRoot b)
    || (if lantern then numAt b 0x30 8 % 16 != 0 || !zeroAt b 0x3E 2
        else recDepth b % 4 != 0 || (recDepth b != 0 && rstate = 0))

/-! ### What a traversal carries -/

/-- A line in the space of the instance that it is in, how many instances deep, and the innermost's INSTID. -/
structure Frame where
  o : List Nat
  d : List Nat
  depth : Nat
  inst : Option Nat
  deriving DecidableEq, Repr

/-- A node or leaf that the ray is to visit: its kind (R273), address, triangle count, user word, and where the line enters and
leaves its box. -/
structure Visit where
  kind : Nat
  ptr : Nat
  cnt : Nat
  uw : Nat
  frame : Frame
  enter : Frac
  leave : Frac
  deriving DecidableEq, Repr

/-- A hit: t, the three words of R279, MAT, STATUS and the instance. -/
structure TraceHit where
  t : Nat
  words : List Nat
  mat : Nat
  status : Nat
  inst : Option Nat
  deriving DecidableEq, Repr

/-- The traversal of a ray: its interval, its best t and hit, what it is to visit, nearest first, RESTART, and whether it is over. -/
structure Trav where
  lo : Nat
  hi : Nat
  best : Nat
  hit : Option TraceHit
  stack : List Visit
  restart : Bool
  done : Bool
  deriving DecidableEq, Repr

/-- What stays fixed for a ray. -/
structure TraceEnv where
  core : Nat
  r : Ray
  base : Nat
  maxStep : Nat

def TraceEnv.rd (T : TraceEnv) : Nat → Nat → Eval (List Byte) := readFor (some T.core) T.r.ctx Access.engRead
def TraceEnv.any (T : TraceEnv) : Bool := T.r.lantern || trcAny T.r.record

/-- R275, R278: a hit at t is taken if it lies in the interval and nearer than the best. -/
def Trav.take (st : Trav) (any : Bool) (h : TraceHit) : Trav :=
  if !f32nan h.t && !f32lt h.t st.lo && !f32lt st.hi h.t && f32lt h.t st.best then
    { st with hi := h.t, best := h.t, hit := some h, done := any }
  else st

/-! ### Nodes (R273, R276) -/

/-- R273: a signed exponent. -/
def nodeExp (b : List Byte) (a : Nat) : Int := asS (numAt b (0x0C + a) 1) 8
/-- R273: whether a node is malformed. -/
def nodeBad (b : List Byte) : Bool :=
  !zeroAt b 0x0F 1 || !zeroAt b 0x60 32
    || (List.range 3).any (fun a => !f32fin (numAt b (4 * a) 4) || decide (nodeExp b a < -126))
    || (List.range 4).any fun c =>
      let k := numAt b (0x28 + c) 1
      let n := numAt b (0x2C + c) 1
      decide (6 < k) || (if k = 3 then n = 0 || decide (16 < n) else n != 0) || (k != 0 && zeroAt b (0x30 + 8 * c) 8)
        || (List.range 3).any fun a => decide (numAt b (0x13 + 6 * c + a) 1 < numAt b (0x10 + 6 * c + a) 1)

/-- R273: the bounds of a child's box on an axis. -/
def childBounds (b : List Byte) (c a : Nat) : Nat × Nat :=
  let q := fx (numAt b (4 * a) 4)
  let side (n : Nat) (m : Rnd) : Nat := f32rnd m (XR.add .rn q (.fin false n (nodeExp b a))).1
  (side (numAt b (0x10 + 6 * c + a) 1) .rd, side (numAt b (0x13 + 6 * c + a) 1 + 1) .ru)

/-- A child of a node that the line enters within the interval. -/
def childVisit (st : Trav) (f : Frame) (b : List Byte) (c : Nat) : Option Visit :=
  if numAt b (0x28 + c) 1 = 0 then none
  else
    (slabs (fracOf st.lo) (fracOf st.hi) ((List.range 3).map fun a =>
      let (l, h) := childBounds b c a
      (at? 0 f.o a, at? 0 f.d a, l, h))).map fun (x, y) =>
        { kind := numAt b (0x28 + c) 1, ptr := numAt b (0x30 + 8 * c) 8, cnt := numAt b (0x2C + c) 1, uw := numAt b (0x50 + 4 * c) 4
          frame := f, enter := x, leave := y }

/-- A visit put behind those that enter no later. -/
def nearer (x : Visit) : List Visit → List Visit
  | [] => [x]
  | y :: l => if x.enter.lt y.enter then x :: y :: l else y :: nearer x l

/-- R276: the entries of the short stack among what is to be visited. -/
def nodesOf (l : List Visit) : List Visit := l.filter fun v => v.kind = 1

/-- R276: the oldest entry is dropped. -/
def dropOldest (l : List Visit) : List Visit :=
  (l.foldr (fun v acc => if v.kind = 1 && !acc.2 then (acc.1, true) else (v :: acc.1, acc.2)) (([] : List Visit), false)).1

/-- R276: a full stack drops its oldest entries and sets RESTART. -/
def Trav.trim : Nat → Trav → Trav
  | 0, st => st
  | n + 1, st => if 8 < (nodesOf st.stack).length then Trav.trim n { st with stack := dropOldest st.stack, restart := true } else st

/-- R275: the children of a node, the nearest visited next and the others kept. -/
def visitNode (T : TraceEnv) (v : Visit) (st : Trav) : Eval Trav :=
  if !nodeAt T.base v.ptr then .fail 0xAB
  else (T.rd v.ptr 128).andThen fun b =>
    if nodeBad b then .fail 0xAB
    else if !(v.frame.o.all f32fin && v.frame.d.all f32fin) then .ret st
    else
      match ((List.range 4).filterMap (childVisit st v.frame b)).foldl (fun l x => nearer x l) [] with
      | [] => .ret st
      | x :: rest =>
        let st := Trav.trim 4 { st with stack := rest ++ st.stack }
        .ret { st with stack := x :: st.stack }

/-! ### Leaves (R274) -/

/-- R274: an instance: the line in its space, and its root node next. -/
def visitInstance (T : TraceEnv) (v : Visit) (st : Trav) : Eval Trav :=
  (T.rd v.ptr 128).andThen fun b =>
    if !zeroAt b 0x3D 67 then .fail 0xAB
    else if numAt b 0x3C 1 &&& trcMask T.r.record = 0 then .ret st
    else if 4 ≤ v.frame.depth then .fail 0xAB
    else
      let row (i : Nat) : List Nat := (List.range 4).map fun j => numAt b (16 * i + 4 * j) 4
      let dir (i : Nat) : XR :=
        (((row i).zip v.frame.d).map fun (a, b) => (XR.mul (fx a) (fx b)).1).foldl (fun s x => (XR.add .rn s x).1) xzero
      let f : Frame :=
        { o := (List.range 3).map fun i => f32rnd .rn (rowTimes (row i) v.frame.o)
          d := (List.range 3).map fun i => f32rnd .rn (dir i)
          depth := v.frame.depth + 1, inst := some (numAt b 0x38 4) }
      .ret { st with stack := { v with kind := 1, ptr := numAt b 0x30 8, frame := f } :: st.stack }

/-- R274, R279: the triangles of a leaf in order; U and V are free values. -/
def takeTris (T : TraceEnv) (v : Visit) : List (List Byte) → Trav → Eval Trav
  | [], st => .ret st
  | b :: bs, st => fun w =>
    let vert (i : Nat) : List Nat := (List.range 3).map fun j => numAt b (12 * i + 4 * j) 4
    if !zeroAt b 0x28 8 then (.error (.fail 0xAB), w)
    else if st.done then (.ok st, w)
    else
      let fin := ((List.range 3).all fun i => (vert i).all f32fin) && v.frame.o.all f32fin && v.frame.d.all f32fin
      match (if fin then triHit (ivecOf v.frame.o) (ivecOf v.frame.d) (ivecOf (vert 0)) (ivecOf (vert 1)) (ivecOf (vert 2)) else none) with
      | none => takeTris T v bs st w
      | some t =>
        let n := w.s.freeCtr
        let h : TraceHit :=
          { t := t.f32 .rn, words := [(Config.triU n).toNat, (Config.triV n).toNat, numAt b 0x24 4], mat := v.uw, status := 1
            inst := v.frame.inst }
        takeTris T v bs (st.take T.any h) { w with s := w.s.fresh.2 }

def visitTris (T : TraceEnv) (v : Visit) (st : Trav) : Eval Trav :=
  (T.rd v.ptr (48 * v.cnt)).andThen fun b => takeTris T v ((List.range v.cnt).map fun i => (b.drop (48 * i)).take 48) st

/-- The interval of a leaf's box as FP32, within the ray's. -/
def Visit.span (v : Visit) (st : Trav) : Nat × Nat := (f32max (v.enter.f32 .rd) st.lo, f32min (v.leave.f32 .ru) st.hi)

/-- R274: a hit of a marched leaf. -/
def takeMarch (T : TraceEnv) (v : Visit) (st : Trav) (out : MarchOut) (normal : Nat → Eval (List Nat)) : Eval Trav :=
  match out with
  | .hit t status _ => (normal t).andThen fun n =>
    .ret (st.take T.any { t := t, words := n, mat := v.uw, status := status, inst := v.frame.inst })
  | _ => .ret st

/-- R274: a field object, marched over the interval inside its box. -/
def visitField (T : TraceEnv) (v : Visit) (st : Trav) : Eval Trav :=
  (T.rd v.ptr 16).andThen fun b =>
    let flags := numAt b 8 4
    let mode := bits flags 24 2
    if !zeroAt b 0x0C 4 || mode = 1 || mode = 3 then .fail 0xAB
    else
      (loadBc T.rd (numAt b 0 8)).andThen fun bc =>
        let env (itv : Bool) : BcEnv := { rd := T.rd, call := fun n g box => some (bcCall (some T.core) T.r.ctx 0 itv n g box) }
        let F := bcField env bc.1 v.frame.o v.frame.d false
        let eps : XR := .fin false (bits flags 0 16) (-20)
        let (lo, hi) := v.span st
        (march F v.frame.o v.frame.d lo hi eps (mode = 2) T.maxStep).andThen fun out =>
          takeMarch T v st out fun t => normalAt F (pointAt v.frame.o v.frame.d t) (epsAt eps t)

/-- R274: a brick volume: point steps of BrickSample − ISO. -/
def visitBrick (T : TraceEnv) (v : Visit) (st : Trav) : Eval Trav :=
  (T.rd v.ptr 16).andThen fun b =>
    if !zeroAt b 0x0C 4 then .fail 0xAB
    else
      (getBrick T.rd 0xAB (numAt b 0 8)).andThen fun k =>
        let F : Field :=
          { point := fun p => .ret (f32sub (brickSample k p).1 (numAt b 8 4), 0), seg := fun _ _ => .ret (Itv.whole, 0) }
        let (lo, hi) := v.span st
        (march F v.frame.o v.frame.d lo hi (epsOf T.r.record) true T.maxStep).andThen fun out =>
          takeMarch T v st out fun t => .ret (unitOfG (brickSample k (pointAt v.frame.o v.frame.d t)).2)

/-- R277: the words of a suspended state but for the ray handle. -/
def stateWords (T : TraceEnv) (v : Visit) (st : Trav) : List Nat :=
  let ns := ((nodesOf st.stack).map fun x => (x.ptr - T.base) / 128).reverse
  [ns.length + 2 ^ 8 * (b2n st.restart + 2 * b2n T.any + 4 * v.frame.depth) + 2 ^ 16 * 0x5E01, 0, st.lo, st.hi]
    ++ (ns ++ List.replicate 8 0xFFFFFFFF).take 8 ++ [lo32 v.ptr, hi32 v.ptr, 0, st.best]

/-- R277, R278: a procedural leaf calls its routine; the answer is the interval and best hit left in the state, t′ and the word. -/
def visitProc (T : TraceEnv) (v : Visit) (st : Trav) : Eval Trav :=
  (T.rd v.ptr 16).andThen fun b =>
    if !zeroAt b 0x0C 4 then .fail 0xAB
    else
      (callRoutine (some T.core) T.r.ctx (numAt b 0 8) (v.frame.o ++ v.frame.d ++ [numAt b 8 4] ++ stateWords T v st)).andThen fun a =>
        let w (j : Nat) : Nat := numAt a (4 * j) 4
        let best := w 2
        let st := { st with lo := w 0, hi := w 1, best := best
                            hit := st.hit.map fun (h : TraceHit) => if f32lt best h.t then { h with t := best } else h }
        .ret (st.take T.any { t := w 3, words := [0, 0, 0], mat := w 4, status := 1, inst := v.frame.inst })

def visit (T : TraceEnv) (v : Visit) (st : Trav) : Eval Trav :=
  match v.kind with
  | 1 => visitNode T v st
  | 2 => visitInstance T v st
  | 3 => visitTris T v st
  | 4 => visitField T v st
  | 5 => visitProc T v st
  | _ => visitBrick T v st

/-! ### The traversal (R275, R276, R279, R280) -/

/-- The root of a ray's hierarchy. -/
def TraceEnv.root (T : TraceEnv) (st : Trav) : Visit where
  kind := 1
  ptr := trcRoot T.r.record
  cnt := 0
  uw := 0
  frame := { o := recO T.r.record, d := recD T.r.record, depth := 0, inst := none }
  enter := fracOf st.lo
  leave := fracOf st.hi

/-- R275, R276: visits until nothing is left; a traversal that the restarts of R276 never end takes more than any count. -/
def traceLoop (T : TraceEnv) : Nat → Trav → Eval Trav
  | 0, _ => .stop .endless
  | n + 1, st =>
    if st.done then .ret st
    else
      match st.stack with
      | [] => if st.restart then traceLoop T n { st with stack := [T.root st], restart := false } else .ret st
      | v :: rest =>
        let st := { st with stack := rest }
        if (fracOf st.hi).lt v.enter then traceLoop T n st
        else (visit T v st).andThen (traceLoop T n)

/-- R280: the three additions of a lantern ray that met nothing. -/
def lanternAdd (core : Option Nat) (ctx : Nat) (b : List Byte) : Eval (List Byte) := Eval.ask fun s =>
  let va := numAt b 0x30 8
  match State.translatePieces core ctx Access.engAtomic [(va, 12)] s with
  | (.error (k, x), s) => (.error (.fault k x true), s)
  | (.ok ps, s) =>
    match Access.engAtomic.rule ps with
    | some k => (.error (.fault k va true), s)
    | none =>
      let fs := s.flawsOf core false ps
      let s := s.checkMem fs
      if fs.any Flaw.fatal then (.error (.fault 8 va true), s)
      else
        let (old, s) := (s.closePieces ps).readPieces ps
        let new := (List.range 3).flatMap fun j =>
          toBytes 4 (f32add (numAt old (4 * j) 4) (widenBits .f16 .f32 (numAt b (0x38 + 2 * j) 2)))
        (.ok [], s.writeAtomic (partsOf ps new))

/-- R279: the result record of a traversal. -/
def traceResult (T : TraceEnv) (st : Trav) : Eval (List Byte) :=
  let b := T.r.record
  match st.hit with
  | none =>
    if T.r.lantern then (lanternAdd (some T.core) T.r.ctx b).andThen fun _ => .ret (missRec (recUser b) 0 0)
    else .ret (missRec (recUser b) 0 0)
  | some h =>
    let p := pointAt (recO b) (recD b) h.t
    (if !T.r.lantern && recDepth b != 0 then
        writeDepth (some T.core) T.r.ctx T.r.rstate.toNat (recView b) (recDepth b) p
      else .ret 0).andThen fun dw =>
        .ret (resultRec ([h.t] ++ h.words
          ++ [h.mat, h.inst.getD (recUser b), h.status + 2 ^ 8 * dw + 2 ^ 9 * b2n h.inst.isSome, 0]))

/-- R275 to R280: a ray of the traversal unit. -/
def traceRay (core : Nat) (r : Ray) : Eval (List Byte) := fun w =>
  let b := r.record
  if trcInvalid b r.lantern r.rstate then (.error (.fail 0xAA), w)
  else
    let T : TraceEnv := { core := core, r := r, base := trcBase b r.lantern, maxStep := w.s.maxSteps core }
    let st : Trav := { lo := recTmin b, hi := recTmax b, best := fPosInf, hit := none, stack := [], restart := false, done := false }
    ((traceLoop T (2 ^ 64) { st with stack := [T.root st] }).andThen (traceResult T)) w

/-! ### The steps of traversal rays -/

/-- R277, R471: payload and suspended state of a procedural call. -/
def tracePut (r : Ray) (pay : List Nat) (h : W32) : List Nat × List Byte :=
  (pay.take 7 ++ [r.area + 0x40], (setAt (pay.drop 7) 14 h.toNat).flatMap (toBytes 4))

/-- R277: the suspended state goes to the ray area. -/
def State.traceStep (s : State) (core id : Nat) (what : RayStep) : State :=
  s.rayStep core .trace id what (traceRay core) tracePut fun r saved s => s.spWrite core (r.area + 0x40) saved

/-- TRAVERSAL_RAY_COMPLETE. -/
def execTraversalRayComplete (core ray : Nat) (s : State) : Res := .next (s.traceStep core ray .complete)

/-- RAY_SUSPEND: a ray of either unit. -/
def execRaySuspend (core ray : Nat) (s : State) : Res :=
  .next (if (s.ray? core .march ray).isSome then s.marchStep core ray .suspend else s.traceStep core ray .suspend)

/-! ### rayq, lant, rayres, raysus -/

/-- R426: the ray area of a lane. -/
def Iss.areaA (i : Iss) (l : Nat) : Nat := i.w.operand i.v .i32 [] l i.v.c

/-- R426, R428: rayq and lant. -/
def runTrace (r : Row) (lantern : Bool) (v : View) (s : State) : Res :=
  issueChecked r v s
    (fun i => i.rec64Cz 0xAA ++ i.badLanes 0xAA i.areaA (fun l => i.areaA l % 64 != 0)
      ++ i.scratchCz 0x69 (i.ex.map fun l => { lane := l, a := i.areaA l, n := 128 })) (fun i => i.localCheck 0x60 (i.recAccs 64)) fun i =>
    if i.s.owned i.w.ctx i.core true (i.recAccs 64) then i.stall (.retry .copy)
    else if !(i.ex.all (i.s.rayRoom i.core .trace i.w)) then i.stall (.retry .rays)
    else if i.ex.isEmpty then i.commit i.s (i.addToken i.w) i.at_
    else i.submit .trace false lantern i.areaA
def execRayq (f : LongF) (s : State) : Res := runTrace rowRayq false f.view s
def execLant (f : LongF) (s : State) : Res := runTrace rowLant true f.view s

def execRayres (f : LongF) (s : State) : Res := runResults rowRayres .trace f.view s

/-- R267, R278: the suspended ray that a lane of a callable wave answers, with its core: its own call's, or another of the wave's
calls whose state lies at the address that it names. -/
def Iss.calledBy (i : Iss) (l : Nat) : Option (Nat × Ray) :=
  match ((i.s.gang? i.w.gang).bind fun G => i.s.launch? G.launch) with
  | none => none
  | some L =>
    (L.rays[l]?.toList ++ L.rays).findSome? fun (c, h) =>
      ((i.s.calledRay c .trace h).filter fun r => i.w.operand i.v .i32 [] l i.v.a = (r.area + 0x40) % 2 ^ 32).map fun r => (c, r)

/-- The number of that ray. -/
def Iss.calledId (i : Iss) (l : Nat) : Nat := match i.calledBy l with | some (_, r) => r.id | none => 0

/-- R278: whether the state found differs from the one written only by a narrower interval or a nearer best hit. -/
def stateOk (was now : List Byte) : Bool :=
  now.take 8 = was.take 8 && (now.drop 0x10).take 0x2C = (was.drop 0x10).take 0x2C
    && (let n (o : Nat) : Nat := numAt now o 4
        let w (o : Nat) : Nat := numAt was o 4
        !f32nan (n 8) && !f32nan (n 12) && !f32nan (n 0x3C) && !f32lt (n 8) (w 8) && !f32lt (w 12) (n 12) && !f32lt (w 0x3C) (n 0x3C))

/-- The suspended state of a ray as it stands. -/
def State.stateOf (s : State) (c : Nat) (r : Ray) : List Byte := s.spRead c (r.area + 0x40) 64

/-- R224: whether a copy entry owns bytes of it. -/
def State.stateOwned (s : State) (c : Nat) (r : Ray) : Bool := s.owned r.ctx c true [{ lane := 0, a := r.area + 0x40, n := 64 }]

/-- R427, R278: the traversal form. -/
def runRaysus (v : View) (s : State) : Res :=
  issue rowRaysus v s
    (fun i => i.badLanes 0xAC (fun _ => 0) (fun l => match i.calledBy l with
        | none => true
        | some (c, r) => !i.s.stateOwned c r && !stateOk r.saved (i.s.stateOf c r) || i.repeats i.calledId l) ++ i.rendCz) fun i =>
    if i.ex.any (fun l => match i.calledBy l with | some (c, r) => i.s.stateOwned c r | none => false) then i.stall (.retry .copy)
    else
    let s := i.ex.foldl (fun (s : State) l =>
      match i.calledBy l with
      | none => s
      | some (c, r) =>
        let b := s.stateOf c r
        s.answerRay c .trace r.id ((b.drop 8).take 8 ++ (b.drop 0x3C).take 4
          ++ toBytes 4 (i.w.operand v .f32 [] l v.b) ++ toBytes 4 (i.w.operand v .i32 [] l v.c))) i.s
    i.commit s (i.addToken i.w) i.at_
def execRaysus (f : LongF) (s : State) : Res := runRaysus f.view s

end Sys2Proof.Machine
end

