-- ==== Sys2Proof/Machine/Raster.lean ====
section
/-!
DEFINITION. The raster front-ends: the payload ring and temit, mesh output and memit, the candelabra stage, sampling and the
depth test (spec/11 R281 to R288, spec/17 R432, R433, spec/24 R475, R476).
-/
namespace Sys2Proof.Machine

/-! ### Front-ends -/

/-- R28, R432: the front-end of a core, and its source number. -/
def feOf (core : Nat) : Nat := core / 12
def feSrc (f : Nat) : Nat := 0x1C0 + f

def State.fe (s : State) (f : Nat) : FrontEnd := Sparse.get FrontEnd.reset s.fes f
def State.onFe (s : State) (f : Nat) (g : FrontEnd → FrontEnd) : State :=
  { s with fes := Sparse.set FrontEnd.reset s.fes f (g (s.fe f)) }
/-- R286: the counters, in its order. -/
def State.feStat (s : State) (f i n : Nat) : State := s.onFe f fun x => { x with stats := bump x.stats i n }
def State.slot (s : State) (f j : Nat) : PaySlot := Sparse.get PaySlot.reset (s.fe f).slots j
def State.onSlot (s : State) (f j : Nat) (g : PaySlot → PaySlot) : State :=
  s.onFe f fun x => { x with slots := Sparse.set PaySlot.reset x.slots j (g (s.slot f j)) }

/-- R282: a free slot. -/
def State.freeSlot (s : State) (f : Nat) : Option Nat := (List.range 4).find? fun j => !(s.slot f j).used

/-- PAYLOAD_SLOT_FREE: R282: every wave of the slot has exited and its primitives have left the candelabra stage. -/
def State.slotFree (s : State) (f j : Nat) : State :=
  let x := s.slot f j
  if x.used && x.waves = 0 && x.prims = 0 then (s.onSlot f j fun _ => PaySlot.reset).wake .slots else s
def execPayloadSlotFree (fe slot : Nat) (s : State) : Res := .next (s.slotFree fe slot)

/-! ### The raster state block (R281) -/

def rsCount (b : List Byte) : Nat := numAt b 8 4
def rsW (b : List Byte) : Nat := numAt b 0x0C 2
def rsH (b : List Byte) : Nat := numAt b 0x0E 2
def rsColor (b : List Byte) : Nat := numAt b 0x10 8
def rsDepth (b : List Byte) : Nat := numAt b 0x18 8
def rsStride (b : List Byte) : Nat := numAt b 0x20 8
def rsCull (b : List Byte) : Nat := numAt b 0x28 4

/-- R281, R432: the causes of a block. -/
def rsCz (b : List Byte) (ex : List Nat) : List Cz :=
  (if rsCount b = 0 || decide (128 < rsCount b) then [Cz.plain 0xB1 ex] else [])
  ++ (if rsW b = 0 || decide (16384 < rsW b) || rsH b = 0 || decide (16384 < rsH b) || rsStride b % 4096 != 0
        || decide (2 < rsCull b) || !zeroAt b 0x2C 212 then [Cz.plain 0x91 ex] else [])

/-! ### temit (R432) -/

def Iss.payA (i : Iss) : Nat := i.w.operand i.v .i32 [] 0 i.v.a

/-- The launch to which mesh gangs of a wave belong (R476). -/
def State.rootLaunch (s : State) (l : Nat) : Nat :=
  match (s.launch? l).bind (·.mesh) with
  | some (f, j) => (s.slot f j).launch
  | none => l

/-- R432: a descriptor that temit takes. -/
def meshDescOk (d : Desc) : Bool := d.rend && !d.task && d.members.length = 1
def meshMember (d : Desc) : Member := at? { entry := 0, named := 8, waves := 1, scratch := 0 } d.members 0

/-- R282, R432: the payload goes to a slot, and its gangs are launched. -/
def Iss.emit (i : Iss) (s : State) (d : Desc) (rs len count slot : Nat) : State :=
  let f := feOf i.core
  let s := if i.w.emitted then s else s.feStat f 0 1
  let w := { i.w with emitted := true }
  if count = 0 then i.commit s (i.addToken w) i.at_
  else
    let waves := count * (meshMember d).waves
    let G := match s.gang? i.w.gang with | some G => G.launch | none => 0
    let s := (s.feStat f 1 waves).onSlot f slot fun _ =>
      { used := true, ctx := i.w.ctx, launch := s.rootLaunch G, waves := waves, prims := 0, payload := s.spRead i.core i.payA len }
    let l := Launch.of i.w.ctx { d with total := count, doneAddr := 0 } 0 i.prio (feSrc f)
    let s := s.enqueue { l with mesh := some (f, slot), rstate := BitVec.ofNat 64 rs }
    i.commit s (i.addToken w) i.at_

def runTemit (v : View) (s : State) : Res :=
  issueChecked rowTemit v s
    (fun i => if i.ex.isEmpty then [] else
      i.staleCz (i.kStale 4)
      ++ (if i.payA % 16 != 0 || decide (1024 < i.kOf 3) then [Cz.plain 0x03 i.ex] else [])
      ++ (if 16384 < i.kOf 2 then [Cz.plain 0xAF i.ex]
          else i.scratchCz 0x68 [{ lane := i.ex.headD 0, a := i.payA, n := i.kOf 2 }]) ++ i.rendCz)
    (fun i => i.localCheck 0x60 (if i.ex.isEmpty || decide (16384 < i.kOf 2) then [] else [{ lane := i.ex.headD 0, a := i.payA, n := i.kOf 2 }])) fun i =>
    if i.ex.isEmpty then i.commit i.s (i.addToken i.w) i.at_
    else
      match i.s.freeSlot (feOf i.core) with
      | none => i.stall (.retry .slots)
      | some slot =>
        if i.s.owned i.w.ctx i.core true [{ lane := 0, a := i.payA, n := i.kOf 2 }] then i.stall (.retry .copy)
        else if i.kOf 0 % 128 != 0 || i.kOf 1 % 256 != 0 then i.fail (Cz.plain 0x91 i.ex)
        else
          match i.s.readDesc (some i.core) i.w.ctx (i.kOf 0) with
          | (.fault k va, s) => i.readFault s k va
          | (.invalid, s) => { i with s := s }.fail (Cz.plain 0x91 i.ex)
          | (.ok d, s) =>
            match s.readVirt (some i.core) i.w.ctx (i.kOf 1) 256 Access.read with
            | (.error (k, va), s) => i.readFault s k va
            | (.ok b, s) =>
              match lowestCz ((if meshDescOk d then [] else [Cz.plain 0x91 i.ex])
                  ++ (if (meshMember d).scratch < i.kOf 2 then [Cz.plain 0xAF i.ex] else []) ++ rsCz b i.ex) with
              | some c => { i with s := s }.fail c
              | none => i.emit s d (i.kOf 1) (i.kOf 2) (i.kOf 3) slot
def execTemit (f : LongF) (s : State) : Res := runTemit f.view s

/-! ### memit (R433) -/

/-- R423, R433: 0xB2 in a wave that does not render or was not launched from a payload slot. -/
def Iss.meshCz (i : Iss) : List Cz :=
  match (i.s.gang? i.w.gang).bind (·.slot) with
  | some _ => i.rendCz
  | none => [Cz.plain 0xB2 i.ex]

/-- The index of a lane. -/
def Iss.meshC (i : Iss) (l : Nat) : Nat := i.w.operand i.v .i32 [] l i.v.c

def runMemitVert (v : View) (s : State) : Res :=
  issueChecked rowMemitVert v s
    (fun i => i.scratchCz 0x68 (i.recAccs 48) ++ i.badLanes 0xB0 i.recA (fun l => decide (95 < i.meshC l)) ++ i.meshCz)
    (fun i => i.localCheck 0x60 (i.recAccs 48)) fun i =>
    if i.s.owned i.w.ctx i.core true (i.recAccs 48) then i.stall (.retry .copy)
    else
      let m := i.ex.foldl (fun (m : Sparse (List W32)) l =>
        let b := i.s.spRead i.core (i.recA l) 48
        Sparse.set [] m (i.meshC l) ((List.range 12).map fun j => BitVec.ofNat 32 (numAt b (4 * j) 4))) i.w.mesh.verts
      i.commit i.s (i.addToken { i.w with mesh := { i.w.mesh with verts := m } }) i.at_
def execMemitVert (f : LongF) (s : State) : Res := runMemitVert f.view s

/-- One more than the highest number of a list of numbered things. -/
def topOf {α : Type} (l : List (Nat × α)) : Nat := (l.map fun x => x.1 + 1).foldl max 0

/-- R433: whether a primitive names its indices within limits. -/
def primOk (verts idx word : Nat) : Bool :=
  decide (idx ≤ 159) && bits word 25 7 = 0 && (List.range 3).all fun j => decide (bits word (8 * j) 8 < verts)

def runMemitPrim (v : View) (s : State) : Res :=
  issue rowMemitPrim v s
    (fun i => i.badLanes 0xB0 (fun _ => 0) (fun l => !primOk (topOf i.w.mesh.verts) (i.meshC l) (i.lowI l)) ++ i.meshCz) fun i =>
    let m := i.ex.foldl (fun (m : Sparse W32) l => put m (i.meshC l) (BitVec.ofNat 32 (i.lowI l))) i.w.mesh.prims
    i.commit i.s (i.addToken { i.w with mesh := { i.w.mesh with prims := m } }) i.at_
def execMemitPrim (f : LongF) (s : State) : Res := runMemitPrim f.view s

/-- R433: a mesh wave that exits passes its primitives on. -/
def State.meshExit (s : State) (w : Wave) (f j : Nat) (rstate : W64) : State :=
  let free := s.freeCtr
  let vert (n : Nat) : List W32 :=
    match find? w.mesh.verts n with
    | some v => v
    | none => (List.range 12).map fun x => Config.meshWord (free + 12 * n + x)
  let prims := (List.range (topOf w.mesh.prims)).map fun n =>
    let p := (find? w.mesh.prims n).getD 0
    { ctx := w.ctx, slot := j, rstate := rstate, prim := p, v0 := vert (bits p.toNat 0 8), v1 := vert (bits p.toNat 8 8)
      v2 := vert (bits p.toNat 16 8), todo := none, killed := false : MeshPrim }
  let s : State := { s with freeCtr := free + 12 * 256 }
  (s.onFe f fun x => { x with prims := x.prims ++ prims }).onSlot f j fun x =>
    { x with waves := x.waves - 1, prims := x.prims + prims.length }

/-! ### Views and samples (R284, R475) -/

/-- R475: the clip position of a vertex under a matrix; none where it is not finite. -/
def clipOf (m : List Nat) (v : List W32) : Option (List Nat) :=
  let p := (v.take 4).map BitVec.toNat
  let c := (List.range 4).map fun r => f32rnd .rn
    ((((m.drop (4 * r)).take 4).zip p).foldl (fun s (a, b) => (XR.add .rn s (XR.mul (fx a) (fx b)).1).1) xzero)
  if c.all f32fin then some c else none

/-- A homogeneous point: x, y, z, w in one unit. -/
structure HPt where
  x : Int
  y : Int
  z : Int
  w : Int
  deriving DecidableEq, Repr

def HPt.of (c : List Nat) : HPt :=
  { x := unitsOf (at? 0 c 0), y := unitsOf (at? 0 c 1), z := unitsOf (at? 0 c 2), w := unitsOf (at? 0 c 3) }

/-- R284: the clip volume, as quantities that are not negative inside it. -/
def clipPlanes : List (HPt → Int) :=
  [fun p => p.w + p.x, fun p => p.w - p.x, fun p => p.w + p.y, fun p => p.w - p.y, fun p => p.z, fun p => p.w - p.z]

/-- A polygon cut by one plane. -/
def cutBy (f : HPt → Int) (l : List HPt) : List HPt :=
  (l.zip (l.drop 1 ++ l.take 1)).flatMap fun (a, b) =>
    let p := f a
    let q := f b
    let mid (m n : Int) : HPt := { x := a.x * m + b.x * n, y := a.y * m + b.y * n, z := a.z * m + b.z * n, w := a.w * m + b.w * n }
    (if 0 ≤ p then [a] else [])
      ++ (if 0 < p ∧ q < 0 then [mid (-q) p] else if p < 0 ∧ 0 < q then [mid q (-p)] else [])

/-- R284: whether a triangle lies wholly outside the clip volume. -/
def outside (l : List HPt) : Bool := (clipPlanes.foldl (fun l f => cutBy f l) l).isEmpty

/-- A vertex in the window: for the pixel coordinate n/2 the value x − n·w is 0 at it; its depth is z/w, all z in units of `den`. -/
structure WPt where
  x : Int
  y : Int
  w : Int
  z : Int
  deriving DecidableEq, Repr

/-- R475: the window coordinates of a vertex in front of the eye, each rounded. -/
def windowOf (size : Nat) (c w : Nat) : Nat :=
  f32rnd .rn (XR.div (XR.mul (XR.add .rn (fx c) (fx w)).1 (XR.ofInt size)).1 (XR.mul (fx w) (.fin false 2 0)).1).1

/-- R475: the three vertices in the window, and the unit of z; for a triangle that reaches behind the eye the same mapping, not
rounded. None where a window coordinate is not finite. -/
def windowPts (W H : Nat) (cs : List (List Nat)) : Option (List WPt × Int) :=
  let hs := cs.map HPt.of
  if hs.all fun p => decide (0 < p.w) then
    let den := hs.foldl (fun d p => d * p.w) 1
    let one : Int := (2 ^ 149 : Nat)
    let ps := cs.map fun c => (windowOf W (at? 0 c 0) (at? 0 c 3), windowOf H (at? 0 c 1) (at? 0 c 3), HPt.of c)
    if ps.all fun p => f32fin p.1 && f32fin p.2.1 then
      some (ps.map fun (x, y, p) => { x := 2 * unitsOf x, y := 2 * unitsOf y, w := one, z := one * p.z * (den / p.w) }, den)
    else none
  else some (hs.map fun p => { x := (p.x + p.w) * W, y := (p.y + p.w) * H, w := p.w, z := p.z }, 1)

/-- The weight of each vertex at a pixel coordinate (nx/2, ny/2), up to one factor. -/
def weights (ps : List WPt) (nx ny : Int) : IVec :=
  let a (i : Nat) : Int := match ps[i]? with | some p => p.x - nx * p.w | none => 0
  let c (i : Nat) : Int := match ps[i]? with | some p => p.y - ny * p.w | none => 0
  IVec.cross (a 0, a 1, a 2) (c 0, c 1, c 2)

def IVec.list (v : IVec) : List Int := [v.1, v.2.1, v.2.2]

/-- R475: the key of a sample that the triangle covers, −z rounded once. -/
def sampleKey (ps : List WPt) (den : Int) (i j : Nat) : Option Nat :=
  let nx : Int := 2 * i + 1
  let ny : Int := 2 * j + 1
  let b := weights ps nx ny
  let sum (f : WPt → Int) : Int := ((b.list.zip ps).map fun (x, p) => x * f p).foldl (· + ·) 0
  let sw := sum WPt.w
  let sg : Int := if sw < 0 then -1 else 1
  let gx := (IVec.sub (weights ps (nx + 1) ny) b).list
  let gy := (IVec.sub (weights ps nx (ny + 1)) b).list
  let inside := (b.list.zip (gx.zip gy)).all fun (v, x, y) =>
    decide (0 < sg * v) || (v = 0 && (decide (0 < sg * x) || (x = 0 && decide (0 < sg * y))))
  let n := sg * sum WPt.z
  let d := sg * sw * den
  if sw = 0 || !inside then none
  else
    let z := Frac.quot n d
    if z.n < 0 || decide ((z.d : Int) < z.n) then none
    else some (if z.n = 0 then 0x80000000 else f32neg (z.f32 .rn))

/-- The pixels that a triangle can cover: all, or those of its bounds. -/
def pixelRange (size : Nat) (vs : List (Int × Int)) : List Nat :=
  if vs.all fun v => decide (0 < v.2) then
    let lo := vs.foldl (fun m v => min m (v.1 / (2 * v.2))) (size : Int)
    let hi := vs.foldl (fun m v => max m (v.1 / (2 * v.2) + 1)) (0 : Int)
    ((List.range (min hi size).toNat).drop lo.toNat)
  else List.range size

/-- R284: the area of a triangle in the window, up to a positive factor. -/
def areaOf (ps : List WPt) : Int :=
  match ps with
  | [a, b, c] => IVec.dot (a.x, a.y, a.w) (IVec.cross (b.x, b.y, b.w) (c.x, c.y, c.w))
  | _ => 0

/-- R284, R475: the samples of one view-primitive, or none where it is culled. -/
def viewSamples (b : List Byte) (view : Nat) (m : List Nat) (vs : List (List W32)) : Option (List Sample) :=
  match vs.filterMap (clipOf m) with
  | [c0, c1, c2] =>
    match windowPts (rsW b) (rsH b) [c0, c1, c2] with
    | none => none
    | some (ps, den) =>
      let a := areaOf ps
      let front := decide (0 < a) = Config.frontPositive
      if a = 0 || outside ([c0, c1, c2].map HPt.of) || (rsCull b = 1 && !front) || (rsCull b = 2 && front) then none
      else
        let xs := pixelRange (rsW b) (ps.map fun p => (p.x, p.w))
        let ys := pixelRange (rsH b) (ps.map fun p => (p.y, p.w))
        some (ys.flatMap fun j => xs.filterMap fun i => (sampleKey ps den i j).map fun key =>
          let px := rsW b * j + i
          { depth := (rsDepth b + view * rsStride b + 4 * px) % 2 ^ 64
            color := (rsColor b + view * rsStride b + 16 * px) % 2 ^ 64, key := key })
  | _ => none

/-! ### The candelabra stage (R284 to R286) -/

/-- The block and matrices of a primitive. -/
def readViews (p : MeshPrim) : Eval (List Byte × List (List Nat)) :=
  let rd := readFor none p.ctx Access.engRead
  (rd p.rstate.toNat 256).andThen fun b =>
    (Eval.each (fun v => (rd ((numAt b 0 8 + 64 * v) % 2 ^ 64) 64).andThen fun m =>
      .ret ((List.range 16).map fun j => numAt m (4 * j) 4)) (List.range (rsCount b))).andThen fun ms => .ret (b, ms)

/-- R284, R286: a primitive is counted, and replicated into its views. -/
def State.replicate (s : State) (f : Nat) (p : MeshPrim) (b : List Byte) (ms : List (List Nat)) : State × List Sample :=
  let s := s.feStat f 2 1
  if bit p.prim.toNat 24 then (s.feStat f 3 1, [])
  else
    let out := ms.zipIdx.map fun (m, v) => viewSamples b v m [p.v0, p.v1, p.v2]
    let ras := out.filterMap id
    let s := ((s.feStat f 4 ms.length).feStat f 5 (ms.length - ras.length)).feStat f 6 ras.length
    (if ras.isEmpty then s.feStat f 3 1 else s, ras.flatten)

/-- R285: the depth test of a sample and its writes, as one step. -/
def sampleStep (f : Nat) (p : MeshPrim) (x : Sample) (s : State) : Except (Nat × Nat) State × State :=
  match State.translatePieces none p.ctx Access.engAtomic [(x.depth, 4)] s with
  | (.error e, s) => (.error e, s)
  | (.ok dp, s) =>
    match State.translatePieces none p.ctx Access.engWrite (pagePieces x.color 16) s with
    | (.error e, s) => (.error e, s)
    | (.ok cp, s) =>
      match Access.engAtomic.rule dp, Access.engWrite.rule cp with
      | some k, _ => (.error (k, x.depth), s)
      | none, some k => (.error (k, x.color), s)
      | none, none =>
        let fs := s.flawsOf none false dp
        let s := s.checkMem fs
        if fs.any Flaw.fatal then (.error (8, x.depth), s)
        else
          let (b, s) := (s.closePieces dp).readPieces dp
          if !f32nan (ofBytes b) && !f32lt (ofBytes b) x.key then
            let n := s.freeCtr
            let c := (List.range 4).flatMap fun j => toBytes 4 (Config.sampleColor n j).toNat
            let s := ((s.fresh.2.writeAtomic (partsOf dp (toBytes 4 x.key))).writeFree (partsOf cp c)).feStat f 7 1
            (.ok s, s)
          else (.ok s, s)

/-- R243: a sample that is dropped at a fault of kind 2 or 7 leaves its cause in the host fault queue. -/
def State.dropSample (s : State) (f : Nat) (p : MeshPrim) (k va : Nat) : State :=
  if k = 2 || k = 7 then
    s.postFault p.ctx (faultEntry s.now (feSrc f) (memCause k Access.engRead) 3 0 [(alignDown va 4096, true)])
  else s

/-- The samples of a primitive in order, until one meets a fault at which a primitive parks, or for whose cause the host fault
queue has no room; those that meet another are dropped. -/
def samplesFrom (f : Nat) (p : MeshPrim) : List Sample → State → State × List Sample × Option (Nat × Nat)
  | [], s => (s, [], none)
  | x :: xs, s =>
    match sampleStep f p x s with
    | (.ok s, _) => samplesFrom f p xs s
    | (.error (k, va), s) =>
      if parks k then (s, x :: xs, some (k, va))
      else if (k = 2 || k = 7) && s.fqFull p.ctx then (s, x :: xs, none)
      else samplesFrom f p xs (s.dropSample f p k va)

/-- Whether a primitive of a front-end is parked (R268). -/
def State.fePark (s : State) (f : Nat) : Bool := s.batches.any fun b => b.unit = feSrc f

/-- One step of the first primitive of a front-end: as far as it goes; the fault at which it parks, and whether for writing. DEDUCED
(log 48): one that is dropped at a fault of its block or matrices produces no view-primitive, so that it counts as culled (R286). -/
def State.primStep (s : State) (f : Nat) (p : MeshPrim) : State × Option MeshPrim × Option (Nat × Nat × Bool) :=
  let go (s : State) (todo : List Sample) : State × Option MeshPrim × Option (Nat × Nat × Bool) :=
    match samplesFrom f p todo s with
    | (s, [], _) => (s, none, none)
    | (s, _, none) => (s, some p, none)
    | (s, rest, some (k, va)) => (s, some { p with todo := some rest }, some (k, va, true))
  match p.todo with
  | some l => go s l
  | none =>
    match evalNow (readViews p) s with
    | (.ok (b, ms), s) =>
      let (s, l) := s.replicate f p b ms
      go s l
    | (.error (.fault k va w), s) =>
      if parks k then (s, some p, some (k, va, w))
      else if (k = 2 || k = 7) && s.fqFull p.ctx then (s, some p, none)
      else (((s.dropSample f p k va).feStat f 2 1).feStat f 3 1, none, none)
    | (.error _, s) => ((s.feStat f 2 1).feStat f 3 1, none, none)

/-- The first primitive that no pre-emption has killed (R287). -/
def FrontEnd.head (x : FrontEnd) : Option MeshPrim := x.prims.find? fun p => !p.killed

/-- The first such primitive changed, or taken out. -/
def onHead (g : Option MeshPrim) : List MeshPrim → List MeshPrim
  | [] => []
  | p :: l => if p.killed then p :: onHead g l else g.toList ++ l

/-- CANDELABRA_PRIMITIVE: R284, R285: the first primitive of a front-end leaves the stage. -/
def State.candelabra (s : State) (f : Nat) : State :=
  match (s.fe f).head with
  | none => s
  | some p =>
    if s.fePark f then s
    else
      match s.primStep f p with
      | (t, none, _) =>
        ((t.onFe f fun x => { x with prims := onHead none x.prims }).onSlot f p.slot fun x => { x with prims := x.prims - 1 })
      | _ => s
def execCandelabraPrimitive (fe : Nat) (s : State) : Res := .next (s.candelabra fe)

/-- R268: the first primitive of a front-end parks at a fault, with what it has written kept; the counters are kept as they stood at its
start (R287). -/
def State.parkPrim (s : State) (f : Nat) : State :=
  match (s.fe f).head with
  | none => s
  | some p =>
    if s.fePark f then s
    else
      match s.primStep f p with
      | (t, some q, some (k, va, w)) =>
        (t.onFe f fun x => { x with
            prims := onHead (some q) x.prims, saved := if p.todo.isNone then (s.fe f).stats else x.saved }).park (feSrc f)
          { ray := 0, ctx := p.ctx, cause := memCause k Access.engRead, page := alignDown va 4096, w := w }
      | _ => s

/-- The counters of the candelabra stage, those from PRIM on (R286), as they stood in another list. -/
def backTo (saved stats : Sparse W64) : Sparse W64 :=
  (List.range 6).foldl (fun m j => Sparse.set 0 m (j + 2) (Sparse.get 0 saved (j + 2))) stats

/-- R287: the pre-emption of a render launch kills what front-ends have done for it since their last bin boundary: of the primitive that
stands midway, whose counts are taken back. DEDUCED (log 48): the bin boundaries lie between primitives. -/
def State.killBins (s : State) (launch : Nat) : State :=
  { s with fes := s.fes.map fun (f, x) =>
    let midway (p : MeshPrim) : Bool := p.todo.isSome && (s.slot f p.slot).launch = launch
    if x.prims.any midway then
      (f, { x with stats := backTo x.saved x.stats, prims := x.prims.map fun p => if midway p then { p with todo := none, killed := true } else p })
    else (f, x) }

/-- R287: on restore the killed work replays. -/
def State.replayBins (s : State) (launch : Nat) : State :=
  { s with fes := s.fes.map fun (f, x) =>
    (f, { x with prims := x.prims.map fun p => if (s.slot f p.slot).launch = launch then { p with killed := false } else p }) }

/-- RENDER_FAULT_PARK: a ray of a core's unit, or the first primitive of a front-end. -/
def execRenderFaultPark (unit ray : Nat) (s : State) : Res :=
  .next (if 0x200 ≤ unit then s.traceStep (unit - 0x200) ray .park
    else if 0x1C0 ≤ unit then s.parkPrim (unit - 0x1C0)
    else s.marchStep (unit - 0x100) ray .park)

end Sys2Proof.Machine
end

