-- ==== Sys2Proof/Machine/Exit.lean ====
section
/-!
DEFINITION. Leaving: exit and regroup (spec/07 R157, R164, R165), the end of a gang and of a launch (spec/04 R97, spec/06
R146, spec/08 R185, spec/24 R476).
-/
namespace Sys2Proof.Machine

/-! ### Waves and gangs that are over -/

/-- R157: a wave of no live and no parked lane is over for its gang. -/
def State.markExit (s : State) (key : Nat) (w : Wave) : State :=
  let s := s.onGang w.gang fun G => { G with exited := if G.exited.contains w.idx then G.exited else G.exited ++ [w.idx] }
  match s.gang? w.gang with
  | none => s
  | some G =>
    let core := keyCore key
    -- R128: the array passes on when the owner's last lane exits
    let s := s.onMx core fun m => { m with fifo := m.fifo.filter fun x => x.wave != key }
    let s := if (s.core core).mx.owner = some key && !s.mxBusy key then s.passMx core else s
    match G.slot with
    | some (f, j) => s.meshExit w f j w.rstate
    | none => s

/-- R157: whether the slot of a wave that has exited is free: every token it set is clear. -/
def Wave.gone (w : Wave) : Bool := w.heldLanes.isEmpty && w.ops.all (fun o => o.token = 0) && w.carried.isEmpty

/-- R157: what a wave that leaves its slot has started and no token counts goes on without it: its K-steps, with the array until they
are done (R128), its way resizes, and its rays (R423), of which finished ones that it never asked for go (R425). -/
def Core.leave (c : Core) (k : Nat) (w : Wave) : Core :=
  let other (x : Nat) : Nat := if x = k then leftKey else x
  let rays (l : List Ray) : List Ray :=
    (l.filter fun r => !(r.gang = w.gang && r.idx = w.idx && r.stat = .done)).map fun r => { r with wave := other r.wave }
  { c with
    rays := rays c.rays
    travRays := rays c.travRays
    resize := c.resize.map fun r => { r with asker := r.asker.map fun x => (other x.1, x.2) }
    mx := { c.mx with owner := c.mx.owner.map other, ops := c.mx.ops.map fun o => { o with wave := other o.wave } } }

/-- R157: the waves that have exited and whose tokens are clear leave their slots; no lane waits for their futures (R199). -/
def State.dropGone (s : State) : State :=
  s.waves.foldl (fun s (k, w) =>
    if w.gone then
      let s := s.onCore (keyCore k) fun c => c.leave k w
      let s : State := { s with mem := { s.mem with deferred := s.mem.deferred.filter fun d => d.wave != k } }
      (s.dropWave k).haltCheck w.ctx
    else s) s

/-- Whether a gang is over: every wave has exited and left, and no other member of its ensemble feeds a pipe of it. -/
def State.gangOver (s : State) (g : Nat) (G : Gang) : Bool :=
  G.left.isEmpty && !(s.waves.any fun (_, w) => w.gang = g)
    && !(s.gangs.any fun (h, H) => h != g && !H.left.isEmpty && H.pipes.any fun p =>
          match p with | some p => p.consumer = g | none => false)

/-- R113, R185: the resources of a gang of a core are free again. -/
def State.freeGang (s : State) (g core : Nat) : State :=
  s.onCore core fun c =>
    { c with
      allocs := c.allocs.filter fun a => a.gang != g
      breg := if c.breg.holder = some g then { c.breg with holder := none, zeroing := true }
        else if c.breg.next = some g then { c.breg with next := none } else c.breg }

/-- Launches of mesh gangs send no signal: they are over with their last gang (R97, R432). -/
def Launch.meshOver (l : Launch) : Bool := l.mesh.isSome && l.live = 0 && decide (l.desc.total ≤ l.nextIdx) && l.saved.isEmpty

/-- R157, R267: a gang is over. DEDUCED (log 77): rays that its waves left behind end with its allocation. -/
def State.endGang (s : State) (g : Nat) (G : Gang) : State :=
  let s := (s.freeGang g G.core).dropGang g
  let s := s.onCore G.core fun c => { c with
    rays := c.rays.filter fun r => r.gang != g, travRays := c.travRays.filter fun r => r.gang != g }
  let s := s.onLaunch G.launch fun l => { l with live := l.live - 1 }
  match s.launch? G.launch with
  | none => s
  | some l =>
    let s := if G.callable then s.abandonCalls l else s
    if l.meshOver then { s with sched := { s.sched with launches := s.sched.launches.filter fun x => x.id != l.id } } else s

/-- What has exited leaves. -/
def State.reap (s : State) : State :=
  let s := s.dropGone
  s.gangs.foldl (fun s (g, G) => if s.gangOver g G then s.endGang g G else s) s

/-! ### regroup (R164) -/

/-- A wave at its regroup: the instruction, its lanes' return stacks whole, and the keys of its lanes. -/
structure AtRegroup where
  i : Iss
  w : Wave
  keys : List Nat

/-- R164, R172: what each wave of a list brings, and the state after pipe operands are popped; none where a pipe holds too few. -/
def State.regroupBring : List Nat → State → Option (List AtRegroup × State)
  | [], s => some ([], s)
  | k :: ks, s =>
    match s.pending k with
    | none => none
    | some i =>
      if !i.pipesReady then none
      else
        let (pops, s1) := i.popAll
        let x : AtRegroup :=
          { i := i, w := s.refill k i.w, keys := laneIds.map fun l => i.operand pops (some .i32) i.v.a l % 256 }
        (State.regroupBring ks s1).map fun r => (x :: r.1, r.2)

/-- R164: the lane contexts of a gang in their new order, as old wave (its place among those that are left) and old lane. -/
def regroupOrder (xs : List AtRegroup) : List (Nat × Nat) :=
  let l := xs.zipIdx.flatMap fun (x, j) => x.w.heldLanes.map fun l => 1024 * at? 0 x.keys l + 32 * j + l
  (ascending l).map fun x => (x / 32 % 32, x % 32)

/-- R164: a lane in its new place: `moved` where that is another one; `pc` is where it goes on. -/
def Lane.regroup (x here : Lane) (moved : Bool) (pc : Nat) : Lane :=
  if moved then
    { pc := pc, parked := none, shelf := List.replicate 16 Cell.zero, named := x.named.map Cell.settle
      preds := x.preds.map PCell.settle, ret := x.ret, task := here.task }
  else { x with pc := pc, parked := none }

/-- R164: the lane at a place of the new order. -/
def regroupLane (xs : List AtRegroup) (order : List (Nat × Nat)) (j l : Nat) (here : Lane) : Lane :=
  match order[32 * j + l]? with
  | none => { here with pc := retiredPc, parked := none, ret := [] }
  | some (oj, ol) =>
    match xs[oj]? with
    | some x => (x.w.lane ol).regroup here (oj != j || ol != l) x.i.nextPc
    | none => here

/-- R164: the move, with every wave of the gang at its regroup. -/
def State.regroupMove (s : State) (ks : List Nat) : State :=
  let s0 := ks.foldl (fun s k => s.onWave k fun w => { w with wait := .none }) s
  match State.regroupBring ks s0 with
  | none => ks.foldl (fun s k => s.onWave k fun w => { w with wait := .pipe }) s
  | some (xs, s1) =>
    let order := regroupOrder xs
    let s2 := xs.zipIdx.foldl (fun s (x, j) =>
      let w := { x.w with lanes := x.w.lanes.zipIdx.map fun (y, l) => regroupLane xs order j l y }
      x.i.commit (s.spillRet x.i.key w laneIds) w []) s1
    xs.foldl (fun s x =>
      match s.wave? x.i.key with
      | some w => if w.heldLanes.isEmpty then s.markExit x.i.key w else s
      | none => s) s2

/-- R164: the gang moves when every wave that has not exited waits at a regroup. -/
def State.regroupCheck (s : State) (g : Nat) : State :=
  match s.gang? g with
  | none => s
  | some G =>
    let ks := G.left.map (·.2)
    if ks.isEmpty || ks.any (fun k => s.waitOf k != .regroup) then s else s.regroupMove ks

/-- The collectives of a gang that a wave's end may complete (R399, R400, R183, R165). -/
def State.afterExit (s : State) (g : Nat) : State :=
  match s.gang? g with
  | none => s.reap
  | some G => State.reap (((((s.barCheck g).ebarCheck G.ens).rotCheck G.ens).regroupCheck g).barCheck g)

/-- R162: 0x08 unless every lane that is not retired is live, at the issue address and in Exec. -/
def Iss.regroupCz (i : Iss) : List Cz := if i.ex = i.w.heldLanes then [] else [Cz.plain 0x08 i.ex]

def runRegroup (v : View) (s : State) : Res :=
  issue rowRegroup v s (fun i => i.regroupCz ++ i.pipesCz) fun i =>
    if !(List.range 6).all i.w.tokenClear then i.stall (.retry .token)
    else if !i.pipesReady then i.stall .pipe
    else ((i.s.setWave i.key { i.w with wait := .regroup }).regroupCheck i.w.gang).afterExit i.w.gang
def execRegroup (f : LongF) (s : State) : Res := runRegroup f.view s

/-! ### exit (R346) -/

/-- R156, R157: the lanes in Exec are retired; the wave has exited if no lane is left. -/
def runExit (v : View) (s : State) : Res :=
  issue rowExit v s (fun _ => []) fun i =>
    let s := i.commit i.s (i.w.onLanes i.ex fun _ x => { x with pc := retiredPc, parked := none, ret := [] }) i.offLanes
    match s.wave? i.key with
    | some w => if w.heldLanes.isEmpty then (s.markExit i.key w).afterExit w.gang else s
    | none => s
def execExit (f : LongF) (s : State) : Res := runExit f.view s
def execExitShort (f : ShortF) (s : State) : Res := runExit f.view s

/-! ### The end of launches (R97) and of task waves (R146) -/

/-- R97 step 1: a completion word is written through the context's page tables; what cannot be written is not. -/
def State.writeDone (s : State) (ctx addr : Nat) (v : W64) : State :=
  if addr = 0 then s
  else match s.writeVirt none ctx addr (toBytes 8 v.toNat) Access.engWrite with
    | (.ok _, s) => s
    | (.error _, s) => s

/-- R97 step 2: the OUTST of the arming entry that fired. -/
def State.armDone (s : State) (arm : Option Nat) : State :=
  match arm with
  | none => s
  | some a => { s with host := { s.host with
      arms := Sparse.set Arm.reset s.host.arms a
        (let x := Sparse.get Arm.reset s.host.arms a; { x with outst := x.outst - 1 }) } }

/-- R97: the release at system scope of a launch's completion: no put or message of a wave that has exited is under way in its
context. -/
def State.fabQuiet (s : State) (ctx : Nat) : Bool :=
  !(s.cores.any fun (_, k) => k.copyOwners.any fun o =>
      o.ctx = ctx && (o.kind = 4 || o.kind = 5) && (s.keyOf (some (o.gang, o.idx))).isNone)
  && !(s.flying.any fun (_, e) =>
      e.ctx = ctx && (e.kind = 4 || e.kind = 5) && (e.stat = .run || e.stat = .held || e.stat = .sent) && (s.keyOf e.who).isNone)

/-- R97, R476: whether a launch is over: its last gang has exited, and no payload slot of it is in use. -/
def State.launchOver (s : State) (l : Launch) : Bool :=
  decide (l.desc.total ≤ l.nextIdx) && l.live = 0 && l.saved.isEmpty
    && !(s.fes.any fun (_, f) => f.slots.any fun (_, x) => x.used && x.launch = l.id)

def State.dropLaunch (s : State) (id : Nat) : State :=
  { s with sched := { s.sched with launches := s.sched.launches.filter fun x => x.id != id } }

/-- R110: the node of a graph that a launch came from is over. -/
def State.nodeOver (s : State) (node : Option (Nat × Nat)) : State :=
  match node with
  | none => s
  | some (g, n) => { s with sched := { s.sched with graphs := s.sched.graphs.map fun x =>
      if x.id = g then { x with stats := setAt x.stats n .ended } else x } }

/-- LAUNCH_COMPLETE: R97, once. -/
def State.launchComplete (s0 : State) (id : Nat) : State :=
  let s := s0.reap
  match s.launch? id with
  | none => s0
  | some l =>
    if s.launchOver l && l.tasks.isNone && l.mesh.isNone && s.fabQuiet l.ctx then
      (((s.writeDone l.ctx l.desc.doneAddr l.desc.doneVal).armDone l.arm).nodeOver l.node).dropLaunch id
    else s0
def execLaunchComplete (launch : Nat) (s : State) : Res := .next (s.launchComplete launch)

/-- TASK_WAVE_COMPLETE: R146: the completion of each record that came from a descriptor, in ascending lane order. -/
def State.taskComplete (s0 : State) (id : Nat) : State :=
  let s := s0.reap
  match s.launch? id with
  | none => s0
  | some l =>
    match l.tasks with
    | none => s0
    | some t =>
      if s.launchOver l && s.fabQuiet l.ctx then
        (t.recs.foldl (fun s r =>
          if r.orig then (s.writeDone l.ctx r.doneAddr.toNat r.doneVal).armDone r.arm else s) s).dropLaunch id
      else s0
def execTaskWaveComplete (launch : Nat) (s : State) : Res := .next (s.taskComplete launch)

end Sys2Proof.Machine
end

