-- ==== Sys2Proof/Machine/Scheduler.lean ====
section
/-!
DEFINITION. The launch distributor: which gang is next (spec/05 R104 to R107, R111), whether it fits a core or cluster (R113 to
R115), reservation and commit (R116, R117, spec/04 R98, spec/06 R145), and the rotation of a partition (R122).
-/
namespace Sys2Proof.Machine

/-! ### What waits for a place (R105, R118) -/

/-- A gang or ensemble that waits for a place: a saved ensemble of a launch, or the launch's next one. -/
structure Waiting where
  launch : Launch
  /-- its effective priority (R104) -/
  prio : Nat
  saved : Option Nat
  time : W64
  deriving DecidableEq, Repr

/-- R106, R107: whether the state of a context lets gangs of a launch be placed. -/
def State.mayPlace (s : State) (l : Launch) : Bool :=
  match (s.ctx l.ctx).state with
  | .run => true
  | .stopping => (match l.tasks with | some t => t.home = 17 | none => false)
  | _ => false

/-- What a launch of an effective priority still has to place. -/
def Launch.waits (l : Launch) (p : Nat) : List Waiting :=
  ((l.saved.map (·.ens)).eraseDups.map fun e =>
    { launch := l, prio := p, saved := some e
      time := match l.saved.find? fun v => v.ens = e with | some v => v.time | none => l.time : Waiting })
  ++ (if l.nextIdx < l.desc.total then [{ launch := l, prio := p, saved := none, time := l.time : Waiting }] else [])

/-- R104, R105: whether one goes before another: higher priority, then the older, then the lower source number; of one launch
the saved ones first. -/
def Waiting.before (a b : Waiting) : Bool :=
  if a.prio != b.prio then decide (b.prio < a.prio)
  else if a.time != b.time then decide (a.time.toNat < b.time.toNat)
  else if a.launch.src != b.launch.src then decide (a.launch.src < b.launch.src)
  else if a.launch.id != b.launch.id then decide (a.launch.id < b.launch.id)
  else match a.saved, b.saved with
    | some x, some y => decide (x < y)
    | some _, none => true
    | none, _ => false

/-- Everything that waits for a place and may have one. -/
def State.waitList (s : State) : List Waiting := (s.sched.launches.filter s.mayPlace).flatMap fun l => l.waits (s.effPrio l.ctx l.prio)

/-- The first of a list in the order of R105. -/
def firstOf : List Waiting → Option Waiting
  | [] => none
  | x :: l => match firstOf l with
    | none => some x
    | some y => if x.before y then some x else some y

/-- R105: the only one that the distributor places next. -/
def State.nextToPlace (s : State) : Option Waiting := firstOf s.waitList

/-! ### Fitting (R113 to R115) -/

/-- The register budget of a wave and of a partition. -/
def waveBudget (named : Nat) : Nat := 2048 + 128 * named
def partBudget : Nat := 196608

/-- R113: the waves of a gang of `n` that a partition takes. -/
def wavesIn (n part : Nat) : Nat := (n + 3 - part) / 4

/-- The waves on a core but those of gangs in a list. -/
def State.wavesOn (s : State) (core : Nat) (but : List Nat) : List (Nat × Wave) :=
  s.waves.filter fun (k, w) => keyCore k = core && !but.contains w.gang

/-- R113: the partitions of a core take the waves of a gang; the gangs of the list are counted as gone. -/
def State.slotsFit (s : State) (core waves named : Nat) (but : List Nat) : Bool :=
  let on := s.wavesOn core but
  (List.range 4).all fun p =>
    let here := on.filter fun (k, _) => keyPart k = p
    decide (here.length + wavesIn waves p ≤ 32)
      && decide ((here.map fun (_, w) => waveBudget w.n).foldl (· + ·) 0 + wavesIn waves p * waveBudget named ≤ partBudget)

/-- Whether a range of scratchpad meets none of the allocations. -/
def rangeFree (as : List SpAlloc) (base bytes : Nat) : Bool :=
  as.all fun a => decide (base + bytes ≤ a.base) || decide (a.base + a.bytes ≤ base) || bytes = 0 || a.bytes = 0

/-- R113: the lowest place in `room` bytes of scratchpad for an allocation. -/
def placeIn (as : List SpAlloc) (room bytes : Nat) : Option Nat :=
  (ascending (0 :: as.map fun a => alignUp (a.base + a.bytes) 256)).find? fun b => decide (b + bytes ≤ room) && rangeFree as b bytes

/-- The bytes of a way of scratchpad, and the ways it may have (R179). -/
def wayBytes : Nat := 65536
def maxWays : Nat := 20
/-- The ways that a range needs. -/
def waysFor (base bytes : Nat) : Nat := (base + bytes + wayBytes - 1) / wayBytes

/-- R113, R181: the whole allocation of a member, with the pipes bound to it, in granules of 256 bytes. -/
def Desc.bytesOf (d : Desc) (m : Nat) : Nat :=
  match d.members[m]? with
  | some x => x.scratch + pipeBytes d.pipes m
  | none => 0

/-- R111: whether a copy node of a graph holds the die of a core for itself. -/
def weightDie (b : Nat) : Option Nat := if bit b 63 then some (bits b 56 2) else none
def State.dieHeld (s : State) (die : Nat) : Bool :=
  s.sched.graphs.any fun g => (g.nodes.zip g.stats).any fun (n, x) =>
    n.kind = 2 && weightDie n.b.toNat = some die && (x = .started || x = .ended || x = .waits 0 && !g.aborted)

/-- R114, R115: the cores of a cluster that the members of an ensemble take; a single gang takes the core itself. -/
def coresFor (members core : Nat) : List Nat :=
  if members = 1 then [core] else (List.range members).map (· + 4 * (core / 4))

/-- Where the next gang or ensemble of a launch goes: core and base of each member, with the ways that `ways` gives each core. -/
def State.placeFresh (s : State) (d : Desc) (core : Nat) (but : List Nat) (ways : Core → Nat) : Option (List (Nat × Nat)) :=
  if s.dieHeld (dieOf core) || decide (192 ≤ core) then none
  else
    (coresFor d.members.length core).zipIdx.foldr (fun (c, m) acc =>
      acc.bind fun l =>
        (d.members[m]?).bind fun x =>
          let as := (s.core c).allocs.filter fun a => !but.contains a.gang
          if s.slotsFit c x.waves x.named but then
            (placeIn as (wayBytes * ways (s.core c)) (d.bytesOf m)).map fun b => (c, b) :: l
          else none) (some [])

/-- The gangs of a saved ensemble, by member. -/
def Waiting.savedGangs (x : Waiting) : List Saved := x.launch.saved.filter fun v => some v.ens = x.saved

/-- R251: the header of a gang slot: the base k4 of its waves, which a wave record holds, whether it has an image of the
B-region. -/
def State.slotWord (s : State) (ctx slot o n : Nat) : Nat := ofBytes (s.peekPhys (s.slotAt ctx slot + o) n)
def State.slotWaves (s : State) (ctx slot : Nat) : Nat := bits (s.slotWord ctx slot 0 8) 8 6
def State.slotHasB (s : State) (ctx slot : Nat) : Bool := bit (s.slotWord ctx slot 0 8) 61

/-- R253: where a saved ensemble goes: every member at the base it had. -/
def State.placeSaved (s : State) (x : Waiting) (core : Nat) (but : List Nat) (ways : Core → Nat) : Option (List (Nat × Nat)) :=
  if s.dieHeld (dieOf core) || decide (192 ≤ core) then none
  else
    (x.savedGangs).foldr (fun v acc =>
      acc.bind fun l =>
        (x.launch.desc.members[v.member]?).bind fun m =>
          let c := if x.launch.desc.members.length = 1 then core else 4 * (core / 4) + v.member
          let as := (s.core c).allocs.filter fun a => !but.contains a.gang
          let bytes := x.launch.desc.bytesOf v.member
          let b := (s.core c).breg
          let bOk := !s.slotHasB x.launch.ctx v.slot || ((b.holder.isNone || (b.holder.any fun h => but.contains h)) && !b.zeroing)
          if s.slotsFit c m.waves m.named but && rangeFree as v.base bytes && decide (v.base + bytes ≤ wayBytes * ways (s.core c)) && bOk
          then some ((c, v.base) :: l) else none) (some [])

/-- Where something that waits would go, if the gangs of a list were gone. -/
def State.placeFor (s : State) (x : Waiting) (core : Nat) (but : List Nat) (ways : Core → Nat) : Option (List (Nat × Nat)) :=
  match x.saved with
  | some _ => s.placeSaved x core but ways
  | none => s.placeFresh x.launch.desc core but ways

/-- R113, R114: whether some core or cluster has what it needs, ways of L1 included. -/
def State.fitsSomewhere (s : State) (x : Waiting) (but : List Nat) : Bool :=
  (List.range 192).any fun c => (s.placeFor x c but fun _ => maxWays).isSome

/-- R252: whether the save area has a slot for every gang that would be resident. -/
def State.slotCount (s : State) (ctx : Nat) : Nat := ofBytes (s.peekPhys ((s.ctx ctx).save + 8) 4)
def State.slotsLeft (s : State) (ctx n : Nat) : Bool :=
  let res := (s.gangs.filter fun x => x.2.ctx = ctx).length
  let sav := ((s.sched.launches.filter fun l => l.ctx = ctx).map fun l => l.saved.length).foldl (· + ·) 0
  decide (res + sav + n ≤ min 65535 (s.slotCount ctx))

/-! ### Reserve and commit (R116) -/

/-- R114: the ways of cores that hold too few for a place are converted. -/
def State.convertWays (s : State) (ps : List (Nat × Nat)) (d : Desc) : State :=
  ps.zipIdx.foldl (fun s ((c, b), m) =>
    s.onCore c fun x =>
      let need := waysFor b (d.bytesOf m)
      if x.ways < need && !(x.resize.any fun r => r.asker.isNone) then { x with resize := x.resize ++ [{ ways := need, asker := none }] }
      else x) s

/-- GANG_RESERVE: R116 step 1, on the core that the distributor chooses. -/
def State.reserve (s0 : State) (core : Nat) : State :=
  let s := s0.reap
  match s.sched.reserve, s.nextToPlace with
  | none, some x =>
    let d := x.launch.desc
    if x.saved.isSome || !s.slotsLeft x.launch.ctx d.members.length then s0
    else
      match s.placeFresh d core [] (·.ways) with
      | some ps =>
        let g := s.sched.nextGang
        let s := ps.zipIdx.foldl (fun s ((c, b), m) =>
          s.onCore c fun y => { y with allocs := y.allocs ++ [{ base := b, bytes := d.bytesOf m, gang := g + m }] }) s
        { s with sched := { s.sched with
          nextGang := g + ps.length
          reserve := some { launch := x.launch.id, index := x.launch.nextIdx, gangs := ps.zipIdx.map fun ((c, b), m) => (g + m, c, b) } } }
      | none =>
        match s.placeFresh d core [] fun _ => maxWays with
        | some ps => s.convertWays ps d
        | none => s0
  | _, _ => s0
def execGangReserve (core : Nat) (s : State) : Res := .next (s.reserve core)

/-- R113: the slot that a wave takes: the lowest free one of its partition. -/
def State.slotFor (s : State) (core w : Nat) : Option Nat :=
  ((List.range 32).map fun j => 128 * core + 32 * (w % 4) + j).find? fun k => (s.wave? k).isNone

/-- The pipes of a member (R95, R202): those bound in, then those bound out; `nums` are the numbers and bases of the gangs. -/
def pipesOf (d : Desc) (nums : List (Nat × Nat)) (m : Nat) : List (Option Pipe) :=
  let pipe (b : Binding) (j : Nat) : Option Pipe :=
    (nums[b.cons]?).map fun (g, base) =>
      let before := ((d.pipes.take j).filter fun x => x.cons = b.cons).map fun x => 4 * x.size
      { consumer := g, index := b.consPipe
        base := base + (match d.members[b.cons]? with | some x => x.scratch | none => 0) + before.foldl (· + ·) 0
        size := b.size, closed := false, count := 0, head := 0 }
  let get (p : Binding → Bool) : Option Pipe := (d.pipes.zipIdx.find? fun x => p x.1).bind fun x => pipe x.1 x.2
  ((List.range 4).map fun q => get fun b => b.cons = m && b.consPipe = q)
    ++ (List.range 4).map fun q => get fun b => b.prod = m && b.prodPipe = q

/-- R98, R145, R432: one wave of a new gang becomes resident. -/
def State.commitWave (s : State) (l : Launch) (g index m core base entry named j : Nat) : State :=
  match s.slotFor core j with
  | none => s
  | some key =>
    let off := s.codeOff l.ctx (s.forward l.ctx entry)
    let (k1, k2) := match l.tasks with
      | some t => (0, t.home)
      | none => (if l.mesh.isSome then base else l.k1.toNat, index)
    let w := Wave.start g j l.ctx named off (startK l.desc.args k1 k2 m base j) s.sched.nextAge
    let give (t : TaskWave) (i : Nat) (x : Lane) : Lane :=
      match t.recs[i]? with
      | some r => { x with task := r.image }
      | none => { x with pc := retiredPc, task := List.replicate 128 0 }
    let w := match l.tasks with
      | some t => { w with lanes := w.lanes.zipIdx.map fun (x, i) => give t i x }
      | none => w
    let s := { s with sched := { s.sched with nextAge := s.sched.nextAge + 1 } }
    let s := s.setWave key { w with rstate := l.rstate, turnAt := s.partNow (key / 32) }
    s.onGang g fun G => { G with waves := G.waves ++ [key] }

/-- A gang of a launch, without waves. -/
def Launch.gang (l : Launch) (index m ens core base prio age : Nat) (pipes : List (Option Pipe)) : Gang :=
  let home := l.tasks.map (·.home)
  let scratch := match l.desc.members[m]? with | some x => x.scratch | none => 0
  { Gang.start l.ctx l.id index m ens l.desc.members.length core base scratch (l.desc.bytesOf m) prio age with
    pre := l.desc.pre, rend := l.desc.rend, task := home.isSome && home != some 17, callable := home = some 17
    slot := l.mesh, pipes := pipes }

/-- R116 step 2: one gang of the reservation becomes resident. -/
def State.commitGang (s : State) (l : Launch) (ens index : Nat) (nums : List (Nat × Nat)) (x : (Nat × Nat × Nat) × Nat) : State :=
  let ((g, core, base), m) := x
  let G := l.gang index m ens core base (s.effPrio l.ctx l.prio) s.sched.nextAge (pipesOf l.desc nums m)
  let G := { G with trapEn := (s.ctx l.ctx).trapEn }
  let s := s.setGang g G
  let s := s.onCore core fun c => { c with codeBuf := c.codeBuf.filter fun y => y.ctx != l.ctx }
  let s := match l.mesh with
    | some (f, j) => s.spWrite core base (s.slot f j).payload
    | none => s
  match l.desc.members[m]? with
  | none => s
  | some y => (List.range y.waves).foldl (fun s j => s.commitWave l g index m core base y.entry y.named j) s

/-- R145: the records of a task wave leave their home when it commits; what that makes eligible is so from this cycle on (R143). -/
def State.leaveHomes (s : State) (id : Nat) : State :=
  (List.range 16).foldl (fun s h =>
    let x := s.home h
    if x.recs.any fun r => r.into = some id then
      s.setHome h { x with recs := x.recs.filter fun r => r.into != some id, nextGather := max x.nextGather s.plinth }
    else s) s

/-- GANG_COMMIT: R116 step 2. -/
def State.commitReserve (s0 : State) : State :=
  match s0.sched.reserve with
  | none => s0
  | some r =>
    match s0.launch? r.launch with
    | none => s0.cancelReserve
    | some l =>
      -- R111: no gang is placed on a die that a copy node waits for or holds
      if r.gangs.any fun (_, core, _) => s0.dieHeld (dieOf core) then s0.cancelReserve.schStat 1 1
      else
      let s := { s0 with sched := { s0.sched with reserve := none, nextEns := s0.sched.nextEns + 1 } }
      let nums := r.gangs.map fun (g, _, b) => (g, b)
      let s := r.gangs.zipIdx.foldl (fun s x => s.commitGang l s0.sched.nextEns r.index nums x) s
      let s := s.onLaunch l.id fun y => { y with nextIdx := y.nextIdx + 1, live := y.live + r.gangs.length }
      (s.leaveHomes l.id).schStat 0 r.gangs.length
def execGangCommit (s : State) : Res := .next s.commitReserve

/-! ### Rotation (R122) -/

/-- R122: whether a partition is due to rotate: 8 cycles have passed since it did, a pending wave is ready, and no place of the active
set is free or held by a waiting wave. -/
def State.rotationDue (s : State) (part : Nat) : Bool :=
  decide (Sparse.get 0 s.rotated part + 8 ≤ s.partNow part) && !(s.pending_ part).isEmpty
    && decide (8 ≤ (s.activeOf part).length) && !(s.activeOf part).any fun x => s.mustWait x.1 x.2

/-- WAVE_ROTATION: the wave that has been active longest changes places with the pending one that has been ready longest; it
stands behind those that are ready. -/
def State.rotate (s : State) (core part : Nat) : State :=
  let p := 4 * core + part
  let n := s.sched.nextAge
  if s.rotationDue p then
    match longest (s.activeOf p), longest (s.pending_ p) with
    | some (a, _), some (b, _) =>
      { (State.promote { s.onWave a fun w => w.demote n with sched := { s.sched with nextAge := n + 1 } } b true) with
        rotated := Sparse.set 0 s.rotated p (s.partNow p) }
    | _, _ => s
  else s
def execWaveRotation (core part : Nat) (s : State) : Res := .next (s.rotate core part)

end Sys2Proof.Machine
end

