-- ==== Sys2Proof/Machine/Preempt.lean ====
section
/-!
DEFINITION. Pre-emption: what stops gangs to be saved (spec/05 R111, R118, R119; spec/10 R253, R255), the gang slot (R249 to
R252) and its restore with forwarding (R256).
-/
namespace Sys2Proof.Machine

/-! ### A wave that leaves what it waits for (R121, R253) -/

/-- The wave stands again before the instruction in which it waited, with nothing of the wait left but what R250 keeps. -/
def State.unwait (s : State) (key : Nat) : State :=
  match s.wave? key with
  | none => s
  | some w =>
    let free (s : State) : State := s.onWave key fun w => { w with wait := .none }
    match w.wait with
    | .object a _ _ =>
      let o := s.readObj (keyCore key) a
      free (s.writeObj (keyCore key) a { o with wt := o.wt - 1 })
    | .matrixFifo => free (s.onMx (keyCore key) fun m => { m with fifo := m.fifo.filter fun x => x.wave != key })
    | .spawns =>
      let mine (x : Spawn) : Bool := match x.who with | .lane g j _ => g = w.gang && j = w.idx | _ => false
      free ((List.range 16).foldl (fun s h =>
        if (s.home h).spawns.any mine then s.setHome h { s.home h with spawns := (s.home h).spawns.filter fun x => !mine x } else s) s)
    | .space _ => free { s with bln := { s.bln with held := s.bln.held.filter fun h => h.wave != some key } }
    | .drain .. | .dbgDrain .. | .fence _ | .future _ => s
    | _ => free s

/-! ### Saving a gang (R249 to R253) -/

/-- The free gang slot of the lowest number. -/
def State.freeGangSlot (s : State) (ctx : Nat) : Option Nat :=
  let map := s.peekPhys ((s.ctx ctx).save + 0x1000) 8192
  (List.range (min 65535 (s.slotCount ctx))).find? fun g => !bit (at? 0 map (g / 8)).toNat (g % 8)

/-- R253: what is issued has completed: the waves of a gang, also those that have exited, their K-steps and rays (R423), and the copy
entries that it has in flight, but those that are held or stopped (R254). -/
def State.drained (s : State) (g : Nat) (G : Gang) : Bool :=
  (s.waves.all fun (_, w) => w.gang != g || !w.busy && (match w.wait with | .drain .. | .dbgDrain .. | .fence _ => false | _ => true))
  && !((s.core G.core).mx.gang = some g && !(s.core G.core).mx.ops.isEmpty)
  && ([UnitKind.march, UnitKind.trace].all fun k => (s.raysOf G.core k).all fun r => r.gang != g || r.stat = .done)
  && (s.core G.core).copies.all fun e => !(e.who.any fun x => x.1 = g) || (match e.stat with
    | .held | .stopped _ | .complete => true
    | _ => false)

/-- R251: the accumulators of a matrix owner, as they are saved: those of the present owner, or those that a former owner waits to
regain (R128). -/
def Gang.ownImage (G : Gang) (m : Matrix) : Option (Nat × Sparse W32 × W32) :=
  (G.left.findSome? fun (j, k) =>
    if m.owner = some k then some (j, m.acc, m.kcnt)
    else m.fifo.findSome? fun x => if x.wave = k then x.image.map fun i => (j, i) else none)

/-- R251: accumulators as bytes, and back. -/
def accImage (a : Sparse W32) : List Byte := (denseFrom 32768 0 a).flatMap fun w => toBytes 4 w.toNat
def wordsOfBytes : List Byte → List W32
  | a :: b :: c :: d :: l => BitVec.ofNat 32 (ofBytes [a, b, c, d]) :: wordsOfBytes l
  | _ => []
def imageAcc (b : List Byte) : Sparse W32 := sparseFrom 0 (wordsOfBytes b)

/-- R251: the header of a gang slot. -/
def State.gangHeader (s : State) (g : Nat) (G : Gang) : List Byte :=
  let m := (s.core G.core).mx
  let own := G.ownImage m
  let waits := G.left.any fun (_, k) => m.owner != some k && (s.wave? k).any fun w => w.mxStamp.isSome
  let hasB := (s.core G.core).breg.holder = some g
  let head := 2 ^ 63 + 2 ^ 62 * b2n (G.task || G.callable) + 2 ^ 61 * b2n hasB + 2 ^ 60 * b2n own.isSome + 2 ^ 59 * b2n waits
    + 2 ^ 16 * G.member + 2 ^ 8 * G.waves.length
  let pipe (q : Nat) : Nat := match (G.pipes.getD q none) with
    | some p => 2 ^ 63 + 2 ^ 62 * b2n p.closed + 2 ^ 16 * p.count + p.head
    | none => 0
  toBytes 8 head ++ toBytes 8 g ++ toBytes 8 G.index ++ toBytes 8 s.now ++ toBytes 4 G.bytes
    ++ toBytes 4 (match own with | some (_, _, k) => k.toNat | none => 0)
    ++ toBytes 4 (maskOfLanes G.barArr) ++ toBytes 4 (if G.barCnt then G.barN else 0)
    ++ ((List.range 4).flatMap fun q => toBytes 8 (pipe q)) ++ toBytes 8 G.core ++ toBytes 4 (maskOfLanes G.ebarArr) ++ toBytes 4 0

/-- R250, R253: one wave of a gang is written to its place in the slot; one that has exited has no record. -/
def State.saveWave (s : State) (pa : Nat) (G : Gang) (k j : Nat) : State :=
  let at_ := pa + 0x40000 + 24576 * j
  match (if G.exited.contains j then none else s.wave? k) with
  | some w =>
    let w := s.refill k w.settle
    s.writeRecord at_ { w with asyncs := if w.trapMode then [] else w.asyncs } (List.replicate 128 0)
  | none => s.writeImage at_ 24576 []

/-- What the device keeps of a saved gang beside its slot. -/
def State.savedOf (s : State) (g : Nat) (G : Gang) (slot : Nat) (time : W64) : Saved :=
  let ws := G.waves.zipIdx.map fun (k, j) => (k, if G.exited.contains j then none else s.wave? k)
  { gang := g, ens := G.ens, index := G.index, member := G.member, slot := slot, core := G.core, base := G.base, time := time
    mxOwn := (G.ownImage (s.core G.core).mx).map (·.1)
    mxStamps := ws.zipIdx.filterMap fun (x, j) => x.2.bind fun w => w.mxStamp.map fun t => (j, t)
    meshes := ws.map fun x => match x.2 with | some w => (w.mesh, w.emitted) | none => ({ verts := [], prims := [] }, false)
    live := ws.zipIdx.filterMap fun (x, j) => x.2.bind fun w =>
      if w.trapMode || w.dbgHalt then some (j, s.peekPhys (s.liveRecord G.ctx x.1) 24576) else none
    passed := ws.map fun x => match x.2 with | some w => laneIds.filter w.hasPassed | none => [] }

/-- R253 step 3: a gang is written to a slot, its resources are free and its waves are gone from the core. -/
def State.saveGang (s : State) (g : Nat) (G : Gang) : State :=
  match s.freeGangSlot G.ctx with
  | none => s
  | some slot =>
    let pa := s.slotAt G.ctx slot
    let c := s.core G.core
    let time := match G.evict with
      | some (.slice t) => t
      | _ => (match s.launch? G.launch with | some l => l.time | none => s.dev.tsNow)
    let v := s.savedOf g G slot time
    let s := (s.readsAt ((s.ctx G.ctx).save) 0x20).readsAt ((s.ctx G.ctx).save + 0x1000) (slot / 8 + 1)
    let s := v.live.foldl (fun s x => match G.waves[x.1]? with
      | some k => s.readsAt (s.liveRecord G.ctx k) 24576
      | none => s) s
    let s := s.writePhys pa (s.gangHeader g G) none
    let s := match G.ownImage c.mx with
      | some (_, a, _) => s.writePhys (pa + 0x10000) (accImage a) none
      | none => s
    let s := G.waves.zipIdx.foldl (fun s (k, j) => s.saveWave pa G k j) s
    let s := s.writePhys (pa + 0x100000) (s.spRead G.core G.base G.bytes) none
    let s := if c.breg.holder = some g then s.writePhys (pa + 0x400000) (readBytes c.breg.mem 0 0x200000) none else s
    let s := ((s.markSlot G.ctx slot true).store ((s.ctx G.ctx).save + 0x10) 8 s.now)
    let s := s.onMx G.core fun m => { m with
      gang := if m.gang = some g then none else m.gang, fifo := m.fifo.filter fun x => !(G.left.any fun y => y.2 = x.wave) }
    let s := if c.mx.owner.any fun k => G.left.any fun y => y.2 = k then s.passMx G.core else s
    let s := G.waves.foldl (fun s k => if (s.wave? k).any (fun w => w.gang = g) then s.dropWave k else s) s
    let s := (s.freeGang g G.core).dropGang g
    let s := (s.killBins (s.rootLaunch G.launch)).onLaunch G.launch fun l => { l with live := l.live - 1, saved := l.saved ++ [v] }
    let s := match G.evict with
      | some .prio => s.schStat 2 1
      | some (.slice _) => s.schStat 3 1
      | _ => s
    s.haltCheck G.ctx

/-- R199, R253: the lanes of ldfut that a gang's waves still wait for are refused. -/
def State.refuseFutures (s : State) (G : Gang) : State :=
  (s.mem.deferred.filter fun d => G.left.any fun y => y.2 = d.wave).foldl (fun s d => s.endDeferred d none) s

/-- R124, R253: the gangs of an ensemble are saved together, once everything that they have issued is complete. -/
def State.saveEns (s : State) (e : Nat) : State :=
  let s := (s.ensGangs e).foldl (fun s x => x.2.left.foldl (fun s y => s.unwait y.2) (s.refuseFutures x.2)) s
  if (s.ensGangs e).all fun x => s.drained x.1 x.2 then
    (s.ensGangs e).foldl (fun s x => match s.gang? x.1 with | some G => s.saveGang x.1 G | none => s) s
  else s

/-- The gangs of an ensemble stop for a reason. -/
def State.evictEns (s : State) (e : Nat) (r : Evict) : State :=
  (s.ensGangs e).foldl (fun s x => s.onGang x.1 fun G => { G with evict := if G.evict.isSome then G.evict else some r }) s

/-! ### Who is pre-empted -/

/-- The gangs that stop to be saved. -/
def State.leaving (s : State) : List Nat := (s.gangs.filter fun x => x.2.evict.isSome).map (·.1)

/-- R118: whether one gang is displaced before another. -/
def Gang.sooner (a b : Gang) : Bool := decide (a.prio < b.prio) || (a.prio = b.prio && decide (b.age < a.age))

/-- R118: the gang that goes first, of those that may be displaced. -/
def firstVictim : List (Nat × Gang) → Option (Nat × Gang)
  | [] => none
  | x :: l => match firstVictim l with
    | none => some x
    | some y => if y.2.sooner x.2 then some y else some x

/-- R118: the gang whose ensemble is displaced next for a launch of priority 7 that finds no place. -/
def State.victim (s : State) : Option Nat :=
  match s.nextToPlace with
  | none => none
  | some x =>
    -- what has its place reserved displaces nothing more
    if s.sched.reserve.any fun r => r.launch = x.launch.id then none
    else if x.prio = 7 && (x.saved.isSome || s.slotsLeft x.launch.ctx x.launch.desc.members.length)
        && !s.fitsSomewhere x s.leaving then
      (firstVictim (s.gangs.filter fun y => y.2.pre && decide (y.2.prio < 7) && y.2.evict.isNone)).map (·.1)
    else none

/-- R111: whether a gang has to leave a die for a copy node. -/
def State.mustLeave (s : State) (G : Gang) : Bool := G.pre && s.dieHeld (dieOf G.core)

/-- GANG_PREEMPT: a gang that stops is saved; one that is to be displaced stops first. -/
def State.preempt (s0 : State) (g : Nat) : State :=
  let s := s0.reap
  match s.gang? g with
  | none => s0
  | some G =>
    if G.evict.isSome then s.saveEns G.ens
    else if s.mustLeave G || (s.victim.bind s.gang?).any fun V => V.ens = G.ens then (s.evictEns G.ens .prio).saveEns G.ens
    else s0
def execGangPreempt (gang : Nat) (s : State) : Res := .next (s.preempt gang)

/-- R119: whether a launch cannot be placed for lack of a core's resources: it fits nowhere, and would fit were the core empty. -/
def State.lacksCore (s : State) (x : Waiting) (core : Nat) : Bool :=
  !(s.sched.reserve.any fun r => r.launch = x.launch.id) && !s.fitsSomewhere x []
    && (s.placeFor x core ((s.gangs.filter fun y => y.2.core = core).map (·.1)) fun _ => maxWays).isSome

/-- QUANTUM_EXPIRE: R119: a context's count on a core has reached its quantum (R84); R255 defers it for a wave that a debugger stopped at
a fault. DESIGN CHOICE (log 77): the priority that a waiting launch must reach is the highest of the context's gangs with PRE = 1 there. -/
def State.quantumExpire (s0 : State) (core ctx : Nat) : State :=
  let s := s0.reap
  let q := Sparse.get 0 (s.core core).quanta ctx
  let n := Sparse.get 0 (s.core core).slices ctx
  let mine := s.gangs.filter fun x => x.2.ctx = ctx && x.2.core = core && x.2.pre
  let held := s.waves.any fun (k, w) => keyCore k = core && w.ctx = ctx && w.dbgHalt && w.fltPend
  if q = 0 || decide (n < q) || held then s0
  else
    let p := (mine.map fun x => x.2.prio).foldl max 0
    let wanted := s.waitList.any fun x => x.launch.ctx != ctx && decide (p ≤ x.prio) && s.lacksCore x core
    let s := s.onCore core fun c => { c with slices := Sparse.set 0 c.slices ctx 0 }
    if wanted then mine.foldl (fun s x => s.evictEns x.2.ens (.slice s.dev.tsNow)) s else s
def execQuantumExpire (core ctx : Nat) (s : State) : Res := .next (s.quantumExpire core ctx)

/-! ### Restore (R253, R256) -/

/-- R256: a restored wave's code addresses are forwarded. -/
def State.forwardWave (s : State) (w : Wave) : Wave :=
  { w with lanes := w.lanes.map fun x => { x with pc := s.forwardOff w.ctx x.pc, ret := x.ret.map (s.forwardOff w.ctx) } }

/-- R250: a wave comes back from its record in the slot, to a free slot of the core; one without a record has exited. -/
def State.restoreWave (s : State) (pa g core named : Nat) (G : Gang) (v : Saved) (j : Nat) : State :=
  let at_ := pa + 0x40000 + 24576 * j
  let (bs, s) := s.readChecked at_ 24576
  if !bit (numAt bs 0 8) 63 then s.onGang g fun G => { G with waves := G.waves ++ [retiredPc], exited := G.exited ++ [j] }
  else
    match s.slotFor core j with
    | none => s
    | some key =>
      let t := Wave.start g j G.ctx named 0 (startK 0 0 0 0 0 0) s.sched.nextAge
      let isTask := G.task || G.callable
      let t := if isTask then { t with lanes := t.lanes.map fun x => { x with task := List.replicate 128 0 } } else t
      let w := s.forwardWave (s.reload t bs fun l => (v.passed.getD j []).contains l)
      let (mesh, emitted) := match v.meshes[j]? with | some x => x | none => ({ verts := [], prims := [] }, false)
      let w := { w with
        trapMode := bit (numAt bs 0 8) 62
        fltPend := bit (numAt bs 0 8) 61
        dbgHalt := bit (numAt bs 0 8) 60
        mxStamp := find? v.mxStamps j
        turnAt := s.partNow (key / 32)
        mesh := mesh
        emitted := emitted }
      let s := { s with sched := { s.sched with nextAge := s.sched.nextAge + 1 } }
      let s := match find? v.live j with
        | some b => s.writePhys (s.liveRecord G.ctx key) b none
        | none => s
      let s := s.spillRet key w laneIds
      -- R245: causes that came while a wave in trap mode was saved join its live record
      let (s, w) := if w.trapMode then
          (w.asyncs.foldl (fun s (c, q) => s.asyncRecord (s.liveRecord G.ctx key) c q) s, { w with asyncs := [] }) else (s, w)
      let move (r : Ray) : Ray := if r.gang = g && r.idx = j then { r with wave := key } else r
      let s := s.onCore core fun c => { c with rays := c.rays.map move, travRays := c.travRays.map move }
      let s := (s.setWave key w).onGang g fun G => { G with waves := G.waves ++ [key] }
      -- R128: one that waited for the array is ahead of every wave that asked after it
      match w.mxStamp with
      | some t => if v.mxOwn = some j then s
        else (s.onMx core fun m => { m with fifo := mxEnter { stamp := t, wave := key, image := none } m.fifo }).grantMx core
      | none => s

/-- Results of rays that a gang has not asked for come with it to another core (R425). -/
def State.moveRays (s : State) (g c1 c2 : Nat) : State :=
  if c1 = c2 then s
  else
    let mine (r : Ray) : Bool := r.gang = g
    let a := (s.core c1).rays.filter mine
    let b := (s.core c1).travRays.filter mine
    (s.onCore c1 fun c => { c with rays := c.rays.filter fun r => !mine r, travRays := c.travRays.filter fun r => !mine r }).onCore c2
      fun c => { c with rays := c.rays ++ a, travRays := c.travRays ++ b }

/-- The lanes of a mask as indices. -/
def State.slotMask (s : State) (ctx slot o : Nat) : List Nat := lanesOfMask (s.slotWord ctx slot o 4)

/-- R253: one gang of a saved ensemble is loaded. -/
def State.restoreGang (s : State) (x : Waiting) (nums : List (Nat × Nat)) (ens : Nat) (v : Saved) (core : Nat) : State :=
  let l := x.launch
  let pa := s.slotAt l.ctx v.slot
  let word (o n : Nat) : Nat := s.slotWord l.ctx v.slot o n
  let n := s.slotWaves l.ctx v.slot
  let G := l.gang v.index v.member ens core v.base (s.effPrio l.ctx l.prio) s.sched.nextAge (pipesOf l.desc nums v.member)
  let G := { G with
    trapEn := (s.ctx l.ctx).trapEn
    barArr := s.slotMask l.ctx v.slot 0x28
    barN := if word 0x2C 4 = 0 then n else word 0x2C 4
    barCnt := word 0x2C 4 != 0
    ebarArr := s.slotMask l.ctx v.slot 0x58
    pipes := G.pipes.zipIdx.map fun (p, q) =>
      if q < 4 then p.map fun p =>
        let h := word (0x30 + 8 * q) 8
        { p with closed := bit h 62, count := bits h 16 13, head := bits h 0 13 }
      else p }
  let named := match l.desc.members[v.member]? with | some m => m.named | none => 8
  let s := (s.readChecked pa 0x60).2.setGang v.gang G
  let s := s.moveRays v.gang v.core core
  let (sp, s) := s.readChecked (pa + 0x100000) G.bytes
  let s := s.onCore core fun c => { c with
    allocs := c.allocs ++ [{ base := v.base, bytes := G.bytes, gang := v.gang }]
    codeBuf := c.codeBuf.filter fun y => y.ctx != l.ctx
    scratch := writeBytes c.scratch v.base sp }
  let s := if s.slotHasB l.ctx v.slot then
      let (b, s) := s.readChecked (pa + 0x400000) 0x200000
      s.onCore core fun c => { c with breg :=
        { holder := some v.gang, zeroing := false, next := none, ctx := l.ctx, gangIdx := v.index, mem := writeBytes [] 0 b } }
    else s
  let kcnt := BitVec.ofNat 32 (word 0x24 4)
  let s := (List.range n).foldl (fun s j => s.restoreWave pa v.gang core named G v j) s
  let s := match v.mxOwn.bind fun j => (s.gang? v.gang).bind fun G => (G.waves[j]?) with
    | some key =>
      let (a, s) := s.readChecked (pa + 0x10000) 0x20000
      (s.onMx core fun m => { m with fifo := mxEnter { stamp := 0, wave := key, image := some (imageAcc a, kcnt) } m.fifo }).grantMx core
    | none => s
  let s := s.markSlot l.ctx v.slot false
  (s.replayBins (s.rootLaunch l.id)).onLaunch l.id fun y => { y with live := y.live + 1, saved := y.saved.filter fun z => z.gang != v.gang }

/-- GANG_RESTORE: R253: the saved gang that is next comes back, with its ensemble, to the core or cluster chosen; where that has too
few ways of scratchpad, ways are converted first (R114). DESIGN CHOICE (log 77): SCH_STAT_PLACED counts the first commit of a gang
only. -/
def State.restore (s0 : State) (ctx slot core : Nat) : State :=
  let s := s0.reap
  match s.sched.reserve, s.nextToPlace with
  | none, some x =>
    if x.launch.ctx = ctx && x.savedGangs.any fun v => v.slot = slot then
      match s.placeSaved x core [] (·.ways) with
      | some ps =>
        let ens := match x.saved with | some e => e | none => 0
        let nums := (List.range x.launch.desc.members.length).map fun m =>
          match x.savedGangs.find? fun v => v.member = m with | some v => (v.gang, v.base) | none => (2 ^ 64, 0)
        (x.savedGangs.zip ps).foldl (fun s (v, c, _) => s.restoreGang x nums ens v c) s
      | none =>
        match s.placeSaved x core [] fun _ => maxWays with
        | some ps => (x.savedGangs.zip ps).foldl (fun s (v, c, b) =>
            s.onCore c fun y =>
              let need := waysFor b (x.launch.desc.bytesOf v.member)
              if y.ways < need && !(y.resize.any fun r => r.asker.isNone) then
                { y with resize := y.resize ++ [{ ways := need, asker := none }] } else y) s
        | none => s0
    else s0
  | _, _ => s0
def execGangRestore (ctx slot core : Nat) (s : State) : Res := .next (s.restore ctx slot core)

end Sys2Proof.Machine
end

