-- ==== Sys2Proof/Machine/Sync.lean ====
section
/-!
DEFINITION. Row 0xB_ but barriers and barrier objects: fences (spec/09 R218 to R221), waiting on an address and on tokens
(spec/08 R196, spec/16 R403, R404), the code buffers (R405).
-/
namespace Sys2Proof.Machine

/-! ### Fences -/

/-- R220, R221: a fence of an order and scope; the wave's earlier accesses have been performed when they issued (log 6). -/
def runFence (v : View) (s : State) : Res :=
  issue rowFence v s (fun _ => []) fun i => i.ordered (isRelease v.order) (v.scope = 4)
def execFence (f : LongF) (s : State) : Res := runFence f.view s

/-- R220: the drain has every effect of fence.ar.sy. -/
def runFenceUn (v : View) (s : State) : Res := issue rowFenceUn v s (fun _ => []) fun i => i.ordered true true
def execFenceUn (f : LongF) (s : State) : Res := runFenceUn f.view s

/-! ### waddr (R196, R403) -/

/-- R403: the scratchpad alias, and the bytes it spans. -/
def aliasBase : Nat := 0xFFFFFFFFFFE00000
def aliasBytes : Nat := 1310720

def waddrBytes (v : View) : Nat := if v.w64 then 8 else 4

/-- R196: the conditions. -/
def waddrCond (cond n w x : Nat) : Bool :=
  match cond with
  | 0 => w = x
  | 1 => w != x
  | 2 => decide (x ≤ w)
  | 3 => decide (w < x)
  | 4 => decide (asS x n ≤ asS w n)
  | 5 => decide (asS w n < asS x n)
  | _ => w &&& x != 0

/-- R403: whether the address is in the alias, and its scratchpad address. -/
def Iss.inAlias (i : Iss) : Bool := decide (aliasBase ≤ i.addrU)
def Iss.aliasOff (i : Iss) : Nat := i.addrU - aliasBase

/-- R403: the causes of the address itself. -/
def Iss.waddrCz (i : Iss) : List Cz :=
  let bad (c : Nat) : List Cz := [{ Cz.plain c i.ex with maddr := i.addrU }]
  let n := waddrBytes i.v
  if i.ex.isEmpty then []
  else (if i.addrU % n = 0 then [] else bad 0x80)
    ++ (if !i.inAlias then []
        else if aliasBytes ≤ i.aliasOff then bad 0x81
        else if i.s.inAlloc i.w.gang i.aliasOff n then [] else bad 0x68)

/-- Whether the word read meets the condition. -/
def Iss.waddrMet (i : Iss) (w : Nat) : Bool :=
  let n := 8 * waddrBytes i.v
  waddrCond i.v.cond n (w % 2 ^ n) (i.w.operand i.v (if i.v.w64 then .i64 else .i32) [] 0 i.v.b)

/-- R196: one turn of the loop with the word read: the wave goes on, or sleeps with a place in the table, or without. -/
def Iss.waddrTurn (i : Iss) (s : State) (d : Option Nat) (w : Nat) : State :=
  if i.waddrMet w then i.endWait s true
  else if s.past d then i.endWait s false
  else
    let free := decide (s.waitUsed i.core < waitMax)
    let addr := if i.inAlias then i.aliasOff else i.addrU
    let s := s.setWave i.key { i.w with wait := .word i.inAlias addr d free, deadline := d }
    if free then s
    else s.onCore i.core fun c => { c with polls := if c.polls = BitVec.allOnes 32 then c.polls else c.polls + 1 }

/-- The access of a waddr to global memory. -/
def Iss.waddrAccs (i : Iss) : List LaneAcc :=
  match i.ex with
  | l :: _ => [{ lane := l, a := alignDown i.addrU (waddrBytes i.v), n := waddrBytes i.v }]
  | [] => []

def Iss.waddrDeadline (i : Iss) : Option Nat := deadlineOf i.w.deadline i.s.now (i.w.operand i.v .i32 [] 0 i.v.c)

/-- The access of a waddr to the scratchpad. -/
def Iss.aliasAccs (i : Iss) : List LaneAcc := i.ex.map fun l => { lane := l, a := i.aliasOff, n := waddrBytes i.v }
/-- The word at the scratchpad address of a waddr. -/
def Iss.aliasWord (i : Iss) : Nat := ofBytes (i.s.spRead i.core i.aliasOff (waddrBytes i.v))

def runWaddr (v : View) (s : State) : Res :=
  match s.iss rowWaddr v with
  | none => .fault .noWave
  | some i =>
    if i.inAlias || i.ex.isEmpty then
      issueChecked rowWaddr v s Iss.waddrCz
        (fun i => if i.s.owned i.w.ctx i.core true i.aliasAccs then ([], i.s) else i.localCheck 0x60 i.aliasAccs) fun i =>
        if i.ex.isEmpty then i.done
        else if i.s.owned i.w.ctx i.core true i.aliasAccs then i.stall (.retry .copy)
        else i.waddrTurn i.s i.waddrDeadline i.aliasWord
    else
      issueGlobal rowWaddr v s (Access.read.at 0) Iss.waddrAccs Iss.waddrCz fun i ls =>
        let (bs, s) := readLanes ls i.s
        .ok (i.waddrTurn s i.waddrDeadline (match bs with | (_, b) :: _ => ofBytes b | [] => 0))
def execWaddr (f : LongF) (s : State) : Res := runWaddr f.view s

/-- R224: whether a copy entry owns the word that a wave sleeps on. -/
def State.waddrOwned (s : State) (key : Nat) (scratch : Bool) (a : Nat) : Bool :=
  match s.pending key with
  | none => false
  | some i =>
    let l : List LaneAcc := [{ lane := 0, a := a, n := waddrBytes i.v }]
    s.owned i.w.ctx i.core scratch l || (!scratch && s.ownedPa (allPieces (s.xlateLanes i.core i.w.ctx (Access.read.at 0) l).1))

/-- R196: a sleeping wave reads its word again, where it was woken, polls, or its deadline has passed; a read that faults is a
fault of the instruction. -/
def State.waddrAgain (s : State) (key : Nat) : State :=
  match s.waitOf key with
  | .word scratch a d _ =>
    if s.waddrOwned key scratch a then s
    else
    s.finish key fun i =>
      if scratch then
        let (ue, s1) := i.localCheck 0x60 i.aliasAccs
        match laneCz ue with
        | c :: _ => { i with s := s1 }.fail c
        | [] => i.waddrTurn s1 d i.aliasWord
      else
        let l := i.waddrAccs
        let (t, s1) := State.xlatePages (some i.core) i.w.ctx (Access.read.at 0) (pagesOf l) i.s
        let ls := l.map fun x => { acc := x, res := piecesFrom t (pagePieces x.a x.n) : LaneX }
        let i1 := { i with s := s1 }
        let fs := s1.flawsMet (some i.core) false Access.read ls
        let ue := ueLanes Access.read ls fs
        match lowestCz (laneCz (ls.filterMap (LaneX.cz (Access.read.at 0)) ++ ue)) with
        | some c =>
          if ue.any fun x => x.code = c.code then { i with s := s1.checkMem fs }.fail c
          else i1.fail (Access.read.postPages t c)
        | none =>
          let (bs, s2) := readLanes ls (s1.checkMem fs)
          i1.waddrTurn s2 d (match bs with | (_, b) :: _ => ofBytes b | [] => 0)
  | _ => s

/-- R196: WADDR_TIMEOUT: the deadline of a sleeping wave has passed. -/
def State.waddrTimeout (s : State) (key : Nat) : State :=
  match s.waitOf key with
  | .word _ _ d _ => if s.past d then s.waddrAgain key else s
  | _ => s

/-! ### icinv, isync, wtok -/

/-- R405: the cores whose code buffers a scope names. -/
def scopeCores (scope core : Nat) : List Nat :=
  if scope < 2 then [core] else if scope = 2 then (List.range 4).map (· + alignDown core 4) else List.range 192

/-- R405: lines of a context in a range of virtual addresses are dropped. -/
def dropCode (ctx lo hi : Nat) (c : Core) : Core :=
  { c with codeBuf := c.codeBuf.filter fun l => !(l.ctx = ctx && decide (alignDown lo 128 ≤ l.va) && decide (l.va < alignUp hi 128)) }

def runIcinv (v : View) (s : State) : Res :=
  issue rowIcinv v s (fun _ => []) fun i =>
    if i.ex.isEmpty then i.commit i.s (i.addToken i.w) i.at_
    else
      let lo := i.w.operand v .i64 [] 0 v.a
      let hi := lo + i.w.operand v .i32 [] 0 v.b
      let s := i.s.cores.foldl (fun s (k, _) =>
        if (scopeCores v.scope i.core).contains k then s.onCore k (dropCode i.w.ctx lo hi) else s) i.s
      i.commit s (i.addToken i.w) i.at_
def execIcinv (f : LongF) (s : State) : Res := runIcinv f.view s

/-- R405: a wave of the model holds no instruction beyond the one it issues, so isync has nothing to drop. -/
def runIsync (v : View) (s : State) : Res := issue rowIsync v s (fun _ => []) fun i => i.commit i.s (i.addToken i.w) i.at_
def execIsync (f : LongF) (s : State) : Res := runIsync f.view s
def execIsyncShort (f : ShortF) (s : State) : Res := runIsync f.view s

/-- The operand of wtok. -/
def Iss.wtokA (i : Iss) : Nat := i.w.operand i.v .i32 [] 0 i.v.a

/-- R404: the wave waits until a token's count is at most n. -/
def runWtok (v : View) (s : State) : Res :=
  issue rowWtok v s (fun i => if !i.ex.isEmpty && decide (5 < i.wtokA % 8) then [Cz.plain 0x03 i.ex] else []) fun i =>
    if i.ex.isEmpty || decide (i.w.tokenCount (i.wtokA % 8) ≤ bits i.wtokA 3 6) then i.commit i.s (i.addToken i.w) i.at_
    else i.stall (.retry .token)
def execWtok (f : LongF) (s : State) : Res := runWtok f.view s
def execWtokShort (f : ShortF) (s : State) : Res := runWtok f.view s

end Sys2Proof.Machine
end

