-- ==== Sys2Proof/Machine/Steps.lean ====
section
/-!
DEFINITION. Events of the cores: what the waves wait for comes about, and what engines of a core finish (spec/07 R175, spec/08 R182,
R185, R187, R196, R201, R203; spec/17 R413, R438), the fault queues (spec/10 R239), the invalidation of translations (R236), the
debugger (R258 to R261) and the errors of host accesses (R231).
-/
namespace Sys2Proof.Machine

/-- R18, R99, R101: whether the host's accesses are served: the link is up, and the Obsis firmware has been verified. -/
def State.serves (s : State) : Bool := s.dev.pcieUp && s.host.boot != 0 && s.host.boot != 15

/-- An event in which the host reads or writes a register. -/
def hosted (s : State) (f : State → State) : Res := .next (if s.serves then f s else s)

/-! ### Results, tokens and waits -/

/-- VARIABLE_RESULT_ARRIVE: R175, R174: a result of variable latency arrives and its token counts one less;
an ldw whose lane reads a refreshing bank group waits for the window's end (R187). -/
def State.resultArrive (s : State) (key op : Nat) : State :=
  match (s.wave? key).bind fun w => w.ops.find? fun o => o.id = op with
  | some o =>
    if o.kind = .result && !(o.bank.any (groupRefreshes s.now)) then (s.completeOp key op).reap else s
  | none => s
def execVariableResultArrive (wave op : Nat) (s : State) : Res := .next (s.resultArrive wave op)

/-- PIPE_WAIT_COMPLETE: R203: a wave that waits at a pipe goes on where it has room or elements, or is refused. -/
def State.pipeWait (s : State) (key : Nat) : State :=
  if s.waitOf key = .pipe then
    match s.pending key with
    | some i => if i.pipesReady || !i.pipesCz.isEmpty then s.onWave key fun w => { w with wait := .none } else s
    | none => s
  else s
def execPipeWaitComplete (wave : Nat) (s : State) : Res := .next (s.pipeWait wave)

/-- WADDR_WAKE: R196: a wave with an entry in the wait table reads its word again. -/
def execWaddrWake (wave : Nat) (s : State) : Res :=
  .next (match s.waitOf wave with | .word _ _ _ true => s.waddrAgain wave | _ => s)
/-- WADDR_POLL: R196: a wave without an entry reads its word again. -/
def execWaddrPoll (wave : Nat) (s : State) : Res :=
  .next (match s.waitOf wave with | .word _ _ _ false => s.waddrAgain wave | _ => s)
def execWaddrTimeout (wave : Nat) (s : State) : Res := .next (s.waddrTimeout wave)
def execBarwaitTimeout (wave : Nat) (s : State) : Res := .next (s.objTimeout wave)

/-- K_STEP_COMPLETE. -/
def execKStepComplete (core : Nat) (s : State) : Res := .next (s.kStep core).reap

/-- COMPLETION_TIMEOUT: R231: the access of a wave to host space ends with an error: the access that the wave makes next raises
kind 13. -/
def execCompletionTimeout (wave : Nat) (s : State) : Res := .next (s.onWave wave fun w => { w with hostErr := true })

/-! ### Scratchpad ways, B-region, weight store -/

/-- R182: the answer of a cresize takes the places that the instruction took. -/
def Wave.fill (w : Wave) (op v : Nat) : Wave :=
  { w with
    lanes := w.lanes.map fun x => { x with shelf := x.shelf.map (Cell.answer op v), named := x.named.map (Cell.answer op v) }
    k := w.k.map fun c =>
      { c with
        val := if c.due = .op op then BitVec.ofNat 64 v else c.val
        prior := c.prior.map fun (x, d) => (if d = .op op then BitVec.ofNat 64 v else x, d) } }

/-- R182: the highest allocated scratchpad byte, plus one. -/
def Core.spTop (c : Core) : Nat := (c.allocs.map fun a => if a.bytes = 0 then 0 else a.base + a.bytes).foldl max 0

/-- R182: the way count of a core changes; ways of scratchpad that are new hold zeros. -/
def Core.setWays (c : Core) (v : Nat) : Core :=
  let need := (c.spTop + wayBytes - 1) / wayBytes
  let w := max (min v maxWays) need
  let c1 := { c with ways := w, scratch := c.scratch.filter fun (a, _) => decide (a < wayBytes * min w c.ways) }
  { c1 with l1 := c1.l1.drop (c1.l1.length - c1.l1Size) }

/-- CRESIZE_COMPLETE: R182: the oldest request of a core is done. -/
def State.resizeDone (s : State) (core : Nat) : State :=
  match (s.core core).resize with
  | [] => s
  | r :: rest =>
    let s := s.onCore core fun c => { c.setWays r.ways with resize := rest }
    match r.asker with
    | none => s
    | some (k, op) => (((s.onWave k fun w => w.fill op (s.core core).ways)).completeOp k op).reap
def execCresizeComplete (core : Nat) (s : State) : Res := .next (s.resizeDone core)

/-- BREGION_ZERO_DONE: R185: the region is zero and free, or given to the gang whose claim waits. -/
def State.zeroDone (s : State) (core : Nat) : State :=
  let b := (s.core core).breg
  if b.zeroing then
    let s := s.onCore core fun c => { c with breg := { c.breg with zeroing := false, next := none, mem := [] } }
    (match b.next with | some g => s.claimB core g | none => s).wake .zeroing
  else s
def execBregionZeroDone (core : Nat) (s : State) : Res := .next (s.zeroDone core)

/-- REFRESH_WINDOW: R187, R188: waves that wait at a wsync look at the windows of their die again. -/
def State.windowTurn (s : State) (die : Nat) : State :=
  { s with waves := s.waves.map fun (x : Nat × Wave) =>
      if dieOf (keyCore x.1) = die && x.2.wait = .retry .window then (x.1, { x.2 with wait := .none }) else x }
def execRefreshWindow (die : Nat) (s : State) : Res := .next (s.windowTurn die)

/-- PERF_CNT_WRITE: R438. -/
def State.perfCntWrite (s : State) (core i : Nat) (v : W64) : State :=
  if core < 192 ∧ i < 8 then
    s.onCore core fun c =>
      let p : PerfCtr := Sparse.get { cfg := 0, cnt := 0 } c.perf i
      { c with perf := Sparse.set { cfg := 0, cnt := 0 } c.perf i { p with cnt := v } }
  else s
def execPerfCntWrite (core i : Nat) (v : W64) (s : State) : Res := hosted s fun s => s.perfCntWrite core i v

/-! ### The host fault queue (R239) -/

/-- R239, R246: what the waves of a context waited for in the fault queue. -/
def State.passWave (s : State) (ctx cidx : Nat) (key : Nat) : State :=
  match s.wave? key with
  | none => s
  | some w =>
    if w.ctx != ctx then s
    else match w.wait with
      | .fault p => if p < cidx then s.setWave key { w with wait := .none } else s
      | .faultSpace cause origin info pages => s.postWave key w cause origin info pages
      | .stopSpace =>
        (match w.issuePc with
          | some pc => s.stopWave key w (s.codeAddr ctx pc)
          | none => s)
      | _ => s

/-- FQ_CIDX_OBSERVE. -/
def State.cidxObserve (s : State) (ctx : Nat) : State :=
  let c := s.fqCidx ctx
  (s.waves.foldl (fun s x => s.passWave ctx c x.1) s).passFaults ctx
def execFqCidxObserve (ctx : Nat) (s : State) : Res := .next (s.cidxObserve ctx)

/-! ### Translations (R236, R257) -/

/-- XLT_INV_CTL.GO with a kind: a write while one is under way is ignored (R257). -/
def State.invGo (s : State) (kind : Nat) : State :=
  if s.xlt.invGo then { s with host := { s.host with cfgErr := true } }
  else { s with xlt := { s.xlt with invGo := true, invKind := kind } }
def execTlbInvalidateRange (s : State) : Res := hosted s fun s => s.invGo 0
def execTlbInvalidateContext (s : State) : Res := hosted s fun s => s.invGo 1
def execTlbInvalidateAll (s : State) : Res := hosted s fun s => s.invGo 2

/-- R236: whether the invalidation in progress drops a translation. -/
def Xlt.drops (x : Xlt) (t : TlbEntry) : Bool :=
  match x.invKind with
  | 0 => t.ctx = x.invCtx && decide (t.va < x.invVa.toNat + 4096 * max 1 x.invPages) && decide (x.invVa.toNat < t.va + 2 ^ t.log2)
  | 1 => t.ctx = x.invCtx
  | _ => true

/-- TLB_INVALIDATE_COMPLETE: R236: the leaves of the range, and all that the walk caches hold of the context. -/
def State.invDone (s : State) : State :=
  if s.xlt.invGo then
    let s := s.cores.foldl (fun s (k, _) => s.onCore k fun c => { c with
      tlb := c.tlb.filter fun t => !s.xlt.drops t
      walks := c.walks.filter fun e => s.xlt.invKind ≤ 1 && e.ctx != s.xlt.invCtx }) s
    { s with xlt := { s.xlt with invGo := false } }
  else s
def execTlbInvalidateComplete (s : State) : Res := .next s.invDone

/-! ### The debugger (R258 to R261) -/

/-- R258, R260, R261: HALT takes a wave at its instruction boundary; one whose fault is recorded and not posted has FLTPEND = 1, and
runs ahead when it has been resumed (R255). -/
def State.haltWave (s : State) (key : Nat) : State :=
  match s.wave? key with
  | none => s
  | some w =>
    if w.trapMode || w.dbgHalt || w.heldLanes.isEmpty || (match w.wait with | .drain .. | .dbgDrain .. | .fence _ => true | _ => false)
    then s
    else
      let flt := match w.wait with | .ahead .. | .faultSpace .. => true | _ => false
      let words := if w.wait = .none then [] else w.words
      match (s.unwait key).wave? key with
      | none => s
      | some w =>
        let w := { w.unpark with fltPend := flt, words := words }
        let pc := w.issuePc.getD retiredPc
        (s.unwait key).dbgStop key w
          { cause := 0x00, lane := 0xFF, mask := maskOfLanes (w.liveLanes.filter fun l => (w.lane l).pc = pc)
            iaddr := s.codeAddr w.ctx pc, maddr := 0, info := 0, adv := 0 }

/-- DBG_HALT: R258, R259: without a debugger it has no effect. -/
def State.dbgHalt (s : State) (ctx : Nat) : State :=
  if (s.ctx ctx).attach then
    let s := s.onCtx ctx fun c => { c with halt := true }
    (s.waves.foldl (fun s x => if x.2.ctx = ctx then s.haltWave x.1 else s) s).haltCheck ctx
  else s
def execDbgHalt (ctx : Nat) (s : State) : Res := hosted s fun s => s.dbgHalt ctx

/-- DBG_RESUME: R258, R260: every stopped wave is reloaded from its live record and passes its breakpoint or watchpoint once. -/
def State.dbgResume (s : State) (ctx : Nat) : State :=
  s.waves.foldl (fun s x =>
    if x.2.ctx = ctx && x.2.dbgHalt then
      (s.reloadWave x.1 x.2 x.2.hasPassed).onWave x.1 fun w => { w with stepped := false, skip := true }
    else s) s
def execDbgResume (ctx : Nat) (s : State) : Res := hosted s fun s => s.dbgResume ctx

/-- DBG_ATTACH_WRITE: R258, R259: a write of DBG_CTL. -/
def State.dbgCtlWrite (s : State) (ctx : Nat) (v : W64) : State :=
  let was := (s.ctx ctx).attach
  let s := s.onCtx ctx fun c =>
    { c with attach := bit v.toNat 0, attn := bit v.toNat 1, step := bit v.toNat 4, halt := c.halt && bit v.toNat 0 }
  let s := if bit v.toNat 3 || (was && !bit v.toNat 0) then s.dbgResume ctx else s
  if bit v.toNat 2 then s.dbgHalt ctx else s
def execDbgAttachWrite (ctx : Nat) (v : W64) (s : State) : Res := hosted s fun s => s.dbgCtlWrite ctx v

end Sys2Proof.Machine
end

