-- ==== Sys2Proof/Machine/Device.lean ====
section
/-!
DEFINITION. Events of the package (spec/01): power and clocks (R13 to R15), the global timestamp (R26, R27), the host link
(R18), the Wafolo links with their flits (R19, R20, spec/03 R64, R68, R78), and the checks of stored data (R21 to R25).
-/
namespace Sys2Proof.Machine

/-- HOST_STATUS.CFGERR: a write was ignored (R94). -/
def State.hostErr (s : State) : State := { s with host := { s.host with cfgErr := true } }

/-! ### Power and clocks -/

/-- R15: LIM, clamped to 600 to 2,100. -/
def clampLim (lim : Nat) : Nat := max 600 (min 2100 lim)
def execPowerLimitWrite (lim : W16) (s : State) : Res :=
  hosted s fun s => { s with dev := { s.dev with pwrLim := BitVec.ofNat 16 (clampLim lim.toNat) } }

/-- R14: one step of 25 MHz, at most 1,700 MHz. -/
def stepClock (cclk : Nat) (up : Bool) : Nat :=
  if up then min 1700 (cclk + 25) else if 25 < cclk then cclk - 25 else cclk
/-- R14, R15: whether the power measured stays inside the limit; while it does not, the clock does not rise. -/
def Dev.inLimit (d : Dev) : Bool := decide (d.pwrWatts.toNat ≤ d.pwrLim.toNat)
def execCoreClockStep (up : Bool) (s : State) : Res :=
  .next (if up && !s.dev.inLimit then s else { s with dev := { s.dev with cclk := stepClock s.dev.cclk up } })

/-- R14: the module draws at most 2,100 W. -/
def powerOf (ms : Nat) : W16 := BitVec.ofNat 16 (min 2100 (Config.modulePower ms).toNat)

/-! ### The timestamp -/

/-- R119, R84: a microsecond more of a context on a core; a quantum begins with its first one, or with the first for which there is a
quantum, and keeps the CTX_QUANT that held then. -/
def Core.countSlice (c : Core) (ctx quant : Nat) : Core :=
  let n := Sparse.get 0 c.slices ctx
  let q := Sparse.get 0 c.quanta ctx
  let first := n = 0 || q = 0
  { c with
    slices := Sparse.set 0 c.slices ctx (if first && quant != 0 then 1 else n + 1)
    quanta := if first then Sparse.set 0 c.quanta ctx quant else c.quanta }

/-- R119: a microsecond of each context that has a wave resident on a core. -/
def State.countSlices (s : State) : State :=
  ((s.waves.map fun (x : Nat × Wave) => 64 * keyCore x.1 + x.2.ctx).eraseDups).foldl (fun (s : State) n =>
    s.onCore (n / 64) fun c => c.countSlice (n % 64) (s.ctx (n % 64)).quant) s

/-- R438: the core cycles between two timestamps, for the counters that count them; one that filters counts while a wave of its
context is resident. -/
def State.countCycles (s : State) (n : Nat) : State :=
  if s.cores.all fun (_, c) => c.perf.isEmpty then s
  else s.eachCore fun core c => { c with perf := c.perf.map fun (y : Nat × PerfCtr) =>
      let f := y.2.cfg.toNat
      let on := bits f 0 8 = 1 && (!bit f 31 || s.waves.any fun (k, w) => keyCore k = core && w.ctx = bits f 32 6)
      (y.1, if on then { y.2 with cnt := y.2.cnt + BitVec.ofNat 64 n } else y.2) }

/-- TS_NOW_WRITE: only while TS_CTRL.RUN is 0. -/
def State.tsWrite (s : State) (v : W64) : State :=
  if s.dev.tsRun then s else { s with dev := { s.dev with tsNow := v } }
def execTsNowWrite (v : W64) (s : State) : Res := hosted s fun s => s.tsWrite v

/-! ### The host link -/

/-- R18: the rates 2.5 to 128 GT/s by their codes 0 to 6, and the widths. -/
def linkOk (rate : BitVec 3) (width : BitVec 5) : Bool := rate.toNat < 7 && [1, 2, 4, 8, 16].contains width.toNat
/-- HOST_LINK_TRAINING: with flit mode where the other end supports it at the rate, and always at 64 and 128 GT/s. -/
def execHostLinkTraining (rate : BitVec 3) (mode : LinkMode) (s : State) : Res :=
  .next (if linkOk rate mode.width then
    { s with dev := { s.dev with
      pcieUp := true, pcieRate := rate, pcieWidth := mode.width, pcieFlit := mode.flits || decide (5 ≤ rate.toNat) } }
    else s)

/-- R79, R18: what a configuration read gives, as bytes; while BOOT is 0 the request is answered with Retry Status (R99), and over a
link that is down with nothing. -/
def State.configOf (s : State) : ConfigItem → List Byte
  | .vendorId => toBytes 2 0x1F6C
  | .deviceId => toBytes 2 0x0960
  | .revisionId => toBytes 1 0xA1
  | .classCode => toBytes 3 0x120000
  | .bar4Size => toBytes 8 (2 ^ s.host.bar4)
  | .linkStatus => toBytes 1 s.dev.pcieRate.toNat ++ toBytes 1 s.dev.pcieWidth.toNat ++ toBytes 1 (b2n s.dev.pcieFlit)

/-- R79, R80: HOST_AP_BASE is aligned to the size of BAR 4; its bits below stay 0. -/
def apAlign (bar4 base : Nat) : Nat := alignDown base (2 ^ (bar4 - 28))

/-- R18, R79, R88, R99: what the host does beside the steps of the table. -/
def State.hostAct (s : State) (a : HostAct) : State :=
  if !s.dev.pcieUp || s.host.boot = 0 then s
  else match a with
    | .readWindow off n =>
      if s.host.boot = 15 then s
      else { s with host := { s.host with readData := List.replicate (min n (65536 - off)) 0 } }
    | .readConfig x => { s with host := { s.host with readData := s.configOf x } }
    | .resizeBar4 g =>
      if 28 ≤ g ∧ g ≤ 39 then { s with host := { s.host with bar4 := g, apBase := apAlign g s.host.apBase } } else s

/-- HOST_LINK_DOWN: R21, place 0. -/
def execHostLinkDown (s : State) : Res :=
  .next (State.countUe { s with dev := { s.dev with pcieUp := false } } 0 0x060)

/-! ### Wafolo links -/

def State.link (s : State) (l : Nat) : Link := Sparse.get Link.reset s.fab.links l
def State.setLink (s : State) (l : Nat) (x : Link) : State :=
  { s with fab := { s.fab with links := Sparse.set Link.reset s.fab.links l x } }
/-- R20: whether a link delivers: it is up, and no flit has failed that has not come since. -/
def Link.delivers (x : Link) : Bool := x.up && x.fails = 0

/-- R73: a put or message that is under way fails with a reason. DESIGN CHOICE (log 77): FAB_ERR_LAST.WIN of a message, which names no
window, is 0. -/
def State.failWait (s : State) (q : FabWait) (reason : Nat) : State :=
  match (s.core q.core).copies.find? fun e => e.ctx = q.ctx && e.seq = q.seq with
  | none => s
  | some e => s.failSend q.core e (if q.msg then 0 else e.tWin) reason

/-- R20, R64, R68: a link is down: what was sent on it and is not answered fails with reason 6, and it owes no fence anything. -/
def State.linkLost (s : State) (l : Nat) : State :=
  let lost := s.fab.waits.filter fun q => q.links.contains l
  let s := s.setLink l { s.link l with state := 0, fails := 0, resent := false }
  (lost.foldl (fun s q => s.failWait q 6) s).fenceLinkDown l

/-- WAFOLO_LINK_TRAINING: R19: 8 lanes, or 4, or down; a link held down does not train. -/
def State.trainLink (s : State) (l lanes peer : Nat) : State :=
  let x := s.link l
  if 12 ≤ l || x.dis then s
  else if 4 ≤ lanes then s.setLink l { x with state := if 8 ≤ lanes then 2 else 3, peer := peer % 4096, fails := 0, resent := false }
  else s.linkLost l
def execWafoloLinkTraining (link lanes peer : Nat) (s : State) : Res := .next (s.trainLink link lanes peer)

/-- FLIT_RECEIVE: R20: the flit that is to come next has a good or a bad CRC; while it has failed, only its replay is looked at. -/
def State.flit (s : State) (l : Nat) (ok : Bool) : State :=
  let x := s.link l
  if x.up && (x.fails = 0 || x.resent) then s.setLink l { x with fails := if ok then 0 else x.fails + 1, resent := false } else s
def execFlitReceive (link : Nat) (crcOk : Bool) (s : State) : Res := .next (s.flit link crcOk)

/-- FLIT_REPLAY: R20, R21, R78: a failed flit is sent again: REPLAY and place 1 count it. -/
def State.replay (s : State) (l : Nat) : State :=
  let x := s.link l
  if x.up && decide (0 < x.fails) && decide (x.fails ≤ 16) && !x.resent then
    let s := s.setLink l { x with replay := min (2 ^ 32 - 1) (x.replay + 1), resent := true }
    { s with dev := { s.dev with errCe := bump s.dev.errCe 1 1 } }
  else s
def execFlitReplay (link : Nat) (s : State) : Res := .next (s.replay link)

/-- LINK_DOWN: R20, R21: after the flit and 16 replays of it have failed. -/
def State.linkDown (s : State) (l : Nat) : State :=
  if (s.link l).up && decide (17 ≤ (s.link l).fails) then (s.countUe 1 (BitVec.ofNat 16 (0x061 + l))).linkLost l else s
def execLinkDown (link : Nat) (s : State) : Res := .next (s.linkDown link)

/-- FAB_LINK_DIS_WRITE: R78. -/
def State.linkDis (s : State) (l : Nat) (v : W64) : State :=
  let dis := bit v.toNat 3
  let x := s.link l
  if 12 ≤ l || dis = x.dis then s
  else if dis then
    let s := s.setLink l { x with dis := true }
    if x.up then s.linkLost l else s.setLink l { x with dis := true, state := 0 }
  else s.setLink l { x with dis := false, state := 1 }
def execFabLinkDisWrite (link : Nat) (v : W64) (s : State) : Res := hosted s fun s => s.linkDis link v

/-! ### Stored data -/

/-- R28: whether a source number is that of a unit that makes the checks of a place. -/
def srcFits (place : Nat) (src : W16) : Bool :=
  let n := src.toNat
  match place with
  | 0 => n = 0x060
  | 1 => decide (0x061 ≤ n) && decide (n ≤ 0x06C)
  | 2 => decide (0x0B0 ≤ n) && decide (n ≤ 0x0B3)
  | 3 => decide (0x020 ≤ n) && decide (n ≤ 0x05F)
  | 4 | 7 => decide (0x100 ≤ n) && decide (n ≤ 0x1BF)
  | 5 | 6 => decide (0x1D0 ≤ n) && decide (n ≤ 0x1D3)
  | 8 => decide (n < 0x020)
  | _ => false

/-- R21, R23: the parity of one register-file entry is lost: of lane n / 128, shelf ages 0 to 15, then the named registers; of lane 32
the uniform registers. -/
def Wave.flipEntry (w : Wave) (n : Nat) : Wave :=
  let r := n % 128
  if n / 128 = 32 then { w with k := setAt w.k r { w.kCell r with flip := decide (r < 32) } }
  else w.onLane (n / 128) fun l =>
    if r < 16 then { l with shelf := setAt l.shelf r { l.shelfCell r with flip := true } }
    else { l with named := setAt l.named (r - 16) { l.namedCell (r - 16) with flip := true } }

/-- A word of a place whose check will fail joins the others; places 2, 3 and 8 and the L1s (unit 192 + core) have nominal addresses. -/
def State.plant (s : State) (f : Flaw) : State :=
  let f := { f with addr := if f.place = 7 then f.addr else alignDown f.addr (wordBytes f.place) }
  let add (l : List Flaw) (f : Flaw) : List Flaw := if l.contains f then l else l ++ [f]
  let mem (f : Flaw) : State :=
    if f.addr + wordBytes f.place ≤ s.mem.nominal then { s with mem := { s.mem with flaws := add s.mem.flaws f } } else s
  let core : State := if f.unit < 192 then s.onCore f.unit fun c => { c with flaws := add c.flaws f } else s
  match f.place with
  | 2 | 3 | 8 => mem f
  | 4 => if f.unit < 192 then core else mem { f with unit := f.unit - 192 }
  | 5 => core
  | 6 => if f.unit < 4 ∧ f.addr + 8 ≤ 2 ^ 31 then { s with storeFlaws := add s.storeFlaws f } else s
  | 7 => s.onWave f.unit fun w => w.flipEntry f.addr
  | _ => s

/-- R21, log 53: an upset of a word, which nothing notices before its next check. -/
def State.upset (s : State) (f : Flaw) : State := if srcFits f.place f.src then s.plant f else s

/-- The word that a scrub names by its number: of nominal memory at places 3 and 8; of the unit that the source number names at 4, 5
(the B-regions of its die, one after the other) and 6. -/
def scrubbed (place : Nat) (src : W16) (word : Nat) (kind : FlawKind) : Flaw :=
  let n := src.toNat
  match place with
  | 4 => { place := 4, unit := n - 0x100, addr := 4 * word, kind := kind, src := src }
  | 5 => { place := 5, unit := 48 * (n - 0x1D0) + word / 2 ^ 18, addr := 8 * (word % 2 ^ 18), kind := kind, src := src }
  | 6 => { place := 6, unit := n - 0x1D0, addr := 8 * word, kind := kind, src := src }
  | p => { place := p, unit := 0, addr := wordBytes p * word, kind := kind, src := src }

/-- A single-bit error that has been corrected in place is gone. -/
def State.cured (s : State) (f : Flaw) : State :=
  let keep (l : List Flaw) : List Flaw := l.filter fun x => x != f
  match f.place with
  | 3 | 8 => { s with mem := { s.mem with flaws := keep s.mem.flaws } }
  | 4 | 5 => s.onCore f.unit fun c => { c with flaws := keep c.flaws }
  | 6 => { s with storeFlaws := keep s.storeFlaws }
  | _ => s

/-- SCRUB: R24: what a check that no wave's access makes finds at a place of R21: nothing, a corrected error, or an uncorrectable one,
which at places 3 to 6 and 8 stays with its word until it is overwritten. Links go down in steps of their own. -/
def State.scrub (s : State) (place : Nat) (o : ScrubOutcome) (src : W16) (word : Nat) : State :=
  if !srcFits place src then s
  else match o with
    | .clean => s
    | .corrected => (s.cured (scrubbed place src word .single)).countCe place 1
    | .uncorrectable =>
      if place < 2 then s
      else State.countUe (if place = 2 || place = 7 then s else s.plant (scrubbed place src word .double)) place src
def execScrub (place : Nat) (outcome : ScrubOutcome) (src : W16) (word : Nat) (s : State) : Res :=
  .next (s.scrub place outcome src word)

end Sys2Proof.Machine
end

