-- ==== Sys2Proof/Machine/Balloon.lean ====
section
/-!
DEFINITION. The memory controllers and the ballooning engine (spec/02): MEM_CFG and the reformat (R30), thresholds (R40, R41),
combining entries (R37, R39), writes that wait for sectors (R44), and the engine (R45 to R55).
-/
namespace Sys2Proof.Machine

/-! ### MEM_CFG and thresholds -/

/-- BLN_STATUS.CFGERR (R60). -/
def State.blnErr (s : State) : State := { s with bln := { s.bln with cfgErr := true } }

/-- R30, R57: a write of MEM_CFG is judged under the LOCK that held before it; one that changes RATIO completes with the reformat.
DESIGN CHOICE (log 77): a RATIO in range that is ignored for LOCK alone sets no CFGERR. -/
def State.memCfgWrite (s : State) (v : W64) : State :=
  let n := v.toNat
  let r := bits n 0 8
  let locked := { s with mem := { s.mem with lock := s.mem.lock || bit n 8 } }
  if r = s.mem.ratio then locked
  else if r < 64 || 128 < r || s.ctxs.any fun x => x.2.state != .off then locked.blnErr
  else if s.mem.lock then locked
  else { s with mem := { s.mem with reformat := some (bits n 0 9) } }

/-- R31: the sectors for contents. -/
def sectorsOf (ratio : Nat) : Nat := 2 ^ 33 - 2 ^ 22 * ratio

/-- MEM_REFORMAT: R30. -/
def State.reformat (s : State) : State :=
  match s.mem.reformat with
  | none => s
  | some v =>
    State.eachCore { s with
      mem := { s.mem with
        ratio := bits v 0 8, lock := s.mem.lock || bit v 8, reformat := none, cells := [], blocks := [], wcb := [], waiting := []
        full := [], flaws := [], sectTotal := sectorsOf (bits v 0 8), sectFree := sectorsOf (bits v 0 8) }
      bln := { s.bln with state := .idle, cursor := 0, crit := 0, swept := 0, circuit := 0, circuitDone := false } } fun _ c => { c with l1 := [] }
def execMemReformat (s : State) : Res := .next s.reformat

/-- MEM_CFG_WRITE: the write before it completes first. -/
def State.memCfg_ (s : State) (v : W64) : State := s.reformat.memCfgWrite v
def execMemCfgWrite (v : W64) (s : State) : Res := hosted s fun s => s.memCfg_ v

/-- R40, R58: MEM_GUARD_MIN. -/
def guardMin : Nat := 8192

/-- R41: the order of the thresholds. -/
def Mem.orderOk (m : Mem) : Bool :=
  decide (guardMin ≤ m.wmExh) && decide (m.wmExh < m.wmCrit) && decide (m.wmCrit + m.wmHyst ≤ m.wmLow) && decide (1 ≤ m.wmHyst)

/-- A threshold with a new value. -/
def Mem.withMark (m : Mem) (which : Threshold) (v : Nat) : Mem :=
  match which with
  | .low => { m with wmLow := v }
  | .crit => { m with wmCrit := v }
  | .hyst => { m with wmHyst := v }
  | .exh => { m with wmExh := v }

/-- THRESHOLD_WRITE: R41. -/
def State.thresholdWrite (s : State) (which : Threshold) (v : W64) : State :=
  let m := s.mem.withMark which (bits v.toNat 0 34)
  if m.orderOk then { s with mem := m } else s.blnErr
def execThresholdWrite (which : Threshold) (v : W64) (s : State) : Res := hosted s fun s => s.thresholdWrite which v

/-! ### Entries and writes that wait -/

/-- R24: the device reads a block of main memory for itself, and its checks are made. -/
def State.checkBlock (s : State) (b : Nat) : State := s.checkMem (s.flawsAt none false (256 * b) 256)

/-- WCB_WAIT_EXPIRE: R37. -/
def execWcbWaitExpire (block : Nat) (s : State) : Res := .next ((s.checkBlock block).closeBlock block)

/-- UNCHECKED_WRITE_RESUME: R44: the first write that waits at its slice and finds enough sectors. -/
def State.writeResume (s : State) : State :=
  let fits (e : WcbEntry) : Bool := decide ((s.newMeta e.block e.comp).size ≤ s.mem.sectFree + (s.mem.block e.block).size)
  match s.mem.waiting.find? fits with
  | some e => s.fixBlock e.block e.comp
  | none => s
def execUncheckedWriteResume (s : State) : Res := .next s.writeResume

/-! ### The engine (R45 to R51) -/

/-- R49: the code of a state. -/
def BlnState.code : BlnState → Nat
  | .idle => 0
  | .sweep => 1
  | .csweep => 2
  | .cdonor => 3
  | .escalated => 4

/-- BLN_STATE_OBSERVE: R42: a core observes the engine's state. -/
def execBlnStateObserve (core : Nat) (s : State) : Res :=
  .next (if core < 192 then s.onCore core fun c => { c with blnObs := s.bln.state.code } else s)

def State.toBln (s : State) (x : BlnState) : State := { s with bln := { s.bln with state := x } }
/-- The engine enters SWEEP: a new circuit begins. -/
def State.toSweep (s : State) : State :=
  { s with bln := { s.bln with state := .sweep, swept := 0, circuit := 0, circuitDone := false } }
/-- The engine enters CSWEEP with the critical count at 0. -/
def State.toCsweep (s : State) : State := { s with bln := { s.bln with state := .csweep, crit := 0 } }

/-- R51: every held writer goes on; its core sees the engine in SWEEP, so that its writes are not checked. -/
def State.restartHeld (s : State) : State :=
  s.bln.held.foldl (fun s h =>
    let s := s.onCore h.core fun c => { c with blnObs := BlnState.sweep.code }
    match h.wave with
    | some k => s.onWave k fun w => match w.wait with | .space _ => { w with wait := .none } | _ => w
    | none => s.resumeEntry h.core h.ctx h.seq) { s with bln := { s.bln with held := [] } }

/-- R50: the entry for a held writer, posted where its queue has room. -/
def State.postHeld (s : State) (h : Held) : State × Held :=
  if h.posted || s.fqFull h.ctx then (s, h)
  else
    let (origin, info) := if h.wave.isSome then (0, h.addr) else (1, h.seq)
    let s := s.postFault h.ctx (faultEntry h.time.toNat (coreSrc h.core) (h.cause + 4) origin info [])
    ({ s with mem := s.mem.stat 3 1 }, { h with posted := true })

/-- R50: the entries of all held writers. -/
def State.postAll (s : State) : State :=
  let (s, hs) := s.bln.held.foldl (fun (s, l) h => let (s, h) := State.postHeld s h; (s, l ++ [h])) (s, ([] : List Held))
  { s with bln := { s.bln with held := hs } }

/-- R50: entry to ESCALATED. -/
def State.escalate (s : State) : State :=
  let s : State := { s with bln := { s.bln with
    state := .escalated, kick := false, limitWritten := false, held := s.bln.held.map fun h => { h with posted := false } } }
  s.postAll.irq 1

/-- R54: the page of a donor entry: its address and log2, none where the entry names nothing valid. -/
def Mem.donorPage (m : Mem) (e : Nat) : Option (Nat × Nat) :=
  let lg := match bits e 0 2 with | 0 => 12 | 1 => 16 | _ => 21
  let frame := bits e 12 45 * 4096
  if bits e 0 2 = 3 || bits e 57 5 != 0 || bits e 2 10 != 0 || frame % 2 ^ lg != 0 || decide (m.nominal < frame + 2 ^ lg) then none
  else some (frame, lg)

/-- R45, R55: every block of a page takes SIZE 0; what an open entry still held for it is lost. -/
def State.releasePage (s : State) (frame n : Nat) : State :=
  let inPage (b : Nat) : Bool := decide (frame / 256 ≤ b) && decide (b < (frame + n) / 256)
  let gone := s.mem.blocks.filter fun x => inPage x.1
  let freed := (gone.map fun x => x.2.size).foldl (· + ·) 0
  let s := s.dropLines (gone.map (·.1))
  { s with mem := { s.mem with
    cells := zeroRange s.mem.cells frame n
    blocks := gone.foldl (fun m (x : Nat × BlockMeta) =>
      Sparse.set BlockMeta.reset m x.1 { x.2 with size := 0, codec := 0, base := 0 }) s.mem.blocks
    wcb := s.mem.wcb.filter fun e => !inPage e.block
    waiting := s.mem.waiting.filter fun e => !inPage e.block
    flaws := s.mem.flaws.filter fun f => !inPage (f.addr / 256)
    full := s.mem.full.filter fun x => !inPage (x.1 / 32)
    sectFree := s.mem.sectFree + freed } }

/-- R45, R53, R54: the next donor entry is processed. -/
def State.inflate (s : State) : State :=
  let b := s.bln
  if b.donorHead = b.donorLimit then s
  else
    let a := b.donorBase + 8 * (b.donorHead % 2 ^ b.donorLog2)
    let (e, s) := s.load a 8
    let s := match s.mem.donorPage e with
      | some (frame, lg) =>
        let s := s.releasePage frame (2 ^ lg)
        State.store { s with mem := s.mem.stat 7 1 } a 8 (e ||| 2 ^ 63)
      | none => s.store a 8 (e ||| 2 ^ 63 ||| 2 ^ 62)
    { s with bln := { s.bln with donorHead := (b.donorHead + 1) % 2 ^ 32 } }

/-- BLN_EVALUATE: R49. -/
def State.evaluate (s : State) : State :=
  let b := s.bln
  let free := s.mem.sectFree
  let relief := decide (s.mem.wmCrit + s.mem.wmHyst < free)
  let swept := s.restartHeld.toSweep
  match b.state with
  | .idle => if free ≤ s.mem.wmLow then s.toSweep.irq 1 else s
  | .sweep =>
    if free ≤ s.mem.wmExh then s.escalate
    else if free ≤ s.mem.wmCrit then s.toCsweep.irq 1
    else if (b.circuitDone || !b.en) && decide (s.mem.wmLow < free) then s.toBln .idle
    else
      let s : State := { s with bln := { b with circuitDone := false } }
      if b.en && b.eager && decide (2 ^ 20 ≤ b.swept) then State.inflate { s with bln := { s.bln with swept := b.swept % 2 ^ 20 } }
      else s
  | .csweep =>
    if free ≤ s.mem.wmExh || !b.en then s.escalate
    else if relief then swept
    else if b.csweep * 2 ^ 20 ≤ b.crit then s.toBln .cdonor
    else s
  | .cdonor =>
    if free ≤ s.mem.wmExh then s.escalate
    else if relief then swept
    else if b.donorHead = b.donorLimit then s.escalate
    else if b.en then s.inflate else s
  | .escalated =>
    let s : State := { s with bln := { b with kick := false, limitWritten := false } }
    if relief then swept
    else if (b.kick || b.limitWritten) && decide (s.mem.wmExh < free) then s.toCsweep
    else s.postAll
def execBlnEvaluate (s : State) : Res := .next s.evaluate

/-- R45: the slow codec on a block: a smaller run, or none. -/
def State.recompress (s : State) (b : Nat) : State :=
  let x := s.mem.block b
  let n := 1 + Config.compressedSize s.freeCtr % 8
  let s : State := { s with mem := s.mem.stat 5 1 }
  if n < x.size then
    let y := { x with size := n, codec := 1 + Config.codec s.freeCtr % 15, base := Config.runBase s.freeCtr % 2 ^ 33 }
    State.setRun { s with mem := s.mem.stat 6 (x.size - n) } b y
  else { s with freeCtr := s.freeCtr + 1 }

/-- R45, R46: the first of collapse and recompress that a block qualifies for. -/
def State.reclaim (s : State) (b : Nat) : State :=
  let x := s.mem.block b
  if x.size != 0 && blockZero s.mem.cells b then
    let comp := s.compOf b ((s.mem.wcb.find? fun e => e.block = b).bind (·.comp))
    let s := s.setRun b { x with size := 0, codec := 0, base := 0, cmp := comp.getD x.cmp }
    let settle (e : WcbEntry) : WcbEntry := if e.block = b then { e with changed := false } else e
    let m : Mem := { s.mem with wcb := s.mem.wcb.map settle }
    { s with mem := (m.unwait b).stat 4 1 }
  else if x.cmp && !x.acc && decide (2 ≤ x.size) then s.recompress b
  else s

/-- R46: whether the engine visits blocks now. -/
def State.sweeps (s : State) : Bool :=
  s.bln.en && s.mem.reformat.isNone && (s.bln.state = .sweep
    || s.bln.state = .csweep && decide (s.mem.sectFree ≤ s.mem.wmCrit + s.mem.wmHyst) && decide (s.bln.crit < s.bln.csweep * 2 ^ 20))

/-- SWEEP_VISIT: R46, R47: the block at BLN_CURSOR. -/
def State.sweepVisit (s : State) : State :=
  if s.sweeps then
    let b := s.bln.cursor
    let n := s.mem.nominal / 256
    let s := (s.checkBlock b).reclaim b
    let full := decide (n ≤ s.bln.circuit + 1)
    { s with
      mem := s.mem.setBlock b { s.mem.block b with acc := false }
      bln := { s.bln with
        cursor := (b + 1) % n, swept := if s.bln.eager then s.bln.swept + 1 else 0, crit := if s.bln.state = .csweep then s.bln.crit + 1 else s.bln.crit
        circuit := if full then 0 else s.bln.circuit + 1, circuitDone := s.bln.circuitDone || full } }
  else s
def execSweepVisit (s : State) : Res := .next s.sweepVisit

/-! ### Its registers (R53, R59, R61) -/

/-- BLN_KICK: R59: ignored but in ESCALATED. -/
def State.kick (s : State) : State := { s with bln := { s.bln with kick := s.bln.kick || s.bln.state = .escalated } }
def execBlnKick (s : State) : Res := hosted s State.kick

/-- DONOR_LIMIT_WRITE: R49, R53. -/
def State.limitWrite (s : State) (v : W64) : State :=
  { s with bln := { s.bln with
    donorLimit := bits v.toNat 0 32, limitWritten := s.bln.limitWritten || s.bln.state = .escalated } }
def execDonorLimitWrite (v : W64) (s : State) : Res := hosted s fun s => s.limitWrite v

/-- DONOR_BASE_WRITE: R61. -/
def State.donorWrite (s : State) (v : W64) : State :=
  let g := bits v.toNat 0 5
  let s : State := { s with bln := { s.bln with donorBase := bits v.toNat 12 45 * 4096 } }
  if 4 ≤ g ∧ g ≤ 20 then { s with bln := { s.bln with donorLog2 := g } } else s.blnErr
def execDonorBaseWrite (v : W64) (s : State) : Res := hosted s fun s => s.donorWrite v

end Sys2Proof.Machine
end

