-- ==== Sys2Proof/Machine/Fabric.lean ====
section
/-!
DEFINITION. The receiving side of the fabric (spec/03): the window table (R69, R70), the packets of puts and their answers
(R71 to R73), fences (R66), and what of a message packet the fabric decides (R75).
-/
namespace Sys2Proof.Machine

/-! ### The window table (R69, R70) -/

/-- R69: the bits of a word of an entry that are reserved. -/
def windowReserved (word v : Nat) : Bool :=
  match word with
  | 0 => bits v 54 7 != 0 || bits v 0 8 != 0
  | 1 => bits v 57 7 != 0 || bits v 0 12 != 0
  | 2 => bits v 28 36 != 0
  | 3 | 4 => bits v 57 7 != 0 || bits v 0 3 != 0
  | _ => v != 0

/-- R70: a window or counter that reaches the nominal size, or a size that is none: what the word would leave. DEDUCED (log 77): an entry
whose V stays 0 may still be incomplete; a write of word 0 that sets V is judged by the whole entry. -/
def State.windowBad (s : State) (w word v : Nat) : Bool :=
  match word with
  | 0 => bit v 63 && (s.winBytes w = 0 || decide (s.mem.nominal < s.winBase w + s.winBytes w)
      || decide (s.mem.nominal < s.winWord w 3 + 8) || decide (s.mem.nominal < s.winWord w 4 + 8))
  | 1 => decide (s.mem.nominal < v + max 1 (bits (s.winWord w 2) 0 28) * 4096)
  | 2 => v = 0 || decide (2 ^ 27 < v) || decide (s.mem.nominal < s.winBase w + v * 4096)
  | 3 | 4 => decide (s.mem.nominal < v + 8)
  | _ => false

/-- WINDOW_TABLE_WRITE. -/
def State.windowWrite (s : State) (w word : Nat) (v : W64) : State :=
  if 256 ≤ w ∨ 8 ≤ word then s
  else if (word != 0 && bit (s.winWord w 0) 63) || windowReserved word v.toNat || s.windowBad w word v.toNat then
    { s with fab := { s.fab with cfgErr := true } }
  else { s with fab := { s.fab with windows := Sparse.set 0 s.fab.windows (8 * w + word) v } }
def execWindowTableWrite (win word : Nat) (v : W64) (s : State) : Res := hosted s fun s => s.windowWrite win word v

/-! ### Packets that come in (R63, R65) -/

/-- Whether a packet is the last of its put. -/
def lastOfPut (p : WritePacket) : Bool := decide (p.total ≤ p.pos + p.data.length)

/-- R66, R67: what the device has sent to itself has its inbound place once its last packet has come in. -/
def State.leftLoop (s : State) (p : FabPacket) : State :=
  let sent (id : Nat) : State := match s.fab.waits.find? fun q => q.id = id && q.node = s.fab.node with
    | some q => s.sentWhole q.core q.ctx q.seq []
    | none => s
  match p with
  | .write w => if lastOfPut w then sent w.id else s
  | .msg m => sent m.id
  | _ => s

/-- A packet of the device to itself comes in as the oldest that is on its way; any other comes over a link that delivers (R20). None:
it cannot come in now. -/
def State.arrive (s : State) (link src dst : Nat) (p : FabPacket) : Option State :=
  if dst != s.fab.node then none
  else if src = s.fab.node then
    match s.fab.loop with
    | q :: rest => if q = p then some (State.leftLoop { s with fab := { s.fab with loop := rest } } p) else none
    | [] => none
  else if decide (link < 12) && (s.link link).delivers then some s
  else none

/-- An acknowledgement on its way (R72, R73); without a route it is lost. -/
def State.sendAck (s : State) (node id reason : Nat) : State :=
  match s.routeTo node with
  | some l => s.emit l (.ack { src := s.fab.node, dst := node, id := id, reason := reason })
  | none => s

/-- DESIGN CHOICE (log 77): where several checks fail, the first of these reasons. R71, R73, R77: why a target refuses a packet of a put; 0 where it does not. -/
def State.putReason (s : State) (p : WritePacket) : Nat :=
  let w0 := s.winWord p.win 0
  if !s.fab.en || !bit w0 63 || decide (256 ≤ p.win) then 1
  else if !bit w0 62 then 2
  else if decide (p.src < bits w0 20 12) || decide (bits w0 8 12 < p.src) then 3
  else if p.key != bits w0 32 16 then 4
  else if decide (s.winBytes p.win < p.off + p.total) then 5
  else 0

/-- Adds 1 to a counter of 8 bytes (R72). -/
def State.addCounter (s : State) (pa : Nat) : State :=
  let (v, s) := s.load pa 8
  s.storeAtomic pa 8 (v + 1)

/-- The address of TCNT (word 3) or OCNT (word 4) of a window. -/
def State.winCounter (s : State) (w j : Nat) : Nat := bits (s.winWord w j) 3 54 * 8

/-- WRITE_PACKET_RECEIVE: R71 to R73. -/
def State.writePacket (s0 : State) (l : Nat) (p : WritePacket) : State :=
  match s0.arrive l p.src p.dst (.write p) with
  | none => s0
  | some s =>
    let known := s.fab.refused.contains (p.src, p.id)
    let forget (s : State) : State :=
      { s with fab := { s.fab with refused := s.fab.refused.filter fun x => x != (p.src, p.id) } }
    if known then (if lastOfPut p then forget s else s)
    else match s.putReason p with
      | 0 =>
        let s := s.writePhys (s.winBase p.win + p.off + p.pos) p.data none
        if lastOfPut p then
          let s := s.addCounter (s.winCounter p.win 3)
          State.sendAck { s with fab := { s.fab with stats := bump s.fab.stats 1 1 } } p.src p.id 0
        else s
      | r =>
        let s := State.sendAck { s with fab := { s.fab with stats := bump s.fab.stats 2 1 } } p.src p.id r
        if lastOfPut p then s else { s with fab := { s.fab with refused := s.fab.refused ++ [(p.src, p.id)] } }
def execWritePacketReceive (p : Arrived WritePacket) (s : State) : Res := .next (s.writePacket p.link p.packet)

/-- ACKNOWLEDGE_RECEIVE: R72 step 3, R73, R75. -/
def State.acknowledge (s0 : State) (l : Nat) (a : AckPacket) : State :=
  match s0.arrive l a.src a.dst (.ack a) with
  | none => s0
  | some s =>
    match s.fab.waits.find? fun q => q.id = a.id && q.node = a.src with
    | none => s
    | some q =>
      if a.reason = 0 && !q.whole then s
      else
        if a.reason = 0 then
          let s : State := { s with fab := { s.fab with waits := s.fab.waits.filter fun x => x.id != q.id } }
          let s := if q.msg then s else s.addCounter (s.winCounter q.win 4)
          match (s.core q.core).copies.find? fun e => e.ctx = q.ctx && e.seq = q.seq with
          | some e => s.setStat q.core e (.ended 0)
          | none => s
        else s.failWait q a.reason
def execAcknowledgeReceive (a : Arrived AckPacket) (s : State) : Res := .next (s.acknowledge a.link a.packet)

/-- FENCE_PACKET_RECEIVE: R66 steps 3 and 4: on a direct link the source's own link controller answers the fence that it sends;
a fence of a peer is answered on its link. -/
def State.fencePacket (s : State) (l : Nat) (p : FencePacket) : State :=
  if p.src = s.fab.node then s.fenceDone l
  else if (s.link l).delivers then s.emit (some l) (.fenceDone p.src)
  else s
def execFencePacketReceive (link : Nat) (p : FencePacket) (s : State) : Res := .next (s.fencePacket link p)
def execFenceDoneReceive (link : Nat) (s : State) : Res := .next (if (s.link link).delivers then s.fenceDone link else s)

/-- R75: whether the destination takes messages of a node. -/
def State.takesMessages (s : State) (node : Nat) : Bool :=
  s.fab.msgEn && decide (s.fab.msgLo ≤ node) && decide (node ≤ s.fab.msgHi)

end Sys2Proof.Machine
end

