-- ==== Sys2Proof/Machine/HostIf.lean ====
section
/-!
DEFINITION. The host interface (spec/04): the aperture (R80), messages and the message window (R88, R89, spec/03 R75), the arming
table (R90 to R93), and the contexts with their commands and descriptors (R83 to R87, spec/05 R107, R117, spec/06 R148, R150).
-/
namespace Sys2Proof.Machine

/-! ### The aperture (R80) -/

/-- The nominal address of a byte of the aperture. -/
def State.apAddr (s : State) (off : Nat) : Nat := s.host.apBase * 2 ^ 28 + off

/-- R79: the bytes of an access that lie in BAR 4. -/
def State.apRoom (s : State) (off n : Nat) : Nat := min n (2 ^ s.host.bar4 - off)

/-- HOST_AP_READ: expanded data; at and above the nominal size all ones. It waits for a reformat (R30). -/
def State.apRead (s : State) (off n : Nat) : State :=
  if s.mem.reformat.isSome then s
  else
    let n := s.apRoom off n
    let a := s.apAddr off
    let m := min n (s.mem.nominal - a)
    let (b, s) := s.readChecked a m
    { s with host := { s.host with readData := b ++ List.replicate (n - m) 0xFF } }
def execHostApRead (off n : Nat) (s : State) : Res := hosted s fun s => s.apRead off n

/-- HOST_AP_WRITE: outside checking (R44); at and above the nominal size nothing is written. -/
def State.apWrite (s : State) (off : Nat) (data : List Byte) : State :=
  if s.mem.reformat.isSome then s
  else
    let a := s.apAddr off
    s.writePhys a (data.take (min (s.apRoom off data.length) (s.mem.nominal - a))) none
def execHostApWrite (off : Nat) (data : List Byte) (s : State) : Res := hosted s fun s => s.apWrite off data

/-! ### The unmatched queue (R93) -/

/-- R94: the HOST_STAT counters, in order. -/
def State.hostStat (s : State) (i : Nat) : State := { s with host := { s.host with stats := bump s.host.stats i 1 } }

/-- R93: the entry of an unmatched message. -/
def unmatchedEntry (m : Message) (reason entry : Nat) : List Byte :=
  m.data ++ toBytes 8 m.time.toNat ++ toBytes 2 m.src ++ toBytes 1 m.kind ++ toBytes 1 reason ++ toBytes 2 m.who
    ++ toBytes 2 entry ++ List.replicate 48 0

/-- R93: a message goes to the unmatched queue, or is dropped. DESIGN CHOICE (log 77): of a base in the hole of the physical map, for which
R93 gives no outcome, the entry stands in the cells beyond the nominal size, where nothing reads it. -/
def State.unmatched (s : State) (m : Message) (reason entry : Nat) : State :=
  let h := s.host
  if h.umqBase = 0 || (h.umqPidx + 2 ^ 32 - h.umqCidx) % 2 ^ 32 = 2 ^ h.umqLog2 then s.hostStat 3
  else
    let s := s.writePhys (h.umqBase + 128 * (h.umqPidx % 2 ^ h.umqLog2)) (unmatchedEntry m reason entry) none
    let s : State := { s with host := { s.host with umqPidx := (h.umqPidx + 1) % 2 ^ 32 } }
    (s.irq 0).hostStat 2

/-! ### The arming table (R90 to R92) -/

def State.arm (s : State) (i : Nat) : Arm := Sparse.get Arm.reset s.host.arms i
def State.setArm (s : State) (i : Nat) (a : Arm) : State :=
  { s with host := { s.host with arms := Sparse.set Arm.reset s.host.arms i a } }

/-- R91: whether a message matches an entry. -/
def Arm.takes (a : Arm) (m : Message) : Bool :=
  a.v && bit a.src (2 - m.kind) && (BitVec.ofNat 64 (numAt m.data 0 8) ^^^ BitVec.ofNat 64 a.tag) &&& BitVec.ofNat 64 a.mask = 0
    && (m.kind != 2 || a.ctx = m.who)

/-- R92: an entry fires for a message: the descriptor is read, the payload slot written, the launch enqueued. -/
def State.fireNow (s : State) (i : Nat) (m : Message) : State :=
  let a := s.arm i
  let slot := (a.ring.toNat + 64 * (a.widx % 2 ^ a.log2)) % 2 ^ 64
  match State.translatePieces none a.ctx Access.write (rangePieces 2 slot 64) s with
  | (.error _, s) => s.unmatched m 3 i
  | (.ok _, s) =>
    match s.readDesc none a.ctx a.desc.toNat with
    | (.fault _ _, s) => s.unmatched m 3 i
    | (.invalid, s) => s.unmatched m 4 i
    | (.ok d, s) =>
      match s.writeVirt none a.ctx slot m.data Access.write with
      | (.error _, s) => s.unmatched m 3 i
      | (.ok _, s) =>
        let s := s.setArm i { a with
          widx := (a.widx + 1) % 2 ^ 32, outst := a.outst + 1, fires := a.fires + 1, v := a.v && !a.one }
        (s.hostStat 1).startDesc a.ctx d slot a.prio 0x070 m.data (some i) .none

/-- A list with an element put in at a place. -/
def insertAt {α : Type} (l : List α) (n : Nat) (x : α) : List α := l.take n ++ x :: l.drop n

/-- R92: an entry takes a message, whose place among the messages that wait is `at_`. -/
def State.fire (s : State) (i at_ : Nat) (m : Message) : State :=
  let a := s.arm i
  let st := (s.ctx a.ctx).state
  if st != .run && st != .stopped then s.unmatched m 2 i
  else if decide (2 ^ a.log2 ≤ a.outst) || (s.host.bufs.take at_).any fun x => x.entry = some i then
    { s with host := { s.host with bufs := insertAt s.host.bufs at_ { m with entry := some i } } }
  else s.fireNow i m

/-- R91: the lowest-numbered entry that a message matches takes it. -/
def State.matchMsg (s : State) (at_ : Nat) (m : Message) : State :=
  match s.host.arms.find? fun x => x.2.takes m with
  | some (i, _) => s.fire i at_ m
  | none => s.unmatched m 1 0xFFFF

/-- R89: a message takes a buffer, its place in the message order and its time. -/
def State.acceptMsg (s : State) (m : Message) : State :=
  (s.hostStat 0).matchMsg s.host.bufs.length { m with time := s.dev.tsNow }

/-- R89: the message buffers. -/
def msgBuffers : Nat := 256
def State.msgRoom (s : State) : Bool := decide (s.host.bufs.length < msgBuffers)

/-- MESSAGE_ACCEPT: the oldest message submitted by the host or a wave. A wave's entry has nothing left to do (R193). -/
def State.messageAccept (s : State) : State :=
  match s.host.queued with
  | [] => s
  | m :: rest =>
    if s.msgRoom then
      let s : State := { s with host := { s.host with queued := rest } }
      let s := if m.kind = 2 then
          (match (s.core (m.src - 0x100)).copies.find? fun e => e.ctx = m.who && e.seq = m.seq with
            | some e => (s.setStat (m.src - 0x100) e (.ended 0)).sentWhole (m.src - 0x100) m.who m.seq []
            | none => s) else s
      s.acceptMsg m
    else s
def execMessageAccept (s : State) : Res := .next s.messageAccept

/-- WAITING_MESSAGE_FIRE: the oldest message that waits for ring space and finds it. -/
def State.waitingFire (s : State) : State :=
  let ready (m : Message) : Bool := match m.entry with
    | some i => (s.arm i).v && decide ((s.arm i).outst < 2 ^ (s.arm i).log2)
    | none => false
  match s.host.bufs.find? ready with
  | some m =>
    (match m.entry with
      | some i => State.fireNow { s with host := { s.host with bufs := s.host.bufs.erase m } } i m
      | none => s)
  | none => s
def execWaitingMessageFire (s : State) : Res := .next s.waitingFire

/-- MESSAGE_REMATCH: the oldest message whose entry's V reads 0 is matched afresh, in its place. -/
def State.rematch (s : State) : State :=
  match s.host.bufs.zipIdx.find? fun x => match x.1.entry with | some i => !(s.arm i).v | none => false with
  | some (m, j) =>
    State.matchMsg { s with host := { s.host with bufs := s.host.bufs.eraseIdx j } } j { m with entry := none }
  | none => s
def execMessageRematch (s : State) : Res := .next s.rematch

/-- ARM_WORD0_WRITE. -/
def State.armWord0 (s : State) (i : Nat) (v : W64) : State :=
  if 4096 ≤ i then s
  else
    let a := s.arm i
    let n := v.toNat
    s.setArm i { a with
      v := bit n 63, one := bit n 62, src := bits n 53 3, ctx := bits n 42 6, prio := bits n 32 3
      widx := if a.outst = 0 then 0 else a.widx }
def execArmWord0Write (entry : Nat) (v : W64) (s : State) : Res := hosted s fun s => s.armWord0 entry v

/-- ARM_WORD_WRITE: words 1 to 4, while V and OUTST are 0; words 5 to 7 are read only, and a write of them sets no CFGERR (DESIGN CHOICE,
log 77). -/
def State.armWord (s : State) (i word : Nat) (v : W64) : State :=
  let a := s.arm i
  let n := v.toNat
  if 4096 ≤ i ∨ word = 0 ∨ 5 ≤ word then s
  else if a.v || a.outst != 0 then s.hostErr
  else match word with
    | 1 => s.setArm i { a with tag := n }
    | 2 => s.setArm i { a with mask := n }
    | 3 => s.setArm i { a with desc := BitVec.ofNat 64 (alignDown n 128) }
    | _ =>
      let a := { a with ring := BitVec.ofNat 64 (alignDown n 4096) }
      if 16 < bits n 0 5 then (s.setArm i a).hostErr else s.setArm i { a with log2 := bits n 0 5 }
def execArmWordWrite (entry word : Nat) (v : W64) (s : State) : Res := hosted s fun s => s.armWord entry word v

/-! ### Messages that come in (R75, R88) -/

/-- MESSAGE_SLOT_WRITE: a write to BAR 2; the slots whose byte 63 it covers are submitted. -/
def State.slotWrite (s : State) (off : Nat) (data : List Byte) : State :=
  let d := data.take (65536 - off)
  let slots := writeBytes s.host.slots off d
  let ends := (List.range 1024).filter fun j => decide (off ≤ 64 * j + 63) && decide (64 * j + 63 < off + d.length)
  let ms := ends.map fun j =>
    { data := readBytes slots (64 * j) 64, kind := 0, src := 0x060, who := 0, seq := 0, time := 0, entry := none : Message }
  { s with host := { s.host with slots := slots, queued := s.host.queued ++ ms } }
def execMessageSlotWrite (off : Nat) (data : List Byte) (s : State) : Res := hosted s fun s => s.slotWrite off data

/-- MESSAGE_PACKET_RECEIVE: R75, R77: taken, refused, or held by the link while no buffer is free. -/
def State.messagePacket (s0 : State) (l : Nat) (p : MsgPacket) : State :=
  match s0.arrive l p.src p.dst (.msg p) with
  | none => s0
  | some s =>
    if !s.fab.en then State.sendAck { s with fab := { s.fab with stats := bump s.fab.stats 2 1 } } p.src p.id 1
    else if !s.takesMessages p.src then
      State.sendAck { s with fab := { s.fab with stats := bump s.fab.stats 5 1 } } p.src p.id 9
    else if !s.msgRoom then s0
    else
      let m : Message :=
        { data := p.data, kind := 1, src := if p.src = s.fab.node then Config.loopSource else 0x061 + l, who := p.src, seq := 0
          time := 0, entry := none }
      let s := State.sendAck { s with fab := { s.fab with stats := bump s.fab.stats 4 1 } } p.src p.id 0
      s.acceptMsg m
def execMessagePacketReceive (link : Nat) (p : MsgPacket) (s : State) : Res := .next (s.messagePacket link p)

/-! ### Context descriptors (R83, R84) -/

/-- R84: whether the state of a context lets its descriptor be written. -/
def Ctx.open_ (c : Ctx) : Bool := c.state = .off || c.state = .stopped

/-- R83: a register of a descriptor, by its number; a number out of range for CTX_FQ.LOG2 leaves that field. -/
def Ctx.write (c : Ctx) (reg : Nat) (v : Nat) : Ctx :=
  match reg with
  | 1 => { c with root := bits v 12 45 * 4096 }
  | 2 => { c with vec := BitVec.ofNat 64 v }
  | 3 => { c with save := bits v 12 45 * 4096 }
  | 4 => { c with engblk := bits v 14 43 * 16384 }
  | 5 => { c with fqBase := bits v 12 45 * 4096, fqLog2 := if 4 ≤ bits v 0 5 ∧ bits v 0 5 ≤ 16 then bits v 0 5 else c.fqLog2 }
  | 6 => { c with codeBase := bits v 12 52 * 4096 }
  | 7 => { c with codePages := bits v 0 32 }
  | 8 => { c with futW := bit v 0 }
  | 9 => { c with trapEn := BitVec.ofNat 8 v }
  | 10 => { c with quant := bits v 0 32 }
  | 11 => { c with ceil := bits v 0 3 }
  | _ => c

/-- R83: a write of CTX_FQ with a LOG2 out of range. -/
def fqBad (reg v : Nat) : Bool := reg = 5 && (decide (bits v 0 5 < 4) || decide (16 < bits v 0 5))

/-! ### Context commands (R85) -/

/-- R85: the bases that enable asks for. -/
def State.enableOk (s : State) (c : Ctx) : Bool :=
  [c.root, c.save, c.engblk, c.fqBase].all fun a => a != 0 && decide (a < s.mem.nominal)

def State.setCtxState (s : State) (ctx : Nat) (x : CtxState) : State := s.onCtx ctx fun c => { c with state := x }

/-- CTX_ENABLE: R85, R99. -/
def State.ctxEnable (s : State) (ctx : Nat) : State :=
  if (s.ctx ctx).state = .off && s.host.boot = 2 && s.enableOk (s.ctx ctx) then s.setCtxState ctx .run else s.hostErr

/-- R117: the reservation of a context's gang is given up. -/
def State.cancelCtx (s : State) (ctx : Nat) (count : Bool) : State :=
  match s.sched.reserve.bind fun r => s.launch? r.launch with
  | some l => if l.ctx = ctx then (if count then s.cancelReserve.schStat 1 1 else s.cancelReserve) else s
  | none => s

/-- CTX_STOP: R85, R107, R117: every gang but those of callable waves stops to be saved. -/
def State.ctxStop (s : State) (ctx : Nat) : State :=
  if (s.ctx ctx).state = .run then
    let s := (s.setCtxState ctx .stopping).cancelCtx ctx true
    { s with gangs := s.gangs.map fun (x : Nat × Gang) =>
        (x.1, if x.2.ctx = ctx && !x.2.callable && x.2.evict.isNone then { x.2 with evict := some .stop } else x.2) }
  else s.hostErr

/-- CTX_RESUME. -/
def State.ctxResume (s : State) (ctx : Nat) : State :=
  if (s.ctx ctx).state = .stopped then s.setCtxState ctx .run else s.hostErr

/-- R85, R90: the launches and task records of a context that a kill discards count as complete for OUTST. -/
def State.killArms (s : State) (ctx : Nat) : State :=
  let ls := s.sched.launches.filter fun l => l.ctx = ctx
  let c := s.ctx ctx
  let home (h : Nat) : List TaskRec :=
    ((s.home h).recs.filter fun r => r.into.isNone).map (·.rec_) ++ (s.home h).spawns.map (·.rec_)
  let recs := (List.range 16).flatMap (fun h => (home h).filter fun r => r.ctx = ctx)
    ++ (List.range (c.ctqPidx - c.ctqCidx)).map (fun j => s.spillRec ctx (c.ctqCidx + j))
    ++ ls.flatMap fun l => match l.tasks with | some t => t.recs | none => []
  let s := (ls.map (·.arm) ++ (recs.filter (·.orig)).map (·.arm)).foldl State.armDone s
  { s with host := { s.host with arms := s.host.arms.foldl (fun m (x : Nat × Arm) =>
      if x.2.ctx = ctx then Sparse.set Arm.reset m x.1 { x.2 with v := false } else m) s.host.arms } }

/-- R85, R148: the records of a context leave the task queue. -/
def State.killTasks (s : State) (ctx : Nat) : State :=
  let s := (List.range 16).foldl (fun s h => s.setHome h
    { s.home h with recs := (s.home h).recs.filter fun r => r.rec_.ctx != ctx, spawns := (s.home h).spawns.filter fun x => x.rec_.ctx != ctx }) s
  let s : State := { s with ctq := { s.ctq with spills := Sparse.set [] s.ctq.spills ctx [] } }
  s.onCtx ctx fun c => { c with ctqPidx := c.ctqCidx }

/-- R85: what a core holds of a context is discarded; the array goes on to the next wave that waits for it. -/
def State.killCore (s : State) (ctx core : Nat) (keys : List Nat) : State :=
  let had := (s.core core).copies.any fun e => e.ctx = ctx
  let s := s.onCore core fun c => { c with
    copies := c.copies.filter fun e => e.ctx != ctx
    copyOwners := c.copyOwners.filter fun o => o.ctx != ctx
    rays := c.rays.filter fun r => r.ctx != ctx
    travRays := c.travRays.filter fun r => r.ctx != ctx
    calls := c.calls.filter fun r => r.ctx != ctx
    resize := c.resize.filter fun r => match r.asker with | some (k, _) => !keys.contains k | none => true
    mx := { c.mx with fifo := c.mx.fifo.filter fun x => !keys.contains x.wave, ops := c.mx.ops.filter fun o => o.ctx != ctx } }
  let s := if had then s.queueState ctx core else s
  let m := (s.core core).mx
  if m.owner.any fun k => keys.contains k || (k = leftKey && !m.busy k) then s.passMx core else s

/-- CTX_KILL: R85, R112, R117, R148, R259: everything of the context is discarded. -/
def State.ctxKill (s : State) (ctx : Nat) : State :=
  let st := (s.ctx ctx).state
  if st != .run && st != .stopping && st != .stopped then s.hostErr
  else
    let keys := (s.waves.filter fun x => x.2.ctx = ctx).map (·.1)
    let dead := s.flying.filter fun x => x.2.ctx = ctx
    let gone := (s.sched.launches.filter fun l => l.ctx = ctx).flatMap (·.saved)
    let lost (core seq : Nat) : Bool := dead.any fun x => x.1 = core && x.2.seq = seq
    let s := ((s.cancelCtx ctx false).killArms ctx).killTasks ctx
    let s : State := { s with
      fab := { s.fab with
        waits := s.fab.waits.filter fun q => !(q.ctx = ctx && lost q.core q.seq)
        fences := s.fab.fences.filter fun f => match f.who with | .wave k => !keys.contains k | .entry _ x _ => x != ctx }
      bln := { s.bln with held := s.bln.held.filter fun h => h.ctx != ctx }
      mem := { s.mem with deferred := s.mem.deferred.filter fun d => !keys.contains d.wave }
      host := { s.host with queued := s.host.queued.filter fun m => !(m.kind = 2 && m.who = ctx) }
      batches := s.batches.filter fun b => b.ctx != ctx
      waves := s.waves.filter fun x => x.2.ctx != ctx
      sched := { s.sched with
        launches := s.sched.launches.filter fun l => l.ctx != ctx, graphs := s.sched.graphs.filter fun g => g.ctx != ctx } }
    let s := s.cores.foldl (fun s x => s.killCore ctx x.1 keys) s
    -- R249: the gangs that were saved are discarded, and their slots hold none
    let s := gone.foldl (fun (s : State) v => s.markSlot ctx v.slot false) s
    let s := (s.gangs.filter fun x => x.2.ctx = ctx).foldl (fun s x =>
      ((s.freeGang x.1 x.2.core).onMx x.2.core fun m => { m with gang := if m.gang = some x.1 then none else m.gang }).dropGang x.1) s
    let s : State := { s with fes := s.fes.map fun (x : Nat × FrontEnd) => (x.1, { x.2 with
      slots := x.2.slots.filter fun y => !(y.2.used && y.2.ctx = ctx), prims := x.2.prims.filter fun p => p.ctx != ctx }) }
    (s.onCtx ctx fun c => { c with state := .killing, attach := false, halt := false }).wake .slots

def execCtxEnable (ctx : Nat) (s : State) : Res := hosted s fun s => s.ctxEnable ctx
def execCtxStop (ctx : Nat) (s : State) : Res := hosted s fun s => s.ctxStop ctx
def execCtxResume (ctx : Nat) (s : State) : Res := hosted s fun s => s.ctxResume ctx
def execCtxKill (ctx : Nat) (s : State) : Res := hosted s fun s => s.ctxKill ctx

/-- R85, R107: whether a stopping context has nothing left that runs: its gangs are saved, no callable wave is resident or
queued, and the entries that its engines had taken have come to a stop. -/
def State.stopOver (s : State) (ctx : Nat) : Bool :=
  s.gangs.all (fun x => x.2.ctx != ctx)
    && s.sched.launches.all (fun l => l.ctx != ctx || (match l.tasks with | some t => t.home != 17 | none => true))
    && s.flying.all fun x => x.2.ctx != ctx || (match x.2.stat with | .run | .sent | .ended _ => false | _ => true)

/-- CTX_STOPPED_REACHED: R85, R94 bit 7. -/
def State.stoppedReached (s0 : State) (ctx : Nat) : State :=
  let s := s0.reap
  if (s.ctx ctx).state = .stopping && s.stopOver ctx then (s.setCtxState ctx .stopped).irq 7 else s0
def execCtxStoppedReached (ctx : Nat) (s : State) : Res := .next (s.stoppedReached ctx)

/-- CTX_OFF_REACHED: R85, R94 bit 7. -/
def State.offReached (s : State) (ctx : Nat) : State :=
  if (s.ctx ctx).state = .killing then (s.setCtxState ctx .off).irq 7 else s
def execCtxOffReached (ctx : Nat) (s : State) : Res := .next (s.offReached ctx)

/-- R83, R85: a write of CTX_CTL. -/
def State.ctxCommand (s : State) (ctx cmd : Nat) : State :=
  match cmd with
  | 1 => s.ctxEnable ctx
  | 2 => s.ctxStop ctx
  | 3 => s.ctxResume ctx
  | 4 => s.ctxKill ctx
  | _ => s

/-- CTX_DESCRIPTOR_WRITE: R83, R84; a write of a place that is read only sets no CFGERR (DESIGN CHOICE, log 77). -/
def State.ctxWrite (s : State) (ctx reg : Nat) (v : W64) : State :=
  if 64 ≤ ctx ∨ 12 ≤ reg then s
  else if reg = 0 then s.ctxCommand ctx (bits v.toNat 4 4)
  else if (s.ctx ctx).open_ || decide (9 ≤ reg) then
    let s := s.onCtx ctx fun c => c.write reg v.toNat
    if fqBad reg v.toNat then s.hostErr else s
  else s.hostErr
def execCtxDescriptorWrite (ctx reg : Nat) (v : W64) (s : State) : Res := hosted s fun s => s.ctxWrite ctx reg v

/-- CTQ_SPILL_BASE_WRITE: R150: only in OFF or STOPPED and with an empty ring. -/
def State.spillBase (s : State) (ctx : Nat) (v : W64) : State :=
  let c := s.ctx ctx
  let g := bits v.toNat 0 5
  if 64 ≤ ctx then s
  else if c.open_ && c.ctqPidx = c.ctqCidx then
    let c := { c with ctqBase := bits v.toNat 12 45 * 4096 }
    if g = 0 ∨ (4 ≤ g ∧ g ≤ 20) then s.setCtx ctx { c with ctqLog2 := g } else (s.setCtx ctx c).hostErr
  else s.hostErr
def execCtqSpillBaseWrite (ctx : Nat) (v : W64) (s : State) : Res := hosted s fun s => s.spillBase ctx v

end Sys2Proof.Machine
end

