-- ==== Sys2Proof/Machine/Graphs.lean ====
section
/-!
DEFINITION. Launch graphs (spec/05 R108 to R112): submission and its checks, the start and completion of nodes, and aborts.
-/
namespace Sys2Proof.Machine

/-! ### Submission (R108, R109) -/

/-- GRAPH_SUBMIT: SCH_GSUB_CTL.GO; a write while it is 1 is ignored (R130). -/
def State.graphSubmit (s : State) : State :=
  if s.sched.gsubGo then s.hostErr else { s with sched := { s.sched with gsubGo := true, gsubRes := 0 } }
def execGraphSubmit (s : State) : Res := hosted s State.graphSubmit

/-- R108: a node from its record of 64 bytes; its descriptor is read apart. -/
def nodeOf (b : List Byte) : GraphNode where
  kind := numAt b 0 1
  succ := (List.range (numAt b 1 1)).map fun j => numAt b (0x20 + 2 * j) 2
  npred := numAt b 2 2
  a := BitVec.ofNat 64 (numAt b 8 8)
  b := BitVec.ofNat 64 (numAt b 0x10 8)
  len := BitVec.ofNat 64 (numAt b 0x18 8)
  desc := none

/-- R108: a copy to the weight store: offset and length. -/
def weightOff (b : Nat) : Nat := bits b 0 31

/-- R108: whether a node meets its limits, in a graph of `n` nodes. -/
def nodeOk (n : Nat) (b : List Byte) : Bool :=
  let ns := numAt b 1 1
  let a := numAt b 8 8
  let d := numAt b 0x10 8
  let len := numAt b 0x18 8
  decide (ns ≤ 8) && zeroAt b 4 4 && zeroAt b 0x30 16
    && ((List.range 8).all fun j => if j < ns then decide (numAt b (0x20 + 2 * j) 2 < n) else zeroAt b (0x20 + 2 * j) 2)
    && (match numAt b 0 1 with
      | 1 => a % 128 = 0 && d = 0 && len = 0
      | 2 => len != 0 && decide (len ≤ 2 ^ 40)
        && (if bit d 63 then bits d 58 5 = 0 && bits d 31 25 = 0 && weightOff d % 256 = 0 && len % 256 = 0
              && decide (weightOff d + len ≤ 2 ^ 31)
            else bits d 57 6 = 0)
      | 3 => a % 8 = 0 && len = 0
      | _ => false)

/-- R109: the NPRED of every node is the number of SUCC entries that name it, and some node has none. -/
def predsOk (ns : List GraphNode) : Bool :=
  let named := ns.flatMap (·.succ)
  (ns.zipIdx.all fun (x, j) => x.npred = (named.filter fun y => y = j).length) && ns.any fun x => x.npred = 0

/-- What the checks of R109 give: RES 2 or 3, or what was read. -/
inductive GraphRes (α : Type) where
  | bad (res : Nat)
  | ok (x : α)

/-- R109: the descriptor of a grid node. -/
def State.nodeDesc (s : State) (ctx : Nat) (x : GraphNode) : GraphRes GraphNode × State :=
  if x.kind != 1 then (.ok x, s)
  else match s.readDesc none ctx x.a.toNat with
    | (.fault _ _, s) => (.bad 2, s)
    | (.invalid, s) => (.bad 3, s)
    | (.ok d, s) => if d.task then (.bad 3, s) else (.ok { x with desc := some d }, s)

/-- R109: the nodes of a graph from node j on, `m` of them, of `n` in all. -/
def State.readNodes (ctx head n : Nat) : Nat → Nat → State → GraphRes (List GraphNode) × State
  | 0, _, s => (.ok [], s)
  | m + 1, j, s =>
    match s.readVirt none ctx ((head + 64 + 64 * j) % 2 ^ 64) 64 Access.read with
    | (.error _, s) => (.bad 2, s)
    | (.ok b, s) =>
      if !nodeOk n b then (.bad 3, s)
      else match s.nodeDesc ctx (nodeOf b) with
        | (.bad r, s) => (.bad r, s)
        | (.ok x, s) =>
          match State.readNodes ctx head n m (j + 1) s with
          | (.bad r, s) => (.bad r, s)
          | (.ok l, s) => (.ok (x :: l), s)

/-- R109: header and nodes of a graph. -/
def State.readGraph (s : State) (ctx head : Nat) : GraphRes Graph × State :=
  match s.readVirt none ctx head 64 Access.read with
  | (.error _, s) => (.bad 2, s)
  | (.ok b, s) =>
    let n := numAt b 0 2
    if n = 0 || decide (1024 < n) || !zeroAt b 2 6 || numAt b 8 8 % 8 != 0 || !zeroAt b 0x18 40 then (.bad 3, s)
    else match State.readNodes ctx head n n 0 s with
      | (.bad r, s) => (.bad r, s)
      | (.ok ns, s) =>
        if predsOk ns then
          (.ok { id := s.sched.nextLaunch, ctx := ctx, doneAddr := numAt b 8 8, doneVal := BitVec.ofNat 64 (numAt b 0x10 8)
                 nodes := ns, stats := ns.map fun x => .waits x.npred, aborted := false }, s)
        else (.bad 3, s)

/-- The checks end with RES. -/
def State.gsubEnd (s : State) (res : Nat) : State := { s with sched := { s.sched with gsubGo := false, gsubRes := res } }

/-- GRAPH_CHECK_DONE: R109, R130. -/
def State.graphCheck (s : State) : State :=
  if !s.sched.gsubGo then s
  else if (s.ctx s.sched.gsubCtx).state != .run then s.gsubEnd 2
  else match s.readGraph s.sched.gsubCtx s.sched.gsubAddr.toNat with
    | (.bad r, s) => s.gsubEnd r
    | (.ok g, s) =>
      State.gsubEnd { s with sched := { s.sched with graphs := s.sched.graphs ++ [g], nextLaunch := s.sched.nextLaunch + 1 } } 1
def execGraphCheckDone (s : State) : Res := .next s.graphCheck

/-! ### Nodes (R110 to R112) -/

def State.graph? (s : State) (g : Nat) : Option Graph := s.sched.graphs.find? fun x => x.id = g
def State.onGraph (s : State) (g : Nat) (f : Graph → Graph) : State :=
  { s with sched := { s.sched with graphs := s.sched.graphs.map fun x => if x.id = g then f x else x } }
def State.dropGraph (s : State) (g : Nat) : State :=
  { s with sched := { s.sched with graphs := s.sched.graphs.filter fun x => x.id != g } }

/-- How far a node is. -/
def Graph.stat (g : Graph) (n : Nat) : NodeStat := (g.stats[n]?).getD .complete
def State.setNode (s : State) (g n : Nat) (x : NodeStat) : State :=
  s.onGraph g fun y => { y with stats := setAt y.stats n x }

/-- Whether a node has started and is not complete. -/
def NodeStat.going : NodeStat → Bool
  | .started | .ended => true
  | _ => false

/-- An aborted graph none of whose nodes goes on is gone. -/
def State.graphGone (s : State) (g : Nat) : State :=
  match s.graph? g with
  | some x => if x.aborted && !(x.stats.any NodeStat.going) then s.dropGraph g else s
  | none => s

/-- R112: a graph aborts because of its node n, which starts no more. -/
def State.graphAbort (s : State) (g n : Nat) : State :=
  match s.graph? g with
  | none => s
  | some x =>
    let s := if x.aborted then s
      else (((s.onGraph g fun y => { y with aborted := true }).writeDone x.ctx x.doneAddr (~~~x.doneVal)).schStat 5 1).irq 2
    (s.setNode g n .complete).graphGone g

/-- R110: a copy node moves its bytes, page by page of the source; the number of pieces left bounds the walk. -/
def copyNodeBytes (ctx : Nat) (put : Nat → List Byte → State → Except (Nat × Nat) Unit × State) :
    Nat → Nat → Nat → Nat → State → Except (Nat × Nat × Bool) Unit × State
  | 0, _, _, _, s => (.ok (), s)
  | k + 1, src, done, len, s =>
    let n := min (len - done) (4096 - (src + done) % 4096)
    if n = 0 then (.ok (), s)
    else match s.readVirt none ctx ((src + done) % 2 ^ 64) n Access.engRead with
      | (.error (c, va), s) => (.error (c, va, false), s)
      | (.ok b, s) =>
        match put done b s with
        | (.error (c, va), s) => (.error (c, va, true), s)
        | (.ok _, s) => copyNodeBytes ctx put k src (done + n) len s

/-- R108: a global destination, as a canonical address. -/
def copyDest (b : Nat) : Nat := if bit b 56 then b + (2 ^ 64 - 2 ^ 57) else b

/-- R110: where a copy node writes. -/
def copyPut (ctx b done : Nat) (data : List Byte) (s : State) : Except (Nat × Nat) Unit × State :=
  match weightDie b with
  | some die => (.ok (), { s with
      wstore := writeBytes s.wstore (die * 2 ^ 31 + weightOff b + done) data
      storeFlaws := s.storeFlaws.filter fun f =>
        !(f.unit = die && decide (weightOff b + done ≤ f.addr) && decide (f.addr + 8 ≤ weightOff b + done + data.length)) })
  | none =>
    let d := (copyDest b + done) % 2 ^ 64
    -- R197: no engine writes a page of future words
    match State.translatePieces none ctx Access.engWrite (rangePieces 2 d data.length) s with
    | (.error e, s) => (.error e, s)
    | (.ok ps, s1) => if ps.any fun p => p.x.fut then (.error (3, d), s1) else s.writeVirt none ctx d data Access.engWrite

/-- R243: whether a fault of a copy node goes to the host fault queue. -/
def nodePosts (kind : Nat) : Bool := toHostQueue (memCause kind Access.engRead)

/-- R112, R241, R243: a fault of a copy node aborts the graph; the host queue takes 0x43 for a page that is not present, and the codes of
the kinds 1, 2, 7 and 15. -/
def State.copyFault (s : State) (g : Graph) (n kind va : Nat) (w : Bool) : State :=
  let s := if !nodePosts kind then s
    else s.postFault g.ctx (faultEntry s.now 0x071 (memCause kind Access.engRead) 2 n [(alignDown va 4096, w)])
  s.graphAbort g.id n

/-- R110, R112: a copy node runs; while the fault queue is full one that faults waits. -/
def State.copyNode (s : State) (g : Graph) (n : Nat) (x : GraphNode) : State :=
  let len := x.len.toNat
  match copyNodeBytes g.ctx (copyPut g.ctx x.b.toNat) (len / 4096 + 2) x.a.toNat 0 len (s.setNode g.id n .started) with
  | (.error (kind, va, w), s1) => if nodePosts kind && s1.fqFull g.ctx then s else s1.copyFault g n kind va w
  | (.ok _, s1) => s1.setNode g.id n .ended

/-- R111: whether a wave of any context is on a die. -/
def State.dieBusy (s : State) (die : Nat) : Bool := s.waves.any fun x => dieOf (keyCore x.1) = die

/-- GRAPH_NODE_START: R110, R111. -/
def State.nodeStart (s0 : State) (gid n : Nat) : State :=
  let s := s0.reap
  match s.graph? gid with
  | none => s0
  | some g =>
    match g.nodes[n]? with
    | none => s0
    | some x =>
      if g.stat n != .waits 0 || g.aborted then s0
      else match x.kind with
        | 1 =>
          (match x.desc with
            | some d =>
              State.setNode (s.enqueue { Launch.of g.ctx d 0 d.prio 0x071 with node := some (gid, n) }) gid n .started
            | none => s0)
        | 2 =>
          if (weightDie x.b.toNat).any s.dieBusy then s0 else s.copyNode g n x
        | _ =>
          (match s.writeVirt none g.ctx x.a.toNat (toBytes 8 x.b.toNat) Access.engWrite with
            | (.ok _, s) => s.setNode gid n .ended
            | (.error _, s) => s.graphAbort gid n)
def execGraphNodeStart (graph node : Nat) (s : State) : Res := .next (s.nodeStart graph node)

/-- R110: one predecessor less. -/
def NodeStat.less : NodeStat → NodeStat
  | .waits n => .waits (n - 1)
  | x => x

/-- R110: the counters of the successors fall; one named twice falls twice. -/
def Graph.release (g : Graph) (n : Nat) : Graph :=
  let succ := match g.nodes[n]? with | some x => x.succ | none => []
  { g with stats := succ.foldl (fun l j => setAt l j ((l[j]?).getD .complete).less) (setAt g.stats n .complete) }

/-- GRAPH_NODE_COMPLETE: R110, R112. -/
def State.nodeComplete (s : State) (gid n : Nat) : State :=
  match s.graph? gid with
  | none => s
  | some g =>
    if g.stat n != .ended then s
    else
      let s := s.onGraph gid fun y => y.release n
      if g.aborted then s.graphGone gid
      else if (g.release n).stats.all fun x => x = .complete then
        ((s.writeDone g.ctx g.doneAddr g.doneVal).schStat 4 1).dropGraph gid
      else s
def execGraphNodeComplete (graph node : Nat) (s : State) : Res := .next (s.nodeComplete graph node)

end Sys2Proof.Machine
end

