-- ==== Sys2Proof/Machine/Crypto.lean ====
section
/-!
DEFINITION. What the Obsis controller computes (spec/04 R100, R101, R103): SHAKE256 (FIPS 202) and Ed448 with an empty context
(RFC 8032), which the spec names and does not restate (log 41).
-/
namespace Sys2Proof.Machine

/-! ### SHAKE256 -/

/-- The register that gives the round constants, after `t` steps: degree 8, feedback polynomial x^8 + x^6 + x^5 + x^4 + 1. -/
def roundRegister : Nat → Nat
  | 0 => 1
  | t + 1 =>
    let r := 2 * roundRegister t
    if r < 256 then r else r ^^^ 0x171

/-- The constant of a round: bit 2^j - 1 is the low bit of the register after 7 x round + j steps. -/
def roundConstant (round : Nat) : W64 :=
  BitVec.ofNat 64 (((List.range 7).map fun j => roundRegister (7 * round + j) % 2 * 2 ^ (2 ^ j - 1)).sum)

/-- How far the lane (x, y) turns: the lanes (1, 0), (0, 2), … in the order that (x, y) ↦ (y, 2x + 3y) visits them turn by the
triangular numbers; `n` bounds the walk, which has come to the lane (i, j) as its `t`-th. -/
def turnFrom (x y : Nat) : Nat → Nat → Nat → Nat → Nat
  | 0, _, _, _ => 0
  | n + 1, t, i, j => if i = x ∧ j = y then t * (t + 1) / 2 % 64 else turnFrom x y n (t + 1) j ((2 * i + 3 * j) % 5)
def laneTurn (x y : Nat) : Nat := turnFrom x y 24 1 1 0

/-- A row of the state by the place of its lanes; a state is its five rows. -/
def inRow (r : List W64) (x : Nat) : W64 := r.getD (x % 5) 0
def laneAt (s : List (List W64)) (x y : Nat) : W64 := inRow (s.getD (y % 5) []) x
def fiveRows (f : Nat → Nat → W64) : List (List W64) := (List.range 5).map fun y => (List.range 5).map fun x => f x y

/-- Theta: to every lane the parities of the columns beside it. -/
def thetaStep (s : List (List W64)) : List (List W64) :=
  let parity := s.foldl (fun p r => (List.range 5).map fun x => inRow p x ^^^ inRow r x) (List.replicate 5 0)
  s.map fun r => (List.range 5).map fun x => inRow r x ^^^ (inRow parity (x + 4) ^^^ (inRow parity (x + 1)).rotateLeft 1)

/-- Rho and pi: the lane (i + 3j, i) turns and comes to (i, j). -/
def turnAndMove (s : List (List W64)) : List (List W64) :=
  fiveRows fun i j => (laneAt s (i + 3 * j) i).rotateLeft (laneTurn ((i + 3 * j) % 5) i)

/-- Chi: within a row. -/
def chiStep (s : List (List W64)) : List (List W64) :=
  s.map fun r => (List.range 5).map fun x => inRow r x ^^^ (inRow r (x + 2) &&& ~~~inRow r (x + 1))

/-- Iota: the constant of the round into lane (0, 0). -/
def iotaStep (round : Nat) (s : List (List W64)) : List (List W64) :=
  s.modify 0 fun r => r.modify 0 fun v => v ^^^ roundConstant round

/-- Keccak-f[1600] on 25 lanes. -/
def keccakF (a : List W64) : List W64 :=
  ((List.range 24).foldl (fun s round => iotaStep round (chiStep (turnAndMove (thetaStep s)))) (fiveRows fun x y => a.getD (x + 5 * y) 0)).flatten

/-- The bytes that one block of the sponge takes: the rate of SHAKE256. -/
def shakeRate : Nat := 136

/-- A block of bytes joins the state. -/
def absorbBlock (a : List W64) (b : List Byte) : List W64 :=
  keccakF (a.zipIdx.map fun (v, i) => v ^^^ BitVec.ofNat 64 (ofBytes ((b.drop (8 * i)).take 8)))

/-- The state after a padded message; `n` bounds its blocks. -/
def absorb : Nat → List W64 → List Byte → List W64
  | 0, a, _ => a
  | n + 1, a, m => if m.isEmpty then a else absorb n (absorbBlock a (m.take shakeRate)) (m.drop shakeRate)

/-- The message with the suffix of SHAKE and the padding to whole blocks. -/
def shakePad (m : List Byte) : List Byte :=
  let k := shakeRate - m.length % shakeRate
  if k = 1 then m ++ [0x9F] else m ++ [0x1F] ++ List.replicate (k - 2) 0 ++ [0x80]

/-- The output, block by block. -/
def squeeze : Nat → List W64 → List Byte
  | 0, _ => []
  | n + 1, a => ((a.flatMap fun v => toBytes 8 v.toNat).take shakeRate) ++ squeeze n (keccakF a)

/-- SHAKE256 with `n` bytes of output. -/
def shake256 (m : List Byte) (n : Nat) : List Byte :=
  let p := shakePad m
  (squeeze (n / shakeRate + 1) (absorb (p.length / shakeRate + 1) (List.replicate 25 0) p)).take n

/-! ### Ed448 -/

/-- The field, the curve constant, the order of the base point. -/
def edP : Nat := 2 ^ 448 - 2 ^ 224 - 1
def edD : Nat := edP - 39081
def edL : Nat := 2 ^ 446 - 13818066809895115352007386748515426880336692474882178609894547503885

/-- Powers in the field; `n` bounds the bits of the exponent. -/
def edPow : Nat → Nat → Nat → Nat
  | 0, _, _ => 1
  | n + 1, b, e => (if e % 2 = 1 then b else 1) * edPow n (b * b % edP) (e / 2) % edP

def edInv (x : Nat) : Nat := edPow 448 x (edP - 2)
def edSub (a b : Nat) : Nat := (a + (edP - b % edP)) % edP

/-- A point in projective coordinates. -/
structure EdPt where
  x : Nat
  y : Nat
  z : Nat
  deriving DecidableEq, Repr

def EdPt.zero : EdPt := { x := 0, y := 1, z := 1 }

def edBase : EdPt where
  x := 224580040295924300187604334099896036246789641632564134246125461686950415467406032909029192869357953282578032075146446173674602635247710
  y := 298819210078481492676017930443930673437544040154080242095928241372331506189835876003536878655418784733982303233503462500531545062832660
  z := 1

/-- The sum of two points. -/
def EdPt.add (p q : EdPt) : EdPt :=
  let a := p.z * q.z % edP
  let b := a * a % edP
  let c := p.x * q.x % edP
  let d := p.y * q.y % edP
  let e := edD * (c * d % edP) % edP
  let f := edSub b e
  let g := (b + e) % edP
  let h := (p.x + p.y) * (q.x + q.y) % edP
  { x := a * f % edP * (edSub (edSub h c) d) % edP, y := a * g % edP * (edSub d c) % edP, z := f * g % edP }

/-- A multiple of a point; `n` bounds the bits of the factor. -/
def EdPt.mul : Nat → Nat → EdPt → EdPt
  | 0, _, _ => EdPt.zero
  | n + 1, k, p =>
    let r := EdPt.mul n (k / 2) (p.add p)
    if k % 2 = 1 then r.add p else r

def EdPt.times (p : EdPt) (k : Nat) : EdPt := EdPt.mul 460 k p

/-- Whether two points are the same. -/
def EdPt.same (p q : EdPt) : Bool := p.x * q.z % edP = q.x * p.z % edP && p.y * q.z % edP = q.y * p.z % edP

/-- The 57 bytes of a point. -/
def EdPt.encode (p : EdPt) : List Byte :=
  let i := edInv p.z
  toBytes 57 (p.y * i % edP + 2 ^ 455 * (p.x * i % edP % 2))

/-- The point of 57 bytes, if they encode one. -/
def EdPt.decode (b : List Byte) : Option EdPt :=
  let v := ofBytes b
  let y := v % 2 ^ 455
  let sign := v / 2 ^ 455 % 2
  let u := edSub (y * y % edP) 1
  let w := edSub (edD * (y * y % edP) % edP) 1
  let u3w := u * u % edP * u % edP * w % edP
  let u5w3 := u3w * (u * u % edP) % edP * (w * w % edP) % edP
  let x := u3w * edPow 448 u5w3 ((edP - 3) / 4) % edP
  if b.length != 57 || decide (edP ≤ y) || w * (x * x % edP) % edP != u || (x = 0 && sign = 1) then none
  else some { x := if x % 2 = sign then x else edP - x, y := y, z := 1 }

/-- The prefix of a hash of Ed448 with an empty context. -/
def edDom : List Byte := [0x53, 0x69, 0x67, 0x45, 0x64, 0x34, 0x34, 0x38, 0, 0]

def edHash (m : List Byte) : Nat := ofBytes (shake256 (edDom ++ m) 114) % edL

/-- Whether a signature over a message verifies under a public key. -/
def edVerify (key msg sig : List Byte) : Bool :=
  let s := ofBytes (sig.drop 57)
  match EdPt.decode key, EdPt.decode (sig.take 57) with
  | some a, some r =>
    sig.length = 114 && decide (s < edL)
      && (edBase.times (4 * s)).same ((r.times 4).add (a.times (4 * edHash (sig.take 57 ++ key ++ msg))))
  | _, _ => false

/-- The secret scalar and the prefix of a private key of 57 bytes. -/
def edSecret (seed : List Byte) : Nat × List Byte :=
  let h := shake256 seed 114
  ((ofBytes (h.take 56) / 4 * 4) % 2 ^ 447 + 2 ^ 447, h.drop 57)

def edPublic (seed : List Byte) : List Byte := (edBase.times (edSecret seed).1).encode

/-- The signature of a message. -/
def edSign (seed msg : List Byte) : List Byte :=
  let (s, pre) := edSecret seed
  let key := edPublic seed
  let r := edHash (pre ++ msg)
  let rb := (edBase.times r).encode
  rb ++ toBytes 57 ((r + edHash (rb ++ key ++ msg) * s) % edL)

end Sys2Proof.Machine
end

