-- ==== Sys2Proof/Machine/Obsis.lean ====
section
/-!
DEFINITION. The Obsis security controller (spec/04 R100 to R103): images, measurements, the mailbox; and the four resets (R99).
-/
namespace Sys2Proof.Machine

/-! ### Images and measurements -/

/-- R100: the digest of a list of bytes. -/
def digest64 (b : List Byte) : List Byte := shake256 b 64

/-- R100: whether a firmware image is accepted. -/
def imageAccepted (img : List Byte) : Bool :=
  digest64 (Config.imageKey img) = Config.fusedKeyDigest && decide (Config.fusedSvn ≤ Config.imageSvn img)
    && edVerify (Config.imageKey img) (digest64 (Config.imageBody img)) (Config.imageSig img)

/-- A measurement register: 64 bytes, zero after cold or warm reset (R101). -/
def zero64 : List Byte := List.replicate 64 0
def Obsis.reg (o : Obsis) (j : Nat) : List Byte := Sparse.get zero64 o.meas j
/-- R101: register j extended with a digest. -/
def Obsis.extend (o : Obsis) (j : Nat) (d : List Byte) : Obsis :=
  { o with meas := Sparse.set zero64 o.meas j (digest64 (o.reg j ++ d)) }

/-- The security version of an image, as the byte that reports it (R82, R103). -/
def svnOf (img : List Byte) : Nat := Config.imageSvn img % 256

/-! ### The mailbox (R102) -/

/-- The command: opcode, length of the rest, and bytes of the rest. -/
def Obsis.opcode (o : Obsis) : Nat := (Sparse.get 0 o.cmd 0).toNat
def Obsis.restLen (o : Obsis) : Nat := ofBytes (readBytes o.cmd 2 2)
def Obsis.arg (o : Obsis) (at_ n : Nat) : List Byte := readBytes o.cmd (4 + at_) n

/-- A command is in execution and has no result yet. DESIGN CHOICE (log 77): the buffer is read as the command does its work, and is not
latched at the doorbell. -/
def Obsis.running (o : Obsis) (op : Nat) : Bool := o.busy && o.pending.isNone && o.opcode = op

/-- The bytes of the rest that each command has; none for an opcode that names no command. -/
def commandLen (op : Nat) : Option Nat :=
  if op = 1 then some 16 else if op = 2 then some 65 else if op = 3 then some 64 else if op = 4 then some 0 else none

/-- OBS_DOORBELL: a command starts; one that is unknown has its result at once. -/
def State.doorbell (s : State) : State :=
  if s.obsis.busy then s
  else { s with obsis := { s.obsis with
    busy := true, pending := if (commandLen s.obsis.opcode).isNone then some 1 else none } }

/-- A command of the right length does its work; one of another length has result 3. R101: only firmware that has been verified runs it. -/
def State.mailbox (s : State) (op : Nat) (f : State → State) : Res :=
  .next (if (s.host.boot = 1 || s.host.boot = 2) && s.obsis.running op then
      (if commandLen op = some s.obsis.restLen then f s else { s with obsis := { s.obsis with pending := some 3 } })
    else s)

/-- The command ends with a result. -/
def State.answer (s : State) (r : Nat) : State := { s with obsis := { s.obsis with pending := some r } }
/-- The command ends with success and a response. -/
def State.respond (s : State) (b : List Byte) : State :=
  State.answer { s with obsis := { s.obsis with resp := writeBytes s.obsis.resp 0 b } } 0

/-- LOADFW: R100 to R102: the image at a physical address is verified, measured and started. -/
def State.loadFw (s : State) : State :=
  let a := ofBytes (s.obsis.arg 0 8)
  let n := ofBytes (s.obsis.arg 8 8)
  if n = 0 || s.mem.rangeBad a n then s.answer 2
  else
    let (img, s) := s.readChecked a n
    if imageAccepted img then
      State.answer { s with
        obsis := { s.obsis.extend 1 (digest64 (Config.imageBody img)) with svn := svnOf img, fw := true, since := none }
        host := { s.host with boot := 2 } } 0
    else s.answer 2
def execLoadfw (s : State) : Res := s.mailbox 1 State.loadFw

/-- EXTEND: register 2 to 7. -/
def State.extendReg (s : State) : State :=
  let j := ofBytes (s.obsis.arg 0 1)
  if 2 ≤ j ∧ j ≤ 7 then State.answer { s with obsis := s.obsis.extend j (s.obsis.arg 1 64) } 0 else s.answer 4
def execExtend (s : State) : Res := s.mailbox 2 State.extendReg

/-- The registers that a report covers, as they read (R57, R77, R94). -/
def State.memCfg (s : State) : Nat := s.mem.ratio + 256 * b2n s.mem.lock
def State.fabNode (s : State) : Nat := s.fab.node + 4096 * b2n s.fab.nodeLock
def State.apBaseReg (s : State) : Nat := s.host.apBase * 2 ^ 28

/-- R103: the report without its signature. -/
def State.report (s : State) (nonce : List Byte) : List Byte :=
  toBytes 2 1 ++ toBytes 2 0x0960 ++ toBytes 1 0xA1 ++ toBytes 1 s.obsis.svn ++ toBytes 2 0 ++ toBytes 8 s.now ++ nonce
    ++ (List.range 8).flatMap s.obsis.reg
    ++ digest64 (toBytes 8 s.memCfg ++ toBytes 8 s.fabNode ++ toBytes 8 s.apBaseReg) ++ List.replicate 6 0

/-- ATTEST: R103. -/
def State.attest (s : State) : State :=
  let r := s.report (s.obsis.arg 0 64)
  s.respond (r ++ edSign Config.identitySeed r)
def execAttest (s : State) : Res := s.mailbox 3 State.attest

/-- GETKEY: the public identity key and its certificates, as far as the buffer holds them. -/
def State.getKey (s : State) : State := s.respond ((edPublic Config.identitySeed ++ Config.certChain).take 4096)
def execGetkey (s : State) : Res := s.mailbox 4 State.getKey

/-- MAILBOX_COMPLETE: BUSY clears, RESULT is set and interrupt 5 rises. -/
def State.mailboxDone (s : State) : State :=
  match s.obsis.busy, s.obsis.pending with
  | true, some r => State.irq { s with obsis := { s.obsis with busy := false, pending := none, result := r } } 5
  | _, _ => s
def execMailboxComplete (s : State) : Res := .next s.mailboxDone

/-! ### Resets (R99) -/

/-- What every reset leaves: the values of reset, and what is no register of the device: the host's memory, the turns that
are left, and the point of the free values. -/
def State.afterReset (s : State) : State :=
  { State.reset with mem := { Mem.reset with host := s.mem.host }, turns := s.turns, freeCtr := s.freeCtr }

/-- R101 steps 1 and 2: the ROM verifies the Obsis firmware and measures it. -/
def State.bootChain (s : State) : State :=
  let img := Config.obsisImage
  if imageAccepted img then
    { s with obsis := { s.obsis.extend 0 (digest64 (Config.imageBody img)) with svn := svnOf img }, host := { s.host with boot := 1 } }
  else { s with host := { s.host with boot := 15 } }

/-- R99: after a cold or warm reset BOOT is 0 until the boot chain is over. -/
def execColdReset (s : State) : Res := .next s.afterReset
def execWarmReset (s : State) : Res := .next s.afterReset

/-- R99: BOOT after a hot reset or FLR: 15 stays, and 0 while the boot chain goes on; else 1. -/
def hotBoot (was : Nat) : Nat := if was = 15 then 15 else if was = 0 then 0 else 1

/-- R99: a hot reset keeps Obsis, which restarts the firmware that was loaded, and the host link as it is trained. -/
def State.hotReset (s : State) : State :=
  let t := s.afterReset
  { t with
    obsis := { s.obsis with since := if s.obsis.fw && s.host.boot != 15 then some 0 else s.obsis.since }
    host := { t.host with boot := hotBoot s.host.boot }
    dev := { t.dev with
      pcieUp := s.dev.pcieUp, pcieRate := s.dev.pcieRate, pcieWidth := s.dev.pcieWidth, pcieFlit := s.dev.pcieFlit } }
def execHotReset (s : State) : Res := .next s.hotReset
def execFunctionLevelReset (s : State) : Res := .next s.hotReset

/-- R99: BOOT once the time of the boot chain is over (at most 200 ms), or after a hot reset that of the firmware (at most 100 ms). -/
def State.bootTick (s : State) : State :=
  match s.obsis.since with
  | none => s
  | some n =>
    let ended (most free : Nat) : Bool := decide (most ≤ n + 1) || decide (free ≤ n)
    let done : State := { s with obsis := { s.obsis with since := none } }
    if s.host.boot = 0 && ended 200000000 Config.bootTime then done.bootChain
    else if s.host.boot = 1 && ended 100000000 Config.firmwareTime then { done with host := { done.host with boot := 2 } }
    else { s with obsis := { s.obsis with since := some (n + 1) } }

/-- TIMESTAMP_TICK: R26, R27: a nanosecond of the reference passes; the timestamp counts it while it runs (R27), and the core cycles,
time slices (R119) and the measure of power (R15) go on in any case. -/
def State.tick (s : State) : State :=
  let d := s.dev
  let s := { s with dev := { d with
    tsNow := if d.tsRun then d.tsNow + 1 else d.tsNow, ref := d.ref + 1, milli := d.milli + d.cclk } }
  let s := s.countCycles (s.dev.milli / 1000 - d.milli / 1000)
  let s := if s.dev.ref % 1000 = 0 then s.countSlices else s
  let s := if s.dev.ref % 1000000 = 0 then { s with dev := { s.dev with pwrWatts := powerOf (s.dev.ref / 1000000) } } else s
  s.bootTick
def execTimestampTick (s : State) : Res := .next s.tick


end Sys2Proof.Machine
end

