-- ==== Sys2Proof/Machine/System.lean ====
section
/-!
DEFINITION. The system instructions tret, halt, dbgmk and perfrd (spec/17 R434 to R438).
-/
namespace Sys2Proof.Machine

/-- R434: the wave leaves trap mode with the state of its live record; every token is clear but those of R254. -/
def runTret (v : View) (s : State) : Res :=
  issue rowTret v s (fun i => if i.w.trapMode then [] else [Cz.plain 0x13 i.ex]) fun i =>
    let w := { i.w with cycle := i.w.cycle + max 1 v.ctl.stl.toNat, issued := i.w.issued + 1, stepped := true, skip := false }
    (i.counted i.s w.ctx).reloadWave i.key w fun _ => true
def execTret (f : LongF) (s : State) : Res := runTret f.view s
def execTretShort (f : ShortF) (s : State) : Res := runTret f.view s

/-- Whether a debugger is attached to the wave's context (R259). -/
def Iss.attached (i : Iss) : Bool := (i.s.ctx i.w.ctx).attach

/-- R435: cause 0x00 for the debugger, else 0x14. -/
def runHalt (v : View) (s : State) : Res :=
  issue rowHalt v s (fun i => if i.attached then i.selfCz 0x00 0 else if i.ex.isEmpty then [] else [Cz.plain 0x14 i.ex]) fun i =>
    i.commit i.s i.w i.at_
def execHalt (f : LongF) (s : State) : Res := runHalt f.view s
def execHaltShort (f : ShortF) (s : State) : Res := runHalt f.view s

/-- R436: cause 0x18 where a debugger has set attention; A goes to INFO. -/
def runDbgmk (v : View) (s : State) : Res :=
  issue rowDbgmk v s
    (fun i => if i.attached && (i.s.ctx i.w.ctx).attn then i.selfCz 0x18 (i.w.operand v .i32 [] 0 v.a) else []) fun i =>
    i.commit i.s i.w i.at_
def execDbgmk (f : LongF) (s : State) : Res := runDbgmk f.view s
def execDbgmkShort (f : ShortF) (s : State) : Res := runDbgmk f.view s

/-- R438: a performance counter of a core. -/
def State.perfCtr (s : State) (core j : Nat) : PerfCtr := Sparse.get { cfg := 0, cnt := 0 } (s.core core).perf j

/-- R437: whether a context may read a counter. -/
def PerfCtr.readable (p : PerfCtr) (ctx : Nat) : Bool :=
  bit p.cfg.toNat 63 && (!bit p.cfg.toNat 31 || bits p.cfg.toNat 32 6 = ctx)

def Iss.perfA (i : Iss) : Nat := i.w.operand i.v .i32 [] 0 i.v.a

/-- R437. -/
def aluPerfrd : Alu where
  ta := tI
  tb := tNo
  tc := tNo
  lat := latIs 4
  dom := fun _ => domInt
  sgn := sgnNo
  stale := fun _ => false
  causes := fun i =>
    if i.ex.isEmpty then []
    else if 7 < i.perfA then [Cz.plain 0x03 i.ex]
    else if (i.s.perfCtr i.core i.perfA).readable i.w.ctx then [] else [Cz.plain 0x14 i.ex]
  fn := fun i _ a _ _ => .dword (i.s.perfCtr i.core a).cnt.toNat
def execPerfrd (f : LongF) (s : State) : Res := runAlu aluPerfrd rowPerfrd f.view s
def execPerfrdShort (f : ShortF) (s : State) : Res := runAlu aluPerfrd rowPerfrd f.view s

end Sys2Proof.Machine
end

