-- ==== Sys2Proof/Machine/Registers.lean ====
section
/-!
DEFINITION. BAR 0 (spec/04 R79): the capability list (R81, R82) and every register by its offset: how it reads, what a write of 64
bits does (REGISTER_WRITE, R5, R6), and what a read clears (COUNTER_READ_CLEAR).
-/
namespace Sys2Proof.Machine

/-! ### Field helpers -/

/-- Fields put together: each a value, the low bit of its place and its width. -/
def fields (l : List (Nat × Nat × Nat)) : Nat := (l.map fun (v, lo, n) => v % 2 ^ n * 2 ^ lo).foldl (· + ·) 0
/-- A value of one bit at a place. -/
def flag (b : Bool) (lo : Nat) : Nat × Nat × Nat := (b2n b, lo, 1)

/-- A counter of a list, read. -/
def ctr (m : Sparse W64) (i : Nat) : Nat := (Sparse.get 0 m i).toNat
/-- A counter of a list, cleared by a read (R5). -/
def clr (m : Sparse W64) (i : Nat) : Sparse W64 := Sparse.set 0 m i 0

/-- Offset and number of the element of an array of registers that an offset names: base, stride and count. -/
def inArray (off base stride count : Nat) : Option (Nat × Nat) :=
  if base ≤ off ∧ off < base + stride * count then some ((off - base) / stride, (off - base) % stride) else none

/-! ### Capabilities (R81, R82) -/

/-- The bodies of the capabilities, in the order of their numbers (log 42). -/
def State.caps (s : State) : List (Nat × List Nat) :=
  let up := fields ((List.range 12).map fun l => flag (s.link l).up l)
  [(1, [fields [(64, 48, 8), (192, 32, 16), (4, 24, 8), (0xA1, 16, 8), (0x0960, 0, 16)], fields [(4096, 32, 32), (1700, 0, 32)]]),
   (2, [128]), (3, [1]), (4, [1]), (5, [fields [(0xA1, 8, 8), (0x1F, 0, 8)]]), (6, [fields [(12, 12, 4), (up, 0, 12)]]),
   (7, [fields [(16, 16, 16), (2048, 0, 16)]]), (8, [128]), (9, [s.obsis.svn % 256]), (10, [0x0C00000]), (11, [8])]

/-- Headers and bodies laid out one after another from an offset (R81). -/
def capWords : Nat → List (Nat × List Nat) → List Nat
  | _, [] => []
  | off, (id, body) :: rest =>
    let next := off + 8 + 8 * body.length
    fields [(body.length, 48, 16), (if rest.isEmpty then 0 else next, 32, 16), (1, 16, 8), (id, 0, 16)] :: body
      ++ capWords next rest

/-! ### Reads -/

/-- R83: a register of a context's descriptor. -/
def Ctx.read (c : Ctx) (reg : Nat) : Nat :=
  match reg with
  | 0 => (match c.state with | .off => 0 | .run => 1 | .stopping => 2 | .stopped => 3 | .killing => 4)
  | 1 => c.root
  | 2 => c.vec.toNat
  | 3 => c.save
  | 4 => c.engblk
  | 5 => c.fqBase + c.fqLog2
  | 6 => c.codeBase
  | 7 => c.codePages
  | 8 => b2n c.futW
  | 9 => c.trapEn.toNat
  | 10 => c.quant
  | 11 => c.ceil
  | _ => 0

/-- R90: a word of an arming entry. DESIGN CHOICE (log 77): OUTST is counted without bound, and its 16 bits read as 0 where all the slots
of a ring of 65,536 are in use. -/
def Arm.read (a : Arm) (word : Nat) : Nat :=
  match word with
  | 0 => fields [flag a.v 63, flag a.one 62, (a.src, 53, 3), (a.ctx, 42, 6), (a.prio, 32, 3)]
  | 1 => a.tag
  | 2 => a.mask
  | 3 => a.desc.toNat
  | 4 => a.ring.toNat + a.log2
  | 5 => fields [(a.widx, 32, 32), (a.outst, 16, 16)]
  | 6 => a.fires
  | _ => 0

/-- R94: the host block, by the offset within it. -/
def State.hostRead (s : State) (o : Nat) : Nat :=
  let h := s.host
  if o = 0x00 then fields [(h.boot, 4, 4), flag h.cfgErr 0]
  else if o = 0x08 then h.irqPend.toNat
  else if o = 0x10 then h.irqEn.toNat
  else if o = 0x18 then msgBuffers - h.bufs.length
  else if o = 0x20 then h.umqBase + h.umqLog2
  else if o = 0x28 then h.umqPidx
  else if o = 0x30 then h.umqCidx
  else if o = 0x38 then s.apBaseReg
  else match inArray o 0x100 8 4 with | some (i, _) => ctr h.stats i | none => 0

/-- R32: the metadata of a block, as MEM_META_DATA gives it. -/
def BlockMeta.word (m : BlockMeta) : Nat := fields [(m.size, 60, 4), (m.codec, 56, 4), flag m.cmp 55, flag m.acc 54, (m.base, 0, 33)]

/-- R56 to R61: the memory and ballooning block. -/
def State.memRead (s : State) (o : Nat) : Nat :=
  let m := s.mem
  let b := s.bln
  if o = 0x00 then s.memCfg
  else if o = 0x08 then m.wcbWait
  else if o = 0x10 then m.sectTotal
  else if o = 0x18 then m.sectFree
  else if o = 0x20 then m.wmLow
  else if o = 0x28 then m.wmCrit
  else if o = 0x30 then m.wmHyst
  else if o = 0x38 then m.wmExh
  else if o = 0x40 then guardMin
  else if o = 0x48 then m.metaSel.toNat
  else if o = 0x50 then (if m.nominal ≤ m.metaSel.toNat then 0 else (m.block (m.metaSel.toNat / 256)).word)
  else if o = 0x1000 then fields [(b.csweep, 8, 8), flag b.eager 1, flag b.en 0]
  else if o = 0x1008 then
    fields [(b.held.length, 32, 32), flag (decide (m.sectFree < guardMin)) 7, flag b.cfgErr 6, flag (b.donorHead = b.donorLimit) 5,
      (b.state.code, 0, 3)]
  else if o = 0x1010 then b.donorBase + b.donorLog2
  else if o = 0x1018 then b.donorLimit
  else if o = 0x1020 then b.donorHead
  else if o = 0x1028 then b.cursor * 256
  else match inArray o 0x100 8 8 with | some (i, _) => ctr m.stats i | none => 0

/-- R76 to R78: the fabric block. -/
def State.fabRead (s : State) (o : Nat) : Nat :=
  let f := s.fab
  let route (n : Nat) : Route := Sparse.get { v := false, link := 0 } f.routes n
  if o = 0x00 then s.fabNode
  else if o = 0x08 then fields [(f.msgLo, 20, 12), (f.msgHi, 8, 12), flag f.msgEn 1, flag f.en 0]
  else if o = 0x10 then fields (((List.range 12).map fun l => flag (s.link l).up (16 + l)) ++ [flag f.cfgErr 0])
  else if o = 0x18 then
    fields [(f.errSrc, 48, 16), (f.errNode, 36, 12), (f.errWin, 28, 8), (f.errReason, 4, 4), flag f.errVld 0]
  else if o = 0x20 then f.errTime.toNat
  else match inArray o 0x100 8 12 with
    | some (l, _) => let x := s.link l; fields [(x.replay, 32, 32), (x.peer, 20, 12), flag x.dis 3, (x.state, 0, 3)]
    | none => match inArray o 0x200 8 7 with
      | some (i, _) => ctr f.stats i
      | none => match inArray o 0x4000 64 256 with
        | some (w, b) => s.winWord w (b / 8)
        | none => match inArray o 0x8000 8 512 with
          | some (i, _) => fields ((List.range 8).flatMap fun j => [flag (route (8 * i + j)).v (8 * j + 7), ((route (8 * i + j)).link, 8 * j, 4)])
          | none => 0

/-- Whether a launch has gangs that are not placed (R130). -/
def Launch.unplaced (l : Launch) : Bool := decide (l.nextIdx < l.desc.total) || !l.saved.isEmpty

/-- R129, R130: the scheduler block. -/
def State.schRead (s : State) (o : Nat) : Nat :=
  let c := s.sched
  let q := c.launches.filter Launch.unplaced
  if o = 0x00 then c.gsubAddr.toNat
  else if o = 0x08 then fields [(c.gsubRes, 14, 2), (c.gsubCtx, 8, 6), flag c.gsubGo 0]
  else if o = 0x10 then
    fields ([(c.graphs.length, 32, 32), (q.length, 8, 24)] ++ (List.range 8).map fun p => flag (q.any fun l => s.effPrio l.ctx l.prio = p) p)
  else match inArray o 0x100 8 6 with | some (i, _) => ctr c.stats i | none => 0

/-- R149, R150: the task block. -/
def State.ctqRead (s : State) (o : Nat) : Nat :=
  if o = 0x00 then s.ctq.qmax
  else if o = 0x08 then s.ctq.wait
  else match inArray o 0x100 8 16 with
    | some (h, _) =>
      let rs := (s.home h).recs
      let formed := s.sched.launches.filter fun l => l.nextIdx = 0 && (match l.tasks with | some t => t.home = h | none => false)
      fields [(formed.length, 32, 12), ((rs.filter (·.sealed_)).length, 16, 12), ((rs.filter fun r => !r.sealed_).length, 0, 12)]
    | none => match inArray o 0x200 8 7 with
      | some (i, _) => ctr s.ctq.stats i
      | none => match inArray o 0x1000 32 64 with
        | some (c, b) =>
          let x := s.ctx c
          if b = 0 then x.ctqBase + x.ctqLog2 else if b = 8 then x.ctqPidx % 2 ^ 32 else if b = 16 then x.ctqCidx % 2 ^ 32 else 0
        | none => 0

/-- R257: the translation block. -/
def State.xltRead (s : State) (o : Nat) : Nat :=
  let x := s.xlt
  if o = 0x00 then fields [(32, 40, 8), (16, 32, 8), (64, 24, 8), (256, 12, 12), (512, 0, 12)]
  else if o = 0x08 then x.invVa.toNat
  else if o = 0x10 then fields [(x.invPages, 32, 32), (x.invKind, 14, 2), (x.invCtx, 8, 6), flag x.invGo 0]
  else match inArray o 0x18 8 3 with | some (i, _) => ctr x.stats i | none => 0

/-- R176, R204, R288, R438: the window of a core. -/
def State.coreRead (s : State) (k o : Nat) : Nat :=
  let c := s.core k
  if o = 0x100 then b2n c.checkEn
  else if o = 0x108 then fields [((c.allocs.map (·.bytes)).foldl (· + ·) 0, 24, 21), (24 - c.ways, 8, 5), (c.ways, 0, 5)]
  else if o = 0x110 then
    fields [flag c.breg.holder.isSome 63, flag c.breg.zeroing 62, (if c.breg.holder.isSome then c.breg.ctx else 0, 32, 6),
      (if c.breg.holder.isSome then c.breg.gangIdx else 0, 0, 32)]
  else if o = 0x118 then s.now + toWindow s.now
  else if o = 0x120 then fields [(c.polls.toNat, 32, 32), (s.waitUsed k, 0, 7)]
  else if o = 0x200 then fields [(c.maxStep, 8, 16), (c.cell, 0, 5)]
  else if o = 0x208 then min 256 (c.rays.filter fun r => r.stat != .done).length
  else match inArray o 0x300 8 8 with
    | some (i, _) => (s.perfCtr k i).cfg.toNat
    | none => match inArray o 0x340 8 8 with
      | some (i, _) => (s.perfCtr k i).cnt.toNat
      | none => 0

/-- R258: the debug registers of a context. -/
def State.dbgRead (s : State) (ctx o : Nat) : Nat :=
  let c := s.ctx ctx
  let wp (w : Watch) : Nat := fields [(w.log2, 8, 4), flag w.w 2, flag w.r 1, flag w.en 0]
  if o = 0x00 then
    fields [((s.waves.filter fun x => x.2.ctx = ctx && x.2.dbgHalt).length, 32, 16), flag c.step 4, flag c.halt 2, flag c.attn 1,
      flag c.attach 0]
  else if o = 0x08 then c.bp0.addr + b2n c.bp0.en
  else if o = 0x10 then c.bp1.addr + b2n c.bp1.en
  else if o = 0x18 then c.wp0.addr
  else if o = 0x20 then wp c.wp0
  else if o = 0x28 then c.wp1.addr
  else if o = 0x30 then wp c.wp1
  else fields [flag c.lastVld 63, (c.lastCause, 40, 8), (c.lastSrc, 24, 16), (c.lastSlot, 8, 5), (c.lastPart, 0, 2)]

/-- The debug block: contexts, errors (R25), timestamp (R27), power (R15). -/
def State.debugRead (s : State) (o : Nat) : Nat :=
  let d := s.dev
  match inArray o 0 64 64 with
  | some (c, b) => s.dbgRead c b
  | none => match inArray o 0x1000 8 16 with
    | some (i, _) => ctr d.errCe i
    | none => match inArray o 0x1080 8 16 with
      | some (i, _) => ctr d.errUe i
      | none =>
        if o = 0x1100 then fields [(d.errSrc.toNat, 48, 16), (d.errIdx, 32, 8), flag d.errVld 0]
        else if o = 0x1108 then d.errTime.toNat
        else if o = 0x2000 then d.tsNow.toNat
        else if o = 0x2008 then b2n d.tsRun
        else if o = 0x3000 then fields [(d.pwrWatts.toNat, 32, 16), (d.pwrLim.toNat, 16, 16), (d.cclk, 0, 12)]
        else 0

/-- R102: the mailbox. -/
def State.obsRead (s : State) (o : Nat) : Nat :=
  let x := s.obsis
  if o < 0x1000 then ofBytes (readBytes x.cmd o 8)
  else if o < 0x2000 then ofBytes (readBytes x.resp (o - 0x1000) 8)
  else if o = 0x2008 then fields [(x.result, 8, 8), flag x.busy 0]
  else 0

/-- R79: the MSI-X table, by 8 bytes: the address of an entry, then its data and its mask bit; and the pending-bit array. -/
def State.msixRead (s : State) (o : Nat) : Nat :=
  if o < 0x80 then
    ofBytes (readBytes s.host.msix o 8) + (if o % 16 = 8 then 2 ^ 32 * b2n (bit s.host.msixMask.toNat (o / 16)) else 0)
  else if o = 0x8000 then s.host.msixPend.toNat
  else 0

/-- The blocks of BAR 0: an 8-byte read. -/
def State.bar0Read (s : State) (off : Nat) : Nat :=
  if off % 8 != 0 then 0
  else if off < 0x10000 then at? 0 (capWords 0 s.caps) (off / 8)
  else if 0x01F0000 ≤ off ∧ off < 0x0200000 then s.msixRead (off - 0x01F0000)
  else if 0x0100000 ≤ off ∧ off < 0x0104000 then s.hostRead (off - 0x0100000)
  else match inArray off 0x0104000 128 64 with
    | some (c, b) => (s.ctx c).read (b / 8)
    | none => match inArray off 0x0108000 64 4096 with
      | some (i, b) => (s.arm i).read (b / 8)
      | none => match inArray off 0x0700000 256 16 with
        | some (f, b) => if b < 64 then ctr (s.fe f).stats (b / 8) else 0
        | none => match inArray off 0x0800000 0x4000 192 with
          | some (k, b) => s.coreRead k b
          | none =>
            let o := off % 0x100000
            match off / 0x100000 with
            | 2 => s.memRead o
            | 3 => s.fabRead o
            | 4 => s.schRead o
            | 5 => s.ctqRead o
            | 6 => s.xltRead o
            | 12 => s.debugRead o
            | 15 => s.obsRead o
            | _ => 0

/-- R18, R99, R101: what is served: nothing over a link that is down or while BOOT is 0; while BOOT is 15 the identity capability and the
status of the mailbox. -/
def State.readServed (s : State) (off : Nat) : Bool :=
  s.dev.pcieUp && s.host.boot != 0 && (s.host.boot != 15 || decide (off < 24) || off = 0x0F02008)

/-! ### What a read clears (R5) -/

/-- The counters of a core's window and of the front-ends. -/
def State.clearCore (s : State) (k o : Nat) : State := if o = 0x120 then s.onCore k fun c => { c with polls := 0 } else s
def State.clearFe (s : State) (f o : Nat) : State :=
  let x := s.fe f
  if o < 64 then { s with fes := Sparse.set FrontEnd.reset s.fes f { x with stats := clr x.stats (o / 8), saved := clr x.saved (o / 8) } } else s

/-- A read of an RC field clears it. -/
def State.bar0Clear (s : State) (off : Nat) : State :=
  match inArray off 0x0100100 8 4 with
  | some (i, _) => { s with host := { s.host with stats := clr s.host.stats i } }
  | none => match inArray off 0x0108000 64 4096 with
    | some (i, b) => if b = 48 then s.setArm i { s.arm i with fires := 0 } else s
    | none => match inArray off 0x0200100 8 8 with
      | some (i, _) => { s with mem := { s.mem with stats := clr s.mem.stats i } }
      | none => match inArray off 0x0300100 8 12 with
        | some (l, _) => s.setLink l { s.link l with replay := 0 }
        | none => match inArray off 0x0300200 8 7 with
          | some (i, _) => { s with fab := { s.fab with stats := clr s.fab.stats i } }
          | none => match inArray off 0x0400100 8 6 with
            | some (i, _) => { s with sched := { s.sched with stats := clr s.sched.stats i } }
            | none => match inArray off 0x0500200 8 7 with
              | some (i, _) => { s with ctq := { s.ctq with stats := clr s.ctq.stats i } }
              | none => match inArray off 0x0600018 8 3 with
                | some (i, _) => { s with xlt := { s.xlt with stats := clr s.xlt.stats i } }
                | none => match inArray off 0x0700000 256 16 with
                  | some (f, b) => s.clearFe f b
                  | none => match inArray off 0x0800000 0x4000 192 with
                    | some (k, b) => s.clearCore k b
                    | none => match inArray off 0x0C01000 8 16 with
                      | some (i, _) => { s with dev := { s.dev with errCe := clr s.dev.errCe i } }
                      | none => match inArray off 0x0C01080 8 16 with
                        | some (i, _) => { s with dev := { s.dev with errUe := clr s.dev.errUe i } }
                        | none => s

/-- COUNTER_READ_CLEAR: an 8-byte read of BAR 0: its data leave the device, and a counter that a read clears is cleared. -/
def State.readClear (s : State) (off : Nat) : State :=
  let v := if s.readServed off then s.bar0Read off else 0
  let t := if s.readServed off && off % 8 = 0 then s.bar0Clear off else s
  { t with host := { t.host with readData := toBytes 8 v } }
def execCounterReadClear (off : Nat) (s : State) : Res := .next (s.readClear off)

/-! ### Writes (R5, R6) -/

/-- R94: the host block. DESIGN CHOICE (log 77): the write of a register that is read only sets no CFGERR. -/
def State.hostWrite (s : State) (o v : Nat) : State :=
  let h := s.host
  if o = 0x00 then { s with host := { h with cfgErr := h.cfgErr && !bit v 0 } }
  else if o = 0x08 then { s with host := { h with irqPend := h.irqPend &&& ~~~(BitVec.ofNat 8 v) } }
  else if o = 0x10 then { s with host := { h with irqEn := BitVec.ofNat 8 v } }
  else if o = 0x20 then
    let g := bits v 0 5
    let s : State := { s with host := { h with umqBase := bits v 12 52 * 4096, umqLog2 := if 4 ≤ g ∧ g ≤ 16 then g else h.umqLog2 } }
    if 4 ≤ g ∧ g ≤ 16 then s else s.hostErr
  else if o = 0x30 then { s with host := { h with umqCidx := bits v 0 32 } }
  else if o = 0x38 then { s with host := { h with apBase := apAlign h.bar4 (bits v 28 29) } }
  else s

/-- R56 to R61: the memory and ballooning block. -/
def State.memWrite (s : State) (o : Nat) (v : W64) : State :=
  let n := v.toNat
  if o = 0x00 then s.memCfg_ v
  else if o = 0x08 then { s with mem := { s.mem with wcbWait := bits n 0 12 } }
  else if o = 0x20 then s.thresholdWrite .low v
  else if o = 0x28 then s.thresholdWrite .crit v
  else if o = 0x30 then s.thresholdWrite .hyst v
  else if o = 0x38 then s.thresholdWrite .exh v
  else if o = 0x48 then { s with mem := { s.mem with metaSel := BitVec.ofNat 64 (bits n 8 49 * 256) } }
  else if o = 0x1000 then
    let s : State := { s with bln := { s.bln with csweep := bits n 8 8, eager := bit n 1, en := bit n 0 } }
    -- R49: the blocks of SWEEP are counted from where EAGER is set
    let s : State := if bit n 1 then s else { s with bln := { s.bln with swept := 0 } }
    if bit n 2 then s.kick else s
  else if o = 0x1008 then { s with bln := { s.bln with cfgErr := s.bln.cfgErr && !bit n 6 } }
  else if o = 0x1010 then s.donorWrite v
  else if o = 0x1018 then s.limitWrite v
  else s

/-- R78: eight routes. -/
def State.routeWrite (s : State) (i v : Nat) : State :=
  { s with fab := { s.fab with routes := (List.range 8).foldl (fun m j =>
      Sparse.set { v := false, link := 0 : Route } m (8 * i + j) { v := bit v (8 * j + 7), link := bits v (8 * j) 4 }) s.fab.routes } }

/-- R76 to R78: the fabric block. -/
def State.fabWrite (s : State) (o : Nat) (v : W64) : State :=
  let n := v.toNat
  let f := s.fab
  if o = 0x00 then
    { s with fab := { f with node := if f.nodeLock then f.node else bits n 0 12, nodeLock := f.nodeLock || bit n 12 } }
  else if o = 0x08 then
    { s with fab := { f with msgLo := bits n 20 12, msgHi := bits n 8 12, msgEn := bit n 1, en := bit n 0 } }
  else if o = 0x10 then { s with fab := { f with cfgErr := f.cfgErr && !bit n 0 } }
  else if o = 0x18 then { s with fab := { f with errVld := f.errVld && !bit n 0 } }
  else match inArray o 0x100 8 12 with
    | some (l, _) => s.linkDis l v
    | none => match inArray o 0x4000 64 256 with
      | some (w, b) => s.windowWrite w (b / 8) v
      | none => match inArray o 0x8000 8 512 with
        | some (i, _) => s.routeWrite i n
        | none => s

/-- R130: the scheduler block. -/
def State.schWrite (s : State) (o : Nat) (v : W64) : State :=
  let n := v.toNat
  if o = 0x00 then { s with sched := { s.sched with gsubAddr := BitVec.ofNat 64 (alignDown n 64) } }
  else if o = 0x08 then
    if s.sched.gsubGo then s.hostErr
    else
      let s : State := { s with sched := { s.sched with gsubCtx := bits n 8 6 } }
      if bit n 0 then s.graphSubmit else s
  else s

/-- R150: the task block. -/
def State.ctqWrite (s : State) (o : Nat) (v : W64) : State :=
  let n := v.toNat
  if o = 0x00 then (if bits n 0 4 = 0 then s.hostErr else { s with ctq := { s.ctq with qmax := bits n 0 4 } })
  else if o = 0x08 then { s with ctq := { s.ctq with wait := bits n 0 16 } }
  else match inArray o 0x1000 32 64 with
    | some (c, b) => if b = 0 then s.spillBase c v else s
    | none => s

/-- R257: the translation block. -/
def State.xltWrite (s : State) (o : Nat) (v : W64) : State :=
  let n := v.toNat
  if o = 0x08 then { s with xlt := { s.xlt with invVa := BitVec.ofNat 64 (alignDown n 4096) } }
  else if o = 0x10 then
    if s.xlt.invGo || bits n 14 2 = 3 then s.hostErr
    else
      let s : State := { s with xlt := { s.xlt with invPages := bits n 32 32, invKind := bits n 14 2, invCtx := bits n 8 6 } }
      if bit n 0 then s.invGo (bits n 14 2) else s
  else s

/-- R438: PERF_CFG keeps the bits that it has. -/
def perfCfg (v : Nat) : W64 :=
  BitVec.ofNat 64 (fields [flag (bit v 63) 63, (bits v 32 6, 32, 6), flag (bit v 31) 31, (bits v 0 8, 0, 8)])

/-- R176, R288, R438: the window of a core. -/
def State.coreWrite (s : State) (k o : Nat) (v : W64) : State :=
  let n := v.toNat
  if o = 0x100 then s.onCore k fun c => { c with checkEn := bit n 0 }
  else if o = 0x200 then s.onCore k fun c => { c with maxStep := max 1 (bits n 8 16), cell := bits n 0 5 }
  else match inArray o 0x300 8 8 with
    | some (i, _) => s.onCore k fun c =>
      { c with perf := Sparse.set { cfg := 0, cnt := 0 : PerfCtr } c.perf i { s.perfCtr k i with cfg := perfCfg n } }
    | none => match inArray o 0x340 8 8 with
      | some (i, _) => s.perfCntWrite k i v
      | none => s

/-- R258: a watchpoint configuration; LOG2 out of range leaves that field. -/
def Watch.cfg (w : Watch) (v : Nat) : Watch :=
  let g := bits v 8 4
  { w with log2 := if 3 ≤ g ∧ g ≤ 12 then g else w.log2, w := bit v 2, r := bit v 1, en := bit v 0 }
def wpBad (v : Nat) : Bool := decide (bits v 8 4 < 3) || decide (12 < bits v 8 4)

/-- R258: the debug registers of a context. -/
def State.dbgWrite (s : State) (ctx o : Nat) (v : W64) : State :=
  let n := v.toNat
  let bp : Break := { addr := alignDown n 4, en := bit n 0 }
  let err (s : State) : State := if wpBad n then s.hostErr else s
  if o = 0x00 then s.dbgCtlWrite ctx v
  else if o = 0x08 then s.onCtx ctx fun c => { c with bp0 := bp }
  else if o = 0x10 then s.onCtx ctx fun c => { c with bp1 := bp }
  else if o = 0x18 then s.onCtx ctx fun c => { c with wp0 := { c.wp0 with addr := alignDown n 8 } }
  else if o = 0x20 then err (s.onCtx ctx fun c => { c with wp0 := c.wp0.cfg n })
  else if o = 0x28 then s.onCtx ctx fun c => { c with wp1 := { c.wp1 with addr := alignDown n 8 } }
  else if o = 0x30 then err (s.onCtx ctx fun c => { c with wp1 := c.wp1.cfg n })
  else s.onCtx ctx fun c => { c with lastVld := c.lastVld && !bit n 63 }

/-- The debug block: contexts, ERR_LAST (R25), timestamp (R27), power (R15). -/
def State.debugWrite (s : State) (o : Nat) (v : W64) : State :=
  let n := v.toNat
  match inArray o 0 64 64 with
  | some (c, b) => s.dbgWrite c b v
  | none =>
    if o = 0x1100 then { s with dev := { s.dev with errVld := s.dev.errVld && !bit n 0 } }
    else if o = 0x2000 then s.tsWrite v
    else if o = 0x2008 then { s with dev := { s.dev with tsRun := bit n 0 } }
    else if o = 0x3000 then { s with dev := { s.dev with pwrLim := BitVec.ofNat 16 (clampLim (bits n 16 16)) } }
    else s

/-- R102: the mailbox: the command buffer and the doorbell. -/
def State.obsWrite (s : State) (o : Nat) (v : W64) : State :=
  if o < 0x1000 then { s with obsis := { s.obsis with cmd := writeBytes s.obsis.cmd o (toBytes 8 v.toNat) } }
  else if o = 0x2000 && bit v.toNat 0 then s.doorbell
  else s

/-- R79: a write into the MSI-X table. An entry whose mask bit clears sends the vector that has waited (log 66). -/
def State.msixWrite (s : State) (o : Nat) (v : W64) : State :=
  let n := v.toNat
  if o % 16 = 8 then
    let e := o / 16
    let b := BitVec.ofNat 8 (2 ^ e)
    let h := { s.host with
      msix := writeBytes s.host.msix o (toBytes 4 n)
      msixMask := if bit n 32 then s.host.msixMask ||| b else s.host.msixMask &&& ~~~b }
    { s with host := if !bit n 32 && bit h.msixPend.toNat e then { h with msixPend := h.msixPend &&& ~~~b, sent := h.sent ++ [e] } else h }
  else { s with host := { s.host with msix := writeBytes s.host.msix o (toBytes 8 n) } }

/-- REGISTER_WRITE: a write of 64 bits to BAR 0; a register that has a step of its own does what that step does. -/
def State.bar0Write (s : State) (off : Nat) (v : W64) : State :=
  if off % 8 != 0 then s
  else if 0x01F0000 ≤ off ∧ off < 0x01F0080 then
    s.msixWrite (off - 0x01F0000) v
  else if 0x0100000 ≤ off ∧ off < 0x0104000 then s.hostWrite (off - 0x0100000) v.toNat
  else match inArray off 0x0104000 128 64 with
    | some (c, b) => s.ctxWrite c (b / 8) v
    | none => match inArray off 0x0108000 64 4096 with
      | some (i, b) => if b = 0 then s.armWord0 i v else s.armWord i (b / 8) v
      | none => match inArray off 0x0800000 0x4000 192 with
        | some (k, b) => s.coreWrite k b v
        | none =>
          let o := off % 0x100000
          match off / 0x100000 with
          | 2 => s.memWrite o v
          | 3 => s.fabWrite o v
          | 4 => s.schWrite o v
          | 5 => s.ctqWrite o v
          | 6 => s.xltWrite o v
          | 12 => s.debugWrite o v
          | 15 => s.obsWrite o v
          | _ => s
def execRegisterWrite (off : Nat) (v : W64) (s : State) : Res := hosted s fun s => s.bar0Write off v

end Sys2Proof.Machine
end

