-- ==== Sys2Proof/Machine/Dispatch.lean ====
section
/-! DEFINITION. One arm per constructor of Instr. -/
namespace Sys2Proof.Machine

def exec (i : Instr) (s : State) : Host.Outcome State Fault Refusal :=
  match i with
  | .nop f => Sys2Proof.Machine.execNop f s
  | .nopShort f => Sys2Proof.Machine.execNopShort f s
  | .br f => Sys2Proof.Machine.execBr f s
  | .brShort f => Sys2Proof.Machine.execBrShort f s
  | .bri f => Sys2Proof.Machine.execBri f s
  | .briShort f => Sys2Proof.Machine.execBriShort f s
  | .call f => Sys2Proof.Machine.execCall f s
  | .callShort f => Sys2Proof.Machine.execCallShort f s
  | .calli f => Sys2Proof.Machine.execCalli f s
  | .calliShort f => Sys2Proof.Machine.execCalliShort f s
  | .ret f => Sys2Proof.Machine.execRet f s
  | .retShort f => Sys2Proof.Machine.execRetShort f s
  | .exit f => Sys2Proof.Machine.execExit f s
  | .exitShort f => Sys2Proof.Machine.execExitShort f s
  | .yieldl f => Sys2Proof.Machine.execYieldl f s
  | .yieldlShort f => Sys2Proof.Machine.execYieldlShort f s
  | .tfence f => Sys2Proof.Machine.execTfence f s
  | .tfenceShort f => Sys2Proof.Machine.execTfenceShort f s
  | .trap f => Sys2Proof.Machine.execTrap f s
  | .trapShort f => Sys2Proof.Machine.execTrapShort f s
  | .brk f => Sys2Proof.Machine.execBrk f s
  | .brkShort f => Sys2Proof.Machine.execBrkShort f s
  | .iadd f => Sys2Proof.Machine.execIadd f s
  | .iaddShort f => Sys2Proof.Machine.execIaddShort f s
  | .isub f => Sys2Proof.Machine.execIsub f s
  | .isubShort f => Sys2Proof.Machine.execIsubShort f s
  | .imul f => Sys2Proof.Machine.execImul f s
  | .imulShort f => Sys2Proof.Machine.execImulShort f s
  | .imad f => Sys2Proof.Machine.execImad f s
  | .idiv f => Sys2Proof.Machine.execIdiv f s
  | .imin f => Sys2Proof.Machine.execImin f s
  | .iminShort f => Sys2Proof.Machine.execIminShort f s
  | .imax f => Sys2Proof.Machine.execImax f s
  | .imaxShort f => Sys2Proof.Machine.execImaxShort f s
  | .iabs f => Sys2Proof.Machine.execIabs f s
  | .iabsShort f => Sys2Proof.Machine.execIabsShort f s
  | .icmp f => Sys2Proof.Machine.execIcmp f s
  | .icmpShort f => Sys2Proof.Machine.execIcmpShort f s
  | .iaddsat f => Sys2Proof.Machine.execIaddsat f s
  | .iaddsatShort f => Sys2Proof.Machine.execIaddsatShort f s
  | .lea f => Sys2Proof.Machine.execLea f s
  | .leaShort f => Sys2Proof.Machine.execLeaShort f s
  | .sel f => Sys2Proof.Machine.execSel f s
  | .selShort f => Sys2Proof.Machine.execSelShort f s
  | .mov f => Sys2Proof.Machine.execMov f s
  | .movShort f => Sys2Proof.Machine.execMovShort f s
  | .iadd64 f => Sys2Proof.Machine.execIadd64 f s
  | .iadd64Short f => Sys2Proof.Machine.execIadd64Short f s
  | .imad64 f => Sys2Proof.Machine.execImad64 f s
  | .isub64 f => Sys2Proof.Machine.execIsub64 f s
  | .isub64Short f => Sys2Proof.Machine.execIsub64Short f s
  | .and f => Sys2Proof.Machine.execAnd f s
  | .andShort f => Sys2Proof.Machine.execAndShort f s
  | .or f => Sys2Proof.Machine.execOr f s
  | .orShort f => Sys2Proof.Machine.execOrShort f s
  | .xor f => Sys2Proof.Machine.execXor f s
  | .xorShort f => Sys2Proof.Machine.execXorShort f s
  | .not f => Sys2Proof.Machine.execNot f s
  | .notShort f => Sys2Proof.Machine.execNotShort f s
  | .shl f => Sys2Proof.Machine.execShl f s
  | .shlShort f => Sys2Proof.Machine.execShlShort f s
  | .shr f => Sys2Proof.Machine.execShr f s
  | .shrShort f => Sys2Proof.Machine.execShrShort f s
  | .sar f => Sys2Proof.Machine.execSar f s
  | .sarShort f => Sys2Proof.Machine.execSarShort f s
  | .rot f => Sys2Proof.Machine.execRot f s
  | .rotShort f => Sys2Proof.Machine.execRotShort f s
  | .popc f => Sys2Proof.Machine.execPopc f s
  | .popcShort f => Sys2Proof.Machine.execPopcShort f s
  | .clz f => Sys2Proof.Machine.execClz f s
  | .clzShort f => Sys2Proof.Machine.execClzShort f s
  | .ctz f => Sys2Proof.Machine.execCtz f s
  | .ctzShort f => Sys2Proof.Machine.execCtzShort f s
  | .brev f => Sys2Proof.Machine.execBrev f s
  | .brevShort f => Sys2Proof.Machine.execBrevShort f s
  | .bfx f => Sys2Proof.Machine.execBfx f s
  | .bfi f => Sys2Proof.Machine.execBfi f s
  | .shf64 f => Sys2Proof.Machine.execShf64 f s
  | .bsel f => Sys2Proof.Machine.execBsel f s
  | .pand f => Sys2Proof.Machine.execPand f s
  | .pandShort f => Sys2Proof.Machine.execPandShort f s
  | .por f => Sys2Proof.Machine.execPor f s
  | .porShort f => Sys2Proof.Machine.execPorShort f s
  | .pxor f => Sys2Proof.Machine.execPxor f s
  | .pxorShort f => Sys2Proof.Machine.execPxorShort f s
  | .pnot f => Sys2Proof.Machine.execPnot f s
  | .pnotShort f => Sys2Proof.Machine.execPnotShort f s
  | .ppush f => Sys2Proof.Machine.execPpush f s
  | .ppushShort f => Sys2Proof.Machine.execPpushShort f s
  | .pdrop f => Sys2Proof.Machine.execPdrop f s
  | .pdropShort f => Sys2Proof.Machine.execPdropShort f s
  | .pget f => Sys2Proof.Machine.execPget f s
  | .pgetShort f => Sys2Proof.Machine.execPgetShort f s
  | .rdsp f => Sys2Proof.Machine.execRdsp f s
  | .rdspShort f => Sys2Proof.Machine.execRdspShort f s
  | .wrsp f => Sys2Proof.Machine.execWrsp f s
  | .wrspShort f => Sys2Proof.Machine.execWrspShort f s
  | .rdlane f => Sys2Proof.Machine.execRdlane f s
  | .rdlaneShort f => Sys2Proof.Machine.execRdlaneShort f s
  | .wrlane f => Sys2Proof.Machine.execWrlane f s
  | .wrlaneShort f => Sys2Proof.Machine.execWrlaneShort f s
  | .fadd f => Sys2Proof.Machine.execFadd f s
  | .faddShort f => Sys2Proof.Machine.execFaddShort f s
  | .fsub f => Sys2Proof.Machine.execFsub f s
  | .fsubShort f => Sys2Proof.Machine.execFsubShort f s
  | .fmul f => Sys2Proof.Machine.execFmul f s
  | .fmulShort f => Sys2Proof.Machine.execFmulShort f s
  | .fma f => Sys2Proof.Machine.execFma f s
  | .fmin f => Sys2Proof.Machine.execFmin f s
  | .fminShort f => Sys2Proof.Machine.execFminShort f s
  | .fmax f => Sys2Proof.Machine.execFmax f s
  | .fmaxShort f => Sys2Proof.Machine.execFmaxShort f s
  | .fcmp f => Sys2Proof.Machine.execFcmp f s
  | .fcmpShort f => Sys2Proof.Machine.execFcmpShort f s
  | .fdiv f => Sys2Proof.Machine.execFdiv f s
  | .fdivApx f => Sys2Proof.Machine.execFdivApx f s
  | .fsqrt f => Sys2Proof.Machine.execFsqrt f s
  | .frcp f => Sys2Proof.Machine.execFrcp f s
  | .frsq f => Sys2Proof.Machine.execFrsq f s
  | .ftrn f => Sys2Proof.Machine.execFtrn f s
  | .frnd f => Sys2Proof.Machine.execFrnd f s
  | .frndShort f => Sys2Proof.Machine.execFrndShort f s
  | .ffract f => Sys2Proof.Machine.execFfract f s
  | .ffractShort f => Sys2Proof.Machine.execFfractShort f s
  | .fclass f => Sys2Proof.Machine.execFclass f s
  | .fclassShort f => Sys2Proof.Machine.execFclassShort f s
  | .fscale f => Sys2Proof.Machine.execFscale f s
  | .fscaleShort f => Sys2Proof.Machine.execFscaleShort f s
  | .hadd2 f => Sys2Proof.Machine.execHadd2 f s
  | .hadd2Short f => Sys2Proof.Machine.execHadd2Short f s
  | .hmul2 f => Sys2Proof.Machine.execHmul2 f s
  | .hmul2Short f => Sys2Proof.Machine.execHmul2Short f s
  | .hfma2 f => Sys2Proof.Machine.execHfma2 f s
  | .hmin2 f => Sys2Proof.Machine.execHmin2 f s
  | .hmin2Short f => Sys2Proof.Machine.execHmin2Short f s
  | .hmax2 f => Sys2Proof.Machine.execHmax2 f s
  | .hmax2Short f => Sys2Proof.Machine.execHmax2Short f s
  | .hcmp2 f => Sys2Proof.Machine.execHcmp2 f s
  | .hcmp2Short f => Sys2Proof.Machine.execHcmp2Short f s
  | .hdot2 f => Sys2Proof.Machine.execHdot2 f s
  | .cvt f => Sys2Proof.Machine.execCvt f s
  | .cvtShort f => Sys2Proof.Machine.execCvtShort f s
  | .cvtn f => Sys2Proof.Machine.execCvtn f s
  | .cvtw f => Sys2Proof.Machine.execCvtw f s
  | .sgnpk f => Sys2Proof.Machine.execSgnpk f s
  | .sgnpkShort f => Sys2Proof.Machine.execSgnpkShort f s
  | .sgnex f => Sys2Proof.Machine.execSgnex f s
  | .sgnexShort f => Sys2Proof.Machine.execSgnexShort f s
  | .scl f => Sys2Proof.Machine.execScl f s
  | .scl32 f => Sys2Proof.Machine.execScl32 f s
  | .rngl f => Sys2Proof.Machine.execRngl f s
  | .rnglShort f => Sys2Proof.Machine.execRnglShort f s
  | .xadd f => Sys2Proof.Machine.execXadd f s
  | .xaddShort f => Sys2Proof.Machine.execXaddShort f s
  | .xsub f => Sys2Proof.Machine.execXsub f s
  | .xsubShort f => Sys2Proof.Machine.execXsubShort f s
  | .xmul f => Sys2Proof.Machine.execXmul f s
  | .xmulShort f => Sys2Proof.Machine.execXmulShort f s
  | .xdiv f => Sys2Proof.Machine.execXdiv f s
  | .xsqr f => Sys2Proof.Machine.execXsqr f s
  | .xsqrShort f => Sys2Proof.Machine.execXsqrShort f s
  | .xsqrt f => Sys2Proof.Machine.execXsqrt f s
  | .xmin f => Sys2Proof.Machine.execXmin f s
  | .xminShort f => Sys2Proof.Machine.execXminShort f s
  | .xmax f => Sys2Proof.Machine.execXmax f s
  | .xmaxShort f => Sys2Proof.Machine.execXmaxShort f s
  | .xabs f => Sys2Proof.Machine.execXabs f s
  | .xabsShort f => Sys2Proof.Machine.execXabsShort f s
  | .xhull f => Sys2Proof.Machine.execXhull f s
  | .xhullShort f => Sys2Proof.Machine.execXhullShort f s
  | .xmeet f => Sys2Proof.Machine.execXmeet f s
  | .xmeetShort f => Sys2Proof.Machine.execXmeetShort f s
  | .xtest f => Sys2Proof.Machine.execXtest f s
  | .xtestShort f => Sys2Proof.Machine.execXtestShort f s
  | .xmk f => Sys2Proof.Machine.execXmk f s
  | .xmkShort f => Sys2Proof.Machine.execXmkShort f s
  | .xmid f => Sys2Proof.Machine.execXmid f s
  | .xmidShort f => Sys2Proof.Machine.execXmidShort f s
  | .shfl f => Sys2Proof.Machine.execShfl f s
  | .shflShort f => Sys2Proof.Machine.execShflShort f s
  | .bcast f => Sys2Proof.Machine.execBcast f s
  | .bcastShort f => Sys2Proof.Machine.execBcastShort f s
  | .vote f => Sys2Proof.Machine.execVote f s
  | .voteShort f => Sys2Proof.Machine.execVoteShort f s
  | .redux f => Sys2Proof.Machine.execRedux f s
  | .reduxShort f => Sys2Proof.Machine.execReduxShort f s
  | .scan f => Sys2Proof.Machine.execScan f s
  | .scanShort f => Sys2Proof.Machine.execScanShort f s
  | .ddx f => Sys2Proof.Machine.execDdx f s
  | .ddxShort f => Sys2Proof.Machine.execDdxShort f s
  | .ddy f => Sys2Proof.Machine.execDdy f s
  | .ddyShort f => Sys2Proof.Machine.execDdyShort f s
  | .regroup f => Sys2Proof.Machine.execRegroup f s
  | .mcount f => Sys2Proof.Machine.execMcount f s
  | .mcountShort f => Sys2Proof.Machine.execMcountShort f s
  | .lanes f => Sys2Proof.Machine.execLanes f s
  | .lanesShort f => Sys2Proof.Machine.execLanesShort f s
  | .ld f => Sys2Proof.Machine.execLd f s
  | .st f => Sys2Proof.Machine.execSt f s
  | .lds f => Sys2Proof.Machine.execLds f s
  | .sts f => Sys2Proof.Machine.execSts f s
  | .ldw f => Sys2Proof.Machine.execLdw f s
  | .ldk f => Sys2Proof.Machine.execLdk f s
  | .stk f => Sys2Proof.Machine.execStk f s
  | .ldfut f => Sys2Proof.Machine.execLdfut f s
  | .stfill f => Sys2Proof.Machine.execStfill f s
  | .streset f => Sys2Proof.Machine.execStreset f s
  | .pref f => Sys2Proof.Machine.execPref f s
  | .cflush f => Sys2Proof.Machine.execCflush f s
  | .cinv f => Sys2Proof.Machine.execCinv f s
  | .cresize f => Sys2Proof.Machine.execCresize f s
  | .rrot f => Sys2Proof.Machine.execRrot f s
  | .wsync f => Sys2Proof.Machine.execWsync f s
  | .atom f => Sys2Proof.Machine.execAtom f s
  | .atoms f => Sys2Proof.Machine.execAtoms f s
  | .red f => Sys2Proof.Machine.execRed f s
  | .reds f => Sys2Proof.Machine.execReds f s
  | .cas f => Sys2Proof.Machine.execCas f s
  | .cass f => Sys2Proof.Machine.execCass f s
  | .fence f => Sys2Proof.Machine.execFence f s
  | .fenceUn f => Sys2Proof.Machine.execFenceUn f s
  | .bar f => Sys2Proof.Machine.execBar f s
  | .barShort f => Sys2Proof.Machine.execBarShort f s
  | .barCnt f => Sys2Proof.Machine.execBarCnt f s
  | .barinit f => Sys2Proof.Machine.execBarinit f s
  | .barrive f => Sys2Proof.Machine.execBarrive f s
  | .barwait f => Sys2Proof.Machine.execBarwait f s
  | .bartest f => Sys2Proof.Machine.execBartest f s
  | .waddr f => Sys2Proof.Machine.execWaddr f s
  | .icinv f => Sys2Proof.Machine.execIcinv f s
  | .isync f => Sys2Proof.Machine.execIsync f s
  | .isyncShort f => Sys2Proof.Machine.execIsyncShort f s
  | .wtok f => Sys2Proof.Machine.execWtok f s
  | .wtokShort f => Sys2Proof.Machine.execWtokShort f s
  | .ebar f => Sys2Proof.Machine.execEbar f s
  | .ebarShort f => Sys2Proof.Machine.execEbarShort f s
  | .cpy f => Sys2Proof.Machine.execCpy f s
  | .cpy2d f => Sys2Proof.Machine.execCpy2d f s
  | .cpyb f => Sys2Proof.Machine.execCpyb f s
  | .qput f => Sys2Proof.Machine.execQput f s
  | .qseq f => Sys2Proof.Machine.execQseq f s
  | .put f => Sys2Proof.Machine.execPut f s
  | .msg f => Sys2Proof.Machine.execMsg f s
  | .cpwait f => Sys2Proof.Machine.execCpwait f s
  | .mxacq f => Sys2Proof.Machine.execMxacq f s
  | .mxacqShort f => Sys2Proof.Machine.execMxacqShort f s
  | .mxrel f => Sys2Proof.Machine.execMxrel f s
  | .mxrelShort f => Sys2Proof.Machine.execMxrelShort f s
  | .mxwait f => Sys2Proof.Machine.execMxwait f s
  | .mxwaitShort f => Sys2Proof.Machine.execMxwaitShort f s
  | .mma f => Sys2Proof.Machine.execMma f s
  | .mmaSg1 f => Sys2Proof.Machine.execMmaSg1 f s
  | .mmas f => Sys2Proof.Machine.execMmas f s
  | .mmas32 f => Sys2Proof.Machine.execMmas32 f s
  | .acczero f => Sys2Proof.Machine.execAcczero f s
  | .accrd f => Sys2Proof.Machine.execAccrd f s
  | .accst f => Sys2Proof.Machine.execAccst f s
  | .accld f => Sys2Proof.Machine.execAccld f s
  | .tspawn f => Sys2Proof.Machine.execTspawn f s
  | .targ f => Sys2Proof.Machine.execTarg f s
  | .tqry f => Sys2Proof.Machine.execTqry f s
  | .pclose f => Sys2Proof.Machine.execPclose f s
  | .pcloseShort f => Sys2Proof.Machine.execPcloseShort f s
  | .launch f => Sys2Proof.Machine.execLaunch f s
  | .mch f => Sys2Proof.Machine.execMch f s
  | .mchAff f => Sys2Proof.Machine.execMchAff f s
  | .mchres f => Sys2Proof.Machine.execMchres f s
  | .rayq f => Sys2Proof.Machine.execRayq f s
  | .rayres f => Sys2Proof.Machine.execRayres f s
  | .raysus f => Sys2Proof.Machine.execRaysus f s
  | .raysusMarch f => Sys2Proof.Machine.execRaysusMarch f s
  | .lant f => Sys2Proof.Machine.execLant f s
  | .bfetch f => Sys2Proof.Machine.execBfetch f s
  | .fbrun f => Sys2Proof.Machine.execFbrun f s
  | .prune f => Sys2Proof.Machine.execPrune f s
  | .temit f => Sys2Proof.Machine.execTemit f s
  | .memitVert f => Sys2Proof.Machine.execMemitVert f s
  | .memitPrim f => Sys2Proof.Machine.execMemitPrim f s
  | .tret f => Sys2Proof.Machine.execTret f s
  | .tretShort f => Sys2Proof.Machine.execTretShort f s
  | .halt f => Sys2Proof.Machine.execHalt f s
  | .haltShort f => Sys2Proof.Machine.execHaltShort f s
  | .dbgmk f => Sys2Proof.Machine.execDbgmk f s
  | .dbgmkShort f => Sys2Proof.Machine.execDbgmkShort f s
  | .perfrd f => Sys2Proof.Machine.execPerfrd f s
  | .perfrdShort f => Sys2Proof.Machine.execPerfrdShort f s
  | .powerLimitWrite lim => Sys2Proof.Machine.execPowerLimitWrite lim s
  | .coreClockStep up => Sys2Proof.Machine.execCoreClockStep up s
  | .timestampTick => Sys2Proof.Machine.execTimestampTick s
  | .tsNowWrite v => Sys2Proof.Machine.execTsNowWrite v s
  | .coldReset => Sys2Proof.Machine.execColdReset s
  | .warmReset => Sys2Proof.Machine.execWarmReset s
  | .hotReset => Sys2Proof.Machine.execHotReset s
  | .functionLevelReset => Sys2Proof.Machine.execFunctionLevelReset s
  | .loadfw => Sys2Proof.Machine.execLoadfw s
  | .extend => Sys2Proof.Machine.execExtend s
  | .attest => Sys2Proof.Machine.execAttest s
  | .getkey => Sys2Proof.Machine.execGetkey s
  | .mailboxComplete => Sys2Proof.Machine.execMailboxComplete s
  | .hostLinkTraining rate mode => Sys2Proof.Machine.execHostLinkTraining rate mode s
  | .wafoloLinkTraining link lanes peer => Sys2Proof.Machine.execWafoloLinkTraining link lanes peer s
  | .flitReceive link crcOk => Sys2Proof.Machine.execFlitReceive link crcOk s
  | .flitReplay link => Sys2Proof.Machine.execFlitReplay link s
  | .linkDown link => Sys2Proof.Machine.execLinkDown link s
  | .counterReadClear off => Sys2Proof.Machine.execCounterReadClear off s
  | .registerWrite off v => Sys2Proof.Machine.execRegisterWrite off v s
  | .memCfgWrite v => Sys2Proof.Machine.execMemCfgWrite v s
  | .memReformat => Sys2Proof.Machine.execMemReformat s
  | .thresholdWrite which v => Sys2Proof.Machine.execThresholdWrite which v s
  | .wcbWaitExpire block => Sys2Proof.Machine.execWcbWaitExpire block s
  | .blnStateObserve core => Sys2Proof.Machine.execBlnStateObserve core s
  | .blnEvaluate => Sys2Proof.Machine.execBlnEvaluate s
  | .sweepVisit => Sys2Proof.Machine.execSweepVisit s
  | .uncheckedWriteResume => Sys2Proof.Machine.execUncheckedWriteResume s
  | .blnKick => Sys2Proof.Machine.execBlnKick s
  | .donorLimitWrite v => Sys2Proof.Machine.execDonorLimitWrite v s
  | .donorBaseWrite v => Sys2Proof.Machine.execDonorBaseWrite v s
  | .windowTableWrite win word v => Sys2Proof.Machine.execWindowTableWrite win word v s
  | .writePacketReceive p => Sys2Proof.Machine.execWritePacketReceive p s
  | .acknowledgeReceive a => Sys2Proof.Machine.execAcknowledgeReceive a s
  | .fencePacketReceive link p => Sys2Proof.Machine.execFencePacketReceive link p s
  | .fenceDoneReceive link => Sys2Proof.Machine.execFenceDoneReceive link s
  | .messagePacketReceive link p => Sys2Proof.Machine.execMessagePacketReceive link p s
  | .hostApRead off n => Sys2Proof.Machine.execHostApRead off n s
  | .hostApWrite off data => Sys2Proof.Machine.execHostApWrite off data s
  | .messageSlotWrite off data => Sys2Proof.Machine.execMessageSlotWrite off data s
  | .messageAccept => Sys2Proof.Machine.execMessageAccept s
  | .waitingMessageFire => Sys2Proof.Machine.execWaitingMessageFire s
  | .messageRematch => Sys2Proof.Machine.execMessageRematch s
  | .ctxEnable ctx => Sys2Proof.Machine.execCtxEnable ctx s
  | .ctxStop ctx => Sys2Proof.Machine.execCtxStop ctx s
  | .ctxResume ctx => Sys2Proof.Machine.execCtxResume ctx s
  | .ctxKill ctx => Sys2Proof.Machine.execCtxKill ctx s
  | .ctxStoppedReached ctx => Sys2Proof.Machine.execCtxStoppedReached ctx s
  | .ctxOffReached ctx => Sys2Proof.Machine.execCtxOffReached ctx s
  | .ctxDescriptorWrite ctx reg v => Sys2Proof.Machine.execCtxDescriptorWrite ctx reg v s
  | .armWord0Write entry v => Sys2Proof.Machine.execArmWord0Write entry v s
  | .armWordWrite entry word v => Sys2Proof.Machine.execArmWordWrite entry word v s
  | .fqCidxObserve ctx => Sys2Proof.Machine.execFqCidxObserve ctx s
  | .tlbInvalidateRange => Sys2Proof.Machine.execTlbInvalidateRange s
  | .tlbInvalidateContext => Sys2Proof.Machine.execTlbInvalidateContext s
  | .tlbInvalidateAll => Sys2Proof.Machine.execTlbInvalidateAll s
  | .tlbInvalidateComplete => Sys2Proof.Machine.execTlbInvalidateComplete s
  | .graphSubmit => Sys2Proof.Machine.execGraphSubmit s
  | .graphCheckDone => Sys2Proof.Machine.execGraphCheckDone s
  | .graphNodeStart graph node => Sys2Proof.Machine.execGraphNodeStart graph node s
  | .graphNodeComplete graph node => Sys2Proof.Machine.execGraphNodeComplete graph node s
  | .gangReserve core => Sys2Proof.Machine.execGangReserve core s
  | .gangCommit => Sys2Proof.Machine.execGangCommit s
  | .quantumExpire core ctx => Sys2Proof.Machine.execQuantumExpire core ctx s
  | .waveRotation core part => Sys2Proof.Machine.execWaveRotation core part s
  | .gangPreempt gang => Sys2Proof.Machine.execGangPreempt gang s
  | .gangRestore ctx slot core => Sys2Proof.Machine.execGangRestore ctx slot core s
  | .launchComplete launch => Sys2Proof.Machine.execLaunchComplete launch s
  | .variableResultArrive wave op => Sys2Proof.Machine.execVariableResultArrive wave op s
  | .spawnArrive home => Sys2Proof.Machine.execSpawnArrive home s
  | .gatherStep home => Sys2Proof.Machine.execGatherStep home s
  | .spillGather ctx => Sys2Proof.Machine.execSpillGather ctx s
  | .taskWaveComplete launch => Sys2Proof.Machine.execTaskWaveComplete launch s
  | .ctqSpillBaseWrite ctx v => Sys2Proof.Machine.execCtqSpillBaseWrite ctx v s
  | .cresizeComplete core => Sys2Proof.Machine.execCresizeComplete core s
  | .bregionZeroDone core => Sys2Proof.Machine.execBregionZeroDone core s
  | .refreshWindow die => Sys2Proof.Machine.execRefreshWindow die s
  | .copyEntryStart core ctx => Sys2Proof.Machine.execCopyEntryStart core ctx s
  | .copyBlockWrite core ctx => Sys2Proof.Machine.execCopyBlockWrite core ctx s
  | .copyEntryComplete core ctx => Sys2Proof.Machine.execCopyEntryComplete core ctx s
  | .waddrWake wave => Sys2Proof.Machine.execWaddrWake wave s
  | .waddrPoll wave => Sys2Proof.Machine.execWaddrPoll wave s
  | .waddrTimeout wave => Sys2Proof.Machine.execWaddrTimeout wave s
  | .barwaitTimeout wave => Sys2Proof.Machine.execBarwaitTimeout wave s
  | .pipeWaitComplete wave => Sys2Proof.Machine.execPipeWaitComplete wave s
  | .dbgHalt ctx => Sys2Proof.Machine.execDbgHalt ctx s
  | .dbgResume ctx => Sys2Proof.Machine.execDbgResume ctx s
  | .dbgAttachWrite ctx v => Sys2Proof.Machine.execDbgAttachWrite ctx v s
  | .marchRayComplete core ray => Sys2Proof.Machine.execMarchRayComplete core ray s
  | .raySuspend core ray => Sys2Proof.Machine.execRaySuspend core ray s
  | .callableGather core => Sys2Proof.Machine.execCallableGather core s
  | .traversalRayComplete core ray => Sys2Proof.Machine.execTraversalRayComplete core ray s
  | .renderFaultPark unit ray => Sys2Proof.Machine.execRenderFaultPark unit ray s
  | .faultBatchPost unit => Sys2Proof.Machine.execFaultBatchPost unit s
  | .parkedRayResume unit => Sys2Proof.Machine.execParkedRayResume unit s
  | .payloadSlotFree fe slot => Sys2Proof.Machine.execPayloadSlotFree fe slot s
  | .candelabraPrimitive fe => Sys2Proof.Machine.execCandelabraPrimitive fe s
  | .perfCntWrite core ctr v => Sys2Proof.Machine.execPerfCntWrite core ctr v s
  | .kStepComplete core => Sys2Proof.Machine.execKStepComplete core s
  | .scrub place outcome src word => Sys2Proof.Machine.execScrub place outcome src word s
  | .hostLinkDown => Sys2Proof.Machine.execHostLinkDown s
  | .fabLinkDisWrite link v => Sys2Proof.Machine.execFabLinkDisWrite link v s
  | .completionTimeout wave => Sys2Proof.Machine.execCompletionTimeout wave s

end Sys2Proof.Machine
end

