-- ==== Sys2Proof/Machine/Step.lean ====
section
/-!
DEFINITION. One step of the machine: the next entry of `turns`, or where none is listed a rotation that is due, the wave that may issue
first within the present tick of the reference, or else that tick (log 2); and the placing of an instruction where the next step
fetches (log 1).
-/
namespace Sys2Proof.Machine

/-- A wave put into a list in the order of the cycle at which it may issue, and of age. -/
def cycleInsert (s : State) (x : Nat × Wave) : List (Nat × Wave) → List (Nat × Wave)
  | [] => [x]
  | y :: l =>
    let a := s.issueAt x.1 x.2 0
    let b := s.issueAt y.1 y.2 0
    if a < b || (a = b && decide (x.2.age ≤ y.2.age)) then x :: y :: l else y :: cycleInsert s x l

/-- The active waves that may issue within the present tick of the reference, in the order of cycle and age. -/
def State.inTick (s : State) : List Nat :=
  ((s.waves.filter fun (k, w) => w.active && decide (1000 * s.issueAt k w 0 < s.dev.milli + s.dev.cclk)).foldr (cycleInsert s) []).map (·.1)

/-- The first wave of a list that can issue. -/
noncomputable def State.firstTurn (s : State) : List Nat → Issued
  | [] => .no
  | k :: ks => match s.turnOf k 0 0 with
    | .no => State.firstTurn s ks
    | x => x

/-- R122: the first partition that is due to rotate. -/
def State.dueRotation (s : State) : Option Nat := s.pendingParts.find? s.rotationDue

/-- What a turn does. -/
noncomputable def runTurn (x : Issued) (idle : Res) : Res :=
  match x with
  | .no => idle
  | .took t => .next t
  | .run i t => exec i t

/-- One step: a wave that has faulted runs ahead at its turn (R237). -/
noncomputable def step (s : State) : Host.Outcome State Fault Refusal :=
  match s.turns with
  | .issue key lag conflict :: rest =>
    let s := { s with turns := rest }.balance
    match s.goAhead key with
    | some t => .next t
    | none => runTurn (s.turnOf key lag conflict) (.next s)
  | .event i :: rest => exec i { s with turns := rest }.balance
  | .upset f :: rest => .next ({ s with turns := rest }.balance.upset f)
  | .host a :: rest => .next ({ s with turns := rest }.balance.hostAct a)
  | [] =>
    let s := s.balance
    match s.dueRotation with
    | some p => exec (.waveRotation (p / 4) (p % 4)) s
    | none =>
      match s.waves.findSome? fun x => s.goAhead x.1 with
      | some t => .next t
      | none => runTurn (s.firstTurn s.inTick) (exec .timestampTick s)

/-! ### An instruction in place -/

/-- The page tables of the probe: one table of each level for context 0, L5 at 0x10000 to L0 at 0x14100, which map
virtual page 1 to physical page 0x20 with R, W and X, class RC. -/
def probeTables : List (Nat × Nat) :=
  [(0x10000, 0x11001), (0x11000, 0x12001), (0x12000, 0x13001), (0x13000, 0x14001), (0x14000, 0x14101),
   (0x14108, 0x2003F)]

/-- The wave of the probe: alone in its gang on core 0, with the start state of R98 and 64 named registers. -/
def probeWave (g : Nat) (pc : Nat) : Wave := Wave.start g 0 0 64 pc (startK 0 0 0 0 0 0) 0

/-- The state with an instruction stored where the next step fetches: context 0 running with one page of code at virtual
address 0x1000, and one wave of one gang on core 0 at its first byte (log 1). -/
def State.withFetchWord (s : State) (nbits w : Nat) : State :=
  let cells := probeTables.foldl (fun m (a, e) => writeBytes m a (toBytes 8 e)) s.mem.cells
  let g := s.sched.nextGang
  { s with
    turns := []
    cur := 0
    mem := { s.mem with cells := writeBytes cells 0x20000 (tableBytes nbits w) }
    host := { s.host with boot := 2 }
    ctxs := Sparse.set Ctx.reset s.ctxs 0
      { s.ctx 0 with state := .run, root := 0x10000, codeBase := 0x1000, codePages := 1 }
    sched := { s.sched with nextGang := g + 1, nextAge := s.sched.nextAge + 1 }
    gangs := [(g, { Gang.start 0 0 0 0 0 1 0 0 0 0 0 0 with waves := [0] })]
    waves := [(0, probeWave g 0)]
    cores := Sparse.set Core.reset s.cores 0 { s.core 0 with tlb := [], walks := [], codeBuf := [] } }

end Sys2Proof.Machine
end

