-- ==== Sys2Proof/Safety.lean ====
section
/-!
DEFINITION. The terms in which claims speak of a run: what it takes for an instruction of a wave to issue without an exception,
what its results do to the registers, what a step may leave changed, and the canonical form of the state.
-/
namespace Sys2Proof.Machine

/-! ### The canonical form of the state -/

/-- Both memories list strictly rising addresses and no byte 0. -/
def Mem.canonical (m : Mem) : Prop := Memory.wf m.cells = true ∧ Memory.wf m.host = true

/-- The memories, the cores and the contexts are listed in canonical form. -/
def State.Canonical (s : State) : Prop :=
  s.mem.canonical ∧ Sparse.wf Core.reset s.cores = true ∧ Sparse.wf Ctx.reset s.ctxs = true

/-! ### Issue -/

/-- The wave `s.cur` is resident and stands in `i` at an instruction of row `r` and operands `v`; every token it waits for is
clear and the one it sets has room (R174); its words raise no cause by themselves (R333); the named registers it names are allocated
(R168); the debugger does not stop it (R260); the register-file entries that it reads have their parity (R23); one that releases waits for
no read of the wave (R213); and, where the scoreboard checks, what it reads has arrived (R175). -/
structure Issues (r : Row) (v : View) (s : State) (i : Iss) : Prop where
  wellFormed : r.causes v = []
  at_issue : s.iss r v = some i
  tokens : i.tokensOk = true
  named : r.namedTop v ≤ i.w.n
  quiet : i.dbgCz = []
  sound : i.parity = 0
  unheld : i.readHeld = false
  arrived : (s.core i.core).checkEn = true → i.stale = false

/-- Besides, nothing that an instruction with register operands needs of its sources and pipes is missing: the lanes it reads
have their values (R163, R175), its pipes are bound, open and have the elements and places (R203), and the lanes that it needs
together are together (R162). -/
structure Computable (x : Alu) (r : Row) (v : View) (s : State) (i : Iss) : Prop extends Issues r v s i where
  causeless : aluCauses x i = []
  fed : i.pipesReady = true

/-- The lanes at which an instruction's operands are read, with the elements of pipes. -/
def Iss.rd (i : Iss) (t : OpTy) (src : Src) (l : Nat) : Nat := i.operand i.popAll.1 (some t) src l

/-! ### Registers -/

def Lane.shelfVals (l : Lane) : List W32 := l.shelf.map (·.val)
def Lane.namedVals (l : Lane) : List W32 := l.named.map (·.val)
def Lane.predVals (l : Lane) : List Bool := l.preds.map (·.val)
def Wave.kVals (w : Wave) : List W64 := w.k.map (·.val)

/-- R166: words pushed onto a shelf in order. -/
def pushWords (shelf ws : List W32) : List W32 := ws.foldl (fun sh v => v :: sh.take 15) shelf
/-- R171: predicates pushed in order. -/
def pushBools (ps bs : List Bool) : List Bool := bs.foldl (fun ps b => b :: ps.take 7) ps
/-- R167, R168: results in push order written to a named register and those after it: the last pushed to the first. -/
def nameWords (r : Nat) : List W32 → List W32 → List W32
  | [], regs => regs
  | v :: vs, regs => nameWords r vs (setAt regs (r + vs.length) v)

/-- A lane keeps its registers: shelf, named registers, predicates, return stack and task record. Values that are on their way may come
later (R327). -/
structure LaneKeeps (old new : Lane) : Prop where
  shelf : new.shelfVals = old.shelfVals
  named : new.namedVals = old.namedVals
  preds : new.predVals = old.predVals
  ret : new.ret = old.ret
  task : new.task = old.task

/-- R166, R168: a shelf after results for a destination. -/
def Dst.shelfAfter (d : Dst) (shelf ws : List W32) : List W32 :=
  match d with
  | .shelf | .named _ => pushWords shelf ws
  | _ => shelf

/-- R168: the named registers after results for a destination. -/
def Dst.namedAfter (d : Dst) (regs ws : List W32) : List W32 :=
  match d with
  | .named r => nameWords r ws regs
  | _ => regs

/-- R166 to R168, R171: a lane takes its results, and nothing else of it changes. -/
structure LaneGets (d : Dst) (o : AluOut) (old new : Lane) : Prop where
  shelf : new.shelfVals = Dst.shelfAfter d old.shelfVals o.res
  named : new.namedVals = Dst.namedAfter d old.namedVals o.res
  preds : new.predVals = pushBools old.predVals o.preds
  ret : new.ret = old.ret
  task : new.task = old.task

/-- R155: the lanes at the issue address stand at the next instruction; the others stay where they are. -/
def Iss.Advanced (i : Iss) (w : Wave) : Prop :=
  ∀ j, (w.lane j).pc = if j ∈ i.at_ then i.nextPc else (i.w.lane j).pc

/-- What an instruction with register operands leaves: every lane of Exec has its results and no other lane changes a register
(R161), or the uniform register has the result of the lowest lane of Exec (R170); the flags join the wave's (R311); the lanes
at the issue address go on. `sgn` says that a 32-bit result is extended by its sign in a uniform register (R320). -/
def Iss.Gives (i : Iss) (sgn : Bool) (out : Nat → AluOut) (t : State) : Prop :=
  ∃ w, t.wave? i.key = some w ∧ i.Advanced w ∧
    match i.v.d with
    | .k r => (∀ j, LaneKeeps (i.w.lane j) (w.lane j)) ∧
        (match i.ex with
          | [] => w.kVals = i.w.kVals ∧ w.flags = i.w.flags
          | l :: _ => w.kVals = setAt i.w.kVals r (BitVec.ofNat 64 (kValue sgn (out l).res)) ∧ w.flags = i.w.flags ||| (out l).fl)
    | d => w.kVals = i.w.kVals ∧ w.flags = i.ex.foldl (fun f l => f ||| (out l).fl) i.w.flags ∧
        ∀ j, if j ∈ i.ex then LaneGets d (out j) (i.w.lane j) (w.lane j) else LaneKeeps (i.w.lane j) (w.lane j)

/-! ### What a step leaves unchanged -/

/-- Nothing of the machine but waves, cores and gangs. -/
def SameOutside (s t : State) : Prop := t = { s with waves := t.waves, cores := t.cores, gangs := t.gangs }

/-- A core is the same but for its performance counters. -/
def Core.SameButPerf (c d : Core) : Prop := d = { c with perf := d.perf }

/-- The instruction changes its own wave and performance counters of its core, and nothing else of the machine. -/
structure Iss.Local (i : Iss) (t : State) : Prop where
  outside : SameOutside i.s t
  gangs : t.gangs = i.s.gangs
  cores : ∀ c, Core.SameButPerf (i.s.core c) (t.core c)
  waves : ∀ k, k ≠ i.key → t.wave? k = i.s.wave? k

/-- Of its own wave, the instruction changes lanes, uniform registers, flags with their domains, the list of outstanding
operations, the count of issued instructions and the times of values on their way; its special registers and its place stay. -/
def Wave.SameFrame (w w' : Wave) : Prop :=
  w' = { w with lanes := w'.lanes, k := w'.k, flags := w'.flags, domains := w'.domains, flagsWas := w'.flagsWas, rstateWas := w'.rstateWas, ops := w'.ops, wait := w'.wait,
                next := w'.next, issued := w'.issued, fenced := w'.fenced, stepped := w'.stepped, skip := w'.skip }

/-- The instruction changes its own wave and performance counters alone, and of the wave what `SameFrame` says; said of states
whose cores are listed in canonical form. -/
def Iss.Quietly (i : Iss) (t : State) : Prop :=
  Sparse.wf Core.reset i.s.cores = true → i.Local t ∧ ∀ w, t.wave? i.key = some w → Wave.SameFrame i.w w

/-- R156: what a control instruction leaves: the lanes of Exec stand at their targets with their return stacks, the others at
the issue address at the next instruction, and no other register changes. -/
def Iss.Transfers (i : Iss) (target : Nat → Nat) (ret : Nat → List Nat) (t : State) : Prop :=
  ∃ w, t.wave? i.key = some w ∧ w.kVals = i.w.kVals ∧ w.flags = i.w.flags ∧ ∀ j,
    (w.lane j).shelfVals = (i.w.lane j).shelfVals ∧ (w.lane j).namedVals = (i.w.lane j).namedVals
    ∧ (w.lane j).predVals = (i.w.lane j).predVals
    ∧ (w.lane j).task = (i.w.lane j).task
    ∧ (w.lane j).ret = (if j ∈ i.ex then ret j else (i.w.lane j).ret)
    ∧ (w.lane j).pc = (if j ∈ i.ex then target j else if j ∈ i.at_ then i.nextPc else (i.w.lane j).pc)

/-- The same with the return stacks as they were. -/
def Iss.Moves (i : Iss) (target : Nat → Nat) (t : State) : Prop := i.Transfers target (fun j => (i.w.lane j).ret) t

/-- The instruction does nothing but go on. -/
def Iss.GoesOn (i : Iss) (t : State) : Prop := i.Moves (fun _ => i.nextPc) t ∧ i.Quietly t

/-! ### Memory -/

/-- One byte at a physical address, of nominal or host memory. -/
def State.byteAt (s : State) (pa : Nat) : Byte :=
  if pa < hostBase then Sparse.get 0 s.mem.cells pa else Sparse.get 0 s.mem.host pa

end Sys2Proof.Machine
end

