-- ==== Sys2Proof/Certificates/Slice0/Obligations.lean ====
section
/-!
DEFINITION. The statements about this machine. Each names the rules of the spec that it states; where a statement rests on a choice of
the model, its docstring names the entry of the assumption log.
-/
/-! ### Reset, decoding and the step -/

open Sys2Proof Sys2Proof.Machine in
/-- R27, R30, R33, R40, R57, R69, R94, R99 and the register tables: what reset leaves. The reset state is the one after a cold reset, before Obsis has verified its
firmware (BOOT 0). -/
def Obligations.ResetGivesTheRegistersTheirResetValues : Prop :=
  (∀ pa, State.reset.byteAt pa = 0) ∧ (∀ b, State.reset.mem.block b = BlockMeta.reset)
  ∧ State.reset.dev.pwrWatts = 0 ∧ State.reset.dev.pwrLim = 2100 ∧ State.reset.dev.cclk = 1700 ∧ State.reset.dev.tsNow = 0 ∧ State.reset.dev.tsRun = true
  ∧ State.reset.dev.errVld = false ∧ State.reset.mem.ratio = 64 ∧ State.reset.mem.lock = false ∧ State.reset.mem.wcbWait = 256
  ∧ State.reset.mem.sectTotal = 8321499136 ∧ State.reset.mem.sectFree = 8321499136 ∧ State.reset.mem.wmLow = 8388608
  ∧ State.reset.mem.wmCrit = 1048576 ∧ State.reset.mem.wmHyst = 262144 ∧ State.reset.mem.wmExh = 8192
  ∧ State.reset.bln.state = .idle ∧ State.reset.bln.csweep = 16 ∧ State.reset.bln.en = true ∧ State.reset.bln.eager = false ∧ State.reset.bln.donorLog2 = 4
  ∧ State.reset.fab.node = 0 ∧ State.reset.fab.nodeLock = false ∧ State.reset.fab.msgLo = 0 ∧ State.reset.fab.msgHi = 4095 ∧ State.reset.fab.msgEn = false
  ∧ State.reset.fab.en = false ∧ State.reset.host.boot = 0 ∧ State.reset.host.cfgErr = false ∧ State.reset.host.irqPend = 0 ∧ State.reset.host.irqEn = 0
  ∧ State.reset.host.umqLog2 = 4 ∧ (∀ e, (Sparse.get Arm.reset State.reset.host.arms e).v = false)
  ∧ (∀ c, (State.reset.ctx c).state = .off ∧ (State.reset.ctx c).root = 0 ∧ (State.reset.ctx c).vec = 0 ∧ (State.reset.ctx c).fqLog2 = 4
      ∧ (State.reset.ctx c).ceil = 7 ∧ (State.reset.ctx c).trapEn = 0 ∧ (State.reset.ctx c).attach = false)
  ∧ State.reset.ctq.qmax = 4 ∧ State.reset.ctq.wait = 1024
  ∧ (∀ c, (State.reset.core c).ways = 0 ∧ (State.reset.core c).checkEn = false ∧ (State.reset.core c).maxStep = 4096 ∧ (State.reset.core c).cell = 4)
  ∧ State.reset.waves = [] ∧ State.reset.gangs = [] ∧ State.reset.sched.launches = []

open Sys2Proof Sys2Proof.Machine in
/-- R313 to R321, R326, R342: words worked out in the spec decode to the instructions that it gives for them. -/
def Obligations.TheWordsOfTheSpecDecodeToTheirInstructions : Prop :=
  decodeWords [0x64000900#32] = .ok (.faddShort { ctl := { sy := false, guard := none, stl := 2 }, a := 0, b := 50, lit := none }) 1
  ∧ decodeWords [0x0004C901#32, 0x00000014#32, 0x0000A900#32] = .ok (.fadd
      { ctl := { sy := false, guard := some { depth := 1, neg := true }, stl := 2 }, d := 20, c := 0, sub := 0, md := 0, la := 0, lb := 82, ts := 2, tw := 0, imm9 := 0
        lit := none }) 3
  ∧ decodeWords [0x76980042#32, 0x00012345#32, 0x00000000#32] = .ok (.iaddShort
      { ctl := { sy := false, guard := none, stl := 0 }, a := 19, b := 59, lit := some 0x12345 }) 3
  ∧ decodeWords [0x00000241#32, 0x76408011#32, 0x08004BD2#32] = .ok (.ld
      { ctl := { sy := false, guard := none, stl := 0 }, d := 17, c := 0, sub := 2, md := 473, la := 82, lb := 23, ts := 1, tw := 0, imm9 := 16, lit := none }) 3
  ∧ decodeWords [0x7FE84004#32] = .ok (.brShort { ctl := { sy := false, guard := some { depth := 0, neg := false }, stl := 0 }, disp := 0xFFD }) 1
  ∧ decodeWords [0x00000018#32] = .ok (.exitShort { ctl := { sy := false, guard := none, stl := 0 }, a := 0, b := 0, lit := none }) 1

open Sys2Proof Sys2Proof.Machine in
/-- R120 to R122, R155, R174, R227, R313: between two steps the waves of the active and pending sets change places; a step gives a listed event, or lets a wave whose turn
it is run the instruction that its bytes decode to, or without a list rotates a partition that is due, or lets the wave run that may issue first within the present tick,
or else lets the tick pass. A wave that has faulted runs ahead instead (R237). Which comes first is the model's `turns` (log 2); that a fetch takes its line into the code buffer at issue is log 7. -/
def Obligations.AStepRunsTheDecodedInstruction : Prop :=
  (∀ s e rest, s.turns = .event e :: rest → step s = exec e (State.balance { s with turns := rest }))
  ∧ (∀ s key lag conflict rest i t, s.turns = .issue key lag conflict :: rest →
      (State.balance { s with turns := rest }).turnOf key lag conflict = .run i t → step s = exec i t)
  ∧ (∀ s key lag conflict rest t, s.turns = .issue key lag conflict :: rest → (State.balance { s with turns := rest }).goAhead key = some t → step s = .next t)
  ∧ (∀ s older k younger i t, s.turns = [] → s.balance.dueRotation = none → (∀ x ∈ s.balance.waves, s.balance.goAhead x.1 = none) →
      s.balance.inTick = older ++ k :: younger →
      (∀ j ∈ older, s.balance.turnOf j 0 0 = .no) → s.balance.turnOf k 0 0 = .run i t → step s = exec i t)
  ∧ (∀ s p, s.turns = [] → s.balance.dueRotation = some p → step s = exec (.waveRotation (p / 4) (p % 4)) s.balance)
  ∧ (∀ s k w older younger t, s.turns = [] → s.balance.dueRotation = none → s.balance.waves = older ++ (k, w) :: younger →
      (∀ x ∈ older, s.balance.goAhead x.1 = none) → s.balance.goAhead k = some t → step s = .next t)
  ∧ (∀ s, s.turns = [] → s.balance.dueRotation = none → (∀ x ∈ s.balance.waves, s.balance.goAhead x.1 = none) →
      (∀ k ∈ s.balance.inTick, s.balance.turnOf k 0 0 = .no) → step s = exec .timestampTick s.balance)
  ∧ (∀ (s : State) key lag conflict w pc ws u i n, s.wave? key = some w → w.waiting = false → s.evicted w = false → w.active = true →
      s.firstAt key w (s.issueAt key w lag) = true → w.unpark.issuePc = some pc →
      let c := s.issueAt key w lag
      let ready := { w.unpark with cycle := c, turnAt := c, conflict := conflict, words := [] }
      State.fetch { s.setWave key ready with cur := key, clocks := Sparse.set 0 s.clocks (key / 32) (c + 1) } (keyCore key) w.ctx pc = (.ok ws, u) →
      decodeWords ws = .ok i n → w.unpark.wordsLet ws = true →
      s.turnOf key lag conflict = .run i (u.setWave key { ready with words := ws }))
  ∧ (∀ (s : State) core ctx off x u, s.codeAddr ctx off % 4 = 0 → s.translate (some core) ctx (s.codeAddr ctx off) Access.fetch = (.ok x, u) →
      x.pa % 128 = s.codeAddr ctx off % 128 → x.pa / 128 * 128 + 128 ≤ hostBase →
      (∀ l ∈ (u.core core).codeBuf, l.ctx = ctx → l.va ≠ s.codeAddr ctx off / 128 * 128) → u.mem.canonical → u.mem.flaws = [] →
      (s.fetchWord core ctx off).1 = .ok (BitVec.ofNat 32 (ofBytes ((List.range 4).map fun j => u.byteAt (x.pa + j)))))

open Sys2Proof Sys2Proof.Machine in
/-- R313 to R322, R329 to R332: every well-formed instruction of a wave, with every operand at every value that its encoding admits, is read back from its words,
whatever follows them. -/
def Obligations.DecodingGivesBackEveryWellFormedInstruction : Prop :=
  ∀ i rest, i.wf → i.isWave = true → decodeWords (encode i ++ rest) = .ok i (encode i).length

open Sys2Proof Sys2Proof.Machine in
/-- From every state whose memories, cores and contexts are listed in canonical form, every step leads to such a state. -/
def Obligations.EveryStepKeepsTheStateCanonical : Prop := ∀ s t, s.Canonical → step s = .next t → t.Canonical

open Sys2Proof Sys2Proof.Machine in
/-- The state after reset lists its memories, cores and contexts in canonical form. -/
def Obligations.TheResetStateIsCanonical : Prop := State.reset.Canonical


/-! ### Results of instructions with register operands -/

namespace Sys2Proof.Says

open Sys2Proof.Machine

/-- A, B and C of a lane as 32-bit words, and as 64-bit values. -/
def a32 (i : Iss) (l : Nat) : W32 := BitVec.ofNat 32 (i.rd .i32 i.v.a l)
def b32 (i : Iss) (l : Nat) : W32 := BitVec.ofNat 32 (i.rd .i32 i.v.b l)
def c32 (i : Iss) (l : Nat) : W32 := BitVec.ofNat 32 (i.rd .i32 i.v.c l)
def a64 (i : Iss) (l : Nat) : W64 := BitVec.ofNat 64 (i.rd .i64 i.v.a l)
def b64 (i : Iss) (l : Nat) : W64 := BitVec.ofNat 64 (i.rd .i64 i.v.b l)
def c64 (i : Iss) (l : Nat) : W64 := BitVec.ofNat 64 (i.rd .i64 i.v.c l)

/-- One word is the result; a 64-bit value, the high word pushed first (R167); a predicate; with a flag where a condition holds. -/
def word (x : W32) : AluOut := { res := [x], preds := [], fl := 0 }
def dword (x : W64) : AluOut := { res := [x.extractLsb' 32 32, x.extractLsb' 0 32], preds := [], fl := 0 }
def truth (b : Bool) : AluOut := { res := [], preds := [b], fl := 0 }
def flag (c : Bool) (f : Flg) (o : AluOut) : AluOut := { o with fl := if c then f else 0 }

/-- R172, R203: where the destination is a pipe, the lanes of Exec put one element each at its end, in the order of the lanes. -/
def Feeds (s : State) (i : Iss) (out : Nat → AluOut) (t : State) : Prop :=
  ∀ q g j p, i.pushes = some q → i.pops = [] → i.ex ≠ [] → s.pipeEnd i.w.gang q false = some (g, j, p) →
    t.pipeEnd i.w.gang q false = some (g, j, { p with count := p.count + i.ex.length })
    ∧ ∀ n l x, i.ex[n]? = some l → (out l).res = [x] → p.count + i.ex.length ≤ p.size → Memory.wf (s.core (s.gangCore g)).scratch = true →
        t.pipeElem g p (p.count + n) = x

/-- An instruction with register operands completes, and each lane of Exec takes the results of `out`. Nothing outside waves, cores and gangs
changes; where no operand is a pipe, nothing changes but what R155, R166 to R171 and R311 say of its wave, and performance counters. -/
def Computes (ins : Instr) (r : Row) (v : View) (x : Alu) (sgn : View → Bool) (out : Iss → Nat → AluOut) : Prop :=
  ∀ s i, Computable x r v s i → ∃ t, exec ins s = .next t ∧ i.Gives (sgn v) (out i) t ∧ SameOutside s t ∧ Feeds s i (out i) t
    ∧ (i.pops = [] → i.pushes = none → i.Quietly t)

/-- The long form and the short form of an instruction. -/
def Both (long : LongF → Instr) (short : ShortF → Instr) (r : Row) (x : Alu) (sgn : View → Bool)
    (out : Iss → Nat → AluOut) : Prop :=
  (∀ f, Computes (long f) r f.view x sgn out) ∧ ∀ f, Computes (short f) r f.view x sgn out

/-- An instruction that has the long form alone. -/
def Long (long : LongF → Instr) (r : Row) (x : Alu) (sgn : View → Bool) (out : Iss → Nat → AluOut) : Prop :=
  ∀ f, Computes (long f) r f.view x sgn out

/-! #### Row 0x1_ -/

/-- R349: a 32-bit value extended to 64 bits by the type. -/
def ext64 (v : View) (x : W32) : W64 := if v.signed then x.signExtend 64 else x.zeroExtend 64

/-- R349: the comparison of SUB, by the type. -/
def compare {n : Nat} (v : View) (a b : BitVec n) : Bool :=
  let less (x y : BitVec n) : Bool := if v.signed then x.slt y else x.ult y
  match v.sub with
  | 0 => a == b
  | 1 => a != b
  | 2 => less a b
  | 3 => !less b a
  | 4 => less b a
  | _ => !less a b

def iaddOut (v : View) (a b : W32) : AluOut :=
  flag (v.sub = 1 && if v.signed then a.saddOverflow b else a.uaddOverflow b) fIO (word (a + b))
def isubOut (v : View) (a b : W32) : AluOut :=
  flag (v.sub = 1 && if v.signed then a.ssubOverflow b else a.usubOverflow b) fIO (word (a - b))
/-- `.lo`, `.hi` and `.wide` of a 64-bit product. -/
def partOut (v : View) (p : W64) : AluOut :=
  if v.sub = 2 then dword p else if v.sub = 1 then word (p.extractLsb' 32 32) else word (p.extractLsb' 0 32)
def imulOut (v : View) (a b : W32) : AluOut := partOut v (ext64 v a * ext64 v b)
def imadOut (v : View) (a b c : W32) (cw : W64) : AluOut :=
  partOut v (ext64 v a * ext64 v b + if v.sub = 2 then cw else ext64 v c)
/-- R350: quotient and remainder. -/
def quotRem (v : View) (a b : W32) : W32 × W32 :=
  if b = 0 then (BitVec.allOnes 32, a) else if v.signed then (a.sdiv b, a.srem b) else (a / b, a % b)
def idivOut (v : View) (a b : W32) : AluOut :=
  let (q, m) := quotRem v a b
  { (if v.sub = 0 then word q else if v.sub = 1 then word m else { res := [m, q], preds := [], fl := 0 }) with
    fl := if b = 0 then fDZ else if v.signed && a == BitVec.intMin 32 && b == BitVec.allOnes 32 then fIO else 0 }
def less32 (v : View) (a b : W32) : Bool := if v.signed then a.slt b else a.ult b
def iminOut (v : View) (a b : W32) : AluOut := word (if less32 v b a then b else a)
def imaxOut (v : View) (a b : W32) : AluOut := word (if less32 v a b then b else a)
def iabsOut (v : View) (a : W32) : AluOut := flag (v.sub = 1 && a == BitVec.intMin 32) fIO (word (if a.msb then -a else a))
/-- R349: an exact integer clamped to the range of the type. -/
def clamp (v : View) (x : Int) : AluOut :=
  let lo : Int := if v.signed then -2147483648 else 0
  let hi : Int := if v.signed then 2147483647 else 4294967295
  flag (decide (x < lo) || decide (hi < x)) fIO (word (BitVec.ofInt 32 (max lo (min hi x))))
def exact (v : View) (x : W32) : Int := if v.signed then x.toInt else x.toNat
def iaddsatOut (v : View) (a b : W32) : AluOut :=
  clamp v (if v.sub = 1 then exact v a - exact v b else exact v a + exact v b)
/-- Whether the type of a form of row 0x1_ is 64 bits wide. -/
def wide (v : View) : Bool := v.typeRaw = 4 || v.typeRaw = 8 || v.typeRaw = 13
def leaOut (v : View) (a : W32) (aw : W64) (b : W32) : AluOut :=
  if wide v then dword (aw + ext64 v b <<< v.sub) else word (a + b <<< v.sub)
/-- R352: what mov makes of a word by the type. -/
def movWord (v : View) (a : W32) : W32 :=
  match v.typeRaw with
  | 1 => (a.truncate 8).signExtend 32
  | 2 => (a.truncate 16).signExtend 32
  | 5 => (a.truncate 8).zeroExtend 32
  | 6 => (a.truncate 16).zeroExtend 32
  | _ => a
def iadd64Out (v : View) (a b : W64) : AluOut :=
  flag (v.sub = 1 && if v.signed then a.saddOverflow b else a.uaddOverflow b) fIO (dword (a + b))
def isub64Out (v : View) (a b : W64) : AluOut :=
  flag (v.sub = 1 && if v.signed then a.ssubOverflow b else a.usubOverflow b) fIO (dword (a - b))

/-- R318, R352: an operand of mov and sel: a constant of a float type is a float. -/
def moved (i : Iss) (src : Src) (l : Nat) : W32 × W64 :=
  (BitVec.ofNat 32 (i.rd (if i.v.typeRaw = 10 then .f32 else if i.v.typeRaw = 11 then .pk false
    else if i.v.typeRaw = 12 then .pk true else .i32) src l), BitVec.ofNat 64 (i.rd .i64 src l))
def movedOut (i : Iss) (x : W32 × W64) : AluOut := if wide i.v then dword x.2 else word x.1

/-! #### Row 0x2_ -/

/-- A form of 32 or 64 bits. -/
def bitsOut (v : View) (x : W32) (xw : W64) : AluOut := if v.typeRaw = 13 then dword xw else word x
/-- The number of bits from the top down, and from the bottom up, before the first one bit. -/
def leading (a : W32) : W32 := BitVec.ofNat 32 ((List.range 32).takeWhile fun i => !a.getLsbD (31 - i)).length
def trailing (a : W32) : W32 := BitVec.ofNat 32 ((List.range 32).takeWhile fun i => !a.getLsbD i).length
def ones (a : W32) : W32 := BitVec.ofNat 32 ((List.range 32).countP fun i => a.getLsbD i)
/-- The word whose bit i is `f i`. -/
def ofBits (f : Nat → Bool) : W32 := (List.range 32).foldl (fun x i => if f i then x ||| BitVec.twoPow 32 i else x) 0
/-- R354: the bits pos to pos + len − 1 of A extended to 64 bits, extended in turn from bit len − 1. -/
def extract (v : View) (a c : W32) : W32 :=
  let e : W64 := if v.sub = 1 then a.signExtend 64 else a.zeroExtend 64
  let pos := min (c.extractLsb' 0 8).toNat 63
  let len := min (c.extractLsb' 8 8).toNat 32
  ofBits fun i => if i < len then (e >>> pos).getLsbD i else v.sub = 1 && len != 0 && (e >>> pos).getLsbD (len - 1)
/-- R354: B placed in A. -/
def insert (a b c : W32) : W32 :=
  let pos := (c.extractLsb' 0 8).toNat
  let len := (c.extractLsb' 8 8).toNat
  ofBits fun i => if pos ≤ i && decide (i < pos + len) then b.getLsbD (i - pos) else a.getLsbD i
/-- R355: a result byte of bsel, bit by bit. -/
def selByte (src : W64) (c : BitVec 8) (j : Nat) : Bool :=
  let x := src.extractLsb' (8 * (c.extractLsb' 0 3).toNat) 8
  let k := if c.getLsbD 6 then 7 - j else j
  match (c.extractLsb' 4 2).toNat with
  | 0 => x.getLsbD k
  | 1 => false
  | 2 => true
  | _ => x.getLsbD 7

/-! #### Row 0x3_ and row 0x8_ -/

/-- R173: what a special register reads as in a lane, and whether it has 64 bits. -/
def special (i : Iss) (l : Nat) : AluOut :=
  match i.v.aRaw with
  | 0 => dword (BitVec.ofNat 64 (if (i.w.lane l).pc = retiredPc then 0 else ((i.s.ctx i.w.ctx).codeBase + (i.w.lane l).pc)))
  | 1 => word (BitVec.ofNat 32 l)
  | 2 => word (i.w.flags.zeroExtend 32)
  | 3 => dword i.s.dev.tsNow
  | 4 => word (BitVec.ofNat 32 (i.key / 128))
  | 5 => word (BitVec.ofNat 32 (i.key / 32 % 4))
  | 6 => word (BitVec.ofNat 32 (i.key % 32))
  | 7 => word (BitVec.ofNat 32 i.w.ctx)
  | 8 => word (BitVec.ofNat 32 i.w.n)
  | 9 => word (ofBits fun j => (i.w.lane j).live)
  | 10 => word (ofBits fun j => (i.w.lane j).isParked)
  | _ => dword i.w.rstate

/-- R163: A of a source lane; a retired lane supplies 0. -/
def fromLane (i : Iss) (t : OpTy) (l : Nat) : Nat := if (i.w.lane l).retired then 0 else i.rd t i.v.a l
/-- R359: what shfl and bcast move: 32 or 64 bits of A of a source lane. -/
def shuffled (i : Iss) (l : Nat) : AluOut :=
  if i.v.typeRaw = 13 then dword (BitVec.ofNat 64 (fromLane i .i64 l))
  else word (BitVec.ofNat 32 (fromLane i (if i.v.typeRaw = 10 then .f32 else .i32) l))
/-- R359: the source lane of shfl. -/
def shuffleLane (sub l b : Nat) : Nat :=
  match sub with
  | 0 => b % 32
  | 1 => if l < b then l else l - b
  | 2 => if 31 < l + b then l else l + b
  | _ => Nat.xor l (b % 32)
/-- R360: the lanes of Exec whose predicate is true. -/
def voting (i : Iss) (j : Nat) : Bool := i.ex.contains j && i.w.pred j i.v.aRaw

/-- R361: the type of redux and scan is float; is unsigned. -/
def isF (v : View) : Bool := v.typeRaw = 10
/-- R361: one step of the operation of SUB, with its flags. -/
def step (v : View) (a b : Nat) : FR :=
  let x := BitVec.ofNat 32 a
  let y := BitVec.ofNat 32 b
  let int (z : W32) : FR := { v := z.toNat, f := 0 }
  match v.sub % 8 with
  | 0 => if isF v then Fmt.f32.add (Rnd.ofCode v.rnd) a b else int (x + y)
  | 1 => if isF v then Fmt.f32.minNum a b else int (if (if v.typeRaw = 7 then y.ult x else y.slt x) then y else x)
  | 2 => if isF v then Fmt.f32.maxNum a b else int (if (if v.typeRaw = 7 then x.ult y else x.slt y) then y else x)
  | 3 => int (x &&& y)
  | 4 => int (x ||| y)
  | _ => int (x ^^^ y)
/-- R361: the exclusive identity. -/
def identity (v : View) : Nat :=
  match v.sub % 8 with
  | 0 => if isF v then 0x80000000 else 0
  | 1 => if isF v then 0x7F800000 else if v.typeRaw = 7 then 0xFFFFFFFF else 0x7FFFFFFF
  | 2 => if isF v then 0xFF800000 else if v.typeRaw = 7 then 0 else 0x80000000
  | 3 => 0xFFFFFFFF
  | _ => 0
/-- R361: A of a lane. -/
def lane (i : Iss) (l : Nat) : Nat := i.rd (if isF i.v then .f32 else .i32) i.v.a l
/-- R361: the value and the flags of the subtree of height `h` that begins at lane `l`. -/
def tree (i : Iss) : Nat → Nat → FR
  | 0, l => { v := lane i l, f := 0 }
  | h + 1, l =>
    let x := tree i h l
    let y := tree i h (l + 2 ^ h)
    let z := step i.v x.v y.v
    { v := z.v, f := z.f ||| x.f ||| y.f }
/-- R361: what lane `l` has of a scan, with the flags of the steps up to it. -/
def running (i : Iss) : Nat → FR
  | 0 => { v := if i.v.sub / 8 = 1 then identity i.v else lane i 0, f := 0 }
  | l + 1 =>
    let acc := running i l
    let z := step i.v acc.v (lane i (if i.v.sub / 8 = 1 then l else l + 1))
    { v := z.v, f := z.f ||| acc.f }
/-- R362: the difference of two members of a lane's quad. -/
def quadOut (i : Iss) (l x y : Nat) : AluOut :=
  let t : OpTy := if isF i.v then .f32 else .i32
  let a := fromLane i t (l / 4 * 4 + x)
  let b := fromLane i t (l / 4 * 4 + y)
  if isF i.v then let r := Fmt.f32.sub (Rnd.ofCode i.v.rnd) a b; flag true r.f (word (BitVec.ofNat 32 r.v))
  else word (BitVec.ofNat 32 a - BitVec.ofNat 32 b)

/-- R320: a 32-bit result of the rows' default type `.s32` is extended by its sign in a uniform register, others by zeros. -/
def bySign (v : View) : Bool := v.typeRaw = 0 || v.typeRaw = 3
def byZero (_ : View) : Bool := false

/-! #### Rows 0x4_ to 0x7_ -/

/-- A, B and C of a lane read as FP32 or packed values, or intervals. -/
def fa (i : Iss) (l : Nat) : Nat := i.rd .f32 i.v.a l
def fb (i : Iss) (l : Nat) : Nat := i.rd .f32 i.v.b l
def fc (i : Iss) (l : Nat) : Nat := i.rd .f32 i.v.c l
def xa (i : Iss) (l : Nat) : Itv := itvOf (i.rd .itv i.v.a l)
def xb (i : Iss) (l : Nat) : Itv := itvOf (i.rd .itv i.v.b l)
/-- A rounded result with its flags, one word; two elements packed, element 0 low; an interval, hi pushed first. -/
def rounded (r : FR) : AluOut := flag true r.f (word (BitVec.ofNat 32 r.v))
def packed (x y : FR) : AluOut := flag true (x.f ||| y.f) (word (BitVec.ofNat 16 y.v ++ BitVec.ofNat 16 x.v))
def interval (r : IR) : AluOut := flag true r.f { res := [BitVec.ofNat 32 r.v.hi, BitVec.ofNat 32 r.v.lo], preds := [], fl := 0 }
/-- The rounding mode of RND (R292). -/
def mode (i : Iss) : Rnd := Rnd.ofCode i.v.rnd
/-- R373: element `j` of A, B and C; the format of the elements. -/
def bf (i : Iss) : Bool := i.v.typeRaw = 12
def fmt (i : Iss) : Fmt := if bf i then .bf16 else .f16
def pa (i : Iss) (l j : Nat) : Nat := i.rd (.pk (bf i)) i.v.a l / 2 ^ (16 * j) % 65536
def pb (i : Iss) (l j : Nat) : Nat := i.rd (.pk (bf i)) i.v.b l / 2 ^ (16 * j) % 65536
def pc (i : Iss) (l j : Nat) : Nat := i.rd (.pk (bf i)) i.v.c l / 2 ^ (16 * j) % 65536
def elements (f : Nat → FR) : AluOut := packed (f 0) (f 1)

end Sys2Proof.Says

open Sys2Proof Sys2Proof.Machine Sys2Proof.Says in
/-- R349 to R352: the integer instructions and moves complete with the results of the table. -/
def Obligations.IntegerInstructionsGiveTheTableResults : Prop :=
  Both .iadd .iaddShort rowIadd aluIadd View.signed (fun i l => iaddOut i.v (a32 i l) (b32 i l))
  ∧ Both .isub .isubShort rowIsub aluIsub View.signed (fun i l => isubOut i.v (a32 i l) (b32 i l))
  ∧ Both .imul .imulShort rowImul aluImul View.signed (fun i l => imulOut i.v (a32 i l) (b32 i l))
  ∧ Long .imad rowImad aluImad View.signed (fun i l => imadOut i.v (a32 i l) (b32 i l) (c32 i l) (c64 i l))
  ∧ Long .idiv rowIdiv aluIdiv View.signed (fun i l => idivOut i.v (a32 i l) (b32 i l))
  ∧ Both .imin .iminShort rowImin aluImin View.signed (fun i l => iminOut i.v (a32 i l) (b32 i l))
  ∧ Both .imax .imaxShort rowImax aluImax View.signed (fun i l => imaxOut i.v (a32 i l) (b32 i l))
  ∧ Both .iabs .iabsShort rowIabs aluIabs View.signed (fun i l => iabsOut i.v (a32 i l))
  ∧ Both .icmp .icmpShort rowIcmp aluIcmp byZero (fun i l =>
      truth (if wide i.v then compare i.v (a64 i l) (b64 i l) else compare i.v (a32 i l) (b32 i l)))
  ∧ Both .iaddsat .iaddsatShort rowIaddsat aluIaddsat View.signed (fun i l => iaddsatOut i.v (a32 i l) (b32 i l))
  ∧ Both .lea .leaShort rowLea aluLea View.signed (fun i l => leaOut i.v (a32 i l) (a64 i l) (b32 i l))
  ∧ Both .sel .selShort rowSel aluSel bySign (fun i l => movedOut i (moved i (if i.w.pred l i.v.sub then i.v.a else i.v.b) l))
  ∧ Both .mov .movShort rowMov aluMov (fun v => v.typeRaw ≤ 3) (fun i l =>
      movedOut i (movWord i.v (moved i i.v.a l).1, (moved i i.v.a l).2))
  ∧ Both .iadd64 .iadd64Short rowIadd64 aluIadd64 byZero (fun i l => iadd64Out i.v (a64 i l) (b64 i l))
  ∧ Long .imad64 rowImad64 aluImad64 byZero (fun i l => dword (a64 i l * b64 i l + c64 i l))
  ∧ Both .isub64 .isub64Short rowIsub64 aluIsub64 byZero (fun i l => isub64Out i.v (a64 i l) (b64 i l))

open Sys2Proof Sys2Proof.Machine Sys2Proof.Says in
/-- R353 to R355: the bit instructions complete with the results of the table. -/
def Obligations.BitInstructionsGiveTheTableResults : Prop :=
  Both .and .andShort rowAnd aluAnd byZero (fun i l => bitsOut i.v (a32 i l &&& b32 i l) (a64 i l &&& b64 i l))
  ∧ Both .or .orShort rowOr aluOr byZero (fun i l => bitsOut i.v (a32 i l ||| b32 i l) (a64 i l ||| b64 i l))
  ∧ Both .xor .xorShort rowXor aluXor byZero (fun i l => bitsOut i.v (a32 i l ^^^ b32 i l) (a64 i l ^^^ b64 i l))
  ∧ Both .not .notShort rowNot aluNot byZero (fun i l => bitsOut i.v (~~~ a32 i l) (~~~ a64 i l))
  ∧ Both .shl .shlShort rowShl aluShl byZero (fun i l => word (a32 i l <<< (b32 i l).toNat))
  ∧ Both .shr .shrShort rowShr aluShr byZero (fun i l => word (a32 i l >>> (b32 i l).toNat))
  ∧ Both .sar .sarShort rowSar aluSar byZero (fun i l => word ((a32 i l).sshiftRight (b32 i l).toNat))
  ∧ Both .rot .rotShort rowRot aluRot byZero (fun i l => word ((a32 i l).rotateLeft ((b32 i l).toNat % 32)))
  ∧ Both .popc .popcShort rowPopc aluPopc byZero (fun i l => word (ones (a32 i l)))
  ∧ Both .clz .clzShort rowClz aluClz byZero (fun i l => word (leading (a32 i l)))
  ∧ Both .ctz .ctzShort rowCtz aluCtz byZero (fun i l => word (trailing (a32 i l)))
  ∧ Both .brev .brevShort rowBrev aluBrev byZero (fun i l => word (ofBits fun j => (a32 i l).getLsbD (31 - j)))
  ∧ Long .bfx rowBfx aluBfx byZero (fun i l => word (extract i.v (a32 i l) (b32 i l)))
  ∧ Long .bfi rowBfi aluBfi byZero (fun i l => word (insert (a32 i l) (b32 i l) (c32 i l)))
  ∧ Long .shf64 rowShf64 aluShf64 byZero (fun i l => dword (
      if i.v.sub = 0 then a64 i l <<< (b32 i l).toNat else if i.v.sub = 1 then a64 i l >>> (b32 i l).toNat
      else (a64 i l).sshiftRight (b32 i l).toNat))
  ∧ Long .bsel rowBsel aluBsel byZero (fun i l => word (ofBits fun j =>
      selByte (b32 i l ++ a32 i l) ((c32 i l).extractLsb' (8 * (j / 8)) 8) (j % 8)))

open Sys2Proof Sys2Proof.Machine Sys2Proof.Says in
/-- R173, R356 to R358: predicates are read by depth and pushed, special registers and single lanes are read. -/
def Obligations.PredicateAndSpecialInstructionsGiveTheTableResults : Prop :=
  Both .pand .pandShort rowPand aluPand byZero (fun i l => truth (i.w.pred l i.v.aRaw && i.w.pred l i.v.bRaw))
  ∧ Both .por .porShort rowPor aluPor byZero (fun i l => truth (i.w.pred l i.v.aRaw || i.w.pred l i.v.bRaw))
  ∧ Both .pxor .pxorShort rowPxor aluPxor byZero (fun i l => truth (i.w.pred l i.v.aRaw ^^ i.w.pred l i.v.bRaw))
  ∧ Both .pnot .pnotShort rowPnot aluPnot byZero (fun i l => truth (!i.w.pred l i.v.aRaw))
  ∧ Both .ppush .ppushShort rowPpush aluPpush byZero (fun i l => truth (i.rd .i32 i.v.a l ≠ 0))
  ∧ Both .pget .pgetShort rowPget aluPget byZero (fun i l => word (ofBits fun d => decide (d < 8) && i.w.pred l d))
  ∧ Both .rdsp .rdspShort rowRdsp aluRdsp byZero special
  ∧ Both .rdlane .rdlaneShort rowRdlane aluRdlane byZero (fun i l =>
      word (BitVec.ofNat 32 (fromLane i .i32 ((b32 i l).toNat % 32))))

open Sys2Proof Sys2Proof.Machine Sys2Proof.Says in
/-- R359 to R362: the lane operations complete with the results of their entries. -/
def Obligations.LaneInstructionsGiveTheirResults : Prop :=
  Both .shfl .shflShort rowShfl aluShfl bySign (fun i l => shuffled i (shuffleLane i.v.sub l (b32 i l).toNat))
  ∧ Both .bcast .bcastShort rowBcast aluBcast bySign (fun i l => shuffled i ((b32 i l).toNat % 32))
  ∧ Both .vote .voteShort rowVote aluVote bySign (fun i _ =>
      if i.v.sub = 2 then word (ofBits (voting i)) else if i.v.sub = 1 then truth (i.ex.all (voting i))
      else truth (i.ex.any (voting i)))
  ∧ Both .mcount .mcountShort rowMcount aluMcount bySign (fun i l =>
      word (BitVec.ofNat 32 (i.ex.countP fun j => i.rd .i32 i.v.a j == i.rd .i32 i.v.a l)))
  ∧ Both .lanes .lanesShort rowLanes aluLanes bySign (fun i _ => word (ofBits i.ex.contains))
  ∧ Both .redux .reduxShort rowRedux aluRedux bySign (fun i _ => rounded (tree i 5 0))
  ∧ Both .scan .scanShort rowScan aluScan bySign (fun i l =>
      flag true (running i 31).f (word (BitVec.ofNat 32 (running i l).v)))
  ∧ Both .ddx .ddxShort rowDdx aluDdx bySign (fun i l =>
      if i.v.sub = 1 && decide (2 ≤ l % 4) then quadOut i l 3 2 else quadOut i l 1 0)
  ∧ Both .ddy .ddyShort rowDdy aluDdy bySign (fun i l =>
      if i.v.sub = 1 && l % 2 = 1 then quadOut i l 3 1 else quadOut i l 2 0)


open Sys2Proof Sys2Proof.Machine Sys2Proof.Says in
/-- R365 to R372: the FP32 instructions complete: one rounding by RND of the exact result, with its flags; the functions that the
spec bounds (R369, R370) are the model's free values within the bounds (log 13). -/
def Obligations.FloatInstructionsGiveRoundedResults : Prop :=
  Both .fadd .faddShort rowFadd aluFadd byZero (fun i l => rounded (Fmt.f32.add (mode i) (fa i l) (fb i l)))
  ∧ Both .fsub .fsubShort rowFsub aluFsub byZero (fun i l => rounded (Fmt.f32.sub (mode i) (fa i l) (fb i l)))
  ∧ Both .fmul .fmulShort rowFmul aluFmul byZero (fun i l => rounded (Fmt.f32.mul (mode i) (fa i l) (fb i l)))
  ∧ Long .fma rowFma aluFma byZero (fun i l => rounded (Fmt.f32.fma (mode i) (fa i l) (fb i l) (fc i l)))
  ∧ Both .fmin .fminShort rowFmin aluFmin byZero (fun i l =>
      rounded (if i.v.sub = 1 then Fmt.f32.minIeee (fa i l) (fb i l) else Fmt.f32.minNum (fa i l) (fb i l)))
  ∧ Both .fmax .fmaxShort rowFmax aluFmax byZero (fun i l =>
      rounded (if i.v.sub = 1 then Fmt.f32.maxIeee (fa i l) (fb i l) else Fmt.f32.maxNum (fa i l) (fb i l)))
  ∧ Both .fcmp .fcmpShort rowFcmp aluFcmp byZero (fun i l =>
      let c := fcmpX i.v.sub (Fmt.f32.decode (fa i l)) (Fmt.f32.decode (fb i l))
      flag true c.2 (truth c.1))
  ∧ Long .fdiv rowFdiv aluFdiv byZero (fun i l => rounded (Fmt.f32.div (mode i) (fa i l) (fb i l)))
  ∧ Long .fdivApx rowFdivApx aluFdivApx byZero (fun i l => rounded (f32DivApx (fa i l) (fb i l)))
  ∧ Long .fsqrt rowFsqrt aluFsqrt byZero (fun i l => rounded (Fmt.f32.sqrt (mode i) (fa i l)))
  ∧ Long .frcp rowFrcp aluFrcp byZero (fun i l => rounded (Fmt.f32.div (mode i) 0x3F800000 (fa i l)))
  ∧ Long .frsq rowFrsq aluFrsq byZero (fun i l => rounded (f32Rsq (fa i l)))
  ∧ Long .ftrn rowFtrn aluFtrn byZero (fun i l => rounded (ftrn i.v.sub (fa i l)))
  ∧ Both .frnd .frndShort rowFrnd aluFrnd byZero (fun i l => rounded (f32Rnd (mode i) (fa i l)))
  ∧ Both .ffract .ffractShort rowFfract aluFfract byZero (fun i l => rounded (f32Fract (fa i l)))
  ∧ Both .fclass .fclassShort rowFclass aluFclass byZero (fun i l => word (BitVec.ofNat 32 (f32Class (fa i l))))
  ∧ Both .fscale .fscaleShort rowFscale aluFscale byZero (fun i l =>
      if i.v.sub = 0 then rounded (f32Ldexp (mode i) (fa i l) (b32 i l).toInt)
      else flag true (f32Frexp (fa i l)).2.2
        { res := [BitVec.ofNat 32 (f32Frexp (fa i l)).2.1, BitVec.ofNat 32 (f32Frexp (fa i l)).1], preds := [], fl := 0 })

open Sys2Proof Sys2Proof.Machine Sys2Proof.Says in
/-- R373 to R375: the packed instructions complete on each element. -/
def Obligations.PackedInstructionsWorkOnEachElement : Prop :=
  Both .hadd2 .hadd2Short rowHadd2 aluHadd2 byZero (fun i l => elements fun j =>
      if i.v.sub = 1 then (fmt i).sub (mode i) (pa i l j) (pb i l j) else (fmt i).add (mode i) (pa i l j) (pb i l j))
  ∧ Both .hmul2 .hmul2Short rowHmul2 aluHmul2 byZero (fun i l => elements fun j => (fmt i).mul (mode i) (pa i l j) (pb i l j))
  ∧ Long .hfma2 rowHfma2 aluHfma2 byZero (fun i l => elements fun j =>
      (fmt i).fma (mode i) (pa i l j) (pb i l j) (pc i l j))
  ∧ Both .hmin2 .hmin2Short rowHmin2 aluHmin2 byZero (fun i l => elements fun j => (fmt i).minNum (pa i l j) (pb i l j))
  ∧ Both .hmax2 .hmax2Short rowHmax2 aluHmax2 byZero (fun i l => elements fun j => (fmt i).maxNum (pa i l j) (pb i l j))
  ∧ Both .hcmp2 .hcmp2Short rowHcmp2 aluHcmp2 byZero (fun i l =>
      let c (j : Nat) := fcmpX i.v.sub ((fmt i).decode (pa i l j)) ((fmt i).decode (pb i l j))
      { res := [], preds := [(c 1).1, (c 0).1], fl := (c 0).2 ||| (c 1).2 })
  ∧ Long .hdot2 rowHdot2 aluHdot2 byZero (fun i l =>
      rounded (hdot2 (fmt i) (mode i) (i.rd (.pk (bf i)) i.v.a l) (i.rd (.pk (bf i)) i.v.b l) (fc i l)))

namespace Sys2Proof.Says
open Sys2Proof.Machine

/-- How a conversion reads A: by its source type. -/
def cvtTy (t : Ty) : OpTy :=
  match t with
  | .f32 => .f32
  | .f16 => .pk false
  | .bf16 => .pk true
  | .s64 | .z64 | .b64 => .i64
  | _ => .i32
/-- The mode of RND; code 4 rounds with bits 15:0 of a word (R376, R292). -/
def modeOr (i : Iss) (rho : Nat) : Rnd := if i.v.rnd = 4 then .sr (rho % 65536) else Rnd.ofCode i.v.rnd
def cvtSgn (v : View) : Bool := v.cvtDst.signed
def cvtOut (i : Iss) (l : Nat) : AluOut :=
  let r := cvt i.v.cvtSrc i.v.cvtDst (modeOr i (i.rd .i32 i.v.b l)) (i.rd (cvtTy i.v.cvtSrc) i.v.a l)
  flag true r.f (if i.v.cvtDst.width = 64 then dword (BitVec.ofNat 64 r.v) else word (BitVec.ofNat 32 r.v))
/-- R325, R378, R379: the format, the element and the byte of the scale word that SUB selects. -/
def narrow (i : Iss) : NFmt := NFmt.ofCode (i.v.sub % 16)
def byteAt (x k : Nat) : Nat := x / 256 ^ k % 256
/-- R378: element `j` of the lane, quantised by the scale (and special) byte that SUB selects. -/
def quantised (i : Iss) (l j x : Nat) : FR :=
  (narrow i).quant x (byteAt (i.rd .i32 i.v.b l) (i.v.sub / 64)) (if narrow i = .e2m1 then byteAt (i.rd .i32 i.v.c l) (i.v.sub / 64) else 0)
    (if i.v.rnd = 4 then .sr (rng (i.rd .i32 i.v.c l) j l % 65536) else Rnd.ofCode i.v.rnd) i.v.sat
/-- R379: element `j` of the lane's word, widened. -/
def widened (i : Iss) (l j : Nat) : FR :=
  (narrow i).widen ((narrow i).elem (i.rd .i32 i.v.a l) j)
    (if i.v.sub % 16 ≤ 8 then byteAt (i.rd .i32 i.v.b l) 0 else 0) (if i.v.sub % 16 = 4 then byteAt (i.rd .i32 i.v.c l) 0 else 0)
def toBf (i : Iss) (r : FR) : FR :=
  let q := Fmt.bf16.round (Rnd.ofCode i.v.rnd) (Fmt.f32.decode r.v)
  { v := q.v, f := r.f ||| q.f }
/-- R381: the largest magnitude of A over the lanes of Exec whose B selects lane `j`; a NaN dominates. -/
def largest (i : Iss) (j : Nat) : XR :=
  (i.ex.filter fun l => i.rd .i32 i.v.b l % 32 = j).foldl (fun m l => maxNan m (Fmt.f32.decode (i.rd .f32 i.v.a l)).abs) (.fin false 0 0)
def scaleOf (i : Iss) (j : Nat) : AluOut :=
  if i.v.sub = 0 || decide (j % 16 < 4) then
    let e := blockScale (NFmt.ofCode (i.rd .i32 i.v.c 0 % 16)) (largest i j)
    flag true e.2 (word (BitVec.ofNat 32 e.1))
  else word 0x7F

end Sys2Proof.Says

open Sys2Proof Sys2Proof.Machine Sys2Proof.Says in
/-- R376 to R381: the conversions complete. -/
def Obligations.ConversionsGiveTheirResults : Prop :=
  Both .cvt .cvtShort rowCvt aluCvt cvtSgn cvtOut
  ∧ Long .cvtn rowCvtn aluCvtn byZero (fun i l =>
      let n := if (narrow i).slot = 4 then 4 else 8
      let rs := (i.w.span l i.v.a i.v.cvtnN).zipIdx.map fun (x, j) => quantised i l j x
      flag true (rs.foldl (fun f r => f ||| r.f) 0)
        (word (BitVec.ofNat 32 ((rs.zipIdx.map fun (r, j) => r.v * 2 ^ (n * j)).sum))))
  ∧ Long .cvtw rowCvtw aluCvtw byZero (fun i l =>
      let j := i.v.sub / 16 % 8
      if i.v.sub / 128 % 2 = 0 then rounded (widened i l j)
      else if i.v.typeRaw = 12 then packed (toBf i (widened i l j)) (toBf i (widened i l (j + 1)))
      else flag true ((widened i l j).f ||| (widened i l (j + 1)).f)
        { res := [BitVec.ofNat 32 (widened i l (j + 1)).v, BitVec.ofNat 32 (widened i l j).v], preds := [], fl := 0 })
  ∧ Both .sgnpk .sgnpkShort rowSgnpk aluSgnpk byZero (fun i _ =>
      word (ofBits fun j => i.ex.contains j && (BitVec.ofNat 32 (fa i j)).msb))
  ∧ Both .sgnex .sgnexShort rowSgnex aluSgnex byZero (fun i l =>
      word (if (a32 i l).getLsbD l then BitVec.ofNat 32 (fb i l) ^^^ 0x80000000#32 else BitVec.ofNat 32 (fb i l)))
  ∧ Long .scl rowScl aluScl byZero scaleOf
  ∧ Long .scl32 rowScl32 aluScl32 byZero scaleOf
  ∧ Both .rngl .rnglShort rowRngl aluRngl byZero (fun i l => word (BitVec.ofNat 32 (rng (i.rd .i32 i.v.a l) (i.rd .i32 i.v.b l) l)))

open Sys2Proof Sys2Proof.Machine Sys2Proof.Says in
/-- R382 to R384: the interval instructions complete, hi pushed before lo. -/
def Obligations.IntervalInstructionsGiveTheirResults : Prop :=
  Both .xadd .xaddShort rowXadd aluXadd byZero (fun i l => interval (Itv.add (xa i l) (xb i l)))
  ∧ Both .xsub .xsubShort rowXsub aluXsub byZero (fun i l => interval (Itv.sub (xa i l) (xb i l)))
  ∧ Both .xmul .xmulShort rowXmul aluXmul byZero (fun i l => interval (Itv.mul (xa i l) (xb i l)))
  ∧ Long .xdiv rowXdiv aluXdiv byZero (fun i l => interval (Itv.div (xa i l) (xb i l)))
  ∧ Both .xsqr .xsqrShort rowXsqr aluXsqr byZero (fun i l => interval (Itv.sqr (xa i l)))
  ∧ Long .xsqrt rowXsqrt aluXsqrt byZero (fun i l => interval (Itv.sqrt (xa i l)))
  ∧ Both .xmin .xminShort rowXmin aluXmin byZero (fun i l => interval (Itv.min (xa i l) (xb i l)))
  ∧ Both .xmax .xmaxShort rowXmax aluXmax byZero (fun i l => interval (Itv.max (xa i l) (xb i l)))
  ∧ Both .xabs .xabsShort rowXabs aluXabs byZero (fun i l => interval (Itv.abs (xa i l)))
  ∧ Both .xhull .xhullShort rowXhull aluXhull byZero (fun i l => interval (Itv.hull (xa i l) (xb i l)))
  ∧ Both .xmeet .xmeetShort rowXmeet aluXmeet byZero (fun i l =>
      { interval (Itv.meet (xa i l) (xb i l)).1 with preds := [(Itv.meet (xa i l) (xb i l)).2] })
  ∧ Both .xtest .xtestShort rowXtest aluXtest byZero (fun i l =>
      let t := Itv.test (xa i l) (fb i l)
      { res := [], preds := [t.1, t.2.1], fl := t.2.2 })
  ∧ Both .xmk .xmkShort rowXmk aluXmk byZero (fun i l => interval (Itv.mk' (fa i l) (fb i l)))
  ∧ Both .xmid .xmidShort rowXmid aluXmid byZero (fun i l => rounded (Itv.mid (xa i l)))


/-! ### Control -/

namespace Sys2Proof.Says
open Sys2Proof.Machine

/-- An instruction whose issue meets no cause of its own does nothing but go on. -/
def Plain (ins : Instr) (r : Row) (v : View) : Prop := ∀ s i, Issues r v s i → ∃ t, exec ins s = .next t ∧ i.GoesOn t

/-- R342: the offset of the address of the branch plus the displacement, on 64 bits. -/
def branchTarget (i : Iss) : Nat := i.s.codeOff i.w.ctx (wrap ((i.iaddr : Int) + i.v.brDisp) 64)

/-- R343: the forwarded code address that a lane names. -/
def codeTarget (i : Iss) (l : Nat) : Nat := i.s.forward i.w.ctx (i.rd .i64 i.v.a l)

/-- R343: every lane of Exec names an aligned address in the code heap, and the pipe of A, if any, can be popped. -/
def Lands (i : Iss) : Prop :=
  i.pipesCz = [] ∧ i.pipesReady = true ∧ ∀ l ∈ i.ex, codeTarget i l % 4 = 0 ∧ (i.s.ctx i.w.ctx).codeBase ≤ codeTarget i l
    ∧ codeTarget i l < (i.s.ctx i.w.ctx).codeBase + 4096 * (i.s.ctx i.w.ctx).codePages

def BranchGoes (ins : Instr) (v : View) : Prop :=
  ∀ s i, Issues rowBr v s i → ∃ t, exec ins s = .next t ∧ i.Moves (fun _ => branchTarget i) t ∧ i.Quietly t
def JumpGoes (ins : Instr) (v : View) : Prop :=
  ∀ s i, Issues rowBri v s i → Lands i → ∃ t, exec ins s = .next t
    ∧ i.Moves (fun l => i.s.codeOff i.w.ctx (codeTarget i l)) t ∧ (i.pops = [] → i.Quietly t)

/-- R344: the return point that lane `l` pushes beyond the eighth entry is the 8 bytes at its place in the live record; every
other byte of memory stays. -/
def RecordsReturns (i : Iss) (t : State) : Prop :=
  (∀ l ∈ i.ex, 8 ≤ (i.w.lane l).ret.length →
    ofBytes (t.peekPhys (i.s.retAddr i.w.ctx i.key l (i.w.lane l).ret.length) 8) = i.nextPc)
  ∧ ∀ pa, (∀ l ∈ i.ex, 8 ≤ (i.w.lane l).ret.length →
      let a := i.s.retAddr i.w.ctx i.key l (i.w.lane l).ret.length; pa < a ∨ a + 8 ≤ pa) → t.byteAt pa = i.s.byteAt pa

def CallGoes (ins : Instr) (r : Row) (v : View) (ready : Iss → Prop) (target : Iss → Nat → Nat) : Prop :=
  ∀ s i, Issues r v s i → ready i → (∀ l ∈ i.ex, (i.w.lane l).ret.length < 32) → s.mem.canonical →
    ∃ t, exec ins s = .next t ∧ i.Transfers (target i) (fun j => i.nextPc :: (i.w.lane j).ret) t ∧ RecordsReturns i t
      ∧ (i.pops = [] → (∀ l ∈ i.ex, (i.w.lane l).ret.length < 8) → i.Quietly t)

/-- R344, R345: the newest return entry of a lane: held in the core up to the eighth, else in the live record. -/
def newestReturn (i : Iss) (l : Nat) : Nat :=
  match (i.w.lane l).ret with
  | [] => 0
  | x :: rest =>
    if rest.length < 8 then x
    else ofBytes (i.s.peekPhys (i.s.retAddr i.w.ctx i.key l rest.length) 8) % 2 ^ 48

def ReturnGoes (ins : Instr) (v : View) : Prop :=
  ∀ s i, Issues rowRet v s i → (∀ l ∈ i.ex, (i.w.lane l).ret ≠ []) → ∃ t, exec ins s = .next t
    ∧ i.Transfers (newestReturn i) (fun j => (i.w.lane j).ret.tail) t ∧ (∀ pa, t.byteAt pa = s.byteAt pa)
    ∧ ((∀ l ∈ i.ex, (i.w.lane l).ret.length ≤ 8) → i.Quietly t)

/-- R159: the lanes of Exec are parked at the next instruction; the other lanes at the issue address go on. -/
def Parks (ins : Instr) (v : View) : Prop :=
  ∀ s i, Issues rowYieldl v s i → ∃ t w, exec ins s = .next t ∧ t.wave? i.key = some w ∧ i.Advanced w ∧ w.kVals = i.w.kVals
    ∧ (∀ j, LaneKeeps (i.w.lane j) (w.lane j)) ∧ (∀ j ∈ i.ex, (w.lane j).isParked = !(w.lane j).retired) ∧ i.Quietly t

/-- R156, R157: the lanes of Exec are retired, with empty return stacks; a lane that is left goes on as before. -/
def Retires (ins : Instr) (v : View) : Prop :=
  ∀ s i, Issues rowExit v s i →
    (∃ t, exec ins s = .next t)
    ∧ ((∃ j ∈ i.w.heldLanes, j ∉ i.ex ∧ i.nextPc ≠ retiredPc) →
      ∃ t, exec ins s = .next t ∧ i.Transfers (fun _ => retiredPc) (fun _ => []) t ∧ i.Quietly t)

end Sys2Proof.Says

open Sys2Proof Sys2Proof.Machine Sys2Proof.Says in
/-- R342, R343: nop goes on, branches jump to address plus displacement, indirect ones to the forwarded address of each lane. -/
def Sys2Proof.Says.BranchesTakeTheLanesOfExecToTheirTargets : Prop :=
  (∀ f, Plain (.nop f) rowNop f.view) ∧ (∀ f, Plain (.nopShort f) rowNop f.view)
  ∧ (∀ f, BranchGoes (.br f) f.view) ∧ (∀ f, BranchGoes (.brShort f) f.view)
  ∧ (∀ f, JumpGoes (.bri f) f.view) ∧ (∀ f, JumpGoes (.briShort f) f.view)

open Sys2Proof Sys2Proof.Machine Sys2Proof.Says in
/-- R344, R345: call and calli push the next instruction's offset on each lane's return stack, and ret pops it. -/
def Sys2Proof.Says.CallsAndReturnsKeepTheReturnStacks : Prop :=
  (∀ f, CallGoes (.call f) rowCall f.view (fun _ => True) fun i _ => branchTarget i)
  ∧ (∀ f, CallGoes (.callShort f) rowCall f.view (fun _ => True) fun i _ => branchTarget i)
  ∧ (∀ f, CallGoes (.calli f) rowCalli f.view Lands fun i l => i.s.codeOff i.w.ctx (codeTarget i l))
  ∧ (∀ f, CallGoes (.calliShort f) rowCalli f.view Lands fun i l => i.s.codeOff i.w.ctx (codeTarget i l))
  ∧ (∀ f, ReturnGoes (.ret f) f.view) ∧ (∀ f, ReturnGoes (.retShort f) f.view)

open Sys2Proof Sys2Proof.Machine Sys2Proof.Says in
/-- R157, R159, R346: exit retires the lanes of Exec and yieldl parks them. -/
def Sys2Proof.Says.ExitRetiresAndYieldlParksTheLanesOfExec : Prop :=
  (∀ f, Retires (.exit f) f.view) ∧ (∀ f, Retires (.exitShort f) f.view)
  ∧ (∀ f, Parks (.yieldl f) f.view) ∧ (∀ f, Parks (.yieldlShort f) f.view)

open Sys2Proof.Says in
/-- The statements above: branches, calls, returns, exit and yieldl. -/
def Obligations.ControlInstructionsMoveTheirLanes : Prop := BranchesTakeTheLanesOfExecToTheirTargets ∧ CallsAndReturnsKeepTheReturnStacks ∧ ExitRetiresAndYieldlParksTheLanesOfExec

/-! ### Exceptions -/

namespace Sys2Proof.Says
open Sys2Proof.Machine

/-- R246 step 3: the wave is in trap mode at the handler: every lane that is not retired is live at CTX_TRAPVEC with its return
stack, k0 holds the virtual address of the live record and k1 the cause, and shelf, named registers, predicates, flags and the
other k registers are zero. -/
structure InHandler (s : State) (key cause : Nat) (old w : Wave) : Prop where
  mode : w.trapMode = true
  retired : ∀ j, (w.lane j).retired = (old.lane j).retired ∨ (s.codeOff old.ctx (s.ctx old.ctx).vec.toNat = retiredPc)
  pc : ∀ j, (old.lane j).retired = false → (w.lane j).pc = s.codeOff old.ctx (s.ctx old.ctx).vec.toNat ∧ (w.lane j).parked = none
  ret : ∀ j, (w.lane j).ret.length = (old.lane j).ret.length ∧ ((old.lane j).ret.length ≤ 8 → (w.lane j).ret = (old.lane j).ret)
  zero : ∀ j, (∀ a, w.see ((w.lane j).shelfCell a) = 0) ∧ (∀ r, w.nVal j r = 0) ∧ ∀ d, w.pred j d = false
  k0 : w.kVal 0 = (s.vbase old.ctx + 0x100000 + 24576 * key) % 2 ^ 64
  k1 : w.kVal 1 = cause % 2 ^ 64
  kRest : ∀ r, 2 ≤ r → w.kVal r = 0
  flags : w.flags = 0 ∧ w.domains = 0

/-- R248, R250: the trap record in the live record: cause, lanes, the code address, and the resume point of each lane. -/
structure Recorded (s : State) (key : Nat) (t : TrapRec) (old : Wave) (u : State) : Prop where
  cause : ofBytes (u.peekPhys (s.liveRecord old.ctx key + 0x80) 1) = t.cause % 256
  mask : ofBytes (u.peekPhys (s.liveRecord old.ctx key + 0x84) 4) = t.mask % 2 ^ 32
  iaddr : ofBytes (u.peekPhys (s.liveRecord old.ctx key + 0x88) 8) = t.iaddr % 2 ^ 64
  resume : ∀ l, l < 32 → ofBytes (u.peekPhys (s.liveRecord old.ctx key + 0x100 + 8 * l) 8)
    = ((old.resumeAt t.adv).lane l).pc % 2 ^ 64
  others : ∀ pa, pa < s.liveRecord old.ctx key ∨ s.liveRecord old.ctx key + 24576 ≤ pa → u.byteAt pa = s.byteAt pa

/-- The live record of a wave lies in device memory, VBASE is not 0, and memory is in canonical form. -/
def CanTrap (s : State) (key : Nat) (w : Wave) : Prop :=
  s.mem.canonical ∧ s.liveRecord w.ctx key + 24576 ≤ hostBase ∧ s.vbase w.ctx ≠ 0

/-- An instruction whose effect, with lanes in Exec, is to take a cause with the next instruction as its resume point (R247,
R348); with none in Exec it goes on. -/
def TakesTrap (ins : Instr) (r : Row) (v : View) (cause : Nat) (reaches : Iss → Prop) : Prop :=
  ∀ s i, Issues r v s i → reaches i →
    (i.ex = [] → ∃ t, exec ins s = .next t ∧ i.GoesOn t)
    ∧ (i.ex ≠ [] → i.w.trapMode = false → i.w.busy = false → CanTrap s i.key i.w →
      ∃ t w, exec ins s = .next t ∧ t.wave? i.key = some w ∧ InHandler s i.key cause i.w w
        ∧ Recorded s i.key { cause := cause, lane := 0xFF, mask := maskOfLanes i.ex, iaddr := i.iaddr, maddr := 0, info := 0
                             adv := viewBytes v } i.w t
        ∧ ∀ k, k ≠ i.key → t.wave? k = s.wave? k)

/-- R261: the wave stops for the debugger, with its state in the live record, and the context's LAST register tells of the
first. -/
def StopsForDebugger (ins : Instr) (r : Row) (v : View) (cause : Nat) (reaches : Iss → Prop) : Prop :=
  ∀ s i, Issues r v s i → reaches i → (s.ctx i.w.ctx).attach = true → i.w.trapMode = false →
    (i.ex = [] → ∃ t, exec ins s = .next t ∧ i.GoesOn t)
    ∧ (i.ex ≠ [] → i.w.busy = false → s.mem.canonical → Sparse.wf Ctx.reset s.ctxs = true →
        s.liveRecord i.w.ctx i.key + 24576 ≤ hostBase →
      ∃ t w, exec ins s = .next t ∧ t.wave? i.key = some w ∧ w.dbgHalt = true
        ∧ (t.ctx i.w.ctx).lastVld = true
        ∧ ((s.ctx i.w.ctx).lastVld = false → (t.ctx i.w.ctx).lastCause = cause ∧ (t.ctx i.w.ctx).lastSlot = keySlot i.key
            ∧ (t.ctx i.w.ctx).lastPart = keyPart i.key)
        ∧ ofBytes (t.peekPhys (s.liveRecord i.w.ctx i.key + 0x80) 1) = cause
        ∧ bit t.host.irqPend.toNat 6 = true)

/-- R84, R245: the flags that a tfence of the wave delivers: CTX_TRAPEN as its gang was placed with it. -/
def trapEnOf (i : Iss) : BitVec 8 := match i.s.gang? i.w.gang with | some G => G.trapEn | none => (i.s.ctx i.w.ctx).trapEn

/-- R347: tfence with nothing to deliver goes on. -/
def FencesTraps (ins : Instr) (v : View) : Prop :=
  ∀ s i, Issues rowTfence v s i → (∀ t, t < 6 → i.w.tokenClear t = true) →
    (i.w.trapMode = true ∨ (i.w.asyncs = [] ∧ i.w.flags &&& trapEnOf i = 0)) →
    ∃ t, exec ins s = .next t ∧ i.GoesOn t

/-- R245: a tfence delivers the oldest pending asynchronous cause. -/
def DeliversAsync (ins : Instr) (v : View) : Prop :=
  ∀ s i c q rest, Issues rowTfence v s i → (∀ t, t < 6 → i.w.tokenClear t = true) → i.w.trapMode = false →
    i.w.busy = false → CanTrap s i.key i.w → i.w.asyncs = (c, q) :: rest →
    ∃ t w, exec ins s = .next t ∧ t.wave? i.key = some w ∧ InHandler s i.key c i.w w

/-- R244, R245: with no cause pending, a tfence delivers the lowest flag that is set and enabled, in its lowest domain. -/
def DeliversFlag (ins : Instr) (v : View) : Prop :=
  ∀ s i f, Issues rowTfence v s i → (∀ t, t < 6 → i.w.tokenClear t = true) → i.w.trapMode = false →
    i.w.busy = false → CanTrap s i.key i.w → i.w.asyncs = [] →
    f < 8 → (i.w.flags &&& trapEnOf i).getLsbD f = true → (∀ g, g < f → (i.w.flags &&& trapEnOf i).getLsbD g = false) →
    ∃ t w, exec ins s = .next t ∧ t.wave? i.key = some w
      ∧ InHandler s i.key (0x20 + 4 * f + ((List.range 4).find? fun d => i.w.domains.getLsbD (4 * f + d)).getD 0) i.w w

/-- R246: where VBASE is 0 the wave stops at the tfence outside trap mode, and still has the cause pending. -/
def StopsWithCause (ins : Instr) (v : View) : Prop :=
  ∀ s i c q rest, Issues rowTfence v s i → (∀ t, t < 6 → i.w.tokenClear t = true) → i.w.trapMode = false →
    i.w.busy = false → s.vbase i.w.ctx = 0 → i.w.asyncs = (c, q) :: rest →
    ∃ t w, exec ins s = .next t ∧ t.wave? i.key = some w ∧ w.trapMode = false ∧ w.asyncs = i.w.asyncs
      ∧ (w.wait = .stopped ∨ w.wait = .stopSpace)

/-- R434: tret reloads the wave from its live record and leaves trap mode. -/
def ReturnsFromTrap (ins : Instr) (v : View) : Prop :=
  ∀ s i, Issues rowTret v s i → i.w.trapMode = true → s.mem.canonical →
    (s.liveRecord i.w.ctx i.key + 24576 ≤ hostBase ∨ hostBase ≤ s.liveRecord i.w.ctx i.key) →
    ∃ t w, exec ins s = .next t ∧ t.wave? i.key = some w ∧ w.trapMode = false ∧ w.wait = .none ∧ w.n = i.w.n
      ∧ (∀ r, r < 32 → w.kVal r = ofBytes (s.peekPhys (s.liveRecord i.w.ctx i.key + 0x200 + 8 * r) 8))
      ∧ w.flags.toNat = ofBytes (s.peekPhys (s.liveRecord i.w.ctx i.key + 0x10) 1)
      ∧ w.domains.toNat = ofBytes (s.peekPhys (s.liveRecord i.w.ctx i.key + 0x14) 4)
      ∧ w.rstate.toNat = ofBytes (s.peekPhys (s.liveRecord i.w.ctx i.key + 0x30) 8)
      ∧ (∀ l, l < 32 → bit (ofBytes (s.peekPhys (s.liveRecord i.w.ctx i.key + 0x18) 4)) l = true →
          (w.lane l).parked = none
          ∧ (w.lane l).pc = ofBytes (s.peekPhys (s.liveRecord i.w.ctx i.key + 0x100 + 8 * l) 8) % 2 ^ 48)
      ∧ (∀ l, l < 32 → ∀ a, a < 16 →
          w.see ((w.lane l).shelfCell a) = ofBytes (s.peekPhys (s.liveRecord i.w.ctx i.key + 0x400 + 128 * a + 4 * l) 4))
      ∧ (∀ l, l < 32 → ∀ r, r < i.w.n →
          w.nVal l r = ofBytes (s.peekPhys (s.liveRecord i.w.ctx i.key + 0x2C00 + 128 * r + 4 * l) 4))
      ∧ ∀ pa, t.byteAt pa = s.byteAt pa

end Sys2Proof.Says

open Sys2Proof Sys2Proof.Machine Sys2Proof.Says in
/-- R246 to R248, R348: trap, and brk without a debugger, enter the trap handler and leave their record; with no lane in Exec they
do nothing. -/
def Sys2Proof.Says.TrapAndBrkEnterTheHandler : Prop :=
  (∀ f, TakesTrap (.trap f) rowTrap f.view 0x0C fun _ => True) ∧ (∀ f, TakesTrap (.trapShort f) rowTrap f.view 0x0C fun _ => True)
  ∧ (∀ f, TakesTrap (.brk f) rowBrk f.view 0x0D fun i => (i.s.ctx i.w.ctx).attach = false)
  ∧ (∀ f, TakesTrap (.brkShort f) rowBrk f.view 0x0D fun i => (i.s.ctx i.w.ctx).attach = false)

open Sys2Proof Sys2Proof.Machine Sys2Proof.Says in
/-- R243, R261, R435, R436: with a debugger attached, brk, halt and a dbgmk it attends to stop the wave; a dbgmk that none
attends to goes on. -/
def Sys2Proof.Says.BrkHaltAndDbgmkStopForTheDebugger : Prop :=
  (∀ f, StopsForDebugger (.brk f) rowBrk f.view 0x0D fun _ => True)
  ∧ (∀ f, StopsForDebugger (.brkShort f) rowBrk f.view 0x0D fun _ => True)
  ∧ (∀ f, StopsForDebugger (.halt f) rowHalt f.view 0x00 fun _ => True)
  ∧ (∀ f, StopsForDebugger (.haltShort f) rowHalt f.view 0x00 fun _ => True)
  ∧ (∀ f, StopsForDebugger (.dbgmk f) rowDbgmk f.view 0x18 fun i => (i.s.ctx i.w.ctx).attn = true)
  ∧ (∀ f, StopsForDebugger (.dbgmkShort f) rowDbgmk f.view 0x18 fun i => (i.s.ctx i.w.ctx).attn = true)
  ∧ (∀ f s i, Issues rowDbgmk (LongF.view f) s i → (s.ctx i.w.ctx).attach = false ∨ (s.ctx i.w.ctx).attn = false →
      ∃ t, exec (.dbgmk f) s = .next t ∧ i.GoesOn t)
  ∧ (∀ f s i, Issues rowDbgmk (ShortF.view f) s i → (s.ctx i.w.ctx).attach = false ∨ (s.ctx i.w.ctx).attn = false →
      ∃ t, exec (.dbgmkShort f) s = .next t ∧ i.GoesOn t)

open Sys2Proof.Says in
/-- The statements above: trap and brk enter the handler; with a debugger, brk, halt and dbgmk stop. -/
def Obligations.TrapsBreaksAndHaltsEnterHandlerOrDebugger : Prop := TrapAndBrkEnterTheHandler ∧ BrkHaltAndDbgmkStopForTheDebugger

open Sys2Proof Sys2Proof.Machine Sys2Proof.Says in
/-- R244, R245, R347: tfence delivers what is pending, the oldest asynchronous cause before the lowest enabled flag, and else goes
on; where VBASE is 0 the cause stays pending. -/
def Sys2Proof.Says.TfenceDeliversWhatIsPending : Prop :=
  (∀ f, FencesTraps (.tfence f) f.view) ∧ (∀ f, FencesTraps (.tfenceShort f) f.view)
  ∧ (∀ f, DeliversAsync (.tfence f) f.view) ∧ (∀ f, DeliversAsync (.tfenceShort f) f.view)
  ∧ (∀ f, DeliversFlag (.tfence f) f.view) ∧ (∀ f, DeliversFlag (.tfenceShort f) f.view)
  ∧ (∀ f, StopsWithCause (.tfence f) f.view) ∧ (∀ f, StopsWithCause (.tfenceShort f) f.view)

open Sys2Proof Sys2Proof.Machine Sys2Proof.Says in
/-- R434: tret reloads the whole wave from its live record and leaves trap mode. -/
def Sys2Proof.Says.TretReloadsTheLiveRecord : Prop :=
  (∀ f, ReturnsFromTrap (.tret f) f.view) ∧ (∀ f, ReturnsFromTrap (.tretShort f) f.view)

open Sys2Proof.Says in
/-- The statements above: tfence delivers what is pending; tret reloads the live record. -/
def Obligations.TfenceDeliversAndTretReloads : Prop := TfenceDeliversWhatIsPending ∧ TretReloadsTheLiveRecord

open Sys2Proof Sys2Proof.Machine Sys2Proof.Says in
/-- R246, R434: what a trap saves, a reload of the live record gives back: a delivery, and a reload that finds the record as the
delivery left it, give the wave its registers again, with every issued result arrived (R328); what a
tfence delivers, it takes from the flags (R245). The domains are those of R168
(NAMED at most 64), R344 (32 return entries, offsets of 48 bits). -/
def Obligations.AReloadAfterADeliveryGivesTheRegistersBack : Prop :=
  ∀ s key w t h passed, w.trapMode = false → CanTrap s key w → w.n ≤ 64 → t.pending = false → (s.deliver key w t).wave? key = some h →
    ∃ w', ((s.deliver key w t).reloadWave key h passed).wave? key = some w' ∧ w'.trapMode = false ∧ w'.n = w.n
      ∧ (∀ r, r < 32 → w'.kVal r = (w.kCell r).val.toNat) ∧ w'.flags = w.flags ∧ w'.domains = w.domains ∧ w'.rstate = w.rstate
      ∧ ∀ l, l < 32 → (∀ a, a < 16 → w'.see ((w'.lane l).shelfCell a) = ((w.lane l).shelfCell a).val.toNat)
          ∧ (∀ r, r < w.n → w'.nVal l r = ((w.lane l).namedCell r).val.toNat)
          ∧ (∀ d, d < 8 → w'.pred l d = ((w.lane l).predCell d).val)
          ∧ ((w.lane l).ret.length ≤ 32 → (∀ x ∈ (w.lane l).ret, x < 2 ^ 48) →
              (w'.lane l).ret = (s.refillLane w.ctx key l (w.lane l)).ret)
          ∧ (w'.lane l).pc = ((w.resumeAt t.adv).lane l).pc % 2 ^ 48

/-! ### Memory -/

namespace Sys2Proof.Says
open Sys2Proof.Machine

/-- Outside registers: the instruction changes memory with its metadata, translation's counts, L1, translation caches and performance
counters of cores, and its own wave, and pops the pipe that it may name (R172); where a checked word has lost its parity, the error counts and
interrupt 3 as well (R21); nothing else of the machine. -/
structure Reaches (i : Iss) (t : State) : Prop where
  outside : t = { i.popAll.2 with dev := t.dev, host := t.host, mem := t.mem, xlt := t.xlt, cores := t.cores, waves := t.waves, freeCtr := t.freeCtr }
  clean : i.s.mem.flaws = [] → t.dev = i.popAll.2.dev ∧ t.host = i.popAll.2.host
  memory : t.mem = { i.s.mem with cells := t.mem.cells, host := t.mem.host, blocks := t.mem.blocks, wcb := t.mem.wcb
                                  flaws := t.mem.flaws, sectFree := t.mem.sectFree, stats := t.mem.stats, waiting := t.mem.waiting }
  cores : Sparse.wf Core.reset i.s.cores = true →
    ∀ c, t.core c = { i.popAll.2.core c with l1 := (t.core c).l1, l1Tags := (t.core c).l1Tags, tlb := (t.core c).tlb
                                             walks := (t.core c).walks, perf := (t.core c).perf }
  waves : ∀ k, k ≠ i.key → t.wave? k = i.s.wave? k
  own : ∀ w, t.wave? i.key = some w → Wave.SameFrame i.w w

/-- Lanes of Exec take results as in `Iss.Gives`, and the uniform registers and the flags stay. -/
def GivesLanes (i : Iss) (out : Nat → AluOut) (t : State) : Prop :=
  ∃ w, t.wave? i.key = some w ∧ i.Advanced w ∧ w.kVals = i.w.kVals ∧ w.flags = i.w.flags ∧
    ∀ j, if j ∈ i.ex then LaneGets i.v.d (out j) (i.w.lane j) (w.lane j) else LaneKeeps (i.w.lane j) (w.lane j)

/-- The registers stay. -/
def GivesNone (i : Iss) (t : State) : Prop :=
  ∃ w, t.wave? i.key = some w ∧ i.Advanced w ∧ w.kVals = i.w.kVals ∧ w.flags = i.w.flags ∧
    ∀ j, LaneKeeps (i.w.lane j) (w.lane j)

/-- An instruction that accesses global memory meets nothing that stops it: the pages of its accesses translate, from state `s`
to `u`, and allow it (R210, R232, R233); no copy entry owns what it names, by address or by place (R224); a release at system scope has
nothing to wait for (R66); no strongly ordered read of the wave is still under way before it (R209); no watchpoint, no lost completion and no
uncorrectable error is in its way; its own checks find nothing. -/
structure Accesses (r : Row) (v : View) (s : State) (i : Iss) (a : Access) (accs : List LaneAcc) (pre : List Cz)
    (ls : List LaneX) (u : State) : Prop extends Issues r v s i where
  unwatched : i.watchCz a accs = []
  piped : i.pipesCz = []
  stocked : i.pipesReady = true
  checked : pre = []
  unowned : i.s.owned i.w.ctx i.core false accs = false
  fenced : i.fenceFirst i.sysRelease = none
  translated : i.s.xlateLanes i.core i.w.ctx a accs = (ls, u)
  allowed : ∀ x ∈ ls, x.cz a = none
  answered : i.w.hostErr = false
  intact : ueLanes a ls (u.flawsMet (some i.core) i.viaL1 a ls) = []
  inOrder : i.soHeld ls = false
  free : u.ownedPa (allPieces ls) = false

/-- The bytes of translated pieces as memory holds them. -/
def bytesOf (u : State) (ps : List Piece) : List Byte := ps.flatMap fun p => u.peekPhys p.x.pa p.n

/-- R386: the result of a load. -/
def loadResult (t : Ty) (bs : List Byte) : AluOut :=
  if t.width = 64 then dword (BitVec.ofNat 64 (ofBytes bs))
  else if t.signed then word ((BitVec.ofNat t.width (ofBytes bs)).signExtend 32)
  else word ((BitVec.ofNat t.width (ofBytes bs)).zeroExtend 32)

/-- R390: what parts of a write leave at a physical address; of several, the last. -/
def lastAt (ps : List WritePart) (pa : Nat) : Option Byte :=
  ps.foldl (fun acc p =>
    if p.pa ≤ pa ∧ pa < p.pa + p.data.length ∧ (p.pa < hostBase ↔ pa < hostBase) then p.data[pa - p.pa]? else acc) none

/-- R386, R390: the writes of a store: each lane's datum at its pieces, the lanes ascending. -/
def storeParts (i : Iss) (ls : List LaneX) : List WritePart :=
  ls.flatMap fun x => partsOf x.pieces (toBytes (i.v.memTy.width / 8) (i.data x.acc.lane))

/-- R42: the writes of an instruction are not refused for want of free sectors. -/
def Fits (u : State) (core : Nat) (atomic : Bool) (ps : List WritePart) : Prop := (u.writeParts (u.checks core) atomic ps).isSome = true

def LoadsLanes (ins : Instr) (v : View) : Prop :=
  ∀ s i ls u, Accesses rowLd v s i (Access.read.at v.order) i.accs [] ls u → i.ex ≠ [] →
    ∃ t, exec ins s = .next t ∧ (∀ pa, t.byteAt pa = u.byteAt pa) ∧ Reaches i t
      ∧ GivesLanes i (fun l => match ls.find? (fun x => x.acc.lane = l) with
          | some x => loadResult v.memTy (bytesOf u x.pieces)
          | none => { res := [], preds := [], fl := 0 }) t

def StoresLanes (ins : Instr) (v : View) : Prop :=
  ∀ s i ls u, Accesses rowSt v s i (Access.write.at v.order) i.accs [] ls u → i.ex ≠ [] → u.mem.canonical →
    Fits u i.core false (storeParts i ls) →
    ∃ t, exec ins s = .next t ∧ (∀ pa, t.byteAt pa = (lastAt (storeParts i ls) pa).getD (u.byteAt pa)) ∧ Reaches i t
      ∧ GivesNone i t

/-- R390, R320: a uniform load writes its register, extended to 64 bits by type. -/
def LoadsUniform (ins : Instr) (v : View) : Prop :=
  ∀ s i ls u r, Accesses rowLdk v s i (Access.read.at v.order) i.accsK [] ls u → i.ex ≠ [] → v.d = .k r →
    ∃ t w, exec ins s = .next t ∧ t.wave? i.key = some w ∧ i.Advanced w ∧ (∀ pa, t.byteAt pa = u.byteAt pa) ∧ Reaches i t
      ∧ w.kVals = setAt i.w.kVals r
          (let x := BitVec.ofNat v.memTy.width (ofBytes (bytesOf u (allPieces ls)))
           if v.memTy.signed then x.signExtend 64 else x.zeroExtend 64)
      ∧ w.flags = i.w.flags ∧ ∀ j, LaneKeeps (i.w.lane j) (w.lane j)

def StoresUniform (ins : Instr) (v : View) : Prop :=
  ∀ s i ls u, Accesses rowStk v s i (Access.write.at v.order) i.accsK [] ls u → i.ex ≠ [] → u.mem.canonical →
    Fits u i.core false (storeParts i ls) →
    ∃ t, exec ins s = .next t ∧ (∀ pa, t.byteAt pa = (lastAt (storeParts i ls) pa).getD (u.byteAt pa)) ∧ Reaches i t
      ∧ GivesNone i t

/-- R388, R181: a scratchpad access that lies in the gang's allocation and names no byte that a copy entry owns, nor one that an
unfinished K-step reads and it writes (R417), and meets no word whose check fails for good; `code` is the cause of such a word (R23). -/
structure Nearby (r : Row) (v : View) (s : State) (i : Iss) (code : Nat) (pre : List Cz) : Prop extends Issues r v s i where
  inside : ∀ x ∈ i.accs, i.s.inAlloc i.w.gang x.a x.n = true
  unowned : i.s.owned i.w.ctx i.core true i.accs = false
  piped : i.pipesCz = []
  stocked : i.pipesReady = true
  checked : pre = []
  fenced : i.fenceFirst i.sysRelease = none
  intact : (i.localCheck code i.accs).1 = []
  unread : code ≠ 0x60 → i.s.readsA i.core i.key i.accs = false

/-- No wave of the core waits on a barrier object (R201). -/
def NoneWaits (s : State) (core : Nat) : Prop := ∀ k, keyCore k = core → ∀ a p d, s.waitOf k ≠ .object a p d

/-- One byte of a core's scratchpad. -/
def spAt (s : State) (c a : Nat) : Byte := Sparse.get 0 (s.core c).scratch a

/-- Scratchpad contents after writes at scratchpad addresses: of several, the last. -/
def lastSp (ps : List (Nat × List Byte)) (a : Nat) : Option Byte :=
  ps.foldl (fun acc p => if p.1 ≤ a ∧ a < p.1 + p.2.length then p.2[a - p.1]? else acc) none

/-- Of the machine only the wave and its own core change, of the core scratchpad and performance counters; a pipe that the instruction
names is popped (R172). Where a checked word of the scratchpad has lost its parity, so do the error counts, interrupt 3 and the
record of such words (R21). -/
structure StaysNear (i : Iss) (t : State) : Prop where
  outside : t = { i.popAll.2 with dev := t.dev, host := t.host, cores := t.cores, waves := t.waves }
  clean : (∀ c, (i.s.core c).flaws = []) → t.dev = i.popAll.2.dev ∧ t.host = i.popAll.2.host
  cores : Sparse.wf Core.reset i.s.cores = true →
    ∀ c, t.core c = { i.s.core c with scratch := (t.core c).scratch, flaws := (t.core c).flaws, perf := (t.core c).perf }
  waves : ∀ k, k ≠ i.key → t.wave? k = i.s.wave? k
  own : ∀ w, t.wave? i.key = some w → Wave.SameFrame i.w w

def LoadsNear (ins : Instr) (v : View) : Prop :=
  ∀ s i, Nearby rowLds v s i 0x60 [] → i.ex ≠ [] → Memory.wf (i.s.core i.core).scratch = true →
    ∃ t, exec ins s = .next t ∧ StaysNear i t ∧ (∀ c a, spAt t c a = spAt i.s c a) ∧ ((i.s.core i.core).flaws = [] → i.Quietly t)
      ∧ GivesLanes i (fun l => loadResult v.memTy ((List.range v.memBytes).map fun j => spAt i.s i.core (i.addr l + j))) t

def StoresNear (ins : Instr) (v : View) : Prop :=
  ∀ s i, Nearby rowSts v s i 0x61 [] → i.ex ≠ [] → NoneWaits i.s i.core → Sparse.wf Core.reset i.s.cores = true → Memory.wf (i.s.core i.core).scratch = true →
    ∃ t, exec ins s = .next t ∧ GivesNone i t ∧ StaysNear i t
      ∧ ∀ a, spAt t i.core a
          = (lastSp (i.ex.map fun l => (i.addr l, toBytes (v.memTy.width / 8) (i.data l))) a).getD (spAt i.s i.core a)

/-- R391: the weight store of the die, at addresses modulo its size, where the check of no word fails for good (R23). -/
def LoadsWeights (ins : Instr) (v : View) : Prop :=
  ∀ s i, Issues rowLdw v s i →
    ueLocal 0x60 (i.accs.map fun x => { x with a := x.a % 2 ^ 31 }) (i.s.dieFlaws (i.core / 48) i.accs) = [] →
    ∃ t, exec ins s = .next t ∧ (i.s.storeFlaws = [] → i.Quietly t)
      ∧ t = { i.s with dev := t.dev, host := t.host, storeFlaws := t.storeFlaws, cores := t.cores, waves := t.waves }
      ∧ GivesLanes i (fun l => loadResult v.memTy ((List.range v.memBytes).map fun j =>
          Sparse.get 0 i.s.wstore (i.core / 48 * 2 ^ 31 + (i.addr l + j) % 2 ^ 31))) t

/-- R387, R218: with no lane in Exec, and no system-scope release to wait for, an access does nothing. -/
def IdleAccess (ins : Instr) (r : Row) (v : View) : Prop :=
  ∀ s i, Issues r v s i → i.ex = [] → i.pipesCz = [] → i.pipesReady = true → (v.scope ≠ 4 ∨ isRelease v.order = false) → ∃ t, exec ins s = .next t ∧ i.GoesOn t

end Sys2Proof.Says

open Sys2Proof Sys2Proof.Machine Sys2Proof.Says in
/-- R386, R389, R390: global loads and stores. The states `u` that the accesses reach differ from `s` by what translation does
(R234), of which another statement speaks. -/
def Obligations.LoadsAndStoresReachGlobalMemory : Prop :=
  (∀ f, LoadsLanes (.ld f) f.view) ∧ (∀ f, StoresLanes (.st f) f.view)
  ∧ (∀ f, LoadsUniform (.ldk f) f.view) ∧ (∀ f, StoresUniform (.stk f) f.view)

open Sys2Proof Sys2Proof.Machine Sys2Proof.Says in
/-- R180, R181, R386, R390, R391: scratchpad and weight-store accesses. -/
def Sys2Proof.Says.LoadsAndStoresReachLocalMemory : Prop :=
  (∀ f, LoadsNear (.lds f) f.view) ∧ (∀ f, StoresNear (.sts f) f.view) ∧ (∀ f, LoadsWeights (.ldw f) f.view)

open Sys2Proof Sys2Proof.Machine Sys2Proof.Says in
/-- R387: an access whose Exec is empty does nothing, where its order asks for nothing of the fabric. -/
def Sys2Proof.Says.AccessesWithEmptyExecGoOn : Prop :=
  (∀ f, IdleAccess (.ld f) rowLd (LongF.view f)) ∧ (∀ f, IdleAccess (.st f) rowSt (LongF.view f))
  ∧ (∀ f, IdleAccess (.ldk f) rowLdk (LongF.view f)) ∧ (∀ f, IdleAccess (.stk f) rowStk (LongF.view f))
  ∧ (∀ f, IdleAccess (.lds f) rowLds (LongF.view f)) ∧ (∀ f, IdleAccess (.sts f) rowSts (LongF.view f))
  ∧ (∀ f, IdleAccess (.atom f) rowAtom (LongF.view f)) ∧ (∀ f, IdleAccess (.atoms f) rowAtoms (LongF.view f))
  ∧ (∀ f, IdleAccess (.red f) rowRed (LongF.view f)) ∧ (∀ f, IdleAccess (.reds f) rowReds (LongF.view f))
  ∧ (∀ f, IdleAccess (.cas f) rowCas (LongF.view f)) ∧ (∀ f, IdleAccess (.cass f) rowCass (LongF.view f))

open Sys2Proof.Says in
/-- The statements above: scratchpad and weight-store accesses; accesses whose Exec is empty. -/
def Obligations.LocalAccessesAndThoseOfNoLane : Prop := LoadsAndStoresReachLocalMemory ∧ AccessesWithEmptyExecGoOn

/-! ### Translation -/

namespace Sys2Proof.Says
open Sys2Proof.Machine

/-- Whether a leaf lets an access pass (R233). -/
def permits (leaf : Nat) (a : Access) : Prop :=
  (a.x = true → bit leaf 4 = true) ∧ (a.r = true → bit leaf 2 = true) ∧ (a.w = true → bit leaf 3 = true)

end Sys2Proof.Says

open Sys2Proof Sys2Proof.Machine Sys2Proof.Says in
/-- R229 to R234: without a TLB, an access whose walk ends in a leaf that permits it gets the frame of the leaf with the offset of
its address, sets A, and D if it writes, in the entry, and changes no other byte of memory; one that the leaf refuses,
one that the page does not allow (R197, R210) and an atomic to host space change nothing. Over a link that is down host space answers no access
(R18, R231: log 66). -/
def Sys2Proof.Says.TranslationGivesTheFrameAndSetsAccessedAndDirty : Prop :=
  ∀ (s : State) ctx va a e pa lo u, s.mem.canonical → canonical va = true → s.walk none ctx va = (.leaf e pa lo, u) → pa + 8 ≤ hostBase →
    (permits e a → ¬(a.r = true ∧ a.w = true ∧ hostBase ≤ bits e 12 40 * 4096) →
      (s.translate none ctx va a).1 = (if hostBase ≤ bits e 12 40 * 4096 + va % 2 ^ lo ∧ s.dev.pcieUp = false then .error 13
        else .ok { pa := bits e 12 40 * 4096 + va % 2 ^ lo, leaf := e })
      ∧ (a.pageKind e = none →
          ofBytes ((s.translate none ctx va a).2.peekPhys pa 8) = e ||| 0x200 ||| (if a.w then 0x400 else 0)
          ∧ ∀ p, p < pa ∨ pa + 8 ≤ p → (s.translate none ctx va a).2.byteAt p = s.byteAt p)
      ∧ (a.pageKind e ≠ none → ∀ p, (s.translate none ctx va a).2.byteAt p = s.byteAt p))
    ∧ (permits e a → (a.r = true ∧ a.w = true ∧ hostBase ≤ bits e 12 40 * 4096) →
      (s.translate none ctx va a).1 = .error 13 ∧ ∀ p, (s.translate none ctx va a).2.byteAt p = s.byteAt p)
    ∧ (¬ permits e a → (s.translate none ctx va a).1 = .error (if a.x && !bit e 4 then 2 else 1)
      ∧ ∀ p, (s.translate none ctx va a).2.byteAt p = s.byteAt p)

open Sys2Proof Sys2Proof.Machine in
/-- R229, R230: a walk changes no byte of memory; a root entry without V is a missing page, and a root table in the hole a format
error, for an agent without a walk cache (R235) and where no check of memory fails. -/
def Sys2Proof.Says.AWalkChangesNoByte : Prop :=
  ∀ (s : State) ctx va,
    (∀ core p, (s.walk core ctx va).2.byteAt p = s.byteAt p)
    ∧ (s.mem.rangeBad (s.ctx ctx).root 4096 = false → s.mem.flaws = [] →
        bit (ofBytes (s.peekPhys ((s.ctx ctx).root + 8 * bits va 48 9) 8)) 0 = false → (s.walk none ctx va).1 = .bad 0)
    ∧ (s.mem.rangeBad (s.ctx ctx).root 4096 = true → (s.walk none ctx va).1 = .bad 15)

open Sys2Proof.Says in
/-- The statements above: what a translation gives and what it writes. -/
def Obligations.TranslationFindsTheFrameAndChangesNoOtherByte : Prop := TranslationGivesTheFrameAndSetsAccessedAndDirty ∧ AWalkChangesNoByte

/-! ### Atomics -/

namespace Sys2Proof.Says
open Sys2Proof.Machine

/-- R396: the new value of an operation on values of `n` bits. -/
def newBits {n : Nat} (op : Nat) (sgn : Bool) (old v : BitVec n) : BitVec n :=
  match op with
  | 0 => old + v
  | 1 => old - v
  | 2 => if (if sgn then v.slt old else v.ult old) then v else old
  | 3 => if (if sgn then old.slt v else old.ult v) then v else old
  | 4 => old &&& v
  | 5 => old ||| v
  | 6 => old ^^^ v
  | 7 => v
  | 8 => if v = 0 then old + 1 else BitVec.ofNat n ((old.toNat + 1) % v.toNat)
  | _ => if v = 0 then old - 1 else BitVec.ofNat n ((old.toNat % v.toNat + v.toNat - 1) % v.toNat)

/-- R396: the same for FP32: lesser, greater, sum; the others as bits. -/
def newFloat (op : Nat) (old v : BitVec 32) : BitVec 32 :=
  match op with
  | 2 => BitVec.ofNat 32 (Fmt.f32.minNum old.toNat v.toNat).v
  | 3 => BitVec.ofNat 32 (Fmt.f32.maxNum old.toNat v.toNat).v
  | 10 => BitVec.ofNat 32 (Fmt.f32.add .rn old.toNat v.toNat).v
  | _ => newBits op false old v

def newValue (op : Nat) (t : Ty) (old v : Nat) : Nat :=
  if t = .f32 then (newFloat op (BitVec.ofNat 32 old) (BitVec.ofNat 32 v)).toNat
  else if t.width = 64 then (newBits op t.signed (BitVec.ofNat 64 old) (BitVec.ofNat 64 v)).toNat
  else (newBits op t.signed (BitVec.ofNat 32 old) (BitVec.ofNat 32 v)).toNat

/-- R397: compare value and swap value of a lane: 32 or 64 bits each. -/
def compareSwap (i : Iss) (l : Nat) : Nat × Nat :=
  if i.v.memTy.width = 64 then
    let x (j : Nat) : Nat := (i.w.span l i.v.c 4).getD j 0
    (x 0 + 2 ^ 32 * x 1, x 2 + 2 ^ 32 * x 3)
  else
    let x := i.rd .i64 i.v.c l
    (x % 2 ^ 32, x / 2 ^ 32)

/-- The types of an operation (R396). -/
def takes (op : Nat) (t : Ty) : Prop :=
  (op ∈ [0, 1, 4, 5, 6, 7] ∧ t ∈ [Ty.s32, .z32, .b32, .s64, .z64, .b64]) ∨ (op ∈ [2, 3] ∧ t ∈ [Ty.s32, .z32, .s64, .z64])
  ∨ (op ∈ [2, 3, 7, 10] ∧ t = .f32) ∨ (op ∈ [8, 9] ∧ t = .z32)

/-- What the atomic of a lane writes, by what it finds. -/
def newOf (i : Iss) (l old : Nat) : Option Nat := some (newValue (i.v.sub % 16) i.v.memTy old (i.data l))
def swapOf (i : Iss) (l old : Nat) : Option Nat :=
  if old = (compareSwap i l).1 then some (compareSwap i l).2 else none

/-- R189, R398: the lanes one at a time, each at its address: what each finds, and the bytes they leave. -/
def oneByOne (n : Nat) (f : Nat → Nat → Option Nat) : List (Nat × Nat) → (Nat → Byte) → List (Nat × Nat) × (Nat → Byte)
  | [], m => ([], m)
  | (l, a) :: rest, m =>
    let old := ofBytes ((List.range n).map fun j => m (a + j))
    let m := match f l old with
      | some x => fun b => if a ≤ b ∧ b < a + n then BitVec.ofNat 8 (x / 256 ^ (b - a)) else m b
      | none => m
    ((l, old) :: (oneByOne n f rest m).1, (oneByOne n f rest m).2)

/-- The result of each lane is the value it found. -/
def found (t : Ty) (n : Nat) (olds : List (Nat × Nat)) (l : Nat) : AluOut :=
  match olds.find? fun x => x.1 = l with
  | some (_, o) => loadResult t (toBytes n o)
  | none => { res := [], preds := [], fl := 0 }

/-- The lanes and the physical addresses of an atomic. -/
def places (ls : List LaneX) : List (Nat × Nat) := ls.map fun x => (x.acc.lane, (x.pieces.map fun p => p.x.pa).headD 0)

/-- A global atomic: every write that the lanes make is one part. -/
def atomParts (n : Nat) (i : Iss) (f : Iss → AtomFn) (ls : List LaneX) (u : State) : List WritePart :=
  (atomLanes n (f i) (ls.map LaneX.place) (u.closePieces (allPieces ls)).mem.cells).2.1

def AtomicGlobal (ins : Instr) (r : Row) (v : View) (f : Iss → AtomFn) (g : Iss → Nat → Nat → Option Nat) (ready : Prop)
    (pushes : Bool) : Prop :=
  ∀ s i ls u, Accesses r v s i Access.atomic i.atomAccs i.alignCz ls u → ready → i.ex ≠ [] → u.mem.canonical →
    Fits (u.closePieces (allPieces ls)) i.core true (atomParts v.memBytes i f ls u) →
    ∃ t, exec ins s = .next t ∧ Reaches i t
      ∧ (∀ pa, t.byteAt pa = (oneByOne v.memBytes (g i) (places ls) u.byteAt).2 pa)
      ∧ if pushes then GivesLanes i (found v.memTy v.memBytes (oneByOne v.memBytes (g i) (places ls) u.byteAt).1) t
        else GivesNone i t

def AtomicNear (ins : Instr) (r : Row) (v : View) (g : Iss → Nat → Nat → Option Nat) (ready : Prop) (pushes : Bool) : Prop :=
  ∀ s i, Nearby r v s i 0x62 i.alignCz → ready → i.ex ≠ [] → NoneWaits i.s i.core → Sparse.wf Core.reset i.s.cores = true → Memory.wf (i.s.core i.core).scratch = true →
    ∃ t, exec ins s = .next t ∧ StaysNear i t
      ∧ (∀ a, spAt t i.core a = (oneByOne v.memBytes (g i) (i.ex.map fun l => (l, i.addr l)) (spAt i.s i.core)).2 a)
      ∧ if pushes then
          GivesLanes i (found v.memTy v.memBytes (oneByOne v.memBytes (g i) (i.ex.map fun l => (l, i.addr l)) (spAt i.s i.core)).1) t
        else GivesNone i t

/-- R397: the widths of cas. -/
def casTakes (t : Ty) : Prop := t.width = 32 ∨ t.width = 64

end Sys2Proof.Says

open Sys2Proof Sys2Proof.Machine Sys2Proof.Says in
/-- R189, R395 to R398: atomics are performed lane by lane, ascending, each with the value that the lanes before it left; they
push the value found and set no flag. Operations 11 to 15 are refused with 0x02, and types that an operation does not accept with 0x03. -/
def Obligations.AtomicsArePerformedLaneByLane : Prop :=
  (∀ f, AtomicGlobal (.atom f) rowAtom (LongF.view f) Iss.atomFn newOf (takes (f.view.sub % 16) f.view.memTy) true)
  ∧ (∀ f, AtomicGlobal (.red f) rowRed (LongF.view f) Iss.atomFn newOf (takes (f.view.sub % 16) f.view.memTy) false)
  ∧ (∀ f, AtomicGlobal (.cas f) rowCas (LongF.view f) Iss.casFn swapOf (casTakes f.view.memTy) true)
  ∧ (∀ f, AtomicNear (.atoms f) rowAtoms (LongF.view f) newOf (takes (f.view.sub % 16) f.view.memTy) true)
  ∧ (∀ f, AtomicNear (.reds f) rowReds (LongF.view f) newOf (takes (f.view.sub % 16) f.view.memTy) false)
  ∧ (∀ f, AtomicNear (.cass f) rowCass (LongF.view f) swapOf (casTakes f.view.memTy) true)
  ∧ (∀ r ∈ [rowAtom, rowRed, rowAtoms, rowReds], ∀ f : LongF, (11 ≤ f.view.sub % 16 → 0x02 ∈ r.causes f.view)
      ∧ (f.view.sub % 16 ≤ 10 → ¬ takes (f.view.sub % 16) f.view.memTy → 0x03 ∈ r.causes f.view))

/-! ### Fences, barriers and waits -/

namespace Sys2Proof.Says
open Sys2Proof.Machine

/-- Every token of the wave is clear (R174). -/
def Settled (i : Iss) : Prop := ∀ t, t < 6 → i.w.tokenClear t = true

/-- R66: nothing that a release at system scope covers is under way. -/
def FabricQuiet (i : Iss) : Prop := i.s.unsent i.w.gang i.w.idx = [] ∧ i.s.usedLinks i.w.gang i.w.idx = []

/-- R218, R220: a fence that asks for nothing of the fabric, or finds nothing under way there, goes on; else the wave waits for the
release, which counts the entries to be sent and the links that carried some (R66). -/
def Fences (ins : Instr) (r : Row) (v : View) (release : Bool) : Prop :=
  ∀ s i, Issues r v s i →
    ((release = false ∨ FabricQuiet i) → ∃ t, exec ins s = .next t ∧ i.GoesOn t)
    ∧ (release = true → ¬ FabricQuiet i → ∃ t, exec ins s = .next t ∧ t.waitOf i.key = .fence s.fab.nextPut
        ∧ (∃ f ∈ t.fab.fences, f.id = s.fab.nextPut ∧ f.pending = i.s.unsent i.w.gang i.w.idx
            ∧ f.links = i.s.usedLinks i.w.gang i.w.idx)
        ∧ t.mem = s.mem ∧ t.cores = s.cores ∧ ∀ k, k ≠ i.key → t.wave? k = s.wave? k)

/-- The wave and performance counters change, and nothing else; said of states whose cores are listed in canonical form. -/
def Apart (i : Iss) (t : State) : Prop := Sparse.wf Core.reset i.s.cores = true → i.Local t

/-! #### Gang barrier (R399) -/

/-- A wave that waited at an instruction has gone on from it with its registers. -/
def GoneOn (t : State) (j : Iss) : Prop :=
  ∃ w, t.wave? j.key = some w ∧ w.wait = .none ∧ j.Advanced w ∧ w.kVals = j.w.kVals ∧ w.flags = j.w.flags
    ∧ ∀ l, LaneKeeps (j.w.lane l) (w.lane l)

/-- A wave arrives at its gang's barrier: all its lanes converged, its tokens clear, not yet arrived; a count (`bar.cnt`) agrees
with the phase's. `G` is its gang. -/
structure Arrives (r : Row) (v : View) (s : State) (i : Iss) (G : Gang) (n : Option Nat) : Prop extends Issues r v s i where
  converged : i.ex.length = 32
  settled : Settled i
  gang : s.gang? i.w.gang = some G
  member : (i.w.idx, i.key) ∈ G.left
  once : (G.left.map (·.2)).Nodup
  fresh : i.w.idx ∉ G.barArr
  agrees : G.barArr = [] ∨ (n = none ∧ G.barCnt = false) ∨ G.barN = n.getD G.left.length
  count : ∀ c, n = some c → i.barN = c ∧ 0 < c ∧ c ≤ 32

/-- With this wave the phase is complete: every wave left has arrived, or so many as the count says. -/
def Completes (G : Gang) (idx : Nat) (n : Option Nat) : Prop :=
  if G.barCnt = true ∨ n ≠ none then n.getD G.left.length ≤ G.barArr.length + 1
  else ∀ x ∈ G.left, x.1 = idx ∨ x.1 ∈ G.barArr

/-- The last wave to arrive goes on with all that wait; before it, a wave waits, counted as arrived. -/
def Barrier (ins : Instr) (r : Row) (v : View) (n : Iss → Option Nat) : Prop :=
  ∀ s i G, Arrives r v s i G (n i) →
    (Completes G i.w.idx (n i) → rowOfWords i.w.words = some (r, v) →
      (∀ x ∈ G.left, x.1 ∈ G.barArr → x.1 ≠ i.w.idx → s.waitOf x.2 = .bar ∧ (s.pending x.2).isSome = true) →
      ∃ t, exec ins s = .next t ∧ GoneOn t i
        ∧ (∀ x ∈ G.left, x.1 ∈ G.barArr → x.1 ≠ i.w.idx → ∀ j, s.pending x.2 = some j → GoneOn t j)
        ∧ (t.gang? i.w.gang).map (·.barArr) = some [] ∧ t.mem = s.mem)
    ∧ (¬ Completes G i.w.idx (n i) →
      ∃ t, exec ins s = .next t ∧ t.waitOf i.key = .bar ∧ (t.gang? i.w.gang).map (·.barArr) = some (G.barArr ++ [i.w.idx])
        ∧ t.mem = s.mem ∧ t.cores = s.cores ∧ ∀ k, k ≠ i.key → t.wave? k = s.wave? k)

/-! #### Ensemble barrier (R400) and rotation (R183) -/

/-- The state in which the wave has arrived and waits. -/
def waiting (i : Iss) (x : Wait) : State := i.s.setWave i.key { i.w with wait := x }

/-- A phase of the ensemble completes with this wave: every wave left of every resident member has arrived and stands waiting. -/
def EbarGoes (ins : Instr) (v : View) : Prop :=
  ∀ s i G, Issues rowEbar v s i → i.ex.length = 32 → Settled i → s.gang? i.w.gang = some G → G.task = false → G.callable = false →
    (i.w.idx, i.key) ∈ G.left → (s.gangs.map (·.1)).Nodup → ((s.ensGangs G.ens).flatMap fun x => x.2.left.map (·.2)).Nodup →
    ((∀ x ∈ s.ensGangs G.ens, ∀ y ∈ x.2.left, y.2 ≠ i.key →
        y.1 ∈ x.2.ebarArr ∧ s.waitOf y.2 = .ebar ∧ (s.pending y.2).isSome = true) →
      rowOfWords i.w.words = some (rowEbar, v) →
      ∃ t, exec ins s = .next t ∧ GoneOn t i
        ∧ (∀ x ∈ s.ensGangs G.ens, ∀ y ∈ x.2.left, y.2 ≠ i.key → ∀ j, s.pending y.2 = some j → GoneOn t j) ∧ t.mem = s.mem)
    ∧ ((∃ x ∈ s.ensGangs G.ens, ∃ y ∈ x.2.left, y.2 ≠ i.key ∧ (y.1 ∉ x.2.ebarArr ∨ s.waitOf y.2 ≠ .ebar)) →
      ∃ t, exec ins s = .next t ∧ t.waitOf i.key = .ebar ∧ t.mem = s.mem ∧ ∀ k, k ≠ i.key → t.wave? k = s.wave? k)

/-- A part of the scratchpads: of what rotations bring to a core's address, the last. -/
def broughtTo (ps : List (Nat × Nat × List Byte)) (c a : Nat) : Option Byte :=
  lastSp ((ps.filter fun p => p.1 = c).map fun p => (p.2.1, p.2.2)) a

/-- R183: with this wave every member that is not over has one at rrot, with one length and direction and places in the
allocations: each member's bytes, as they were, stand in its neighbour's scratchpad, and every such wave goes on. -/
def RrotGoes (ins : Instr) (v : View) : Prop :=
  ∀ s i G rs, Issues rowRrot v s i → i.ex.length = 32 → Settled i → s.gang? i.w.gang = some G → i.rotCz = [] →
    ((((waiting i .rrot).ensGangs G.ens).filter fun x => !x.2.left.isEmpty).map (waiting i .rrot).rotOf) = rs.map some →
    rs ≠ [] → (∀ r ∈ rs, r.len = i.rotL ∧ r.up = decide (i.v.sub = 0) ∧ (waiting i .rrot).rotCz rs r = none) →
    (waiting i .rrot).rotOwned rs = false → (rs.map (·.key)).Nodup → (∀ c, NoneWaits s c) →
    Sparse.wf Core.reset s.cores = true → (∀ c, Memory.wf (s.core c).scratch = true) →
    ∃ t, exec ins s = .next t
      ∧ (∀ c a, spAt t c a = (broughtTo (rs.filterMap fun r => (Rot.target rs r).map fun x =>
            (x.G.core, r.dst, (List.range r.len).map fun j => spAt s r.G.core (r.src + j))) c a).getD (spAt s c a))
      ∧ (∀ r ∈ rs, ∀ j, (waiting i .rrot).pending r.key = some j → GoneOn t j) ∧ t.mem = s.mem

/-! #### Barrier objects (R200, R201) -/

/-- The object at an instruction's address lies in the gang's allocation, aligned, unowned (R224), and no unfinished K-step reads
its bytes (R417); the check of none of its words fails for good (R23); pipes are ready. -/
structure AtObject (r : Row) (v : View) (s : State) (i : Iss) : Prop extends Issues r v s i where
  some_ : i.ex ≠ []
  inside : i.s.inAlloc i.w.gang i.addrU 16 = true
  aligned : i.addrU % 16 = 0
  unowned : i.s.owned i.w.ctx i.core true i.objAcc = false
  unread : i.s.readsA i.core i.key i.objAcc = false
  intact : ∀ code, ueLocal code i.objAcc (i.s.coreFlaws i.core 4 false i.objAcc) = []
  piped : i.pipesCz = []
  ready : i.pipesReady = true
  cores : Sparse.wf Core.reset i.s.cores = true
  bytes : Memory.wf (i.s.core i.core).scratch = true

/-- The object after the instruction, and every other byte of the core's scratchpad as before. -/
def Leaves (i : Iss) (t : State) (o : BarObj) : Prop :=
  t.readObj i.core i.addrU = o ∧ ∀ a, a < i.addrU ∨ i.addrU + 16 ≤ a → spAt t i.core a = spAt i.s i.core a

def BarinitGoes (ins : Instr) (v : View) : Prop :=
  ∀ s i, AtObject rowBarinit v s i → (i.s.readObj i.core i.addrU).wt = 0 → 0 < i.objExp → i.objExp ≤ 65535 → NoneWaits i.s i.core →
    ∃ t, exec ins s = .next t ∧ GivesNone i t ∧ StaysNear i t
      ∧ Leaves i t { exp := i.objExp, arr := 0, ph := 0, ovr := false, cpe := false, rsv := 0, wt := 0, time := 0 }

/-- R201: lanes that arrive with counts that EXP has room for: below it they add up, at it the phase moves on. -/
def BarriveGoes (ins : Instr) (v : View) : Prop :=
  ∀ s i, AtObject rowBarrive v s i → (i.s.readObj i.core i.addrU).bad = false → NoneWaits i.s i.core →
    (∀ l ∈ i.ex, i.rd .i32 i.v.c l ≠ 0) →
    let o := i.s.readObj i.core i.addrU
    let n := o.arr + (i.ex.map fun l => i.rd .i32 i.v.c l).sum
    n ≤ o.exp →
    ∃ t, exec ins s = .next t ∧ GivesNone i t ∧ (i.pops = [] → StaysNear i t)
      ∧ Leaves i t (if n < o.exp then { o with arr := n } else { o with arr := 0, ph := (o.ph + 1) % 16, time := s.dev.tsNow.toNat })

/-- The deadline of a wait: one that a save kept, or the present plus the timeout; 0xFFFF_FFFF is none. -/
def dueBy (i : Iss) : Option Nat :=
  match i.w.deadline with
  | some d => some d
  | none => if i.w.operand i.v .i32 [] 0 i.v.c = 0xFFFFFFFF then none else some (i.s.dev.tsNow.toNat + i.w.operand i.v .i32 [] 0 i.v.c)
def late (i : Iss) : Prop := ∃ d, dueBy i = some d ∧ d ≤ i.s.dev.tsNow.toNat

def BarwaitGoes (ins : Instr) (v : View) : Prop :=
  ∀ s i, AtObject rowBarwait v s i → (i.s.readObj i.core i.addrU).bad = false →
    let o := i.s.readObj i.core i.addrU
    (o.ph ≠ i.phase → ∃ t, exec ins s = .next t ∧ GivesLanes i (fun _ => truth true) t ∧ ((i.s.core i.core).flaws = [] → Apart i t))
    ∧ (o.ph = i.phase → late i → ∃ t, exec ins s = .next t ∧ GivesLanes i (fun _ => truth false) t ∧ ((i.s.core i.core).flaws = [] → Apart i t))
    ∧ (o.ph = i.phase → ¬ late i → o.wt < 65535 → ∃ t, exec ins s = .next t ∧ t.waitOf i.key = .object i.addrU i.phase (dueBy i)
        ∧ Leaves i t { o with wt := o.wt + 1 })

def BartestGoes (ins : Instr) (v : View) : Prop :=
  ∀ s i, AtObject rowBartest v s i → (i.s.readObj i.core i.addrU).bad = false →
    ∃ t, exec ins s = .next t ∧ GivesLanes i (fun _ => truth ((i.s.readObj i.core i.addrU).ph ≠ i.phase)) t ∧ ((i.s.core i.core).flaws = [] → i.Quietly t)

/-! #### waddr (R196, R403) -/

/-- R196: the conditions on a word and a value of `n` bits. -/
def holds {n : Nat} (cond : Nat) (w x : BitVec n) : Bool :=
  match cond with
  | 0 => w == x
  | 1 => w != x
  | 2 => x.ule w
  | 3 => w.ult x
  | 4 => x.sle w
  | 5 => w.slt x
  | _ => w &&& x != 0

/-- Whether the word that a waddr reads meets its condition. -/
def metBy (i : Iss) (w : Nat) : Bool :=
  if i.v.w64 then holds i.v.cond (BitVec.ofNat 64 w) (BitVec.ofNat 64 (i.w.operand i.v .i64 [] 0 i.v.b))
  else holds i.v.cond (BitVec.ofNat 32 w) (BitVec.ofNat 32 (i.w.operand i.v .i32 [] 0 i.v.b))

/-- One turn of a waddr with a word read: true, false after the deadline, or the wave sleeps. -/
def Turns (ins : Instr) (s : State) (i : Iss) (w : Nat) : Prop :=
  (metBy i w = true → ∃ t, exec ins s = .next t ∧ GivesLanes i (fun _ => truth true) t)
  ∧ (metBy i w = false → late i → ∃ t, exec ins s = .next t ∧ GivesLanes i (fun _ => truth false) t)
  ∧ (metBy i w = false → ¬ late i → ∃ t e, exec ins s = .next t
      ∧ t.waitOf i.key = .word i.inAlias (if i.inAlias then i.aliasOff else i.addrU) (dueBy i) e)

def WaddrGoes (ins : Instr) (v : View) : Prop :=
  (∀ s i, Issues rowWaddr v s i → i.ex ≠ [] → i.inAlias = true → i.waddrCz = [] →
    i.s.owned i.w.ctx i.core true i.aliasAccs = false → (i.localCheck 0x60 i.aliasAccs).1 = [] →
    Turns ins s i (ofBytes (i.s.spRead i.core i.aliasOff (if v.w64 then 8 else 4))))
  ∧ (∀ s i ls u, Accesses rowWaddr v s i (Access.read.at 0) i.waddrAccs i.waddrCz ls u → i.ex ≠ [] → i.inAlias = false →
    Turns ins s i (ofBytes (bytesOf u (allPieces ls))))
  ∧ ∀ s i, Issues rowWaddr v s i → i.ex = [] → ∃ t, exec ins s = .next t ∧ i.GoesOn t

/-! #### icinv, isync, wtok (R404, R405) -/

/-- R405: a line of a code buffer lies in the range, widened to lines of 128 bytes. -/
def inLines (i : Iss) (l : CodeLine) : Bool :=
  let lo := i.w.operand i.v .i64 [] 0 i.v.a
  let hi := lo + i.w.operand i.v .i32 [] 0 i.v.b
  l.ctx = i.w.ctx && decide (lo / 128 * 128 ≤ l.va) && decide (l.va < (hi + 127) / 128 * 128)
/-- R405: the cores of a scope: the own core, the cluster, the device. -/
def inScope (i : Iss) (c : Nat) : Bool :=
  if i.v.scope < 2 then c = i.core else if i.v.scope = 2 then c / 4 = i.core / 4 else decide (c < 192)

def IcinvGoes (ins : Instr) (v : View) : Prop :=
  ∀ s i, Issues rowIcinv v s i → i.ex ≠ [] → Sparse.wf Core.reset i.s.cores = true →
    ∃ t, exec ins s = .next t ∧ GivesNone i t ∧ t.mem = s.mem
      ∧ ∀ c, t.core c = { s.core c with
          codeBuf := if inScope i c then (s.core c).codeBuf.filter fun l => !inLines i l else (s.core c).codeBuf
          perf := (t.core c).perf }

/-- R404: wtok goes on when its token counts at most n, and else waits. -/
def WtokGoes (ins : Instr) (v : View) : Prop :=
  ∀ s i, Issues rowWtok v s i → (i.ex ≠ [] → i.wtokA % 8 ≤ 5) →
    ((i.ex = [] ∨ i.w.tokenCount (i.wtokA % 8) ≤ i.wtokA / 8 % 64) → ∃ t, exec ins s = .next t ∧ i.GoesOn t)
    ∧ (i.ex ≠ [] → i.wtokA / 8 % 64 < i.w.tokenCount (i.wtokA % 8) →
        ∃ t, exec ins s = .next t ∧ t.wave? i.key = some { i.w with wait := .retry .token } ∧ t.mem = s.mem ∧ t.cores = s.cores)

end Sys2Proof.Says

open Sys2Proof Sys2Proof.Machine Sys2Proof.Says in
/-- R66, R218, R220: fences. -/
def Obligations.FencesWaitForTheFabricAlone : Prop :=
  (∀ f, Fences (.fence f) rowFence (LongF.view f) (isRelease f.view.order && f.view.scope = 4))
  ∧ (∀ f, Fences (.fenceUn f) rowFenceUn (LongF.view f) true)

open Sys2Proof Sys2Proof.Machine Sys2Proof.Says in
/-- R399: the gang barrier, with and without a count. -/
def Obligations.TheGangBarrierOpensWithItsLastWave : Prop :=
  (∀ f, Barrier (.bar f) rowBar (LongF.view f) fun _ => none) ∧ (∀ f, Barrier (.barShort f) rowBar (ShortF.view f) fun _ => none)
  ∧ (∀ f, Barrier (.barCnt f) rowBarCnt (LongF.view f) fun i => some i.barN)

open Sys2Proof Sys2Proof.Machine Sys2Proof.Says in
/-- R183, R394, R400: the collectives of an ensemble. -/
def Obligations.EnsembleCollectivesActWithTheirLastWave : Prop :=
  (∀ f, EbarGoes (.ebar f) (LongF.view f)) ∧ (∀ f, EbarGoes (.ebarShort f) (ShortF.view f)) ∧ (∀ f, RrotGoes (.rrot f) (LongF.view f))

open Sys2Proof Sys2Proof.Machine Sys2Proof.Says in
/-- R200, R201, R401: barrier objects. -/
def Obligations.BarrierObjectsCountArrivals : Prop :=
  (∀ f, BarinitGoes (.barinit f) (LongF.view f)) ∧ (∀ f, BarriveGoes (.barrive f) (LongF.view f))
  ∧ (∀ f, BarwaitGoes (.barwait f) (LongF.view f)) ∧ (∀ f, BartestGoes (.bartest f) (LongF.view f))

open Sys2Proof Sys2Proof.Machine Sys2Proof.Says in
/-- R196, R403 to R405: waiting on an address, code buffers, tokens. -/
def Obligations.WaitsAndCodeBuffersFollowTheirOperands : Prop :=
  (∀ f, WaddrGoes (.waddr f) (LongF.view f)) ∧ (∀ f, IcinvGoes (.icinv f) (LongF.view f))
  ∧ (∀ f, WtokGoes (.wtok f) (LongF.view f)) ∧ (∀ f, WtokGoes (.wtokShort f) (ShortF.view f))
  ∧ (∀ f, Plain (.isync f) rowIsync (LongF.view f)) ∧ (∀ f, Plain (.isyncShort f) rowIsync (ShortF.view f))

/-! ### Registers by name, caches and local memory -/

namespace Sys2Proof.Says
open Sys2Proof.Machine

/-- A wave after an instruction that changes one part of it: lanes go on; shelf, named registers, return stacks, task records stay. -/
def OnlyPreds (i : Iss) (w : Wave) : Prop :=
  i.Advanced w ∧ w.kVals = i.w.kVals ∧ w.flags = i.w.flags ∧ w.domains = i.w.domains ∧ w.rstate = i.w.rstate
  ∧ ∀ j, (w.lane j).shelf = (i.w.lane j).shelf ∧ (w.lane j).named = (i.w.lane j).named ∧ (w.lane j).ret = (i.w.lane j).ret
      ∧ (w.lane j).task = (i.w.lane j).task

/-- R356: pdrop moves the depths of the lanes of Exec down by SUB + 1; what comes in is false. -/
def Drops (ins : Instr) (v : View) : Prop :=
  ∀ s i, Issues rowPdrop v s i → (∀ j ∈ i.ex, (i.w.lane j).preds.length = 8) →
    ∃ t w, exec ins s = .next t ∧ t.wave? i.key = some w ∧ OnlyPreds i w ∧ i.Quietly t
      ∧ (∀ j, j ∉ i.ex → (w.lane j).preds = (i.w.lane j).preds)
      ∧ ∀ j ∈ i.ex, ∀ d, d < 8 → ((w.lane j).predCell d).val =
          (decide (d + (v.sub + 1) < 8) && ((i.w.lane j).predCell (d + (v.sub + 1))).val)

/-- R173, R244, R357: wrsp %flags writes the flags and clears the domain masks of those it clears; wrsp %rstate writes it; with no
lane in Exec neither changes. -/
def WritesSpecial (ins : Instr) (v : View) : Prop :=
  ∀ s i, Issues rowWrsp v s i → (i.ex ≠ [] → i.wrspOk = true) →
    ∃ t w, exec ins s = .next t ∧ t.wave? i.key = some w ∧ i.Advanced w ∧ w.kVals = i.w.kVals
      ∧ (∀ j, LaneKeeps (i.w.lane j) (w.lane j)) ∧ (Sparse.wf Core.reset s.cores = true → i.Local t)
      ∧ (w.flags = if i.ex ≠ [] ∧ v.aRaw = 2 then BitVec.ofNat 8 i.wrspValue else i.w.flags)
      ∧ (w.rstate = if i.ex ≠ [] ∧ v.aRaw ≠ 2 then BitVec.ofNat 64 i.wrspValue else i.w.rstate)
      ∧ ∀ b, b < 32 → w.domains.getLsbD b
          = (i.w.domains.getLsbD b && (decide (i.ex = [] ∨ v.aRaw ≠ 2) || (BitVec.ofNat 8 i.wrspValue).getLsbD (b / 4)))

/-- R358: named register D of lane B mod 32 takes the uniform A, if a lane is in Exec. -/
def WritesLane (ins : Instr) (v : View) : Prop :=
  ∀ s i r, Issues rowWrlane v s i → v.d = .named r →
    ∃ t w, exec ins s = .next t ∧ t.wave? i.key = some w ∧ i.Advanced w ∧ w.kVals = i.w.kVals ∧ w.flags = i.w.flags ∧ i.Quietly t
      ∧ ∀ j, (w.lane j).shelfVals = (i.w.lane j).shelfVals ∧ (w.lane j).predVals = (i.w.lane j).predVals ∧ (w.lane j).ret = (i.w.lane j).ret
          ∧ (w.lane j).namedVals =
              if i.ex ≠ [] ∧ j = i.w.operand v .i32 [] 0 v.b % 32 then
                setAt (i.w.lane j).namedVals r (BitVec.ofNat 32 (i.w.operand v .i32 [] 0 v.a))
              else (i.w.lane j).namedVals

/-! #### regroup (R164) -/

/-- The lanes of a wave in the order of the low 8 bits of A, equal ones by lane. -/
def byKey (i : Iss) : List Nat :=
  (ascending (i.w.heldLanes.map fun l => 1024 * (i.rd .i32 i.v.a l % 256) + l)).map fun x => x % 32

/-- Nothing that has exited is left to be cleared away (R157). -/
def Tidy (s : State) : Prop := (∀ x ∈ s.waves, x.2.gone = false) ∧ ∀ x ∈ s.gangs, s.gangOver x.1 x.2 = false

/-- R164: a gang with one wave left: its lanes stand in the order of their keys in lanes 0, 1, …, all at the next instruction; a lane that
moved has its named registers, predicates and return stack with it and an empty shelf; the other lanes are retired. -/
def RegroupsAlone (ins : Instr) (v : View) : Prop :=
  ∀ s i G, Issues rowRegroup v s i → Settled i → i.ex = i.w.heldLanes → i.ex ≠ [] → i.pipesCz = [] → i.pipesReady = true →
    s.gang? i.w.gang = some G → G.left = [(i.w.idx, i.key)] → rowOfWords i.w.words = some (rowRegroup, v) → i.w.lanes.length = 32 →
    (∀ j, (i.w.lane j).ret.length ≤ 8) → i.nextPc ≠ retiredPc → G.barArr = [] → G.ebarArr = [] → Tidy s →
    ∃ t w, exec ins s = .next t ∧ t.wave? i.key = some w ∧ w.wait = .none ∧ w.kVals = i.w.kVals
      ∧ ∀ l, l < 32 → match (byKey i)[l]? with
          | none => (w.lane l).pc = retiredPc
          | some o => (w.lane l).pc = i.nextPc ∧ (w.lane l).namedVals = (i.w.lane o).namedVals
              ∧ (w.lane l).predVals = (i.w.lane o).predVals ∧ (w.lane l).ret = (i.w.lane o).ret
              ∧ (w.lane l).shelfVals = if o = l then (i.w.lane l).shelfVals else List.replicate 16 0

/-! #### L1, prefetch, the windows of the weight stores -/

/-- R392: pref changes no register: what it reaches is L1, the TLB and what translation sets. -/
def Prefetches (ins : Instr) (v : View) : Prop :=
  ∀ s i, Issues rowPref v s i →
    ∃ t, exec ins s = .next t ∧ GivesNone i t ∧ Reaches i t ∧ (i.ex = [] → i.Quietly t)

/-- R392: cinv with SUB 1 leaves L1 empty, else without the lines that the range names; no byte of memory changes. -/
def Invalidates (ins : Instr) (v : View) : Prop :=
  ∀ s i, Issues rowCinv v s i → Sparse.wf Core.reset s.cores = true →
    ∃ t, exec ins s = .next t ∧ GivesNone i t ∧ t.mem = s.mem
      ∧ (∀ c, t.core c = { s.core c with l1 := (t.core c).l1, perf := (t.core c).perf } ∧ (c ≠ i.core → (t.core c).l1 = (s.core c).l1))
      ∧ (i.ex = [] → (t.core i.core).l1 = (s.core i.core).l1) ∧ (i.ex ≠ [] → v.sub = 1 → (t.core i.core).l1 = [])
      ∧ (∀ b ∈ (t.core i.core).l1, b ∈ (s.core i.core).l1)

/-- R394, R182: cresize asks for min(20, A) ways; its result is that of an operation which completes with the resize. -/
def AsksForWays (ins : Instr) (v : View) : Prop :=
  ∀ s i, Issues rowCresize v s i → Sparse.wf Core.reset s.cores = true →
    ∃ t w, exec ins s = .next t ∧ t.wave? i.key = some w ∧ i.Advanced w ∧ w.kVals = i.w.kVals ∧ w.flags = i.w.flags ∧ t.mem = s.mem
      ∧ (i.ex ≠ [] → (t.core i.core).resize = (s.core i.core).resize
            ++ [{ ways := min 20 (i.w.operand v .i32 [] 0 v.a), asker := some (i.key, i.w.nextOp) }]
          ∧ w.ops = i.w.ops ++ [{ id := i.w.nextOp, token := v.ts, kind := .resize, mem := [0x9, 0xA, 0xC].contains (i.row.op / 16) }])
      ∧ (i.ex = [] → (t.core i.core).resize = (s.core i.core).resize)

/-- R188: whether a wsync for n cycles may end now: no bank group refreshes, and the time to the next window holds the cycles, of
which no more count than the time between two windows holds. -/
def windowFits (i : Iss) (n : Nat) : Prop :=
  let tick := i.s.dev.tsNow.toNat % 1000
  256 ≤ tick ∧ min n (i.s.dev.cclk * 744 / 1000) ≤ i.s.dev.cclk * (1000 - tick) / 1000

def SyncsToWindow (ins : Instr) (v : View) : Prop :=
  ∀ s i, Issues rowWsync v s i →
    ((i.ex = [] ∨ windowFits i (min 4095 (i.w.operand v .i32 [] 0 v.a))) → ∃ t, exec ins s = .next t ∧ i.GoesOn t)
    ∧ (i.ex ≠ [] → ¬ windowFits i (min 4095 (i.w.operand v .i32 [] 0 v.a)) →
        ∃ t, exec ins s = .next t ∧ t.wave? i.key = some { i.w with wait := .retry .window } ∧ t.mem = s.mem ∧ t.cores = s.cores)

/-! #### Futures (R197 to R199, R393) -/

/-- The 8-byte words that the lanes of Exec name. -/
def wordsOf (ls : List LaneX) : List Nat := ls.map LaneX.word8

/-- R199: an ldfut whose words are all full answers every lane at once: the word, and true. -/
def LoadsFutures (ins : Instr) (v : View) : Prop :=
  ∀ s i ls u, Accesses rowLdfut v s i Access.read.future i.accs8 (i.futureCz 0x4C) ls u → (∀ w ∈ wordsOf ls, u.isFull w = true) →
    (∀ d ∈ u.mem.deferred, d.wave ≠ i.key) →
    ∃ t, exec ins s = .next t ∧ (∀ pa, t.byteAt pa = u.byteAt pa) ∧ t.mem.full = u.mem.full ∧ t.mem.deferred = u.mem.deferred
      ∧ GivesLanes i (fun l => match ls.find? (fun x => x.acc.lane = l) with
          | some x => { dword (BitVec.ofNat 64 (ofBytes (bytesOf u x.pieces))) with preds := [true] }
          | none => { res := [], preds := [], fl := 0 }) t

/-- R199: with an empty word and room to wait, the lane's request is deferred, its results hold their places, and in mode W the wave
sleeps. -/
def DefersFutures (ins : Instr) (v : View) : Prop :=
  ∀ s i ls u x, Accesses rowLdfut v s i Access.read.future i.accs8 (i.futureCz 0x4C) ls u → ls = [x] → u.isFull x.word8 = false →
    (∀ d ∈ u.mem.deferred, d.wave ≠ i.key) → u.futRoom i.core (s.ctx i.w.ctx).futW x.word8 = true →
    u.ctx i.w.ctx = s.ctx i.w.ctx →
    ∃ t w, exec ins s = .next t ∧ t.wave? i.key = some w ∧ i.Advanced w
      ∧ t.mem.deferred = u.mem.deferred
          ++ [{ wave := i.key, op := i.w.nextOp, lane := x.acc.lane, word := x.word8, table := (s.ctx i.w.ctx).futW, so := x.pieces.any fun p => p.x.ord = 0 }]
      ∧ ((s.ctx i.w.ctx).futW = true → w.wait = .future i.w.nextOp)
      ∧ LaneGets i.v.d futHold (i.w.lane x.acc.lane) (w.lane x.acc.lane)

/-- R198: stfill writes the words and sets them full; here no lane waits for one of them. -/
def FillsFutures (ins : Instr) (v : View) : Prop :=
  ∀ s i ls u, Accesses rowStfill v s i Access.write.future i.accs8 (i.futureCz 0x4D) ls u → (∀ w ∈ wordsOf ls, u.isFull w = false) →
    (wordsOf ls).Nodup → (∀ d ∈ u.mem.deferred, d.word ∉ wordsOf ls) → u.mem.canonical → Sparse.wf false u.mem.full = true →
    let parts := ls.flatMap fun x => partsOf x.pieces (toBytes 8 (i.rd .i64 v.c x.acc.lane))
    Fits u i.core false parts →
    ∃ t, exec ins s = .next t ∧ GivesNone i t ∧ (∀ pa, t.byteAt pa = (lastAt parts pa).getD (u.byteAt pa))
      ∧ ∀ w, t.isFull w = (decide (w ∈ wordsOf ls) || u.isFull w)

/-- R198: streset empties the words and keeps their values. -/
def ResetsFutures (ins : Instr) (v : View) : Prop :=
  ∀ s i ls u, Accesses rowStreset v s i Access.write.future i.accs8 (i.futureCz 0x4D) ls u → Sparse.wf false u.mem.full = true →
    ∃ t, exec ins s = .next t ∧ GivesNone i t ∧ (∀ pa, t.byteAt pa = u.byteAt pa)
      ∧ ∀ w, t.isFull w = (decide (w ∉ wordsOf ls) && u.isFull w)

end Sys2Proof.Says

open Sys2Proof Sys2Proof.Machine Sys2Proof.Says in
/-- R173, R356 to R358, R437: predicates dropped, special registers and single lanes written, performance counters read. -/
def Obligations.RegistersAreWrittenByName : Prop :=
  (∀ f, Drops (.pdrop f) (LongF.view f)) ∧ (∀ f, Drops (.pdropShort f) (ShortF.view f))
  ∧ (∀ f, WritesSpecial (.wrsp f) (LongF.view f)) ∧ (∀ f, WritesSpecial (.wrspShort f) (ShortF.view f))
  ∧ (∀ f, WritesLane (.wrlane f) (LongF.view f))
  ∧ Both .perfrd .perfrdShort rowPerfrd aluPerfrd byZero (fun i l =>
      dword (Sparse.get { cfg := 0, cnt := 0 } (i.s.core i.core).perf (i.rd .i32 i.v.a l)).cnt)

open Sys2Proof Sys2Proof.Machine Sys2Proof.Says in
/-- R164: regroup in a gang that has one wave left. -/
def Obligations.RegroupOrdersLanesByKey : Prop :=
  ∀ f, RegroupsAlone (.regroup f) (LongF.view f)

open Sys2Proof Sys2Proof.Machine Sys2Proof.Says in
/-- R182, R188, R392, R394: pref, cflush, cinv and cresize complete, `exec` answering a next state, and wsync does in its window; what each leaves. -/
def Obligations.CacheAndLocalMemoryInstructionsAct : Prop :=
  (∀ f, Prefetches (.pref f) (LongF.view f)) ∧ (∀ f, Plain (.cflush f) rowCflush (LongF.view f))
  ∧ (∀ f, Invalidates (.cinv f) (LongF.view f)) ∧ (∀ f, AsksForWays (.cresize f) (LongF.view f))
  ∧ (∀ f, SyncsToWindow (.wsync f) (LongF.view f))

open Sys2Proof Sys2Proof.Machine Sys2Proof.Says in
/-- R197 to R199, R393: ldfut, stfill and streset complete; a full word is read, an empty one waited for. -/
def Obligations.FuturesAreFilledAndRead : Prop :=
  (∀ f, LoadsFutures (.ldfut f) (LongF.view f)) ∧ (∀ f, DefersFutures (.ldfut f) (LongF.view f))
  ∧ (∀ f, FillsFutures (.stfill f) (LongF.view f)) ∧ (∀ f, ResetsFutures (.streset f) (LongF.view f))

/-! ### Copy queues -/

namespace Sys2Proof.Says
open Sys2Proof.Machine

/-- An append to the copy queue of the wave's context on its core is not held up (R191, R224, R406): the queue exists and has room,
the page of the entry's place translates, what the instruction reads has arrived, an entry of system scope (`sys`) has nothing to wait for
(R66, R222), and, for the B-region (kind 3), the gang holds it or it is free and promised to no other (R185). -/
structure Appends (r : Row) (v : View) (s : State) (i : Iss) (sys : Bool) (regs : List Nat) (kind : Nat) (ls : List LaneX) (u : State) : Prop
    extends Accesses r v s i (Access.write.at 0)
      [{ lane := i.ex.headD 0, a := i.s.ringAt i.w.ctx i.core (i.s.qTail i.w.ctx i.core), n := 64 }] [] ls u where
  some_ : i.ex ≠ []
  queue : i.s.qBase i.w.ctx i.core ≠ 0
  room : (i.s.qTail i.w.ctx i.core + 2 ^ 64 - i.s.qHead i.w.ctx i.core) % 2 ^ 64 ≠ 256
  known : (i.s.core i.core).checkEn = true → ∀ k ∈ regs, i.w.ready (i.w.kCell k).due = true
  released : i.fenceFirst sys = none
  region : kind = 3 → (i.s.core i.core).breg.zeroing = false ∧ (i.s.core i.core).breg.others i.w.gang = false
  record : i.s.queueAt i.w.ctx i.core + 64 ≤ hostBase
  apart : ∀ p ∈ allPieces ls, p.x.pa + p.n ≤ i.s.queueAt i.w.ctx i.core ∨ i.s.queueAt i.w.ctx i.core + 64 ≤ p.x.pa
  canonical : u.mem.canonical ∧ Sparse.wf Core.reset u.cores = true

/-- R71: the origin window that the bytes of a put name lets the wave's context put so many bytes from that offset. -/
def originFits (u : State) (ctx : Nat) (bytes : List Byte) : Bool :=
  let x := numAt bytes 8 8
  let win := bits x 40 8
  bit (u.winWord win 0) 63 && bit (u.winWord win 0) 61 && decide (bits (u.winWord win 0) 48 6 = ctx)
    && decide (bits x 0 40 + numAt bytes 24 8 ≤ u.winBytes win)

/-- R191, R406: the entry's 64 bytes stand at its place, TAIL has risen by one to the entry's number, the token counts it, and no other
byte of memory changes. The origin window of a put has been looked at (R71). -/
def Appended (i : Iss) (ls : List LaneX) (u : State) (kind : Nat) (bytes : List Byte) (t : State) : Prop :=
  let tail := i.s.queueAt i.w.ctx i.core + 16
  let seq := (u.qTail i.w.ctx i.core + 1) % 2 ^ 64
  GivesNone i t ∧ ofBytes (t.peekPhys tail 8) = seq
  ∧ (∀ pa, pa < tail ∨ tail + 8 ≤ pa → t.byteAt pa = (lastAt (ls.flatMap fun x => partsOf x.pieces bytes) pa).getD (u.byteAt pa))
  ∧ (t.core i.core).copyOwners = (u.core i.core).copyOwners
      ++ [{ ctx := i.w.ctx, seq := seq, gang := i.w.gang, idx := i.w.idx, kind := kind, origin := decide (kind ≠ 4) || originFits u i.w.ctx bytes }]
  ∧ (kind = 3 → (t.core i.core).breg.holder = some i.w.gang)
  ∧ ∀ w, t.wave? i.key = some w → ∀ k, w.tokenCount k = i.w.tokenCount k + if i.v.ts = k + 1 then 1 else 0

/-- R192: word 0 of an entry: CVAL, SCOPE, SPC, ORD, DG, BA, CW and the kind. -/
def entryHead (i : Iss) (kind : BitVec 4) (spc : Nat) : W64 :=
  (if hasBlock i.v then BitVec.ofNat 32 (i.w.kVal (blockReg i.v + 2)) else 0#32) ++ 0#13 ++ BitVec.ofNat 3 i.v.scope ++ 0#2
    ++ BitVec.ofNat 2 spc ++ BitVec.ofBool i.v.ord ++ BitVec.ofBool i.v.dg ++ BitVec.ofBool i.v.ba ++ BitVec.ofBool i.v.cw ++ 0#4 ++ kind

/-- R192, R406: the 64 bytes of an entry: word 0, the body, and the two words of the completion block. -/
def entryBytes (i : Iss) (kind : BitVec 4) (spc : Nat) (body : List Nat) : List Byte :=
  toBytes 8 (entryHead i kind spc).toNat ++ body.flatMap (toBytes 8)
    ++ toBytes 8 (if hasBlock i.v then i.w.kVal (blockReg i.v) else 0) ++ toBytes 8 (if hasBlock i.v then i.w.kVal (blockReg i.v + 1) else 0)

/-- The registers of the completion block (R406). -/
def blockOf (v : View) : List Nat := if hasBlock v then [blockReg v, blockReg v + 1, blockReg v + 2] else []

def AppendGoes (ins : Instr) (r : Row) (v : View) (kind : BitVec 4) (spc : Nat) (more : List Nat) (body : Iss → List Nat) : Prop :=
  (∀ s i ls u, Appends r v s i (decide (v.scope = 4)) (blockOf v ++ more) kind.toNat ls u →
    ∃ t, exec ins s = .next t ∧ Appended i ls u kind.toNat (entryBytes i kind spc (body i)) t)
  ∧ ∀ s i, Issues r v s i → i.ex = [] → (v.scope ≠ 4 ∨ FabricQuiet i) → i.w.wait ≠ .retry .zeroing →
      ((s.core i.core).checkEn = true → ∀ k ∈ blockOf v ++ more, i.w.ready (i.w.kCell k).due = true) →
      ∃ t, exec ins s = .next t ∧ i.GoesOn t

/-- A uniform operand of 64 bits. -/
def u64 (i : Iss) (src : Src) : Nat := i.w.operand i.v .i64 [] 0 src

/-- R408: qput appends the 64 bytes that stand in scratchpad. -/
def QputGoes (ins : Instr) (v : View) : Prop :=
  ∀ s i ls u, Appends rowQput v s i (decide ((spAt s i.core (i.qputA + 2)).toNat % 8 = 4)) [] (bits (spAt s i.core i.qputA).toNat 0 4) ls u → s.inAlloc i.w.gang i.qputA 64 = true → i.qputA % 16 = 0 →
    s.owned i.w.ctx i.core true [{ lane := 0, a := i.qputA, n := 64 }] = false →
    (s.coreFlaws i.core 4 false [{ lane := 0, a := i.qputA, n := 64 }]).any Flaw.fatal = false → Memory.wf (s.core i.core).scratch = true →
    ∃ t, exec ins s = .next t
      ∧ Appended i ls u (bits (spAt s i.core i.qputA).toNat 0 4) ((List.range 64).map fun j => spAt s i.core (i.qputA + j)) t

/-- R408: qseq gives TAIL, or PROG with SUB 1. -/
def QseqGoes (ins : Instr) (v : View) : Prop :=
  ∀ s i, Issues rowQseq v s i →
    ∃ t, exec ins s = .next t ∧ Reaches i t ∧ (∀ pa, t.byteAt pa = s.byteAt pa)
      ∧ i.Gives false (fun _ => dword (BitVec.ofNat 64 (ofBytes (s.peekPhys
          (s.queueAt i.w.ctx i.core + if v.sub = 1 then 24 else 16) 8)))) t

/-- R408: cpwait goes on when PROG has reached its operand, and else waits. -/
def CpwaitGoes (ins : Instr) (v : View) : Prop :=
  ∀ s i, Issues rowCpwait v s i →
    ((i.ex = [] ∨ u64 i v.a ≤ s.qProg i.w.ctx i.core) → ∃ t, exec ins s = .next t ∧ i.GoesOn t)
    ∧ (i.ex ≠ [] → s.qProg i.w.ctx i.core < u64 i v.a →
        ∃ t, exec ins s = .next t ∧ t.wave? i.key = some { i.w with wait := .retry .prog } ∧ t.mem = s.mem ∧ t.cores = s.cores)

end Sys2Proof.Says

open Sys2Proof Sys2Proof.Machine Sys2Proof.Says in
/-- R191, R192, R406 to R408: the appends to copy queues. -/
def Obligations.AppendsPutTheirEntryInTheRing : Prop :=
  (∀ f, f.view.sub < 4 → AppendGoes (.cpy f) rowCpy (LongF.view f) 1#4 f.view.sub [] fun i => [u64 i i.v.a, u64 i i.v.b, u64 i i.v.c, 0, 0])
  ∧ (∀ f r, f.view.sub < 4 → f.view.c = .k r → AppendGoes (.cpy2d f) rowCpy2d (LongF.view f) 2#4 f.view.sub [r, r + 1, r + 2]
      fun i => [u64 i i.v.a, u64 i i.v.b, i.w.kVal r, i.w.kVal (r + 1), i.w.kVal (r + 2)])
  ∧ (∀ f, AppendGoes (.cpyb f) rowCpyb (LongF.view f) 3#4 0 [] fun i => [u64 i i.v.a, u64 i i.v.b, u64 i i.v.c, 0, 0])
  ∧ (∀ f, AppendGoes (.put f) rowPut (LongF.view f) 4#4 0 [] fun i => [u64 i i.v.a, u64 i i.v.b, u64 i i.v.c, 0, 0])
  ∧ (∀ f, AppendGoes (.msg f) rowMsg (LongF.view f) 5#4 0 [] fun i =>
      [u64 i i.v.a, if i.v.sub = 1 then 4096 + i.w.operand i.v .i32 [] 0 i.v.b % 4096 else 0, 64, 0, 0])
  ∧ ∀ f, QputGoes (.qput f) (LongF.view f)

open Sys2Proof Sys2Proof.Machine Sys2Proof.Says in
/-- R86, R408: the queue's record is read, and waited on. -/
def Obligations.QueueRecordsAreReadAndAwaited : Prop :=
  (∀ f, QseqGoes (.qseq f) (LongF.view f)) ∧ ∀ f, CpwaitGoes (.cpwait f) (LongF.view f)

/-! ### The matrix array -/

namespace Sys2Proof.Says
open Sys2Proof.Machine

/-- The array of the wave's core. -/
def arr (s : State) (i : Iss) : Matrix := (s.core i.core).mx
/-- One cell of an accumulator of a core (R409). -/
def cell (s : State) (c a row col : Nat) : W32 := Sparse.get 0 (s.core c).mx.acc (4096 * a + 64 * row + col)

/-- The wave goes on with its registers; cores change in their arrays and counters alone. -/
def Steps (i : Iss) (t : State) : Prop :=
  GivesNone i t ∧ t.mem = i.s.mem
  ∧ ∀ c, t.core c = { i.s.core c with mx := (t.core c).mx, perf := (t.core c).perf } ∧ (c ≠ i.core → (t.core c).mx = (i.s.core c).mx)

/-- The same of an instruction that reads checked words: where some have lost their parity, the record of them changes too (R21). -/
def StepsRead (i : Iss) (t : State) : Prop :=
  GivesNone i t ∧ t.mem = i.s.mem
  ∧ (∀ c, t.core c = { i.s.core c with mx := (t.core c).mx, flaws := (t.core c).flaws, perf := (t.core c).perf }
      ∧ (c ≠ i.core → (t.core c).mx = (i.s.core c).mx))
  ∧ ((∀ c, (i.s.core c).flaws = []) → i.s.storeFlaws = [] → Steps i t)

/-- R127, R128, R410, R411: a free array is taken at once: the wave owns it and finds its own gang's sums, or zeros; a taken one is waited
for in the FIFO. A restored wave that has been given the array goes on, and one that waits to regain it stands before its mxacq; an owner that
asks again raises 0x90. -/
def Acquires (ins : Instr) (v : View) : Prop :=
  ∀ s i, Issues rowMxacq v s i → i.ex.length = 32 → Sparse.wf Core.reset s.cores = true →
    ((arr s i).owner = none → (arr s i).fifo = [] → ∃ t, exec ins s = .next t ∧ Steps i t ∧ (arr t i).owner = some i.key
      ∧ (arr t i).acc = (if (arr s i).gang = some i.w.gang then (arr s i).acc else [])
      ∧ (arr t i).kcnt = (if (arr s i).gang = some i.w.gang then (arr s i).kcnt else 0))
    ∧ (∀ o, (arr s i).owner = some o → o ≠ i.key → s.mxFormer i.key = false →
      ∃ t, exec ins s = .next t ∧ t.waitOf i.key = .matrixFifo ∧ (arr t i).owner = some o ∧ ∃ x ∈ (arr t i).fifo, x.wave = i.key)
    ∧ ((arr s i).owner ≠ some i.key → s.mxFormer i.key = true →
      ∃ t, exec ins s = .next t ∧ t.waitOf i.key = .retry .array ∧ t.cores = s.cores)
    ∧ ((arr s i).owner = some i.key → i.w.mxStamp ≠ none →
      ∃ t, exec ins s = .next t ∧ GivesNone i t ∧ (t.wave? i.key).map (·.mxStamp) = some none ∧ arr t i = arr s i)
    ∧ ((arr s i).owner = some i.key → i.w.mxStamp = none → exec ins s = .next (i.fail (Cz.plain 0x90 i.ex)))

/-- R411: the owner whose K-steps are done gives the array to the wave that has waited longest. -/
def Releases (ins : Instr) (v : View) : Prop :=
  ∀ s i, Issues rowMxrel v s i → i.ex.length = 32 → i.holdsMx = true → Sparse.wf Core.reset s.cores = true →
    (s.mxBusy i.key = false → ∃ t, exec ins s = .next t ∧ (arr t i).owner = (arr s i).fifo.head?.map (·.wave)
      ∧ (arr t i).fifo = (arr s i).fifo.tail ∧ ((arr s i).fifo = [] → Steps i t)
      ∧ ((∀ x ∈ (arr s i).fifo, x.wave ≠ i.key) → GivesNone i t))
    ∧ (s.mxBusy i.key = true → ∃ t, exec ins s = .next t ∧ t.waitOf i.key = .matrixRel ∧ t.cores = s.cores)

/-- R411: mxwait goes on when no K-step of the wave is left. -/
def Awaits (ins : Instr) (v : View) : Prop :=
  ∀ s i, Issues rowMxwait v s i → i.holdsMx = true →
    ((i.ex = [] ∨ s.mxBusy i.key = false) → ∃ t, exec ins s = .next t ∧ i.GoesOn t)
    ∧ (i.ex ≠ [] → s.mxBusy i.key = true → ∃ t, exec ins s = .next t ∧ t.waitOf i.key = .matrixDrain ∧ t.cores = s.cores)

/-- R409, R412: an owner whose lanes are together may give the array an mma of `n` K-steps: its tiles lie as they must, fewer than two wait,
no copy entry owns the rows of A (R224), and no word that is read has lost its parity for good (R23). -/
structure CanStart (v : View) (n : Nat) (pre : Iss → Prop) (s : State) (i : Iss) : Prop where
  lanes : i.ex.length = 32
  holds : i.holdsMx = true
  tiles : i.tileCz n = []
  pre : pre i
  room : (arr s i).ops.length < 2
  unowned : bit v.sub 4 = false → s.owned i.w.ctx i.core true (i.rowsA n) = false
  intact : (i.flawsA n ++ i.flawsB n).any Flaw.fatal = false
  cores : Sparse.wf Core.reset s.cores = true
  bytes : Memory.wf (s.core i.core).scratch = true

/-- R412, R413, R414: an mma or mmas of `n` K-steps enters the array: the rows of A as they stand, which no later store changes for it
(R417), the place of B in the B-region, the accumulator, the format, scale and special bytes; the check of no word that it reads fails for
good (R23). -/
def Starts (ins : Instr) (r : Row) (v : View) (n : Nat) (pre : Iss → Prop) (scale special : Iss → List Nat) (blk : Bool) : Prop :=
  ∀ s i, Issues r v s i → CanStart v n pre s i →
    ∃ t, exec ins s = .next t ∧ StepsRead i t ∧ ∃ o, (arr t i).ops = (arr s i).ops ++ [o] ∧ o.wave = i.key ∧ o.fmt = v.sub % 16
      ∧ o.aAt = u64 i v.a ∧ o.weights = bit v.sub 4
      ∧ o.acc = v.cRaw ∧ o.k = 0 ∧ o.steps = n ∧ o.bOff = u64 i v.b ∧ o.scales = scale i ∧ o.specials = special i ∧ o.blk32 = blk
      ∧ o.rows = (List.range 64).map fun row => (List.range (8 * n)).map fun j =>
          let a := u64 i v.a + 8 * n * row + j
          if bit v.sub 4 then Sparse.get 0 s.wstore (i.core / 48 * 2 ^ 31 + a % 2 ^ 31) else spAt s i.core a

/-- R414: the scale bytes of the lanes: byte K of the named register; the special bytes, in format 4, of the register after it. -/
def byteOfLane (i : Iss) (r l : Nat) : Nat := i.w.nVal l r / 256 ^ (i.v.sub / 64 % 4) % 256
/-- R414: the scale registers exist, and hold their values where the scoreboard checks. -/
def ScalesKnown (v : View) (n : Nat) (i : Iss) : Prop :=
  (v.sub % 16 = 4 → n + 1 < i.w.n) ∧ ((i.s.core i.core).checkEn = true → i.scaleStale = false)
/-- R413: the K-steps of an mmas. -/
def scaledSteps (v : View) : Nat := 64 / dotWidth (NFmt.ofCode (v.sub % 16))
def StartsScaled (ins : Instr) (r : Row) (v : View) : Prop :=
  ∀ n, v.d = .named n → Starts ins r v (scaledSteps v) (ScalesKnown v n)
    (fun i => (List.range 32).map (byteOfLane i n)) (fun i => (List.range 32).map fun l => if v.sub % 16 = 4 then byteOfLane i (n + 1) l else 0)
    (bit v.sub 5)

/-- R417: an instruction on a tile of the array: the wave holds the array and its K-steps are done. -/
structure OnTile (r : Row) (v : View) (s : State) (i : Iss) : Prop extends Issues r v s i where
  holds : i.holdsMx = true
  some_ : i.ex ≠ []
  idle : s.mxBusy i.key = false
  cores : Sparse.wf Core.reset s.cores = true
  cells : Sparse.wf 0 (s.core i.core).mx.acc = true
  bytes : Memory.wf (s.core i.core).scratch = true

/-- R410: acczero. -/
def Zeroes (ins : Instr) (v : View) : Prop :=
  ∀ s i, OnTile rowAcczero v s i → ∃ t, exec ins s = .next t ∧ Steps i t
    ∧ ∀ a row col, row < 64 → col < 64 → cell t i.core a row col = if a = v.cRaw then 0 else cell s i.core a row col

/-- R415: a tile move's place in scratchpad, of cells of so many bytes. -/
structure TilePlace (i : Iss) : Prop where
  aligned : i.tileAddr % 64 = 0
  inside : i.s.inAlloc i.w.gang i.tileAddr (4096 * accBytes i.v) = true
  unowned : i.s.owned i.w.ctx i.core true i.tileAcc = false

/-- R415: accst writes each cell, as it stands or rounded to FP16 or BF16, and its rounding sets flags. -/
def StoresTile (ins : Instr) (v : View) : Prop :=
  ∀ s i, OnTile rowAccst v s i → TilePlace i → NoneWaits s i.core →
    ∃ t w, exec ins s = .next t ∧ t.wave? i.key = some w ∧ i.Advanced w ∧ (∀ j, LaneKeeps (i.w.lane j) (w.lane j)) ∧ t.mem = s.mem
      ∧ (accFmt v = none → w.flags = i.w.flags ∧ ∀ row col, row < 64 → col < 64 →
          (List.range 4).map (fun j => spAt t i.core (i.tileAddr + 4 * (64 * row + col) + j)) = toBytes 4 (cell s i.core v.cRaw row col).toNat)
      ∧ (∀ f, accFmt v = some f → ∀ row col, row < 64 → col < 64 →
          let x := Fmt.f32.decode (cell s i.core v.cRaw row col).toNat
          (List.range 2).map (fun j => spAt t i.core (i.tileAddr + 2 * (64 * row + col) + j))
            = toBytes 2 (f.fin .rn (x, if x.isS then fIV else 0)).v)
      ∧ ∀ a, a < i.tileAddr ∨ i.tileAddr + 4096 * accBytes v ≤ a → spAt t i.core a = spAt s i.core a

/-- R415: accld. -/
def LoadsTile (ins : Instr) (v : View) : Prop :=
  ∀ s i, OnTile rowAccld v s i → TilePlace i → (s.coreFlaws i.core 4 false i.tileAcc).any Flaw.fatal = false →
    ∃ t, exec ins s = .next t ∧ StepsRead i t
    ∧ (∀ a row col, row < 64 → col < 64 → a ≠ v.cRaw → cell t i.core a row col = cell s i.core a row col)
    ∧ ∀ row col, row < 64 → col < 64 →
        let n := accBytes v
        let x := ofBytes ((List.range n).map fun j => spAt s i.core (i.tileAddr + n * (64 * row + col) + j))
        cell t i.core v.cRaw row col = BitVec.ofNat 32 (match accFmt v with | some f => widenBits f .f32 x | none => x)

/-- R416: accrd: lane l has the cells 2l and 2l + 1 of a row, and the register of B the step count. -/
def ReadsRow (ins : Instr) (v : View) : Prop :=
  ∀ s i b, Issues rowAccrd v s i → i.holdsMx = true → i.ex ≠ [] → i.w.operand v .i32 [] 0 v.a ≤ 63 → v.b = .k b →
    let row := i.w.operand v .i32 [] 0 v.a
    ∃ t w, exec ins s = .next t ∧ t.wave? i.key = some w ∧ i.Advanced w ∧ i.Quietly t ∧ w.flags = i.w.flags
      ∧ w.kVals = setAt i.w.kVals b ((arr s i).kcnt.zeroExtend 64)
      ∧ ∀ j, if j ∈ i.ex then LaneGets v.d
            { res := [cell s i.core v.cRaw row (2 * j + 1), cell s i.core v.cRaw row (2 * j)], preds := [], fl := 0 } (i.w.lane j) (w.lane j)
          else LaneKeeps (i.w.lane j) (w.lane j)

end Sys2Proof.Says

open Sys2Proof Sys2Proof.Machine Sys2Proof.Says in
/-- R127, R128, R409 to R411: mxacq of a free array, mxrel of an idle owner and mxwait without K-steps complete, `exec` answering a next state; else the wave waits. -/
def Obligations.TheArrayIsOwnedByOneWave : Prop :=
  (∀ f, Acquires (.mxacq f) (LongF.view f)) ∧ (∀ f, Acquires (.mxacqShort f) (ShortF.view f))
  ∧ (∀ f, Releases (.mxrel f) (LongF.view f)) ∧ (∀ f, Releases (.mxrelShort f) (ShortF.view f))
  ∧ (∀ f, Awaits (.mxwait f) (LongF.view f)) ∧ (∀ f, Awaits (.mxwaitShort f) (ShortF.view f))

open Sys2Proof Sys2Proof.Machine Sys2Proof.Says in
/-- R412 to R414: an owner's mma and mmas (both rows of each) complete, `exec` answering a next state: they enter the array. -/
def Obligations.MatrixInstructionsEnterTheArray : Prop :=
  (∀ f, Starts (.mma f) rowMma (LongF.view f) (8 * f.view.imm9.toNat) (fun _ => True) (fun _ => []) (fun _ => []) false)
  ∧ (∀ f, Starts (.mmaSg1 f) rowMmaSg1 (LongF.view f) (8 * f.view.imm9.toNat) (fun _ => True) (fun _ => []) (fun _ => []) false)
  ∧ (∀ f, StartsScaled (.mmas f) rowMmas (LongF.view f)) ∧ (∀ f, StartsScaled (.mmas32 f) rowMmas32 (LongF.view f))

open Sys2Proof Sys2Proof.Machine Sys2Proof.Says in
/-- R410, R415, R416: an owner's acczero, accst, accld and accrd complete, `exec` answering a next state: tiles are zeroed, stored, loaded and read. -/
def Obligations.TilesMoveBetweenArrayAndScratchpad : Prop :=
  (∀ f, Zeroes (.acczero f) (LongF.view f)) ∧ (∀ f, StoresTile (.accst f) (LongF.view f))
  ∧ (∀ f, LoadsTile (.accld f) (LongF.view f)) ∧ (∀ f, ReadsRow (.accrd f) (LongF.view f))

open Sys2Proof Sys2Proof.Machine Sys2Proof.Says in
/-- R305, R306: a K-step of the oldest unfinished instruction adds, in every cell of its accumulator, the exact sum of the products of its
row of A and column of B to the cell, rounded once, or modulo 2^32; other accumulators stay; the last K-step ends the instruction. The bank
groups of the weight store that it reads are not refreshing (R187). -/
def Obligations.AKStepAddsARowTimesAColumn : Prop :=
  ∀ s c o rest, (s.core c).mx.ops = o :: rest → Sparse.wf Core.reset s.cores = true → Sparse.wf 0 (s.core c).mx.acc = true →
    (∃ k, s.wave? o.wave = some k ∧ k.wait = .none ∧ k.heldLanes ≠ []) →
    o.rows.length = 64 → o.atWindow s.now = false →
    ∃ t, exec (.kStepComplete c) s = .next t
      ∧ (t.core c).mx.ops = (if o.steps ≤ o.k + 1 then rest else { o with k := o.k + 1 } :: rest)
      ∧ (t.core c).mx.kcnt = (s.core c).mx.kcnt + 1
      ∧ (∀ a row col, row < 64 → col < 64 → a ≠ o.acc → cell t c a row col = cell s c a row col)
      ∧ ∀ row col, row < 64 → col < 64 →
          let f := NFmt.ofCode o.fmt
          let k := o.k * dotWidth f
          let a := o.decode (numAt (o.rows.getD row []) (8 * o.k) 8) (laneA o.blk32 row k)
          let b := o.decode (ofBytes (readBytes (s.core c).breg.mem (32768 * col + o.bOff + 8 * o.k) 8)) (laneB o.blk32 k col)
          cell t c o.acc row col =
            if sumsInt f then cell s c o.acc row col + BitVec.ofInt 32 ((a.zip b).map fun x => xrInt x.1 * xrInt x.2).sum
            else BitVec.ofNat 32 (cellFloat (cell s c o.acc row col) (dotX a b)).v

/-! ### Tasks, launches and pipes -/

namespace Sys2Proof.Says
open Sys2Proof.Machine

/-- R131, R418: the spawn of a lane: the eight words of C, the entry A, the key B, the OPER of the instruction, and what the task header
says of named registers and scratchpad. -/
def laneSpawn (i : Iss) (header l : Nat) : Spawn :=
  { rec_ :=
      { pay := (i.w.span l i.v.c 8).map (BitVec.ofNat 32), entry := BitVec.ofNat 64 (u64 i i.v.a)
        key := BitVec.ofNat 32 (i.w.operand i.v .i32 [] l i.v.b), orig := false, scr := header / 256 % 8192, pre := true
        named := header % 256, nwords := 0, rend := i.rend, prio := i.prio, oper := i.v.md / 64 % 16, folds := 1
        born := i.s.dev.tsNow, doneAddr := 0, doneVal := 0, arm := none, ctx := i.w.ctx }
    who := .lane i.w.gang i.w.idx l, src := 0x100 + i.core, came := none }

/-- The lanes whose spawns have not been accepted (R142). -/
def unaccepted (i : Iss) : List Nat := i.ex.filter fun l => !bit i.w.spawned l

/-- R418: the OPER is none of the reserved ones, A is a code address of the heap, and the header before it is valid (R132). -/
structure CanSpawn (v : View) (s : State) (i : Iss) (header : Nat) : Prop where
  oper : v.md / 64 % 16 < 13
  entry : s.codeOk i.w.ctx (u64 i v.a) = true
  homes : Sparse.wf Home.reset s.ctq.homes = true
  valid : headerOk header = true

/-- R131, R132, R142, R418: with a valid header, each lane's spawn goes to the home of its key, the lanes ascending, and the wave waits for
their acceptance; with every spawn accepted the wave goes on. -/
def Spawns (ins : Instr) (v : View) : Prop :=
  ∀ s i ls u, Accesses rowTspawn v s i Access.read i.headerAcc [] ls u →
    let header := ofBytes (bytesOf u (allPieces ls))
    CanSpawn v s i header →
    (unaccepted i ≠ [] → ∃ t, exec ins s = .next t ∧ t.waitOf i.key = .spawns ∧ t.mem.cells = u.mem.cells
      ∧ ∀ h, (t.home h).spawns = (s.home h).spawns
          ++ ((unaccepted i).map (laneSpawn i header)).filter fun x => homeOf x.rec_.key = h)
    ∧ (unaccepted i = [] → ∃ t, exec ins s = .next t ∧ GivesNone i t ∧ t.ctq = s.ctq)

/-- R421: pclose closes the pipe for every reader. -/
def Closes (ins : Instr) (v : View) : Prop :=
  ∀ s i g j p, Issues rowPclose v s i → s.pipeEnd i.w.gang v.aRaw false = some (g, j, p) →
    ∃ t, exec ins s = .next t ∧ GivesNone i t ∧ t.mem = s.mem
      ∧ t.pipeEnd i.w.gang v.aRaw false = some (g, j, { p with closed := p.closed || !i.ex.isEmpty })

/-- R422: the descriptor that A names can be read, and is `d`. -/
structure CanLaunch (v : View) (s : State) (i : Iss) (d : Desc) (u : State) : Prop where
  some_ : i.ex ≠ []
  aligned : u64 i v.a % 128 = 0
  unowned : s.owned i.w.ctx i.core false [{ lane := 0, a := u64 i v.a, n := 128 }] = false
  read : s.readDesc (some i.core) i.w.ctx (u64 i v.a) = (.ok d, u)

/-- R92, R95, R422: a launch of a valid descriptor: it joins the queue of its priority with the core's source number; a task descriptor
gives a spawn with the eight words at ARGS, whose acceptance clears the token. -/
def Launches (ins : Instr) (v : View) : Prop :=
  ∀ s i u d, Issues rowLaunch v s i → CanLaunch v s i d u →
    (d.task = false → ∃ t, exec ins s = .next t ∧ GivesNone i t ∧ ∃ l, t.sched.launches = u.sched.launches ++ [l] ∧ l.desc = d
        ∧ l.ctx = i.w.ctx ∧ l.prio = d.prio ∧ l.src = 0x100 + i.core ∧ l.id = u.sched.nextLaunch ∧ l.nextIdx = 0)
    ∧ (∀ pay u', d.task = true → u.readVirt (some i.core) i.w.ctx d.args 32 Access.read = (.ok pay, u') →
        Sparse.wf Home.reset u'.ctq.homes = true →
        ∃ t, exec ins s = .next t ∧ GivesNone i t ∧ ∃ x, (t.home (homeOf 0)).spawns = (u'.home (homeOf 0)).spawns ++ [x]
          ∧ x.who = (if v.ts = 0 then .none else .launch i.w.gang i.w.idx i.w.nextOp) ∧ x.src = 0x100 + i.core ∧ x.came = none
          ∧ (∀ w, t.wave? i.key = some w → w.ops = i.w.ops ++ (if v.ts = 0 then [] else
              [{ id := i.w.nextOp, token := v.ts, kind := .spawn, mem := [0x9, 0xA, 0xC].contains (i.row.op / 16) }]))
          ∧ x.rec_.orig = true ∧ x.rec_.key = 0 ∧ x.rec_.ctx = i.w.ctx ∧ x.rec_.oper = 0
          ∧ x.rec_.pay = (List.range 8).map fun j => BitVec.ofNat 32 (ofBytes ((pay.drop (4 * j)).take 4)))

/-! ### Rays -/

/-- The 64 bytes of a lane's record. -/
def recordOf (i : Iss) (l : Nat) : List Byte := (List.range 64).map fun j => spAt i.s i.core (i.recA l + j)

/-- R21: no word that the accesses read has lost its parity. -/
def Sound (i : Iss) (l : List LaneAcc) : Prop := i.localCheck 0x60 l = ([], i.s)

/-- R423, R424, R426: records in the gang's scratchpad that no copy entry owns and whose words are sound, the unit with room for every lane. -/
structure CanSubmit (k : UnitKind) (bad : Nat) (ready : Iss → Prop) (s : State) (i : Iss) : Prop where
  some_ : i.ex ≠ []
  records : i.rec64Cz bad = []
  ready : ready i
  unowned : s.owned i.w.ctx i.core true (i.recAccs 64) = false
  sound : Sound i (i.recAccs 64)
  room : ∀ l ∈ i.ex, s.rayRoom i.core k i.w l = true
  cores : Sparse.wf Core.reset s.cores = true
  bytes : Memory.wf (s.core i.core).scratch = true
/-- R263: the marcher's sort window has room; R426: the ray areas are aligned and lie in the allocation. -/
def WindowRoom (i : Iss) : Prop := (i.s.core i.core).window + i.ex.length ≤ 256
def AreasFit (i : Iss) : Prop := ∀ l ∈ i.ex, i.areaA l % 64 = 0 ∧ i.s.inAlloc i.w.gang (i.areaA l) 128 = true

/-- R423 to R428: each lane's record goes to the unit as a ray that runs; the instruction counts them. -/
def Submits (ins : Instr) (r : Row) (v : View) (k : UnitKind) (bad : Nat) (affine lantern : Bool) (ready : Iss → Prop) (area : Iss → Nat → Nat) :
    Prop :=
  ∀ s i, Issues r v s i → CanSubmit k bad ready s i →
    ∃ t, exec ins s = .next t ∧ GivesNone i t ∧ t.mem = s.mem
      ∧ ∃ rs, t.raysOf i.core k = s.raysOf i.core k ++ rs ∧ (rs.map fun x => (x.lane, x.record, x.area)) = i.ex.map (fun l => (l, recordOf i l, area i l))
        ∧ (∀ x ∈ rs, x.wave = i.key ∧ x.gang = i.w.gang ∧ x.idx = i.w.idx ∧ x.ctx = i.w.ctx ∧ x.affine = affine ∧ x.lantern = lantern
            ∧ x.rstate = i.w.rstateSeen ∧ x.stat = .run ∧ x.op = i.w.nextOp)
        ∧ ∀ w, t.wave? i.key = some w → w.ops = i.w.ops ++ [{ id := i.w.nextOp, token := v.ts, kind := .rays i.ex.length, mem := [0x9, 0xA, 0xC].contains (i.row.op / 16) }]

/-- R425: the oldest ray of a lane that has not been delivered. -/
def oldest (i : Iss) (k : UnitKind) (l : Nat) : Option Ray := (i.s.laneRays i.core k i.w l).head?

/-- R425: every lane's oldest ray is done with no cause, and its place lies in the allocation, aligned, with no copy entry or K-step on it. -/
structure CanDeliver (k : UnitKind) (s : State) (i : Iss) : Prop where
  inside : i.scratchCz 0x69 (i.recAccs 32) = []
  aligned : ∀ l ∈ i.ex, i.recA l % 16 = 0
  rend : i.rend = true
  unowned : s.owned i.w.ctx i.core true (i.recAccs 32) = false
  unread : s.readsA i.core i.key (i.recAccs 32) = false
  noneWaits : NoneWaits s i.core
  cores : Sparse.wf Core.reset s.cores = true
  bytes : Memory.wf (s.core i.core).scratch = true
  done_ : ∀ l ∈ i.ex, ∃ x, oldest i k l = some x ∧ x.stat = .done ∧ resultCode x.result = none

/-- R425: each lane's oldest result is delivered to its record address and the ray is gone. -/
def Delivers (ins : Instr) (r : Row) (v : View) (k : UnitKind) : Prop :=
  ∀ s i, Issues r v s i → CanDeliver k s i →
    ∃ t, exec ins s = .next t ∧ GivesNone i t
      ∧ (∀ a, spAt t i.core a = (lastSp (i.ex.filterMap fun l => (oldest i k l).map fun x => (i.recA l, x.result)) a).getD (spAt s i.core a))
      ∧ ∀ x, x ∈ t.raysOf i.core k ↔ x ∈ s.raysOf i.core k ∧ ∀ l ∈ i.ex, ∀ y, oldest i k l = some y → y.id ≠ x.id

/-- A ray that a lane answers goes on with the answer. -/
def Answered (t : State) (k : UnitKind) (c : Nat) (r : Ray) (ans : List Byte) : Prop :=
  ∃ x ∈ t.raysOf c k, x.id = r.id ∧ x.stat = .run ∧ x.log = r.log ++ [ans]

/-- R427: every lane names a suspended march ray of the context, no two the same. -/
structure CanAnswerMarch (v : View) (s : State) (i : Iss) : Prop where
  rend : i.rend = true
  cores : Sparse.wf Core.reset s.cores = true
  ids : ∀ c, ((s.raysOf c .march).map (·.id)).Nodup
  calls : ∀ l ∈ i.ex, (s.marchCall i.w.ctx (i.w.operand v .i32 [] l v.a)).isSome = true
  handles : (i.ex.map fun l => i.w.operand v .i32 [] l v.a).Nodup
  rays : (i.ex.map fun l => (s.marchCall i.w.ctx (i.w.operand v .i32 [] l v.a)).map fun x => (x.1, x.2.id)).Nodup
/-- R278, R427: every lane names a suspended ray whose state no copy entry owns and stands as R278 lets it, no two the same. -/
structure CanAnswerTrace (s : State) (i : Iss) : Prop where
  rend : i.rend = true
  cores : Sparse.wf Core.reset s.cores = true
  calls : ∀ l ∈ i.ex, ∃ c r, i.calledBy l = some (c, r) ∧ s.stateOwned c r = false ∧ stateOk r.saved (s.stateOf c r) = true
  rays : (i.ex.map fun l => (i.calledBy l).map fun x => (x.1, x.2.id)).Nodup

/-- R427: the march form: each lane's handle names a suspended ray of the context, which takes the interval B, C; one that is no interval
is taken as the whole line. -/
def AnswersMarch (ins : Instr) (v : View) : Prop :=
  ∀ s i, Issues rowRaysusMarch v s i → CanAnswerMarch v s i →
    ∃ t, exec ins s = .next t ∧ GivesNone i t ∧ t.mem = s.mem
      ∧ ∀ l ∈ i.ex, ∀ c r, s.marchCall i.w.ctx (i.w.operand v .i32 [] l v.a) = some (c, r) →
          let x : Itv := { lo := i.w.operand v .f32 [] l v.b, hi := i.w.operand v .f32 [] l v.c }
          Answered t .march c r (if x.bad then toBytes 4 0xFF800000 ++ toBytes 4 0x7F800000 else toBytes 4 x.lo ++ toBytes 4 x.hi)

/-- R278, R427: the traversal form: the lane's ray goes on with the interval and the best hit that its state holds, and B and C. -/
def AnswersTrace (ins : Instr) (v : View) : Prop :=
  ∀ s i, Issues rowRaysus v s i → CanAnswerTrace s i →
    ∃ t, exec ins s = .next t ∧ GivesNone i t ∧ t.mem = s.mem
      ∧ ∀ l ∈ i.ex, ∀ c r, i.calledBy l = some (c, r) →
          let b := s.stateOf c r
          Answered t .trace c r ((b.drop 8).take 8 ++ (b.drop 60).take 4 ++ toBytes 4 (i.w.operand v .f32 [] l v.b)
            ++ toBytes 4 (i.w.operand v .i32 [] l v.c))

/-! ### Bytecode, bricks and meshes -/

/-- R429: A names a brick that can be read: `k`. -/
structure CanFetch (v : View) (s : State) (i : Iss) (k : Brick) (u : State) : Prop where
  some_ : i.ex ≠ []
  aligned : u64 i v.a % 64 = 0
  rend : i.rend = true
  read : evalNow (getBrick i.unitRead 0xAE (u64 i v.a)) s = (.ok k, u)

/-- R429: bfetch gives each lane the trilinear sample of the brick at its point, and its gradient. -/
def Fetches (ins : Instr) (v : View) : Prop :=
  ∀ s i k u, Issues rowBfetch v s i → CanFetch v s i k u →
    ∃ t, exec ins s = .next t ∧ t.mem = u.mem
      ∧ GivesLanes i (fun l =>
          let d := brickSample k (i.w.span l v.b 3)
          { res := (d.2.reverse ++ [d.1]).map (BitVec.ofNat 32), preds := [], fl := 0 }) t

/-- R430: the box and the destination of a prune lie aligned in the allocation, free of copy entries and K-steps, and the bytecode `b` that it
specialises to has room. -/
structure CanPrune (v : View) (s : State) (i : Iss) (b : List Byte) (u : State) : Prop where
  some_ : i.ex ≠ []
  known : (s.core i.core).checkEn = true → i.kStale 2 = false
  aligned : u64 i v.a % 16 = 0 ∧ i.boxA % 16 = 0 ∧ i.kOf 0 % 16 = 0
  box : s.inAlloc i.w.gang i.boxA 24 = true
  rend : i.rend = true
  unowned : s.owned i.w.ctx i.core true [{ lane := 0, a := i.boxA, n := 24 }, { lane := 0, a := i.kOf 0, n := i.kOf 1 }] = false
  unread : s.readsA i.core i.key [{ lane := 0, a := i.kOf 0, n := i.kOf 1 }] = false
  sound : Sound i [{ lane := i.ex.headD 0, a := i.boxA, n := 24 }]
  result : evalNow i.pruned s = (.ok b, u)
  same : u.gangs = s.gangs
  room : b.length ≤ i.kOf 1 ∧ b.length < 2 ^ 32
  place : s.inAlloc i.w.gang (i.kOf 0) b.length = true
  noneWaits : NoneWaits u i.core
  cores : Sparse.wf Core.reset u.cores = true
  bytes : Memory.wf (u.core i.core).scratch = true

/-- R272, R430: prune writes the specialised bytecode to the scratchpad and gives its length. -/
def Prunes (ins : Instr) (v : View) : Prop :=
  ∀ s i b u, Issues rowPrune v s i → CanPrune v s i b u →
    ∃ t, exec ins s = .next t ∧ i.Gives false (fun _ => word (BitVec.ofNat 32 b.length)) t
      ∧ ∀ a, spAt t i.core a = (lastSp [(i.kOf 0, b)] a).getD (spAt u i.core a)

/-- R431: the record of the one lane is valid, lies aligned in the allocation, free of copy entries and K-steps, and its bytecode evaluates
to `b`. -/
structure CanRunField (s : State) (i : Iss) (l : Nat) (b : List Byte) (u : State) : Prop where
  one : i.ex = [l]
  aligned : i.recA l % 16 = 0
  inside : s.inAlloc i.w.gang (i.recA l) 64 = true
  rend : i.rend = true
  unowned : s.owned i.w.ctx i.core true (i.recAccs 64) = false
  unread : s.readsA i.core i.key (i.recAccs 64) = false
  sound : Sound i (i.recAccs 64)
  memory : Memory.wf (s.core i.core).scratch = true
  valid : fbInvalid (recordOf i l) = false
  result : evalNow (i.fbEval (recordOf i l)) s = (.ok b, u)
  same : u.gangs = s.gangs
  noneWaits : NoneWaits u i.core
  cores : Sparse.wf Core.reset u.cores = true
  bytes : Memory.wf (u.core i.core).scratch = true

/-- R431: fbrun with one lane in Exec evaluates its record's bytecode and writes LO, HI, TAG and CODE into the record. -/
def RunsField (ins : Instr) (v : View) : Prop :=
  ∀ s i l b u, Issues rowFbrun v s i → CanRunField s i l b u →
    ∃ t, exec ins s = .next t ∧ GivesNone i t ∧ ∀ a, spAt t i.core a = (lastSp [(i.recA l + 48, b)] a).getD (spAt u i.core a)

/-- R432: the payload lies in the allocation, a payload slot is free, and the mesh descriptor `d` and the render state can be read and are
valid. -/
structure CanEmit (s : State) (i : Iss) (slot : Nat) (d : Desc) (b : List Byte) (u u' : State) : Prop where
  some_ : i.ex ≠ []
  known : (s.core i.core).checkEn = true → i.kStale 4 = false
  aligned : i.payA % 16 = 0 ∧ i.kOf 0 % 128 = 0 ∧ i.kOf 1 % 256 = 0
  limits : i.kOf 3 ≤ 1024 ∧ i.kOf 2 ≤ 16384
  inside : s.inAlloc i.w.gang i.payA (i.kOf 2) = true
  rend : i.rend = true
  slot : s.freeSlot (i.core / 12) = some slot
  unowned : s.owned i.w.ctx i.core true [{ lane := 0, a := i.payA, n := i.kOf 2 }] = false
  sound : Sound i [{ lane := i.ex.headD 0, a := i.payA, n := i.kOf 2 }]
  desc : s.readDesc (some i.core) i.w.ctx (i.kOf 0) = (.ok d, u)
  rstate : u.readVirt (some i.core) i.w.ctx (i.kOf 1) 256 Access.read = (.ok b, u')
  mesh : meshDescOk d = true ∧ i.kOf 2 ≤ (meshMember d).scratch
  valid : rsCz b i.ex = []
  ends : Sparse.wf FrontEnd.reset u'.fes = true ∧ Sparse.wf PaySlot.reset (u'.fe (i.core / 12)).slots = true
  bytes : Memory.wf (u'.core i.core).scratch = true

/-- R282, R432: temit puts the payload into a free slot of the front-end and launches its mesh gangs; with none to launch it goes on. -/
def Emits (ins : Instr) (v : View) : Prop :=
  ∀ s i slot d u b u', Issues rowTemit v s i → CanEmit s i slot d b u u' →
    ∃ t, exec ins s = .next t ∧ GivesNone i t
      ∧ (i.kOf 3 = 0 → t.sched.launches = u'.sched.launches)
      ∧ (i.kOf 3 ≠ 0 →
          (t.slot (i.core / 12) slot).used = true ∧ (t.slot (i.core / 12) slot).waves = i.kOf 3 * (meshMember d).waves
          ∧ (t.slot (i.core / 12) slot).payload = (List.range (i.kOf 2)).map (fun j => spAt u' i.core (i.payA + j))
          ∧ ∃ l, t.sched.launches = u'.sched.launches ++ [l] ∧ l.mesh = some (i.core / 12, slot) ∧ l.desc.total = i.kOf 3
              ∧ l.desc.members = d.members ∧ l.rstate = BitVec.ofNat 64 (i.kOf 1))

/-- R433: a mesh instruction's wave was launched from a payload slot of a launch that renders. -/
def InMesh (i : Iss) : Prop := i.rend = true ∧ ∃ G x, i.s.gang? i.w.gang = some G ∧ G.slot = some x

/-- R433: the records of vertices lie in the allocation and their numbers are below 96; those of primitives name vertices that the wave has. -/
structure CanEmitVertices (s : State) (i : Iss) : Prop where
  inside : ∀ l ∈ i.ex, s.inAlloc i.w.gang (i.recA l) 48 = true
  numbers : ∀ l ∈ i.ex, i.meshC l ≤ 95
  mesh : InMesh i
  unowned : s.owned i.w.ctx i.core true (i.recAccs 48) = false
  sound : Sound i (i.recAccs 48)
  verts : Sparse.wf [] i.w.mesh.verts = true
  bytes : Memory.wf (s.core i.core).scratch = true
def CanEmitPrimitives (v : View) (i : Iss) : Prop :=
  (∀ l ∈ i.ex, primOk (topOf i.w.mesh.verts) (i.meshC l) (i.w.operand v .i32 [] l v.a) = true) ∧ InMesh i

/-- R433: memit.vert puts the twelve words of each lane's record at the vertex that C names; of lanes that name one, the highest wins. -/
def EmitsVertices (ins : Instr) (v : View) : Prop :=
  ∀ s i, Issues rowMemitVert v s i → CanEmitVertices s i →
    ∃ t w, exec ins s = .next t ∧ GivesNone i t ∧ t.mem = s.mem ∧ t.wave? i.key = some w ∧ w.mesh.prims = i.w.mesh.prims
      ∧ ∀ n, Sparse.get [] w.mesh.verts n = match (i.ex.filter fun l => i.meshC l = n).getLast? with
          | some l => (List.range 12).map fun j => BitVec.ofNat 32 (ofBytes ((List.range 4).map fun b => spAt s i.core (i.recA l + 4 * j + b)))
          | none => Sparse.get [] i.w.mesh.verts n

/-- R433: memit.prim puts A at the primitive that C names. -/
def EmitsPrimitives (ins : Instr) (v : View) : Prop :=
  ∀ s i, Issues rowMemitPrim v s i → CanEmitPrimitives v i →
    ∃ t w, exec ins s = .next t ∧ GivesNone i t ∧ t.mem = s.mem ∧ t.wave? i.key = some w ∧ w.mesh.verts = i.w.mesh.verts
      ∧ ∀ n, find? w.mesh.prims n = match (i.ex.filter fun l => i.meshC l = n).getLast? with
          | some l => some (BitVec.ofNat 32 (i.w.operand v .i32 [] l v.a))
          | none => find? i.w.mesh.prims n

end Sys2Proof.Says

open Sys2Proof Sys2Proof.Machine Sys2Proof.Says in
/-- R92, R131, R142, R418 to R422: tspawn, launch, pclose (both forms), targ and tqry complete, `exec` answering a next state with what their entries give. -/
def Obligations.TasksAndLaunchesAreMade : Prop :=
  (∀ f, Spawns (.tspawn f) (LongF.view f)) ∧ (∀ f, Launches (.launch f) (LongF.view f))
  ∧ (∀ f, Closes (.pclose f) (LongF.view f)) ∧ (∀ f, Closes (.pcloseShort f) (ShortF.view f))
  ∧ Long .targ rowTarg aluTarg byZero (fun i l => word (BitVec.ofNat 32 (ofBytes (((i.w.lane l).task.drop (4 * i.rd .i32 i.v.a l)).take 4))))
  ∧ Long .tqry rowTqry aluTqry byZero (fun i l =>
      if i.v.sub = 0 then word (BitVec.ofNat 32 (i.s.countTasks i.w.ctx (i.rd .i64 i.v.a l)))
      else match i.s.pipeEnd i.w.gang i.v.aRaw true, i.s.pipeEnd i.w.gang i.v.aRaw false with
        | some (_, _, p), _ => if i.v.sub = 1 then word (BitVec.ofNat 32 p.count) else truth p.closed
        | none, some (_, _, p) => if i.v.sub = 1 then word (BitVec.ofNat 32 (p.size - p.count)) else truth p.closed
        | none, none => word 0)

open Sys2Proof Sys2Proof.Machine Sys2Proof.Says in
/-- R423 to R428: mch (both rows), rayq, lant, mchres, rayres and raysus (both rows) complete, `exec` answering a next state: rays are submitted, delivered, answered. -/
def Obligations.RaysAreSubmittedDeliveredAndAnswered : Prop :=
  (∀ f, Submits (.mch f) rowMch (LongF.view f) .march 0xA9 false false WindowRoom fun _ _ => 0)
  ∧ (∀ f, Submits (.mchAff f) rowMchAff (LongF.view f) .march 0xA9 true false WindowRoom fun _ _ => 0)
  ∧ (∀ f, Submits (.rayq f) rowRayq (LongF.view f) .trace 0xAA false false AreasFit Iss.areaA)
  ∧ (∀ f, Submits (.lant f) rowLant (LongF.view f) .trace 0xAA false true AreasFit Iss.areaA)
  ∧ (∀ f, Delivers (.mchres f) rowMchres (LongF.view f) .march) ∧ (∀ f, Delivers (.rayres f) rowRayres (LongF.view f) .trace)
  ∧ (∀ f, AnswersMarch (.raysusMarch f) (LongF.view f)) ∧ (∀ f, AnswersTrace (.raysus f) (LongF.view f))

open Sys2Proof Sys2Proof.Machine Sys2Proof.Says in
/-- R272, R282, R429 to R433: bfetch, prune, fbrun, temit, memit.vert and memit.prim complete, `exec` answering a next state with what their entries give. -/
def Obligations.RenderingInstructionsComplete : Prop :=
  (∀ f, Fetches (.bfetch f) (LongF.view f)) ∧ (∀ f, Prunes (.prune f) (LongF.view f)) ∧ (∀ f, RunsField (.fbrun f) (LongF.view f))
  ∧ (∀ f, Emits (.temit f) (LongF.view f)) ∧ (∀ f, EmitsVertices (.memitVert f) (LongF.view f))
  ∧ (∀ f, EmitsPrimitives (.memitPrim f) (LongF.view f))

/-! ### Events of the package -/

namespace Sys2Proof.Says
open Sys2Proof.Machine

/-- The step is taken, and what holds after it. -/
def Does (ins : Instr) (s : State) (p : State → Prop) : Prop := ∃ t, exec ins s = .next t ∧ p t

/-- R18, R99, R101: the host's accesses are served: the link is up and the firmware of Obsis has been verified. -/
def Serving (s : State) : Prop := s.dev.pcieUp = true ∧ s.host.boot ≠ 0 ∧ s.host.boot ≠ 15

/-- Nothing changes but the part named. -/
def OnlyDev (s t : State) : Prop := t = { s with dev := t.dev }
def OnlyHost (s t : State) : Prop := t = { s with host := t.host }
def OnlyMem (s t : State) : Prop := t = { s with mem := t.mem }
def OnlyFab (s t : State) : Prop := t = { s with fab := t.fab }
def OnlyBln (s t : State) : Prop := t = { s with bln := t.bln }
def OnlyCores (s t : State) : Prop := t = { s with cores := t.cores }
def OnlyCtxs (s t : State) : Prop := t = { s with ctxs := t.ctxs }
def OnlySched (s t : State) : Prop := t = { s with sched := t.sched }
def OnlyObsis (s t : State) : Prop := t = { s with obsis := t.obsis }

/-- R79, R94: an interrupt cause is pending, and its vector goes to the host where the bit rises and is enabled; while the vector is masked
it stays pending in the MSI-X structure (log 66). -/
def Raised (s t : State) (b : Nat) : Prop :=
  let rises := !s.host.irqPend.getLsbD b && s.host.irqEn.getLsbD b
  t.host = { s.host with
    irqPend := s.host.irqPend ||| BitVec.twoPow 8 b
    sent := if rises && !s.host.msixMask.getLsbD b then s.host.sent ++ [b] else s.host.sent
    msixPend := if rises && s.host.msixMask.getLsbD b then s.host.msixPend ||| BitVec.twoPow 8 b else s.host.msixPend }

/-- R5: a counter of an array counts one more, and stays at its maximum. -/
def Counted (old new : Sparse W64) (i : Nat) : Prop :=
  ∀ j, Sparse.get 0 new j
    = if j = i then (if Sparse.get 0 old i = BitVec.allOnes 64 then BitVec.allOnes 64 else Sparse.get 0 old i + 1) else Sparse.get 0 old j

end Sys2Proof.Says

open Sys2Proof Sys2Proof.Machine Sys2Proof.Says in
/-- R14, R15, R26, R27: the power limit is clamped to 600 to 2,100 W, the core clock moves in steps of 25 MHz and does not rise while the
power is above the limit, the timestamp advances by one while it runs, and is written only while it does not. The least clock, and how the limit
holds the clock back, are the model's (log 72). -/
def Sys2Proof.Says.PowerClockAndTimestampFollowTheirRegisters : Prop :=
  (∀ s lim, Serving s → Does (.powerLimitWrite lim) s fun t => OnlyDev s t
    ∧ t.dev = { s.dev with pwrLim := t.dev.pwrLim } ∧ t.dev.pwrLim.toNat = max 600 (min 2100 lim.toNat))
  ∧ (∀ s, s.dev.pwrLim.toNat < s.dev.pwrWatts.toNat → Does (.coreClockStep true) s fun t => t = s)
  ∧ (∀ s, s.dev.cclk ≤ 1675 → s.dev.pwrWatts.toNat ≤ s.dev.pwrLim.toNat → Does (.coreClockStep true) s fun t => t = { s with dev := { s.dev with cclk := s.dev.cclk + 25 } })
  ∧ (∀ s, 25 < s.dev.cclk → Does (.coreClockStep false) s fun t => t = { s with dev := { s.dev with cclk := s.dev.cclk - 25 } })
  ∧ (∀ s, s.obsis.since = none → Sparse.wf Core.reset s.cores = true → Does .timestampTick s fun t =>
      t = { s with dev := t.dev, cores := t.cores }
      ∧ t.dev = { s.dev with
          tsNow := if s.dev.tsRun then s.dev.tsNow + 1 else s.dev.tsNow, ref := s.dev.ref + 1, milli := s.dev.milli + s.dev.cclk, pwrWatts := t.dev.pwrWatts }
      ∧ (t.dev.pwrWatts = s.dev.pwrWatts ∨ t.dev.pwrWatts.toNat ≤ 2100)
      ∧ ∀ c, t.core c = { s.core c with perf := (t.core c).perf, slices := (t.core c).slices, quanta := (t.core c).quanta })
  ∧ (∀ s v, Serving s → s.dev.tsRun = false → Does (.tsNowWrite v) s fun t => t = { s with dev := { s.dev with tsNow := v } })
  ∧ (∀ s v, s.dev.tsRun = true → Does (.tsNowWrite v) s fun t => t = s)

namespace Sys2Proof.Says
open Sys2Proof.Machine

/-- R99: what no reset of the device keeps is as after reset; the host's memory is its own, and the turns and free values go on. -/
def Fresh (s t : State) : Prop :=
  t = { State.reset with
    mem := { Mem.reset with host := s.mem.host }, turns := s.turns, freeCtr := s.freeCtr
    obsis := t.obsis, host := { HostIf.reset with boot := t.host.boot }, dev := t.dev }

/-- R99: a cold or warm reset leaves BOOT 0, and Obsis as after reset. -/
def ResetsAll (ins : Instr) : Prop :=
  ∀ s, Does ins s fun t => Fresh s t ∧ t.dev = Dev.reset ∧ t.host.boot = 0 ∧ t.obsis = State.reset.obsis

/-- R99, R101: at most 200 ms after that the ROM has verified and measured the Obsis firmware: BOOT is 1 and measurement register 0 is
extended by the image's digest; an image that is not accepted leaves BOOT 15. -/
def Boots : Prop :=
  ∀ s n, s.obsis.since = some n → 200000000 ≤ n + 1 → s.host.boot = 0 → Sparse.wf zero64 s.obsis.meas = true → Does .timestampTick s fun t =>
    (imageAccepted Config.obsisImage = true → t.host.boot = 1
        ∧ (∀ j, t.obsis.reg j = if j = 0 then shake256 (s.obsis.reg 0 ++ shake256 (Config.imageBody Config.obsisImage) 64) 64 else s.obsis.reg j)
        ∧ t.obsis.svn = Config.imageSvn Config.obsisImage % 256 ∧ t.obsis.since = none)
    ∧ (imageAccepted Config.obsisImage = false → t.host.boot = 15 ∧ t.obsis = { s.obsis with since := none })

/-- R99: a hot or function-level reset leaves Obsis and the trained host link as they are; BOOT is 1, but where it was 0 or 15; at most
100 ms later loaded firmware runs again and BOOT is 2. -/
def Restarts (ins : Instr) : Prop :=
  ∀ s, Does ins s fun t => Fresh s t
    ∧ t.obsis = { s.obsis with since := if s.obsis.fw && s.host.boot != 15 then some 0 else s.obsis.since }
    ∧ t.dev = { Dev.reset with pcieUp := s.dev.pcieUp, pcieRate := s.dev.pcieRate, pcieWidth := s.dev.pcieWidth, pcieFlit := s.dev.pcieFlit }
    ∧ t.host.boot = (if s.host.boot = 15 then 15 else if s.host.boot = 0 then 0 else 1)
def FirmwareRestarts : Prop :=
  ∀ s n, s.obsis.since = some n → 100000000 ≤ n + 1 → s.host.boot = 1 → Does .timestampTick s fun t =>
    t.host = { s.host with boot := 2 } ∧ t.obsis = { s.obsis with since := none }

/-- R101, R102: verified firmware carries out a mailbox command, with its opcode and the length of its rest. -/
def Commanded (s : State) (op len : Nat) : Prop :=
  (s.host.boot = 1 ∨ s.host.boot = 2) ∧ s.obsis.busy = true ∧ s.obsis.pending = none ∧ s.obsis.opcode = op ∧ s.obsis.restLen = len

/-- The address and length that LOADFW gives. -/
def fwAddr (s : State) : Nat := ofBytes (s.obsis.arg 0 8)
def fwLen (s : State) : Nat := ofBytes (s.obsis.arg 8 8)

end Sys2Proof.Says

open Sys2Proof Sys2Proof.Machine Sys2Proof.Says in
/-- R99, R101: cold and warm reset give the values of reset and start the boot chain; hot and function-level reset keep Obsis. What the
boot image is, and how long it takes within the limits of the spec, are the model's (log 5, log 50). -/
def Sys2Proof.Says.ResetsGiveTheValuesOfReset : Prop :=
  ResetsAll .coldReset ∧ ResetsAll .warmReset ∧ Boots ∧ FirmwareRestarts ∧ Restarts .hotReset ∧ Restarts .functionLevelReset

open Sys2Proof Sys2Proof.Machine Sys2Proof.Says in
/-- R100 to R103: LOADFW measures an accepted image and ends the boot, and fails on another; EXTEND extends registers 2 to 7 alone;
ATTEST answers with the report and its signature, GETKEY with the key; the completion shows the result and raises interrupt 5. The places of the
command's fields are the model's reading (log 51). -/
def Sys2Proof.Says.MailboxCommandsGiveTheirResults : Prop :=
  (∀ s, Commanded s 1 16 → fwLen s ≠ 0 → s.mem.rangeBad (fwAddr s) (fwLen s) = false →
      let img := (s.readPhys (fwAddr s) (fwLen s)).1
      (imageAccepted img = true → Sparse.wf zero64 s.obsis.meas = true → Does .loadfw s fun t => t.host.boot = 2 ∧ t.obsis.fw = true ∧ t.obsis.pending = some 0
        ∧ t.obsis.svn = Config.imageSvn img % 256
        ∧ (∀ j, t.obsis.reg j = if j = 1 then shake256 (s.obsis.reg 1 ++ shake256 (Config.imageBody img) 64) 64 else s.obsis.reg j)
        ∧ t.waves = s.waves ∧ t.cores = s.cores ∧ t.mem.cells = s.mem.cells)
      ∧ (imageAccepted img = false → Does .loadfw s fun t => t.obsis = { s.obsis with pending := some 2 } ∧ t.host.boot = s.host.boot))
  ∧ (∀ s, Commanded s 2 65 → 2 ≤ ofBytes (s.obsis.arg 0 1) → ofBytes (s.obsis.arg 0 1) ≤ 7 → Sparse.wf zero64 s.obsis.meas = true →
      Does .extend s fun t => OnlyObsis s t ∧ t.obsis.pending = some 0 ∧ t.obsis.busy = true
        ∧ ∀ j, t.obsis.reg j = if j = ofBytes (s.obsis.arg 0 1) then shake256 (s.obsis.reg j ++ s.obsis.arg 1 64) 64 else s.obsis.reg j)
  ∧ (∀ s, Commanded s 2 65 → (ofBytes (s.obsis.arg 0 1) < 2 ∨ 7 < ofBytes (s.obsis.arg 0 1)) →
      Does .extend s fun t => t = { s with obsis := { s.obsis with pending := some 4 } })
  ∧ (∀ s, Commanded s 3 64 → Memory.wf s.obsis.resp = true → Does .attest s fun t => OnlyObsis s t ∧ t.obsis.pending = some 0 ∧ t.obsis.meas = s.obsis.meas
      ∧ readBytes t.obsis.resp 0 2 = [1, 0] ∧ readBytes t.obsis.resp 2 2 = [0x60, 0x09] ∧ readBytes t.obsis.resp 4 1 = [0xA1]
      ∧ readBytes t.obsis.resp 8 8 = toBytes 8 s.dev.tsNow.toNat ∧ readBytes t.obsis.resp 16 64 = s.obsis.arg 0 64
      ∧ ((∀ j, (s.obsis.reg j).length = 64) → (∀ j, j < 8 → readBytes t.obsis.resp (80 + 64 * j) 64 = s.obsis.reg j)))
  ∧ (∀ s, Commanded s 4 0 → Does .getkey s fun t => OnlyObsis s t ∧ t.obsis.pending = some 0 ∧ t.obsis.meas = s.obsis.meas
      ∧ t.obsis.resp = writeBytes s.obsis.resp 0 ((edPublic Config.identitySeed ++ Config.certChain).take 4096))
  ∧ (∀ s r, s.obsis.busy = true → s.obsis.pending = some r → Does .mailboxComplete s fun t =>
      t.obsis = { s.obsis with busy := false, pending := none, result := r } ∧ Raised s t 5
      ∧ t = { s with obsis := t.obsis, host := t.host })

open Sys2Proof.Says in
/-- The statements above: the four resets and the mailbox of Obsis. -/
def Obligations.ResetsAndMailboxCommandsGiveTheirResults : Prop := ResetsGiveTheValuesOfReset ∧ MailboxCommandsGiveTheirResults

namespace Sys2Proof.Says
open Sys2Proof.Machine

/-- R78: the links in the order of their numbers; the one of a step and the others. -/
def LinksListed (s : State) : Prop := Sparse.wf Link.reset s.fab.links = true
def OtherLinks (s t : State) (l : Nat) : Prop := ∀ m, m ≠ l → t.link m = s.link m

/-- R21, R25: an uncorrectable error is counted at its place, raises interrupt 3, and is recorded where none was. -/
def ErrorCounted (s t : State) (place : Nat) (src : W16) : Prop :=
  Counted s.dev.errUe t.dev.errUe place ∧ Raised s t 3 ∧ t.dev.errVld = true
  ∧ (s.dev.errVld = false → t.dev.errTime = s.dev.tsNow ∧ t.dev.errSrc = src ∧ t.dev.errIdx = place)
  ∧ (s.dev.errVld = true → t.dev.errTime = s.dev.errTime ∧ t.dev.errSrc = s.dev.errSrc ∧ t.dev.errIdx = s.dev.errIdx)

/-- Nothing waits for an answer over a link, and no fence waits. -/
def LinkIdle (s : State) (l : Nat) : Prop := (∀ q ∈ s.fab.waits, l ∉ q.links) ∧ s.fab.fences = []

end Sys2Proof.Says

open Sys2Proof Sys2Proof.Machine Sys2Proof.Says in
/-- R18 to R20, R78: the host link trains with its mode; the links train at 8 or 4 lanes, fail and count flits, and go down after a flit and
16 replays of it, by DIS, or for want of lanes. Behind a failed flit only its replay is looked at; how the transfers of one flit are counted is
the model's (log 52). -/
def Sys2Proof.Says.LinksTrainReplayAndGoDown : Prop :=
  (∀ s (rate : BitVec 3) (width : BitVec 5), rate.toNat < 7 → width.toNat ∈ [1, 2, 4, 8, 16] → ∀ flits, Does (.hostLinkTraining rate ⟨width, flits⟩) s fun t =>
      t = { s with dev := { s.dev with pcieUp := true, pcieRate := rate, pcieWidth := width, pcieFlit := flits || decide (5 ≤ rate.toNat) } })
  ∧ (∀ s l lanes peer, l < 12 → LinksListed s → (s.link l).dis = false → 4 ≤ lanes → Does (.wafoloLinkTraining l lanes peer) s fun t =>
      OnlyFab s t ∧ OtherLinks s t l
      ∧ t.link l = { s.link l with state := if 8 ≤ lanes then 2 else 3, peer := peer % 4096, fails := 0, resent := false })
  ∧ (∀ s l lanes peer, l < 12 → LinksListed s → LinkIdle s l → (s.link l).dis = false → lanes < 4 → Does (.wafoloLinkTraining l lanes peer) s fun t =>
      OtherLinks s t l ∧ t.link l = { s.link l with state := 0, fails := 0, resent := false })
  ∧ (∀ s l ok, LinksListed s → 2 ≤ (s.link l).state → ((s.link l).fails = 0 ∨ (s.link l).resent = true) → Does (.flitReceive l ok) s fun t =>
      OnlyFab s t ∧ OtherLinks s t l ∧ t.link l = { s.link l with fails := if ok then 0 else (s.link l).fails + 1, resent := false })
  ∧ (∀ s l ok, (s.link l).fails ≠ 0 → (s.link l).resent = false → Does (.flitReceive l ok) s fun t => t = s)
  ∧ (∀ s l, LinksListed s → Sparse.wf (0 : W64) s.dev.errCe = true → 2 ≤ (s.link l).state → 0 < (s.link l).fails → (s.link l).fails ≤ 16 → (s.link l).resent = false →
      Does (.flitReplay l) s fun t =>
      OtherLinks s t l ∧ t.link l = { s.link l with replay := min (2 ^ 32 - 1) ((s.link l).replay + 1), resent := true } ∧ Counted s.dev.errCe t.dev.errCe 1
      ∧ t = { s with dev := { s.dev with errCe := t.dev.errCe }, fab := { s.fab with links := t.fab.links } })
  ∧ (∀ s l, LinksListed s → Sparse.wf (0 : W64) s.dev.errUe = true → LinkIdle s l → 2 ≤ (s.link l).state → 16 < (s.link l).fails → Does (.linkDown l) s fun t =>
      OtherLinks s t l ∧ (t.link l).state = 0 ∧ ErrorCounted s t 1 (BitVec.ofNat 16 (0x061 + l)) ∧ t.mem = s.mem ∧ t.waves = s.waves)
  ∧ (∀ s l (v : W64), Serving s → l < 12 → LinksListed s → LinkIdle s l → (s.link l).dis = false → v.getLsbD 3 = true → Does (.fabLinkDisWrite l v) s fun t =>
      OtherLinks s t l ∧ (t.link l).dis = true ∧ (t.link l).state = 0)
  ∧ (∀ s l (v : W64), Serving s → l < 12 → LinksListed s → (s.link l).dis = true → v.getLsbD 3 = false → Does (.fabLinkDisWrite l v) s fun t =>
      OtherLinks s t l ∧ t.link l = { s.link l with dis := false, state := 1 })

open Sys2Proof Sys2Proof.Machine Sys2Proof.Says in
/-- R21, R24, R25, R28: what a check finds that no access of a wave makes: a corrected error is counted and is gone; an uncorrectable one is
counted, recorded and raises interrupt 3, and in main memory, L2 or a weight store stays with its word; only a unit that makes the checks of a place
reports one there; the loss of the host link counts at place 0. That errors come as turns, and stay until their word is overwritten, is the model's
(log 53). -/
def Sys2Proof.Says.ErrorsAreCountedAndRecorded : Prop :=
  (∀ s place (src : W16) word, Does (.scrub place .clean src word) s fun t => t = s)
  ∧ (∀ s place o (src : W16) word, srcFits place src = false → Does (.scrub place o src word) s fun t => t = s)
  ∧ (∀ s place (src : W16) word, srcFits place src = true → Sparse.wf (0 : W64) s.dev.errCe = true → Does (.scrub place .corrected src word) s fun t =>
      Counted s.dev.errCe t.dev.errCe place
      ∧ t = { s with dev := { s.dev with errCe := t.dev.errCe }, mem := { s.mem with flaws := t.mem.flaws }, storeFlaws := t.storeFlaws, cores := t.cores }
      ∧ (∀ f ∈ t.mem.flaws, f ∈ s.mem.flaws) ∧ ∀ f ∈ t.storeFlaws, f ∈ s.storeFlaws)
  ∧ (∀ s place (src : W16) word, srcFits place src = true → 2 ≤ place → Sparse.wf (0 : W64) s.dev.errUe = true → Does (.scrub place .uncorrectable src word) s fun t =>
      ErrorCounted s t place src
      ∧ t = { s with dev := t.dev, host := t.host, mem := { s.mem with flaws := t.mem.flaws }, storeFlaws := t.storeFlaws, cores := t.cores }
      ∧ (∀ f ∈ s.mem.flaws, f ∈ t.mem.flaws)
      ∧ (∀ n, (place = 3 ∧ n = 8) ∨ (place = 8 ∧ n = 32) → n * word + n ≤ s.mem.nominal →
          ({ place := place, unit := 0, addr := n * word, kind := .double, src := src } : Flaw) ∈ t.mem.flaws)
      ∧ (place = 6 → 8 * word + 8 ≤ 2 ^ 31 →
          ({ place := 6, unit := src.toNat - 0x1D0, addr := 8 * word, kind := .double, src := src } : Flaw) ∈ t.storeFlaws))
  ∧ (∀ s, Sparse.wf (0 : W64) s.dev.errUe = true → Does .hostLinkDown s fun t =>
      ErrorCounted s t 0 0x060 ∧ t.dev.pcieUp = false ∧ t = { s with dev := t.dev, host := t.host })

open Sys2Proof.Says in
/-- The statements above: links, power, clock, timestamp and error counters. -/
def Obligations.LinksPowerClockTimestampAndErrorsFollowTheirRegisters : Prop := PowerClockAndTimestampFollowTheirRegisters ∧ LinksTrainReplayAndGoDown ∧ ErrorsAreCountedAndRecorded

/-! ### Registers of the host -/

namespace Sys2Proof.Says
open Sys2Proof.Machine

/-- The context numbered `c` is changed as said, and no other. -/
def CtxBecomes (s t : State) (c : Nat) (x : Ctx) : Prop := t.ctx c = x ∧ ∀ d, d ≠ c → t.ctx d = s.ctx d
/-- The same of an arming entry and of a core. -/
def ArmBecomes (s t : State) (i : Nat) (a : Arm) : Prop := t.arm i = a ∧ ∀ j, j ≠ i → t.arm j = s.arm j
def CoreBecomes (s t : State) (c : Nat) (x : Core) : Prop := t.core c = x ∧ ∀ d, d ≠ c → t.core d = s.core d

def CtxsListed (s : State) : Prop := Sparse.wf Ctx.reset s.ctxs = true
def CoresListed (s : State) : Prop := Sparse.wf Core.reset s.cores = true
def ArmsListed (s : State) : Prop := Sparse.wf Arm.reset s.host.arms = true

/-- Bits `hi` to `lo` of a register. -/
def field (v : W64) (hi lo : Nat) : Nat := v.toNat / 2 ^ lo % 2 ^ (hi + 1 - lo)

/-- R83: what a write of a descriptor register stores. -/
def ctxStored (c : Ctx) (reg : Nat) (v : W64) : Ctx :=
  match reg with
  | 1 => { c with root := field v 56 12 * 2 ^ 12 }
  | 2 => { c with vec := v }
  | 3 => { c with save := field v 56 12 * 2 ^ 12 }
  | 4 => { c with engblk := field v 56 14 * 2 ^ 14 }
  | 5 => { c with fqBase := field v 56 12 * 2 ^ 12, fqLog2 := field v 4 0 }
  | 6 => { c with codeBase := field v 63 12 * 2 ^ 12 }
  | 7 => { c with codePages := field v 31 0 }
  | 8 => { c with futW := v.getLsbD 0 }
  | 9 => { c with trapEn := v.truncate 8 }
  | 10 => { c with quant := field v 31 0 }
  | 11 => { c with ceil := field v 2 0 }
  | _ => c

/-- R41: the order that the thresholds keep. -/
def Ordered (low crit hyst exh : Nat) : Prop := 8192 ≤ exh ∧ exh < crit ∧ crit + hyst ≤ low ∧ 1 ≤ hyst

end Sys2Proof.Says

open Sys2Proof Sys2Proof.Machine Sys2Proof.Says in
/-- R83, R84, R90, R150: the descriptor of a context is written in OFF and STOPPED, its registers 9 to 11 in any state, an arming entry while it
does not stand armed; a write that is not allowed is ignored and sets CFGERR. -/
def Sys2Proof.Says.DescriptorsAreWrittenWhenOpen : Prop :=
  (∀ s c reg v, Serving s → c < 64 → 1 ≤ reg → reg ≤ 11 → CtxsListed s → ((s.ctx c).state = .off ∨ (s.ctx c).state = .stopped ∨ 9 ≤ reg) →
      (reg = 5 → 4 ≤ field v 4 0 ∧ field v 4 0 ≤ 16) →
      Does (.ctxDescriptorWrite c reg v) s fun t => OnlyCtxs s t ∧ CtxBecomes s t c (ctxStored (s.ctx c) reg v))
  ∧ (∀ s c reg v, Serving s → c < 64 → 1 ≤ reg → reg ≤ 8 → (s.ctx c).state ≠ .off → (s.ctx c).state ≠ .stopped →
      Does (.ctxDescriptorWrite c reg v) s fun t => t = { s with host := { s.host with cfgErr := true } })
  ∧ (∀ s c v, Serving s → c < 64 → CtxsListed s → ((s.ctx c).state = .off ∨ (s.ctx c).state = .stopped) → (s.ctx c).ctqPidx = (s.ctx c).ctqCidx →
      (field v 4 0 = 0 ∨ (4 ≤ field v 4 0 ∧ field v 4 0 ≤ 20)) →
      Does (.ctqSpillBaseWrite c v) s fun t => OnlyCtxs s t
        ∧ CtxBecomes s t c { s.ctx c with ctqBase := field v 56 12 * 2 ^ 12, ctqLog2 := field v 4 0 })
  ∧ (∀ s c v, Serving s → c < 64 → (((s.ctx c).state ≠ .off ∧ (s.ctx c).state ≠ .stopped) ∨ (s.ctx c).ctqPidx ≠ (s.ctx c).ctqCidx) →
      Does (.ctqSpillBaseWrite c v) s fun t => t = { s with host := { s.host with cfgErr := true } })
  ∧ (∀ s i v, Serving s → i < 4096 → ArmsListed s → Does (.armWord0Write i v) s fun t => OnlyHost s t
      ∧ ArmBecomes s t i { s.arm i with
          v := v.getLsbD 63, one := v.getLsbD 62, src := field v 55 53, ctx := field v 47 42, prio := field v 34 32
          widx := if (s.arm i).outst = 0 then 0 else (s.arm i).widx })
  ∧ (∀ s i word v, Serving s → i < 4096 → 1 ≤ word → word ≤ 4 → ArmsListed s → (s.arm i).v = false → (s.arm i).outst = 0 →
      (word = 4 → field v 4 0 ≤ 16) → Does (.armWordWrite i word v) s fun t => OnlyHost s t
        ∧ ArmBecomes s t i (match word with
          | 1 => { s.arm i with tag := v.toNat }
          | 2 => { s.arm i with mask := v.toNat }
          | 3 => { s.arm i with desc := v &&& ~~~127#64 }
          | _ => { s.arm i with ring := v &&& ~~~4095#64, log2 := field v 4 0 }))
  ∧ (∀ s i word v, Serving s → i < 4096 → 1 ≤ word → word ≤ 4 → ((s.arm i).v = true ∨ (s.arm i).outst ≠ 0) →
      Does (.armWordWrite i word v) s fun t => t = { s with host := { s.host with cfgErr := true } })

open Sys2Proof Sys2Proof.Machine Sys2Proof.Says in
/-- R41, R53, R61, R69, R70, R438: thresholds are written in order alone, the donor queue's registers and the performance counters as
their fields say, and a window word while its entry is not valid and names memory of the device; a write against these is ignored with CFGERR.
The check of a window word together with what the entry would hold is the model's reading (log 20, log 77). -/
def Sys2Proof.Says.ThresholdDonorWindowAndCounterWritesAreChecked : Prop :=
  (∀ s which v, Serving s →
      let m := s.mem.withMark which (field v 33 0)
      (Ordered m.wmLow m.wmCrit m.wmHyst m.wmExh → Does (.thresholdWrite which v) s fun t => t = { s with mem := m })
      ∧ (¬ Ordered m.wmLow m.wmCrit m.wmHyst m.wmExh → Does (.thresholdWrite which v) s fun t => t = { s with bln := { s.bln with cfgErr := true } }))
  ∧ (∀ s v, Serving s → 4 ≤ field v 4 0 → field v 4 0 ≤ 20 → Does (.donorBaseWrite v) s fun t =>
      t = { s with bln := { s.bln with donorBase := field v 56 12 * 2 ^ 12, donorLog2 := field v 4 0 } })
  ∧ (∀ s v, Serving s → (field v 4 0 < 4 ∨ 20 < field v 4 0) → Does (.donorBaseWrite v) s fun t =>
      OnlyBln s t ∧ t.bln.cfgErr = true ∧ t.bln.donorLog2 = s.bln.donorLog2)
  ∧ (∀ s v, Serving s → Does (.donorLimitWrite v) s fun t => OnlyBln s t ∧ t.bln.donorLimit = field v 31 0
      ∧ t.bln = { s.bln with donorLimit := t.bln.donorLimit, limitWritten := t.bln.limitWritten })
  ∧ (∀ s win v, Serving s → win < 256 → Sparse.wf (0 : W64) s.fab.windows = true → field v 60 54 = 0 → field v 7 0 = 0 →
      (field v 63 63 = 1 → s.winBytes win ≠ 0 ∧ s.winBase win + s.winBytes win ≤ s.mem.nominal ∧ s.winWord win 3 + 8 ≤ s.mem.nominal
        ∧ s.winWord win 4 + 8 ≤ s.mem.nominal) →
      Does (.windowTableWrite win 0 v) s fun t => OnlyFab s t ∧ ∀ w j, j < 8 → t.winWord w j = if w = win ∧ j = 0 then v.toNat else s.winWord w j)
  ∧ (∀ s win word v, Serving s → win < 256 → 1 ≤ word → word ≤ 4 → Sparse.wf (0 : W64) s.fab.windows = true → field (BitVec.ofNat 64 (s.winWord win 0)) 63 63 = 0 →
      (word = 1 → field v 63 57 = 0 ∧ field v 11 0 = 0 ∧ v.toNat + max 1 (s.winWord win 2 % 2 ^ 28) * 4096 ≤ s.mem.nominal) →
      (word = 2 → 0 < v.toNat ∧ v.toNat ≤ 2 ^ 27 ∧ s.winBase win + v.toNat * 4096 ≤ s.mem.nominal) →
      (word = 3 ∨ word = 4 → v.toNat % 8 = 0 ∧ field v 63 57 = 0 ∧ v.toNat + 8 ≤ s.mem.nominal) →
      Does (.windowTableWrite win word v) s fun t => OnlyFab s t ∧ ∀ w j, j < 8 → t.winWord w j = if w = win ∧ j = word then v.toNat else s.winWord w j)
  ∧ (∀ s win word v, Serving s → win < 256 → 1 ≤ word → word ≤ 7 → field (BitVec.ofNat 64 (s.winWord win 0)) 63 63 = 1 →
      Does (.windowTableWrite win word v) s fun t => t = { s with fab := { s.fab with cfgErr := true } })
  ∧ (∀ s c i v, Serving s → c < 192 → i < 8 → CoresListed s → Sparse.wf ({ cfg := 0, cnt := 0 } : PerfCtr) (s.core c).perf = true →
      Does (.perfCntWrite c i v) s fun t => OnlyCores s t ∧ (∀ d, d ≠ c → t.core d = s.core d) ∧ t.core c = { s.core c with perf := (t.core c).perf }
        ∧ ∀ j, t.perfCtr c j = if j = i then { s.perfCtr c i with cnt := v } else s.perfCtr c j)

open Sys2Proof.Says in
/-- The statements above: writes of descriptors, arming entries, thresholds, donor registers, windows and counters. -/
def Obligations.RegisterWritesAreChecked : Prop := DescriptorsAreWrittenWhenOpen ∧ ThresholdDonorWindowAndCounterWritesAreChecked

namespace Sys2Proof.Says
open Sys2Proof.Machine

/-- The registers that REGISTER_WRITE stores as they are written, with the field of each: offset, and what the state is after. -/
def plainWrites (s : State) (v : W64) : List (Nat × State) :=
  [(0x0100010, { s with host := { s.host with irqEn := v.truncate 8 } }),
   (0x0100008, { s with host := { s.host with irqPend := s.host.irqPend &&& ~~~(v.truncate 8) } }),
   (0x0100000, { s with host := { s.host with cfgErr := s.host.cfgErr && !v.getLsbD 0 } }),
   (0x0100030, { s with host := { s.host with umqCidx := field v 31 0 } }),
   (0x0100038, { s with host := { s.host with apBase := field v 56 28 / 2 ^ (s.host.bar4 - 28) * 2 ^ (s.host.bar4 - 28) } }),
   (0x0200008, { s with mem := { s.mem with wcbWait := field v 11 0 } }),
   (0x0200048, { s with mem := { s.mem with metaSel := BitVec.ofNat 64 (field v 56 8 * 2 ^ 8) } }),
   (0x0300008, { s with fab := { s.fab with msgLo := field v 31 20, msgHi := field v 19 8, msgEn := v.getLsbD 1, en := v.getLsbD 0 } }),
   (0x0400000, { s with sched := { s.sched with gsubAddr := BitVec.ofNat 64 (field v 63 6 * 2 ^ 6) } }),
   (0x0500008, { s with ctq := { s.ctq with wait := field v 15 0 } }),
   (0x0600008, { s with xlt := { s.xlt with invVa := BitVec.ofNat 64 (field v 63 12 * 2 ^ 12) } }),
   (0x0C02008, { s with dev := { s.dev with tsRun := v.getLsbD 0 } }),
   (0x0C03000, { s with dev := { s.dev with pwrLim := BitVec.ofNat 16 (max 600 (min 2100 (field v 31 16))) } })]

/-- Registers as a read gives them: offset and value. -/
def plainReads (s : State) : List (Nat × Nat) :=
  [(0x0100008, s.host.irqPend.toNat), (0x0100010, s.host.irqEn.toNat), (0x0100030, s.host.umqCidx), (0x0200008, s.mem.wcbWait),
   (0x0200010, s.mem.sectTotal), (0x0200018, s.mem.sectFree), (0x0200020, s.mem.wmLow), (0x0200028, s.mem.wmCrit),
   (0x0200030, s.mem.wmHyst), (0x0200038, s.mem.wmExh), (0x0200040, 8192), (0x0C02000, s.dev.tsNow.toNat)]

end Sys2Proof.Says

open Sys2Proof Sys2Proof.Machine Sys2Proof.Says in
/-- R5, R6, R15, R27, R57, R77, R94, R130, R150, R257: a 64-bit write of BAR 0 stores the fields of its register and leaves the rest;
a read gives the register, and one of a counter that a read clears leaves it 0 and every other counter of its array as it was. -/
def Obligations.HostRegistersAreReadAndWritten : Prop :=
  (∀ s v, Serving s → ∀ x ∈ plainWrites s v, Does (.registerWrite x.1 v) s fun t => t = x.2)
  ∧ (∀ s, Serving s → ∀ x ∈ plainReads s, Does (.counterReadClear x.1) s fun t =>
      t = { s with host := { s.host with readData := toBytes 8 x.2 } })
  ∧ (∀ s i, Serving s → i < 8 → Sparse.wf (0 : W64) s.mem.stats = true → Does (.counterReadClear (0x0200100 + 8 * i)) s fun t =>
      t.host = { s.host with readData := toBytes 8 (Sparse.get 0 s.mem.stats i).toNat } ∧ t = { s with host := t.host, mem := { s.mem with stats := t.mem.stats } }
      ∧ ∀ j, Sparse.get 0 t.mem.stats j = if j = i then 0 else Sparse.get 0 s.mem.stats j)
  ∧ (∀ s i, Serving s → i < 16 → Sparse.wf (0 : W64) s.dev.errUe = true → Does (.counterReadClear (0x0C01080 + 8 * i)) s fun t =>
      t.host = { s.host with readData := toBytes 8 (Sparse.get 0 s.dev.errUe i).toNat } ∧ t = { s with host := t.host, dev := { s.dev with errUe := t.dev.errUe } }
      ∧ ∀ j, Sparse.get 0 t.dev.errUe j = if j = i then 0 else Sparse.get 0 s.dev.errUe j)
  ∧ (∀ s c, Serving s → c < 192 → CoresListed s → Does (.counterReadClear (0x0800120 + 0x4000 * c)) s fun t =>
      OnlyCores { s with host := t.host } t ∧ CoreBecomes s t c { s.core c with polls := 0 })

/-! ### Memory controllers and ballooning -/

namespace Sys2Proof.Says
open Sys2Proof.Machine

/-- R49: the relief that ends a critical state. -/
def Relieved (s : State) : Prop := s.mem.wmCrit + s.mem.wmHyst < s.mem.sectFree

/-- R49: the engine is in another state, and the memory interrupt is raised where the table says so. -/
def EngineIs (s t : State) (x : BlnState) : Prop := t.bln.state = x ∧ t.mem = s.mem ∧ t.waves = s.waves
def Alarms (s t : State) : Prop := t.host.irqPend = s.host.irqPend ||| 2#8

/-- R49: one row of the table: where the engine goes. -/
def Moves (s : State) (next : BlnState) (alarm : Prop) : Prop :=
  Does .blnEvaluate s fun t => EngineIs s t next ∧ (alarm → Alarms s t)

/-- Nothing is held by the engine. -/
def NoneHeld (s : State) : Prop := s.bln.held = []

/-- R33, R45, R46: the block that the sweep visits. -/
def Visited (s : State) : Nat := s.bln.cursor
def SweepRuns (s : State) : Prop :=
  s.bln.en = true ∧ s.mem.reformat = none ∧ (s.bln.state = .sweep
    ∨ (s.bln.state = .csweep ∧ ¬ Relieved s ∧ s.bln.crit < s.bln.csweep * 2 ^ 20))
def BlocksListed (s : State) : Prop := Sparse.wf BlockMeta.reset s.mem.blocks = true

/-- A block whose 256 bytes are zero. -/
def ZeroBlock (s : State) (b : Nat) : Prop := ∀ j, j < 256 → s.byteAt (256 * b + j) = 0

/-- An entry of the donor list as a page: its first address and its bytes (R54). -/
def donorEntry (s : State) : Nat := ofBytes ((List.range 8).map fun j => s.byteAt (s.bln.donorBase + 8 * (s.bln.donorHead % 2 ^ s.bln.donorLog2) + j))
def PageNamed (s : State) (e frame size : Nat) : Prop :=
  (e % 4 = 0 ∧ size = 2 ^ 12 ∨ e % 4 = 1 ∧ size = 2 ^ 16 ∨ e % 4 = 2 ∧ size = 2 ^ 21) ∧ frame = e / 2 ^ 12 % 2 ^ 45 * 2 ^ 12
  ∧ e / 2 ^ 2 % 2 ^ 10 = 0 ∧ e / 2 ^ 57 % 2 ^ 5 = 0 ∧ frame % size = 0 ∧ frame + size ≤ s.mem.nominal

/-- R45, R53: the engine inflates: CDONOR, without relief, with an entry left and the engine enabled. -/
def Inflates (s : State) : Prop :=
  s.bln.state = .cdonor ∧ s.mem.wmExh < s.mem.sectFree ∧ ¬ Relieved s ∧ s.bln.donorHead ≠ s.bln.donorLimit ∧ s.bln.en = true

end Sys2Proof.Says

open Sys2Proof Sys2Proof.Machine Sys2Proof.Says in
/-- R30, R31, R57: a change of RATIO is accepted with every context OFF and no LOCK, completes with the reformat, and leaves empty memory;
one out of range or while a context is not OFF is ignored with CFGERR, and under LOCK nothing changes but LOCK; a write while a reformat is
pending is judged once it is done. That a RATIO ignored for LOCK alone sets no CFGERR is the model's choice (log 77). -/
def Sys2Proof.Says.AChangeOfRatioReformatsMemory : Prop :=
  (∀ s v, Serving s → s.mem.reformat = none → s.mem.lock = false → 64 ≤ field v 7 0 → field v 7 0 ≤ 128 → field v 7 0 ≠ s.mem.ratio →
      (∀ x ∈ s.ctxs, x.2.state = .off) → Does (.memCfgWrite v) s fun t =>
        t = { s with mem := { s.mem with reformat := some (field v 8 0) } })
  ∧ (∀ s v, Serving s → s.mem.reformat = none → field v 7 0 ≠ s.mem.ratio →
      (field v 7 0 < 64 ∨ 128 < field v 7 0 ∨ ∃ x ∈ s.ctxs, x.2.state ≠ .off) → Does (.memCfgWrite v) s fun t =>
        t = { s with mem := { s.mem with lock := s.mem.lock || v.getLsbD 8 }, bln := { s.bln with cfgErr := true } })
  ∧ (∀ s v, Serving s → s.mem.reformat = none →
      ((s.mem.lock = true ∧ 64 ≤ field v 7 0 ∧ field v 7 0 ≤ 128 ∧ ∀ x ∈ s.ctxs, x.2.state = .off) ∨ field v 7 0 = s.mem.ratio) → Does (.memCfgWrite v) s fun t =>
        t = { s with mem := { s.mem with lock := s.mem.lock || v.getLsbD 8 } })
  ∧ (∀ s v, Serving s → s.mem.reformat.isSome = true → exec (.memCfgWrite v) s = exec (.memCfgWrite v) s.reformat)
  ∧ (∀ s v, s.mem.reformat = some v → Does .memReformat s fun t =>
        t.mem.ratio = v % 256 ∧ t.mem.lock = (s.mem.lock || v.testBit 8) ∧ t.mem.reformat = none
        ∧ (∀ pa, pa < hostBase → t.byteAt pa = 0) ∧ t.mem.host = s.mem.host ∧ (∀ b, (t.mem.block b).size = 0) ∧ t.mem.full = [] ∧ t.mem.wcb = []
        ∧ t.mem.sectTotal = 2 ^ 33 - 2 ^ 22 * (v % 256) ∧ t.mem.sectFree = t.mem.sectTotal
        ∧ t.bln.state = .idle ∧ t.bln.cursor = 0 ∧ t.waves = s.waves)

open Sys2Proof Sys2Proof.Machine Sys2Proof.Says in
/-- R49: the engine moves as the table says: the first row that matches in its state. KICK is latched in ESCALATED alone. -/
def Sys2Proof.Says.TheBallooningEngineFollowsItsTable : Prop :=
  (∀ s, s.bln.state = .idle → s.mem.sectFree ≤ s.mem.wmLow → Moves s .sweep True)
  ∧ (∀ s, s.bln.state = .idle → s.mem.wmLow < s.mem.sectFree → Does .blnEvaluate s fun t => t = s)
  ∧ (∀ s, s.bln.state = .sweep → NoneHeld s → s.mem.sectFree ≤ s.mem.wmExh → Moves s .escalated True)
  ∧ (∀ s, s.bln.state = .sweep → s.mem.wmExh < s.mem.sectFree → s.mem.sectFree ≤ s.mem.wmCrit → Moves s .csweep True)
  ∧ (∀ s, s.bln.state = .sweep → s.mem.wmExh < s.mem.sectFree → s.mem.wmCrit < s.mem.sectFree → s.mem.wmLow < s.mem.sectFree →
      (s.bln.circuitDone = true ∨ s.bln.en = false) → Moves s .idle False)
  ∧ (∀ s, s.bln.state = .csweep → NoneHeld s → (s.mem.sectFree ≤ s.mem.wmExh ∨ s.bln.en = false) → Moves s .escalated True)
  ∧ (∀ s, s.bln.state = .csweep → NoneHeld s → s.mem.wmExh < s.mem.sectFree → s.bln.en = true → Relieved s → Moves s .sweep False)
  ∧ (∀ s, s.bln.state = .csweep → s.mem.wmExh < s.mem.sectFree → s.bln.en = true → ¬ Relieved s → s.bln.csweep * 2 ^ 20 ≤ s.bln.crit →
      Moves s .cdonor False)
  ∧ (∀ s, s.bln.state = .cdonor → NoneHeld s → s.mem.sectFree ≤ s.mem.wmExh → Moves s .escalated True)
  ∧ (∀ s, s.bln.state = .cdonor → NoneHeld s → s.mem.wmExh < s.mem.sectFree → Relieved s → Moves s .sweep False)
  ∧ (∀ s, s.bln.state = .cdonor → NoneHeld s → s.mem.wmExh < s.mem.sectFree → ¬ Relieved s → s.bln.donorHead = s.bln.donorLimit →
      Moves s .escalated True)
  ∧ (∀ s, s.bln.state = .escalated → NoneHeld s → Relieved s → Moves s .sweep False)
  ∧ (∀ s, s.bln.state = .escalated → ¬ Relieved s → (s.bln.kick = true ∨ s.bln.limitWritten = true) → s.mem.wmExh < s.mem.sectFree →
      Does .blnEvaluate s fun t => EngineIs s t .csweep ∧ t.bln.crit = 0)
  ∧ (∀ s, Serving s → Does .blnKick s fun t => t = { s with bln := { s.bln with kick := s.bln.kick || s.bln.state = .escalated } })
  ∧ (∀ s c, c < 192 → CoresListed s → Does (.blnStateObserve c) s fun t =>
      OnlyCores s t ∧ CoreBecomes s t c { s.core c with blnObs := match s.bln.state with
        | .idle => 0 | .sweep => 1 | .csweep => 2 | .cdonor => 3 | .escalated => 4 })

open Sys2Proof.Says in
/-- The statements above: the ratio of compression and the states of the ballooning engine. -/
def Obligations.RatioAndBalloonFollowTheirTables : Prop := AChangeOfRatioReformatsMemory ∧ TheBallooningEngineFollowsItsTable

open Sys2Proof Sys2Proof.Machine Sys2Proof.Says in
/-- R33, R45 to R47, R53 to R55: the sweep visits the block at the cursor: zeros collapse, ACC clears, the cursor advances and no byte
changes; inflation releases the page that the next donor entry names, with DONE, or with SKIP where it names none. The entry's page and the
donor list lie apart from each other. -/
def Sys2Proof.Says.TheSweepAndInflationReclaimSectors : Prop :=
  (∀ s, SweepRuns s → s.mem.canonical → BlocksListed s → 0 < s.mem.nominal → Does .sweepVisit s fun t =>
      (∀ pa, t.byteAt pa = s.byteAt pa) ∧ t.bln.cursor = (Visited s + 1) % (s.mem.nominal / 256) ∧ (t.mem.block (Visited s)).acc = false
      ∧ t.bln.state = s.bln.state ∧ t.bln.crit = (if s.bln.state = .csweep then s.bln.crit + 1 else s.bln.crit) ∧ t.waves = s.waves
      ∧ (256 * Visited s + 256 ≤ hostBase → ZeroBlock s (Visited s) → (t.mem.block (Visited s)).size = 0
          ∧ t.mem.sectFree = s.mem.sectFree + (s.mem.block (Visited s)).size)
      ∧ ∀ b, b ≠ Visited s → t.mem.block b = s.mem.block b)
  ∧ (∀ s frame size, Inflates s → s.mem.canonical → PageNamed s (donorEntry s) frame size →
      let a := s.bln.donorBase + 8 * (s.bln.donorHead % 2 ^ s.bln.donorLog2)
      a + 8 ≤ hostBase → (a + 8 ≤ frame ∨ frame + size ≤ a) → s.mem.nominal ≤ hostBase → Does .blnEvaluate s fun t =>
        (∀ pa, t.byteAt pa = if frame ≤ pa ∧ pa < frame + size then 0
          else if a ≤ pa ∧ pa < a + 8 then (toBytes 8 (donorEntry s ||| 2 ^ 63)).getD (pa - a) 0 else s.byteAt pa)
        ∧ t.bln.donorHead = (s.bln.donorHead + 1) % 2 ^ 32 ∧ t.bln.state = .cdonor)
  ∧ (∀ s, Inflates s → s.mem.canonical → (∀ frame size, ¬ PageNamed s (donorEntry s) frame size) →
      let a := s.bln.donorBase + 8 * (s.bln.donorHead % 2 ^ s.bln.donorLog2)
      a + 8 ≤ hostBase → Does .blnEvaluate s fun t =>
        (∀ pa, t.byteAt pa = if a ≤ pa ∧ pa < a + 8 then (toBytes 8 (donorEntry s ||| 2 ^ 63 ||| 2 ^ 62)).getD (pa - a) 0 else s.byteAt pa)
        ∧ t.bln.donorHead = (s.bln.donorHead + 1) % 2 ^ 32 ∧ t.bln.state = .cdonor)

open Sys2Proof Sys2Proof.Machine Sys2Proof.Says in
/-- R33, R35, R37, R44: an entry whose time is over closes as a read-modify-write: its block takes its encoding, raw where it is not
compressible and none where it is zero, and no byte changes; a write that waits at its slice takes the encoding once enough sectors are free. How
long an entry stands open is left to the order of steps (log 8). -/
def Sys2Proof.Says.CombiningEntriesCloseIntoTheirBlocks : Prop :=
  (∀ s b e, s.mem.wcb.find? (fun e => e.block = b) = some e → BlocksListed s → e.changed = true → 8 ≤ s.mem.sectFree →
      Sparse.wf (0 : W64) s.mem.stats = true → Does (.wcbWaitExpire b) s fun t =>
      (∀ pa, t.byteAt pa = s.byteAt pa) ∧ (∀ x ∈ t.mem.wcb, x.block ≠ b) ∧ Counted s.mem.stats t.mem.stats 1
      ∧ (ZeroBlock s b → s.mem.canonical → 256 * b + 256 ≤ hostBase → (t.mem.block b).size = 0)
      ∧ (¬ ZeroBlock s b → s.mem.canonical → 256 * b + 256 ≤ hostBase → e.comp = some false → (t.mem.block b).size = 8 ∧ (t.mem.block b).cmp = false)
      ∧ t.mem.sectFree + (t.mem.block b).size = s.mem.sectFree + (s.mem.block b).size ∧ t.waves = s.waves ∧ t.cores = s.cores)
  ∧ (∀ s e rest, s.mem.waiting = e :: rest → BlocksListed s → 8 ≤ s.mem.sectFree → Does .uncheckedWriteResume s fun t =>
      (∀ pa, t.byteAt pa = s.byteAt pa) ∧ t.mem.waiting = rest.filter (fun x => x.block != e.block) ∧ t.mem.wcb = s.mem.wcb
      ∧ t.mem.sectFree + (t.mem.block e.block).size = s.mem.sectFree + (s.mem.block e.block).size ∧ t.waves = s.waves)

open Sys2Proof.Says in
/-- The statements above: the sweep, inflation and the closing of combining entries. -/
def Obligations.SweepInflationAndCombiningKeepTheBytes : Prop := TheSweepAndInflationReclaimSectors ∧ CombiningEntriesCloseIntoTheirBlocks

/-! ### Packets, the host aperture and messages -/

namespace Sys2Proof.Says
open Sys2Proof.Machine

/-- R20, R78: a link is up and no flit of it is waiting to be sent again. -/
def Carries (s : State) (l : Nat) : Prop := l < 12 ∧ 2 ≤ (s.link l).state ∧ (s.link l).fails = 0

/-- A packet of another node reaches this device over a link. -/
def FromPeer (s : State) (l src dst : Nat) : Prop := dst = s.fab.node ∧ src ≠ s.fab.node ∧ Carries s l

/-- R69: fields of a window. -/
def winField (s : State) (w j hi lo : Nat) : Nat := s.winWord w j / 2 ^ lo % 2 ^ (hi + 1 - lo)

/-- R71: why the target refuses a packet of a put; 0 where it takes it. -/
def refusal (s : State) (p : WritePacket) : Nat :=
  if s.fab.en = false ∨ 256 ≤ p.win ∨ winField s p.win 0 63 63 = 0 then 1
  else if winField s p.win 0 62 62 = 0 then 2
  else if p.src < winField s p.win 0 31 20 ∨ winField s p.win 0 19 8 < p.src then 3
  else if p.key ≠ winField s p.win 0 47 32 then 4
  else if winField s p.win 2 27 0 * 4096 < p.off + p.total then 5
  else 0

/-- R64: the way to a node is a link that is up; an acknowledgement with a reason leaves on it. -/
def Linked (s : State) (node l : Nat) : Prop := s.routeTo node = some (some l)
def Answers (s t : State) (node id reason l : Nat) : Prop :=
  t.fab.sent = s.fab.sent ++ [(l, .ack { src := s.fab.node, dst := node, id := id, reason := reason })]

/-- Where the bytes of a packet go: the nominal address of the first. -/
def landing (s : State) (p : WritePacket) : Nat := winField s p.win 1 56 12 * 4096 + p.off + p.pos
/-- The address of the counter that word `j` of a window names. -/
def counterAt (s : State) (w j : Nat) : Nat := winField s w j 56 3 * 8
/-- A count of 8 bytes stands one higher. -/
def numberAt (s : State) (a : Nat) : Nat := ofBytes ((List.range 8).map fun j => s.byteAt (a + j))

/-- R71, R72: a packet whose checks pass writes its bytes; the last of its put adds 1 to TCNT and is acknowledged. -/
def TakesPacket : Prop :=
  ∀ s k p, FromPeer s k p.src p.dst → refusal s p = 0 → s.fab.refused.contains (p.src, p.id) = false → s.mem.canonical →
    landing s p + p.data.length ≤ hostBase →
    (p.pos + p.data.length < p.total → Does (.writePacketReceive ⟨k, p⟩) s fun t =>
      ∀ pa, t.byteAt pa = if landing s p ≤ pa ∧ pa < landing s p + p.data.length then p.data.getD (pa - landing s p) 0 else s.byteAt pa)
    ∧ (∀ l, p.total ≤ p.pos + p.data.length → Linked s p.src l → counterAt s p.win 3 + 8 ≤ hostBase →
      (counterAt s p.win 3 + 8 ≤ landing s p ∨ landing s p + p.data.length ≤ counterAt s p.win 3) →
      Does (.writePacketReceive ⟨k, p⟩) s fun t => Answers s t p.src p.id 0 l ∧ numberAt t (counterAt s p.win 3) = (numberAt s (counterAt s p.win 3) + 1) % 2 ^ 64
        ∧ ∀ pa, (pa < counterAt s p.win 3 ∨ counterAt s p.win 3 + 8 ≤ pa) →
          t.byteAt pa = if landing s p ≤ pa ∧ pa < landing s p + p.data.length then p.data.getD (pa - landing s p) 0 else s.byteAt pa)

/-- R71, R73, R77: a packet that fails a check writes nothing, is answered with its reason, and with it every later packet of the put. -/
def RefusesPacket : Prop :=
  ∀ s k p l, FromPeer s k p.src p.dst → refusal s p ≠ 0 → s.fab.refused.contains (p.src, p.id) = false → Linked s p.src l →
    Sparse.wf (0 : W64) s.fab.stats = true → Does (.writePacketReceive ⟨k, p⟩) s fun t =>
      OnlyFab s t ∧ Answers s t p.src p.id (refusal s p) l ∧ Counted s.fab.stats t.fab.stats 2
      ∧ (p.pos + p.data.length < p.total → (p.src, p.id) ∈ t.fab.refused)

/-- R73: a later packet of a refused put changes nothing in memory. -/
def DropsPacket : Prop :=
  ∀ s k p, FromPeer s k p.src p.dst → s.fab.refused.contains (p.src, p.id) = true → Does (.writePacketReceive ⟨k, p⟩) s fun t => OnlyFab s t

/-- A put or message that waits for an answer, and its copy entry. -/
def Unanswered (s : State) (k : Nat) (a : AckPacket) (q : FabWait) (e : CopyEntry) : Prop :=
  FromPeer s k a.src a.dst ∧ s.fab.waits.find? (fun q => q.id = a.id && q.node = a.src) = some q
  ∧ (s.core q.core).copies.find? (fun e => e.ctx = q.ctx && e.seq = q.seq) = some e

/-- An entry has a state. -/
def EntryIs (t : State) (core ctx seq : Nat) (x : CopyStat) : Prop :=
  ∀ e ∈ (t.core core).copies, e.ctx = ctx → e.seq = seq → e.stat = x

/-- R72, R73, R75: an acknowledgement ends the put or message: its entry completes, with OCNT counted, or fails with 0x73 and is recorded. -/
def TakesAnswer : Prop :=
  ∀ s k a q e, Unanswered s k a q e → CoresListed s → s.mem.canonical →
    (a.reason = 0 → q.whole = true → q.msg = true → Does (.acknowledgeReceive ⟨k, a⟩) s fun t => EntryIs t q.core q.ctx q.seq (.ended 0) ∧ (∀ x ∈ t.fab.waits, x.id ≠ q.id))
    ∧ (a.reason = 0 → q.whole = true → q.msg = false → counterAt s q.win 4 + 8 ≤ hostBase → Does (.acknowledgeReceive ⟨k, a⟩) s fun t =>
        EntryIs t q.core q.ctx q.seq (.ended 0) ∧ (∀ x ∈ t.fab.waits, x.id ≠ q.id)
        ∧ (counterAt s q.win 4 + 8 ≤ s.queueAt q.ctx q.core ∨ s.queueAt q.ctx q.core + 64 ≤ counterAt s q.win 4 →
            numberAt t (counterAt s q.win 4) = (numberAt s (counterAt s q.win 4) + 1) % 2 ^ 64))
    ∧ (a.reason ≠ 0 → Does (.acknowledgeReceive ⟨k, a⟩) s fun t => EntryIs t q.core q.ctx q.seq (.ended 0x73)
        ∧ (∀ x ∈ t.fab.waits, ¬(x.core = q.core ∧ x.ctx = q.ctx ∧ x.seq = q.seq))
        ∧ t.fab.errVld = true ∧ (s.fab.errVld = false → t.fab.errReason = a.reason ∧ t.fab.errNode = e.node ∧ t.fab.errSrc = 0x100 + q.core
            ∧ t.fab.errTime = s.dev.tsNow) ∧ t.host.irqPend = s.host.irqPend ||| 16#8)

end Sys2Proof.Says

open Sys2Proof Sys2Proof.Machine Sys2Proof.Says in
/-- R20, R65, R66, R71 to R73: packets of puts are taken or refused at the target, answers end them at the source, and fences are answered; a
fence or an instruction that acts as one is then over, and an access that releases is performed next (R213). Nothing comes in over a link that is
not up, or whose flit is to be sent again. -/
def Obligations.FabricPacketsAreTakenAnsweredAndRefused : Prop :=
  TakesPacket ∧ RefusesPacket ∧ DropsPacket ∧ TakesAnswer
  ∧ (∀ s l p, p.src ≠ s.fab.node → ¬ Carries s l → Does (.writePacketReceive ⟨l, p⟩) s fun t => t = s)
  ∧ (∀ s l src, src ≠ s.fab.node → Carries s l → Does (.fencePacketReceive l ⟨src⟩) s fun t =>
      t = { s with fab := { s.fab with sent := s.fab.sent ++ [(l, .fenceDone src)] } })
  ∧ (∀ s l k f, Carries s l → s.fab.fences = [f] → f.pending = [] → f.links = [l] → f.who = .wave k → s.waitOf k = .fence f.id →
      ∀ j, s.pending k = some j → Does (.fenceDoneReceive l) s fun t => t.fab.fences = []
        ∧ ((j.row.op = 0xB0 ∨ j.ex = []) → GoneOn t j)
        ∧ (j.row.op ≠ 0xB0 → j.ex ≠ [] → ∃ w, t.wave? k = some w ∧ w.wait = .none ∧ w.fenced = true ∧ w.lanes = j.w.lanes))
  ∧ (∀ s l m f, Carries s l → l ≠ m → s.fab.fences = [f] → f.pending = [] → f.links = [l, m] → Does (.fenceDoneReceive l) s fun t =>
      t = { s with fab := { s.fab with fences := [{ f with links := [m] }] } })

namespace Sys2Proof.Says
open Sys2Proof.Machine

/-- The message of a packet, as it takes a buffer. -/
def peerMessage (s : State) (l : Nat) (p : MsgPacket) : Message :=
  { data := p.data, kind := 1, src := 0x061 + l, who := p.src, seq := 0, time := s.dev.tsNow, entry := none }

/-- R90, R91: whether an entry takes a message: armed, its source allowed, the tag matched under the mask, and, for a wave's message, its
own context. -/
def Matches (a : Arm) (m : Message) : Prop :=
  a.v = true ∧ a.src / 2 ^ (2 - m.kind) % 2 = 1
  ∧ (BitVec.ofNat 64 (ofBytes (m.data.take 8)) ^^^ BitVec.ofNat 64 a.tag) &&& BitVec.ofNat 64 a.mask = 0 ∧ (m.kind = 2 → a.ctx = m.who)

/-- R93: the unmatched queue has room, in one memory, and the entry of a message there. -/
def queueSlot (s : State) : Nat := s.host.umqBase + 128 * (s.host.umqPidx % 2 ^ s.host.umqLog2)
def QueueRoom (s : State) : Prop :=
  s.host.umqBase ≠ 0 ∧ (queueSlot s + 128 ≤ hostBase ∨ hostBase ≤ queueSlot s) ∧ (s.host.umqPidx + 2 ^ 32 - s.host.umqCidx) % 2 ^ 32 ≠ 2 ^ s.host.umqLog2
def unmatchedBytes (m : Message) (reason entry : Nat) : List Byte :=
  m.data ++ toBytes 8 m.time.toNat ++ toBytes 2 m.src ++ [BitVec.ofNat 8 m.kind, BitVec.ofNat 8 reason] ++ toBytes 2 m.who ++ toBytes 2 entry
    ++ List.replicate 48 0
/-- R93: the message stands in the unmatched queue, interrupt 0 is raised, and no other byte of memory changes. -/
def Unmatched (s t : State) (m : Message) (reason entry : Nat) : Prop :=
  t.host.umqPidx = (s.host.umqPidx + 1) % 2 ^ 32 ∧ t.host.irqPend = s.host.irqPend ||| 1#8
  ∧ ∀ pa, t.byteAt pa = if queueSlot s ≤ pa ∧ pa < queueSlot s + 128 then (unmatchedBytes m reason entry).getD (pa - queueSlot s) 0 else s.byteAt pa

/-- R92: the payload slot that an entry gives the next message. -/
def nextSlot (a : Arm) : Nat := (a.ring.toNat + 64 * (a.widx % 2 ^ a.log2)) % 2 ^ 64

/-- R92: in the state `s` an entry is free to fire for a message: its context runs or is stopped, its ring has room, the slot can be written and the
descriptor, of a launch, read; `u` is the state after the slot is written. -/
structure Fires (s : State) (a : Arm) (m : Message) (d : Desc) (u : State) : Prop where
  state : (s.ctx a.ctx).state = .run ∨ (s.ctx a.ctx).state = .stopped
  room : a.outst < 2 ^ a.log2
  launch : d.task = false
  reach : ∃ ps u1 u2, State.translatePieces none a.ctx Access.write (rangePieces 2 (nextSlot a) 64) s = (.ok ps, u1)
    ∧ u1.readDesc none a.ctx a.desc.toNat = (.ok d, u2) ∧ u2.writeVirt none a.ctx (nextSlot a) m.data Access.write = (.ok (), u)

/-- R92: what firing leaves: WIDX, OUTST and FIRES one higher, V cleared by ONE, and a launch with the slot as k1. -/
def Fired (s t : State) (i : Nat) (a : Arm) (d : Desc) : Prop :=
  (t.arm i).widx = (a.widx + 1) % 2 ^ 32 ∧ (t.arm i).outst = a.outst + 1 ∧ (t.arm i).fires = a.fires + 1 ∧ (t.arm i).v = (a.v && !a.one)
  ∧ ∃ l, t.sched.launches = s.sched.launches ++ [l] ∧ l.desc = d ∧ l.ctx = a.ctx ∧ l.arm = some i
      ∧ l.k1 = BitVec.ofNat 64 (nextSlot a) ∧ l.prio = a.prio

end Sys2Proof.Says

open Sys2Proof Sys2Proof.Machine Sys2Proof.Says in
/-- R29, R44, R79, R80: the aperture, which is as large as BAR 4, reads and writes memory at its base; at and above the nominal size it reads ones
and writes nothing. Both wait for a reformat. What the statement says of errors is that there are none to consume. -/
def Sys2Proof.Says.TheApertureReadsAndWritesMemory : Prop :=
  (∀ s off n, Serving s → s.mem.reformat = none → s.mem.flaws = [] → s.mem.canonical → s.mem.nominal ≤ hostBase → Does (.hostApRead off n) s fun t =>
      let a := s.host.apBase * 2 ^ 28 + off
      t.host.readData = (List.range (min n (2 ^ s.host.bar4 - off))).map (fun j => if a + j < s.mem.nominal then s.byteAt (a + j) else 0xFF)
      ∧ (∀ pa, t.byteAt pa = s.byteAt pa) ∧ t.waves = s.waves ∧ t.cores = s.cores)
  ∧ (∀ s off data, Serving s → s.mem.reformat = none → s.mem.canonical → s.mem.nominal ≤ hostBase → Does (.hostApWrite off data) s fun t =>
      let a := s.host.apBase * 2 ^ 28 + off
      (∀ pa, t.byteAt pa = if a ≤ pa ∧ pa < a + min data.length (2 ^ s.host.bar4 - off) ∧ pa < s.mem.nominal then data.getD (pa - a) 0 else s.byteAt pa)
      ∧ t.waves = s.waves ∧ t.host = s.host)

open Sys2Proof Sys2Proof.Machine Sys2Proof.Says in
/-- R75, R88 to R93: slots submit messages, the oldest takes a buffer and fires the lowest entry that it matches, or goes to the unmatched queue; one that
waits fires when its ring has room, or is matched afresh where V reads 0. How messages of the device itself are numbered, and the order of entries
that wait, are the model's readings (log 21). -/
def Sys2Proof.Says.MessagesAreAcceptedMatchedAndFired : Prop :=
  (∀ s j data, Serving s → j < 1024 → data.length = 64 → Memory.wf s.host.slots = true → Does (.messageSlotWrite (64 * j) data) s fun t => OnlyHost s t
      ∧ ∃ m, t.host.queued = s.host.queued ++ [m] ∧ m.data = data ∧ m.kind = 0 ∧ m.src = 0x060 ∧ m.who = 0 ∧ m.entry = none)
  ∧ (∀ s m rest, s.host.queued = m :: rest → m.kind ≠ 2 → s.host.bufs.length < 256 → m.data.length = 64 →
      (∀ x ∈ s.host.arms, ¬ Matches x.2 m) → QueueRoom s → s.mem.canonical → Does .messageAccept s fun t =>
        t.host.queued = rest ∧ t.host.bufs = s.host.bufs ∧ Unmatched s t { m with time := s.dev.tsNow } 1 0xFFFF)
  ∧ (∀ s m rest i a d u, s.host.queued = m :: rest → m.kind ≠ 2 → s.host.bufs = [] → ArmsListed s → s.arm i = a → Matches a m →
      (∀ j, j < i → ¬ Matches (s.arm j) m) →
      Fires { s with host := { s.host with queued := rest, stats := bump s.host.stats 0 1 } } a m d u →
      Does .messageAccept s fun t => t.host.queued = rest ∧ t.host.bufs = [] ∧ Fired s t i a d)
  ∧ (∀ s l p, FromPeer s l p.src p.dst → s.fab.en = true → s.fab.msgEn = true → s.fab.msgLo ≤ p.src → p.src ≤ s.fab.msgHi →
      s.host.bufs.length < 256 → p.data.length = 64 → (∀ x ∈ s.host.arms, ¬ Matches x.2 (peerMessage s l p)) → QueueRoom s → s.mem.canonical →
      Does (.messagePacketReceive l p) s fun t => Unmatched s t (peerMessage s l p) 1 0xFFFF
        ∧ ∀ k, Linked s p.src k → Answers s t p.src p.id 0 k)
  ∧ (∀ s l p, FromPeer s l p.src p.dst → s.fab.en = true → (s.fab.msgEn = false ∨ p.src < s.fab.msgLo ∨ s.fab.msgHi < p.src) →
      Sparse.wf (0 : W64) s.fab.stats = true → Does (.messagePacketReceive l p) s fun t =>
        OnlyFab s t ∧ Counted s.fab.stats t.fab.stats 5 ∧ ∀ k, Linked s p.src k → Answers s t p.src p.id 9 k)
  ∧ (∀ s m i a d u, s.host.bufs = [m] → m.entry = some i → ArmsListed s → s.arm i = a → a.v = true →
      Fires { s with host := { s.host with bufs := [] } } a m d u →
      Does .waitingMessageFire s fun t => t.host.bufs = [] ∧ Fired s t i a d)
  ∧ (∀ s m i, s.host.bufs = [m] → m.entry = some i → (s.arm i).v = false → m.data.length = 64 → (∀ x ∈ s.host.arms, ¬ Matches x.2 { m with entry := none }) →
      QueueRoom s → s.mem.canonical → Does .messageRematch s fun t => t.host.bufs = [] ∧ Unmatched s t { m with entry := none } 1 0xFFFF)

open Sys2Proof.Says in
/-- The statements above: the aperture and messages. -/
def Obligations.TheHostReachesMemoryAndSubmitsMessages : Prop := TheApertureReadsAndWritesMemory ∧ MessagesAreAcceptedMatchedAndFired

/-! ### Contexts, translations, the debugger -/

namespace Sys2Proof.Says
open Sys2Proof.Machine

/-- A context changes its state and nothing else does. -/
def StateBecomes (s t : State) (c : Nat) (x : CtxState) : Prop := OnlyCtxs s t ∧ CtxBecomes s t c { s.ctx c with state := x }

/-- R85: the bases of a context can be used. -/
def Based (s : State) (c : Ctx) : Prop :=
  ∀ a ∈ [c.root, c.save, c.engblk, c.fqBase], a ≠ 0 ∧ a < s.mem.nominal

/-- A context's command arrives in a state that it is not for. -/
def Ignored (s t : State) : Prop := t = { s with host := { s.host with cfgErr := true } }

/-- Nothing of a context is on the device's cores and queues. -/
def Nothing (t : State) (c : Nat) : Prop :=
  (∀ x ∈ t.waves, x.2.ctx ≠ c) ∧ (∀ l ∈ t.sched.launches, l.ctx ≠ c) ∧ (∀ g ∈ t.sched.graphs, g.ctx ≠ c)
  ∧ (∀ h ∈ t.bln.held, h.ctx ≠ c) ∧ (∀ x ∈ t.gangs, x.2.ctx ≠ c) ∧ (∀ i a, t.arm i = a → a.ctx = c → a.v = false)

end Sys2Proof.Says

open Sys2Proof Sys2Proof.Machine Sys2Proof.Says in
/-- R85, R87, R94, R107: the commands of a context and the states that they lead to; one that is not for the present state is ignored with CFGERR. -/
def Sys2Proof.Says.ContextCommandsMoveTheContext : Prop :=
  (∀ s c, Serving s → CtxsListed s → (s.ctx c).state = .off → s.host.boot = 2 → Based s (s.ctx c) → Does (.ctxEnable c) s fun t => StateBecomes s t c .run)
  ∧ (∀ s c, Serving s → ((s.ctx c).state ≠ .off ∨ s.host.boot ≠ 2 ∨ ¬ Based s (s.ctx c)) → Does (.ctxEnable c) s fun t => Ignored s t)
  ∧ (∀ s c, Serving s → CtxsListed s → (s.ctx c).state = .run → Does (.ctxStop c) s fun t => CtxBecomes s t c { s.ctx c with state := .stopping }
      ∧ t.waves = s.waves ∧ t.mem = s.mem ∧ t.sched.launches = s.sched.launches ∧ t.host.arms = s.host.arms
      ∧ ∀ g G, s.gang? g = some G → ∃ e, t.gang? g = some { G with evict := e }
          ∧ (if G.ctx = c ∧ G.callable = false ∧ G.evict = none then e = some .stop else e = G.evict))
  ∧ (∀ s c, Serving s → (s.ctx c).state ≠ .run → Does (.ctxStop c) s fun t => Ignored s t)
  ∧ (∀ s c, Serving s → CtxsListed s → (s.ctx c).state = .stopped → Does (.ctxResume c) s fun t => StateBecomes s t c .run)
  ∧ (∀ s c, Serving s → (s.ctx c).state ≠ .stopped → Does (.ctxResume c) s fun t => Ignored s t)
  ∧ (∀ s c, Serving s → CtxsListed s → ArmsListed s → ((s.ctx c).state = .run ∨ (s.ctx c).state = .stopping ∨ (s.ctx c).state = .stopped) →
      Does (.ctxKill c) s fun t => (t.ctx c).state = .killing ∧ Nothing t c ∧ (∀ d, d ≠ c → (t.ctx d).state = (s.ctx d).state))
  ∧ (∀ s c, Serving s → ((s.ctx c).state = .off ∨ (s.ctx c).state = .killing) → Does (.ctxKill c) s fun t => Ignored s t)
  ∧ (∀ s c, Tidy s → CtxsListed s → (s.ctx c).state = .stopping → s.stopOver c = true → Does (.ctxStoppedReached c) s fun t =>
      t = { s with ctxs := t.ctxs, host := t.host } ∧ CtxBecomes s t c { s.ctx c with state := .stopped } ∧ Raised s t 7)
  ∧ (∀ s c, CtxsListed s → (s.ctx c).state = .killing → Does (.ctxOffReached c) s fun t =>
      t = { s with ctxs := t.ctxs, host := t.host } ∧ CtxBecomes s t c { s.ctx c with state := .off } ∧ Raised s t 7)

namespace Sys2Proof.Says
open Sys2Proof.Machine

/-- R236: what an invalidation drops. -/
def Dropped (x : Xlt) (e : TlbEntry) : Prop :=
  match x.invKind with
  | 0 => e.ctx = x.invCtx ∧ e.va < x.invVa.toNat + 4096 * max 1 x.invPages ∧ x.invVa.toNat < e.va + 2 ^ e.log2
  | 1 => e.ctx = x.invCtx
  | _ => True

/-- R235, R236: the entries of the walk caches that an invalidation leaves: a range or a context takes those of its context, the kind for all takes all. -/
def KeepsWalk (x : Xlt) (e : WalkEntry) : Prop := x.invKind ≤ 1 ∧ e.ctx ≠ x.invCtx

/-- R257: the start of an invalidation of a kind. -/
def StartsInvalidation (ins : Instr) (kind : Nat) : Prop :=
  (∀ s, Serving s → s.xlt.invGo = false → Does ins s fun t => t = { s with xlt := { s.xlt with invGo := true, invKind := kind } })
  ∧ ∀ s, Serving s → s.xlt.invGo = true → Does ins s fun t => Ignored s t

/-- R239: what a wave of the context does once CIDX has passed: one whose fault entry was consumed goes on. -/
def PassesFaults (s : State) (c : Nat) (w w' : Wave) : Prop :=
  match w.wait with
  | .fault p => w' = if p < s.fqCidx c then { w with wait := .none } else w
  | _ => w' = w

/-- R239, R246: whether a wave waits for room in the fault queue. -/
def WaitsForRoom (w : Wave) : Bool := match w.wait with | .stopSpace | .faultSpace .. => true | _ => false

end Sys2Proof.Says

open Sys2Proof Sys2Proof.Machine Sys2Proof.Says in
/-- R195, R235, R236, R239, R246, R257: an invalidation drops the translations that it names and no other; observing FQ_CIDX lets waves and copy entries go on whose
fault entries system software has consumed. -/
def Sys2Proof.Says.InvalidationsAndTheFaultQueueLetWavesGoOn : Prop :=
  StartsInvalidation .tlbInvalidateRange 0 ∧ StartsInvalidation .tlbInvalidateContext 1 ∧ StartsInvalidation .tlbInvalidateAll 2
  ∧ (∀ s, s.xlt.invGo = true → CoresListed s → Does .tlbInvalidateComplete s fun t => t = { s with cores := t.cores, xlt := { s.xlt with invGo := false } }
      ∧ (∀ c e, e ∈ (t.core c).tlb ↔ e ∈ (s.core c).tlb ∧ ¬ Dropped s.xlt e) ∧ (∀ c e, e ∈ (t.core c).walks ↔ e ∈ (s.core c).walks ∧ KeepsWalk s.xlt e)
      ∧ ∀ c, t.core c = { s.core c with tlb := (t.core c).tlb, walks := (t.core c).walks })
  ∧ (∀ s c, CoresListed s → (∀ x ∈ s.waves, WaitsForRoom x.2 = false) → Does (.fqCidxObserve c) s fun t =>
      (∀ k w, s.wave? k = some w → ∃ w', t.wave? k = some w' ∧ if w.ctx = c then PassesFaults s c w w' else w' = w)
      ∧ ∀ k e p, e ∈ (s.core k).copies → e.ctx = c → e.stat = .stopped p →
          (p < s.fqCidx c → e.words ≠ [] → { e with stat := .run } ∈ (t.core k).copies) ∧ (s.fqCidx c ≤ p → e ∈ (t.core k).copies))
  ∧ (∀ s c k w cause origin info pages, s.waves = [(k, w)] → w.ctx = c → w.wait = .faultSpace cause origin info pages → Does (.fqCidxObserve c) s fun t =>
      t.wave? k = some (if s.fqFull c then w else { w with wait := .fault (s.fqPidx c) }) ∧ (s.fqFull c = false → t.host.irqPend.getLsbD 2 = true))

open Sys2Proof.Says in
/-- The statements above: context commands, invalidations, the fault queue. -/
def Obligations.ContextsFollowTheirCommandsAndInvalidations : Prop := ContextCommandsMoveTheContext ∧ InvalidationsAndTheFaultQueueLetWavesGoOn

namespace Sys2Proof.Says
open Sys2Proof.Machine

/-- A number in the live record of a wave. -/
def inRecord (s : State) (c k o n : Nat) : Nat := ofBytes (s.peekPhys (s.liveRecord c k + o) n)

end Sys2Proof.Says

open Sys2Proof Sys2Proof.Machine Sys2Proof.Says in
/-- R255, R258 to R261: HALT stops a wave at its instruction boundary, with its state in the live record and cause 0, and with FLTPEND where its fault is recorded and not posted; RESUME reloads it and lets it pass its break
once; DBG_CTL holds ATTACH, ATTN and STEP. Without a debugger HALT has no effect. The statements are of a context with one wave. -/
def Obligations.TheDebuggerHaltsAndResumesWaves : Prop :=
  (∀ s c, Serving s → (s.ctx c).attach = false → Does (.dbgHalt c) s fun t => t = s)
  ∧ (∀ s c k w, Serving s → (s.ctx c).attach = true → s.waves = [(k, w)] → w.ctx = c → w.trapMode = false → w.dbgHalt = false → w.heldLanes ≠ [] →
      (w.wait = .none ∨ ∃ cause pages, w.wait = .ahead cause pages) → w.busy = false → s.mem.canonical → CtxsListed s → s.liveRecord c k + 24576 ≤ hostBase → Does (.dbgHalt c) s fun t =>
        ∃ w', t.wave? k = some w' ∧ w'.dbgHalt = true ∧ w'.wait = .none ∧ (w'.fltPend = true ↔ w.wait ≠ .none) ∧ inRecord t c k 0x80 1 = 0 ∧ Raised s t 6
          ∧ (t.ctx c).halt = false ∧ (t.ctx c).lastVld = true)
  ∧ (∀ s c k w, Serving s → s.waves = [(k, w)] → w.ctx = c → w.dbgHalt = true → s.mem.canonical → s.mem.flaws = [] →
      (s.liveRecord c k + 24576 ≤ hostBase ∨ hostBase ≤ s.liveRecord c k) → Does (.dbgResume c) s fun t =>
        ∃ w', t.wave? k = some w' ∧ w'.dbgHalt = false ∧ w'.trapMode = false ∧ w'.wait = .none ∧ w'.skip = true ∧ w'.n = w.n
          ∧ (∀ r, r < 32 → w'.kVal r = inRecord s c k (0x200 + 8 * r) 8)
          ∧ (∀ l, l < 32 → bit (inRecord s c k 0x18 4) l = true → (w'.lane l).pc = inRecord s c k (0x100 + 8 * l) 8 % 2 ^ 48)
          ∧ ∀ pa, t.byteAt pa = s.byteAt pa)
  ∧ (∀ s c (v : W64), Serving s → CtxsListed s → v.getLsbD 2 = false → v.getLsbD 3 = false → ((s.ctx c).attach = false ∨ v.getLsbD 0 = true) →
      Does (.dbgAttachWrite c v) s fun t => OnlyCtxs s t
        ∧ CtxBecomes s t c { s.ctx c with attach := v.getLsbD 0, attn := v.getLsbD 1, step := v.getLsbD 4, halt := (s.ctx c).halt && v.getLsbD 0 })

/-! ### Graphs and the launch distributor -/

namespace Sys2Proof.Says
open Sys2Proof.Machine

/-- R108, R109: what holds of an accepted graph of a context: 1 to 1,024 nodes, each with at most 8 successors that exist, the NPRED of each the
number of times it is named, some node free to start, and no node started. -/
structure GoodGraph (g : Graph) (c : Nat) : Prop where
  ctx : g.ctx = c
  size : 1 ≤ g.nodes.length ∧ g.nodes.length ≤ 1024
  succ : ∀ x ∈ g.nodes, x.succ.length ≤ 8 ∧ ∀ y ∈ x.succ, y < g.nodes.length
  preds : ∀ j x, g.nodes[j]? = some x → x.npred = ((g.nodes.flatMap (·.succ)).filter fun y => y = j).length
  first : ∃ x ∈ g.nodes, x.npred = 0
  kinds : ∀ x ∈ g.nodes, (x.kind = 1 ∧ x.desc.isSome = true) ∨ x.kind = 2 ∨ x.kind = 3
  stats : g.stats = g.nodes.map fun x => .waits x.npred
  done_ : g.doneAddr % 8 = 0
  runs : g.aborted = false

/-- A node of a graph may start: it waits for nothing and the graph goes on. -/
structure Startable (s : State) (gid n : Nat) (g : Graph) (x : GraphNode) : Prop where
  tidy : Tidy s
  graph : s.graph? gid = some g
  node : g.nodes[n]? = some x
  free : g.stats[n]? = some (.waits 0)
  goes : g.aborted = false

/-- The node has a state after the step, and the rest of its graph is as it was. -/
def NodeIs (t : State) (gid n : Nat) (g : Graph) (x : NodeStat) : Prop := t.graph? gid = some { g with stats := g.stats.set n x }

/-- R110: a successor waits for one predecessor less for each time that it is named. -/
def lessBy (k : Nat) : NodeStat → NodeStat
  | .waits n => .waits (n - k)
  | x => x

/-- A node of the graph is over, and the graph goes on. -/
structure Finished (s : State) (gid n : Nat) (g : Graph) (x : GraphNode) : Prop where
  graph : s.graph? gid = some g
  node : g.nodes[n]? = some x
  over_ : g.stats[n]? = some .ended
  goes : g.aborted = false
  shape : g.stats.length = g.nodes.length
  other : n ∉ x.succ

/-- What the counters of a graph are when node n is complete. -/
def countsAfter (g : Graph) (n : Nat) (x : GraphNode) (j : Nat) : Option NodeStat :=
  if j = n then some .complete else (g.stats[j]?).map (lessBy (x.succ.filter fun y => y = j).length)

end Sys2Proof.Says

open Sys2Proof Sys2Proof.Machine Sys2Proof.Says in
/-- R108 to R112, R130: a submitted graph is checked whole and accepted with RES 1, or refused with its code; nodes that wait for nothing start; a node that
completes lets its successors count down, and the last one ends the graph with its completion word. How copies move is the model's reading (log 24). -/
def Obligations.GraphsAreCheckedStartedAndCompleted : Prop :=
  (∀ s, Serving s → s.sched.gsubGo = false → Does .graphSubmit s fun t => t = { s with sched := { s.sched with gsubGo := true, gsubRes := 0 } })
  ∧ (∀ s, Serving s → s.sched.gsubGo = true → Does .graphSubmit s fun t => Ignored s t)
  ∧ (∀ s, s.sched.gsubGo = true → (s.ctx s.sched.gsubCtx).state ≠ .run → Does .graphCheckDone s fun t =>
      t = { s with sched := { s.sched with gsubGo := false, gsubRes := 2 } })
  ∧ (∀ s, s.sched.gsubGo = true → (s.ctx s.sched.gsubCtx).state = .run → Does .graphCheckDone s fun t =>
      t.sched.gsubGo = false ∧ ((t.sched.gsubRes = 1 ∧ ∃ g, t.sched.graphs = s.sched.graphs ++ [g] ∧ GoodGraph g s.sched.gsubCtx)
        ∨ ((t.sched.gsubRes = 2 ∨ t.sched.gsubRes = 3) ∧ t.sched.graphs = s.sched.graphs)))
  ∧ (∀ s gid n g x d, Startable s gid n g x → x.kind = 1 → x.desc = some d → Does (.graphNodeStart gid n) s fun t => NodeIs t gid n g .started
      ∧ ∃ l, t.sched.launches = s.sched.launches ++ [l] ∧ l.desc = d ∧ l.ctx = g.ctx ∧ l.node = some (gid, n) ∧ l.prio = d.prio
        ∧ t.effPrio l.ctx l.prio = min d.prio (s.ctx g.ctx).ceil ∧ l.src = 0x071 ∧ l.nextIdx = 0)
  ∧ (∀ s gid n g x die data u, Startable s gid n g x → x.kind = 2 → x.b.getLsbD 63 = true → die = field x.b 57 56 →
      (∀ w ∈ s.waves, w.1 / 128 / 48 ≠ die) → 0 < x.len.toNat → x.len.toNat ≤ 4096 - x.a.toNat % 4096 →
      ({ s with sched := { s.sched with graphs := s.sched.graphs.map fun y => if y.id = gid then { y with stats := setAt y.stats n .started } else y } } : State).readVirt
        none g.ctx x.a.toNat x.len.toNat Access.engRead = (.ok data, u) → Does (.graphNodeStart gid n) s fun t => NodeIs t gid n g .ended
        ∧ t.wstore = writeBytes s.wstore (die * 2 ^ 31 + field x.b 30 0) data ∧ t.mem = u.mem)
  ∧ (∀ s gid n g x u, Startable s gid n g x → x.kind = 3 → s.writeVirt none g.ctx x.a.toNat (toBytes 8 x.b.toNat) Access.engWrite = (.ok (), u) →
      Does (.graphNodeStart gid n) s fun t => NodeIs t gid n g .ended ∧ t.mem = u.mem)
  ∧ (∀ s gid n g x, Finished s gid n g x → (∃ j, countsAfter g n x j ≠ some .complete ∧ j < g.stats.length) → Does (.graphNodeComplete gid n) s fun t =>
      OnlySched s t ∧ t.sched.launches = s.sched.launches ∧ ∃ g', t.graph? gid = some g' ∧ ∀ j, g'.stats[j]? = countsAfter g n x j)
  ∧ (∀ s gid n g x u, Finished s gid n g x → (∀ j, j < g.stats.length → countsAfter g n x j = some .complete) → g.doneAddr ≠ 0 →
      ({ s with sched := { s.sched with graphs := s.sched.graphs.map fun y => if y.id = gid then y.release n else y } } : State).writeVirt none g.ctx g.doneAddr
        (toBytes 8 g.doneVal.toNat) Access.engWrite = (.ok (), u) → Does (.graphNodeComplete gid n) s fun t => t.graph? gid = none ∧ t.mem = u.mem)

namespace Sys2Proof.Says
open Sys2Proof.Machine

/-- R113 to R115: a gang has its place on a core: the range of scratchpad lies in the ways and meets no other allocation. -/
def HasRoom (s : State) (core base bytes : Nat) : Prop :=
  base + bytes ≤ 65536 * (s.core core).ways
  ∧ ∀ a ∈ (s.core core).allocs, a.bytes = 0 ∨ bytes = 0 ∨ base + bytes ≤ a.base ∨ a.base + a.bytes ≤ base

/-- A reservation of one gang of a launch, ready to commit on a core that holds no wave. -/
structure Committable (s : State) (r : Reserve) (l : Launch) (m : Member) (g core base : Nat) : Prop where
  held : s.sched.reserve = some r
  launch : s.launch? r.launch = some l
  single : l.desc.members = [m] ∧ r.gangs = [(g, core, base)]
  plain : l.tasks = none ∧ l.mesh = none
  count : 1 ≤ m.waves ∧ m.waves ≤ 32
  empty : ∀ x ∈ s.waves, x.1 / 128 ≠ core
  open_ : s.dieHeld (core / 48) = false
  cores : CoresListed s

/-- R98: the state in which a wave of a launch starts. -/
structure Started (s : State) (l : Launch) (m : Member) (r : Reserve) (g base j : Nat) (w : Wave) : Prop where
  gang : w.gang = g
  idx : w.idx = j
  ctx : w.ctx = l.ctx
  named : w.n = m.named
  pc : ∀ x, x < 32 → (w.lane x).pc = s.codeOff l.ctx (s.forward l.ctx m.entry) ∧ (w.lane x).parked = none ∧ (w.lane x).ret = []
  zero : ∀ x, (∀ a, w.see ((w.lane x).shelfCell a) = 0) ∧ (∀ y, w.nVal x y = 0) ∧ ∀ d, w.pred x d = false
  k0 : w.kVal 0 = l.desc.args % 2 ^ 64
  k1 : w.kVal 1 = l.k1.toNat
  k2 : w.kVal 2 = r.index % 2 ^ 64
  k3 : w.kVal 3 = 0
  k4 : w.kVal 4 = base % 2 ^ 64
  k5 : w.kVal 5 = j
  rest : ∀ y, 6 ≤ y → w.kVal y = 0
  modes : w.trapMode = false ∧ w.dbgHalt = false ∧ w.flags = 0 ∧ w.domains = 0 ∧ w.wait = .none ∧ w.ops = []

/-- A launch that is over, with nothing of it left. -/
structure Done (s : State) (id : Nat) (l : Launch) : Prop where
  tidy : Tidy s
  launch : s.launch? id = some l
  placed : l.desc.total ≤ l.nextIdx ∧ l.live = 0 ∧ l.saved = []
  slots : ∀ f ∈ s.fes, ∀ x ∈ f.2.slots, x.2.used = true → x.2.launch ≠ id
  quiet : s.fabQuiet l.ctx = true
  mine : l.id = id

end Sys2Proof.Says

open Sys2Proof Sys2Proof.Machine Sys2Proof.Says in
/-- R84, R97, R98, R104, R105, R111, R113 to R117: the next gang is reserved on a core that has its waves, registers and scratchpad, becomes resident with its waves in the starting
state (on a die that a copy node waits for or holds the reservation is given up instead), and the launch completes when its last gang has exited: its completion word, then OUTST. Which waits with no place is read as R105's queue says (log 25). -/
def Sys2Proof.Says.GangsAreReservedCommittedAndLaunchesComplete : Prop :=
  (∀ s core x ps, Tidy s → CoresListed s → s.sched.reserve = none → s.nextToPlace = some x → x.saved = none →
      s.slotsLeft x.launch.ctx x.launch.desc.members.length = true → s.placeFresh x.launch.desc core [] (·.ways) = some ps → Does (.gangReserve core) s fun t =>
        t.waves = s.waves ∧ t.mem = s.mem ∧ t.sched.nextGang = s.sched.nextGang + x.launch.desc.members.length
        ∧ ∃ r, t.sched.reserve = some r ∧ r.launch = x.launch.id ∧ r.index = x.launch.nextIdx ∧ r.gangs.length = x.launch.desc.members.length
          ∧ ∀ m g c b, r.gangs[m]? = some (g, c, b) → g = s.sched.nextGang + m
            ∧ c = (if x.launch.desc.members.length = 1 then core else 4 * (core / 4) + m) ∧ HasRoom s c b (x.launch.desc.bytesOf m)
            ∧ ({ base := b, bytes := x.launch.desc.bytesOf m, gang := g } : SpAlloc) ∈ (t.core c).allocs)
  ∧ (∀ s r l m g core base, Committable s r l m g core base → Does .gangCommit s fun t => t.sched.reserve = none ∧ t.mem = s.mem
      ∧ (∃ G, t.gang? g = some G ∧ G.ctx = l.ctx ∧ G.index = r.index ∧ G.core = core ∧ G.base = base ∧ G.prio = min l.prio (s.ctx l.ctx).ceil ∧ G.trapEn = (s.ctx l.ctx).trapEn ∧ G.exited = []
          ∧ G.waves = (List.range m.waves).map fun j => 128 * core + 32 * (j % 4) + j / 4)
      ∧ (∀ j, j < m.waves → ∃ w, t.wave? (128 * core + 32 * (j % 4) + j / 4) = some w ∧ Started s l m r g base j w)
      ∧ (∀ k, k / 128 ≠ core → t.wave? k = s.wave? k)
      ∧ t.launch? r.launch = some { l with nextIdx := l.nextIdx + 1, live := l.live + 1 })
  ∧ (∀ s r l, s.sched.reserve = some r → s.launch? r.launch = some l → (∃ x ∈ r.gangs, s.dieHeld (x.2.1 / 48) = true) → Does .gangCommit s fun t =>
      t.sched.reserve = none ∧ t.waves = s.waves ∧ t.gangs = s.gangs ∧ t.mem = s.mem ∧ t.sched.launches = s.sched.launches)
  ∧ (∀ s id l u, Done s id l → l.tasks = none → l.mesh = none → l.desc.doneAddr ≠ 0 →
      s.writeVirt none l.ctx l.desc.doneAddr (toBytes 8 l.desc.doneVal.toNat) Access.engWrite = (.ok (), u) → ArmsListed s →
      Does (.launchComplete id) s fun t => t.launch? id = none ∧ t.mem = u.mem
        ∧ (∀ a, l.arm = some a → ArmBecomes s t a { s.arm a with outst := (s.arm a).outst - 1 })
        ∧ ∀ g n G, l.node = some (g, n) → s.graph? g = some G → NodeIs t g n G .ended)

namespace Sys2Proof.Says
open Sys2Proof.Machine

/-- A gang that stops alone, with nothing of its waves under way and a free slot. -/
structure Savable (s : State) (g : Nat) (G : Gang) (slot : Nat) : Prop where
  tidy : Tidy s
  gang : s.gang? g = some G
  leaves : G.evict.isSome = true
  alone : s.ensGangs G.ens = [(g, G)]
  still : ∀ x ∈ G.left, s.waitOf x.2 = .none
  none_ : ∀ d ∈ s.mem.deferred, d.wave ∉ G.waves
  drained : s.drained g G = true
  free : s.freeGangSlot G.ctx = some slot
  small : G.member < 4 ∧ G.waves.length ≤ 32
  memory : s.mem.canonical ∧ s.slotAt G.ctx slot + 0x800000 ≤ hostBase
  array : (s.core G.core).mx.owner = none
  cores : CoresListed s
  mine : ∀ k ∈ G.waves, ∀ w, s.wave? k = some w → w.gang = g

/-- A saved gang of one wave may come back to a core. -/
structure Restorable (s : State) (x : Waiting) (v : Saved) (core : Nat) : Prop where
  tidy : Tidy s
  free : s.sched.reserve = none
  next : s.nextToPlace = some x
  alone : x.savedGangs = [v]
  place : s.placeSaved x core [] (·.ways) = some [(core, v.base)]
  single : s.slotWaves x.launch.ctx v.slot = 1
  empty : ∀ y ∈ s.waves, y.1 / 128 ≠ core
  plain : v.mxOwn = none ∧ v.mxStamps = [] ∧ v.live = [] ∧ s.slotHasB x.launch.ctx v.slot = false
  memory : s.mem.canonical ∧ s.mem.flaws = [] ∧ s.slotAt x.launch.ctx v.slot + 0x800000 ≤ hostBase
  record : bit (ofBytes (s.peekPhys (s.slotAt x.launch.ctx v.slot + 0x40000) 8)) 63 = true
  cores : CoresListed s

/-- What a wave's record in a gang slot says. -/
def savedNum (s : State) (c slot o n : Nat) : Nat := ofBytes (s.peekPhys (s.slotAt c slot + 0x40000 + o) n)

end Sys2Proof.Says

open Sys2Proof Sys2Proof.Machine Sys2Proof.Says in
/-- R84, R111, R118, R119, R249 to R253, R256: a gang that stops is written to a free slot and leaves its core; it comes back from its slot with its registers; a context that has used its
quantum makes room where another waits for what the core has. The priority that the other must reach is the model's choice (log 77); what a save keeps beside the slot is the model's (log 40). -/
def Sys2Proof.Says.GangsAreSavedAndRestored : Prop :=
  (∀ s g G slot, Savable s g G slot → Does (.gangPreempt g) s fun t => t.gang? g = none ∧ (∀ k ∈ G.waves, t.wave? k = none)
      ∧ (∀ k, k ∉ G.waves → ∀ w, s.wave? k = some w → (t.wave? k).isSome = true)
      ∧ ofBytes (t.peekPhys (s.slotAt G.ctx slot) 8) / 2 ^ 63 = 1 ∧ ofBytes (t.peekPhys (s.slotAt G.ctx slot + 8) 8) = g % 2 ^ 64
      ∧ ofBytes (t.peekPhys (s.slotAt G.ctx slot + 16) 8) = G.index % 2 ^ 64
      ∧ (∀ a ∈ (t.core G.core).allocs, a.gang ≠ g)
      ∧ ∀ l, s.launch? G.launch = some l → ∃ l' v, t.launch? G.launch = some l' ∧ l'.saved = l.saved ++ [v] ∧ v.gang = g ∧ v.slot = slot ∧ v.index = G.index)
  ∧ (∀ s x v core, Restorable s x v core → Does (.gangRestore x.launch.ctx v.slot core) s fun t =>
      (∃ G, t.gang? v.gang = some G ∧ G.core = core ∧ G.base = v.base ∧ G.index = v.index ∧ G.ctx = x.launch.ctx ∧ G.waves = [128 * core])
      ∧ (∃ w, t.wave? (128 * core) = some w ∧ w.gang = v.gang ∧ w.idx = 0 ∧ w.wait = .none
          ∧ (∀ r, r < 32 → w.kVal r = savedNum s x.launch.ctx v.slot (0x200 + 8 * r) 8)
          ∧ w.flags.toNat = savedNum s x.launch.ctx v.slot 0x10 1
          ∧ ∀ a l, a < 16 → l < 32 → w.see ((w.lane l).shelfCell a) = savedNum s x.launch.ctx v.slot (0x400 + 128 * a + 4 * l) 4)
      ∧ ∀ k, k ≠ 128 * core → t.wave? k = s.wave? k)
  ∧ (∀ s core c, Tidy s → CoresListed s → Sparse.get 0 (s.core core).quanta c ≠ 0 →
      Sparse.get 0 (s.core core).quanta c ≤ Sparse.get 0 (s.core core).slices c → Sparse.wf (0 : Nat) (s.core core).slices = true →
      (∀ x ∈ s.waves, x.2.dbgHalt = false) → Does (.quantumExpire core c) s fun t =>
        t.waves = s.waves ∧ t.mem = s.mem ∧ (∀ d, Sparse.get 0 (t.core core).slices d = if d = c then 0 else Sparse.get 0 (s.core core).slices d)
        ∧ (s.sched.launches = [] → t.gangs = s.gangs)
        ∧ ((∃ x ∈ s.waitList, x.launch.ctx ≠ c ∧ (∀ y ∈ s.gangs, y.2.ctx = c → y.2.core = core → y.2.pre = true → y.2.prio ≤ min x.launch.prio (s.ctx x.launch.ctx).ceil)
            ∧ s.lacksCore x core = true) →
            ∀ g G, s.gang? g = some G → G.ctx = c → G.core = core → G.pre = true → ∃ H, t.gang? g = some H ∧ H.evict.isSome = true))
  ∧ (∀ s core part b w, s.wave? b = some w → b / 32 = 4 * core + part → s.pendReady b w = true → (s.waves.map (·.1)).Nodup →
      (∀ x ∈ s.waves, x.1 / 32 = 4 * core + part → s.pendReady x.1 x.2 = true → x.1 = b) → (s.activeOf (4 * core + part)).length = 8 →
      (∀ x ∈ s.activeOf (4 * core + part), s.mustWait x.1 x.2 = false) →
      Sparse.get 0 s.rotated (4 * core + part) + 8 ≤ s.partNow (4 * core + part) → Does (.waveRotation core part) s fun t =>
        (∃ w', t.wave? b = some w' ∧ w'.active = true) ∧ (t.activeOf (4 * core + part)).length = 8
        ∧ ∃ a v, (a, v) ∈ s.activeOf (4 * core + part) ∧ (∃ v', t.wave? a = some v' ∧ v'.active = false)
          ∧ ∀ x ∈ s.activeOf (4 * core + part), v.since ≤ x.2.since)

open Sys2Proof.Says in
/-- The statements above: gangs are reserved, committed, saved and restored, and launches complete. -/
def Obligations.GangsAreReservedSavedAndRestored : Prop := GangsAreReservedCommittedAndLaunchesComplete ∧ GangsAreSavedAndRestored

/-! ### Tasks -/

namespace Sys2Proof.Says
open Sys2Proof.Machine

/-- R136: word 0 (and for argument and append the words) of a record after a fold of a spawn's payload. -/
def folded (oper nwords : Nat) (w s : List W32) : List W32 :=
  let w0 := w.getD 0 0
  let s0 := s.getD 0 0
  match oper with
  | 1 => w.set 0 (w0 + s0)
  | 2 => w.set 0 (BitVec.ofNat 32 (Fmt.f32.add .rn w0.toNat s0.toNat).v)
  | 3 => if s0.slt w0 then w.set 0 s0 else w
  | 4 => if w0.slt s0 then w.set 0 s0 else w
  | 5 => w.set 0 (BitVec.ofNat 32 (Fmt.f32.minNum w0.toNat s0.toNat).v)
  | 6 => w.set 0 (w0 ||| s0)
  | 7 => w.set 0 (w0 &&& s0)
  | 9 => s
  | 10 => if argLess s0.toNat w0.toNat then (w.set 0 s0).set 1 (s.getD 1 0) else w
  | 11 => w.set nwords s0
  | 12 => w.set 0 (w0 + 1)
  | _ => w

/-- R133, R138: a waiting record that takes a spawn. -/
def SameTask (w : HomeRec) (r : TaskRec) : Prop :=
  w.sealed_ = false ∧ r.oper ≠ 0 ∧ w.rec_.ctx = r.ctx ∧ w.rec_.entry = r.entry ∧ w.rec_.key = r.key ∧ w.rec_.oper = r.oper

def HomesListed (s : State) : Prop := Sparse.wf Home.reset s.ctq.homes = true

/-- R139: a home may treat its spawns: it has not in this cycle, and its gatherer has no step to make first. -/
def HomeReady (s : State) (h : Nat) : Prop := (s.home h).nextArrive ≤ s.plinth ∧ s.gatherFirst h = false

/-- R139, R140: the spawn that arrives alone at its home, with no wave that waits for it, is treated. -/
def OneSpawn (s : State) (h : Nat) (r : TaskRec) : Prop :=
  (∃ src, (s.home h).spawns = [{ rec_ := r, who := .none, src := src, came := none }]) ∧ HomesListed s ∧ HomeReady s h

/-- R143, R144: a record may be selected at a home. -/
def Eligible (s : State) (h : Nat) (w : HomeRec) : Prop := w.into = none ∧ s.uncommitted h w.rec_.ctx < s.ctq.qmax
/-- R256: a record as it is gathered: its ENTRY forwarded. -/
def gathered (s : State) (r : TaskRec) : TaskRec := { r with entry := BitVec.ofNat 64 (s.forward r.ctx r.entry.toNat) }
def SameGroup (a b : TaskRec) : Prop := a.ctx = b.ctx ∧ a.entry = b.entry ∧ a.named = b.named ∧ a.scr = b.scr

/-- R145: the launch of a task wave over its records. -/
structure TaskWaveOf (s : State) (home : Nat) (rs : List TaskRec) (l : Launch) : Prop where
  tasks : l.tasks = some { home := home, recs := rs }
  size : 1 ≤ rs.length ∧ rs.length ≤ 32
  group : ∀ x ∈ rs, ∀ y ∈ rs, SameGroup x y
  shape : l.desc.total = 1 ∧ ∀ x ∈ rs, l.desc.members = [{ entry := x.entry.toNat, named := x.named, waves := 1, scratch := 256 * x.scr }]
  count : l.desc.args = rs.length
  prio : ∀ x ∈ rs, l.ctx = x.ctx ∧ l.prio = (rs.map (·.prio)).foldl max 0 ∧ s.effPrio l.ctx l.prio = min l.prio (s.ctx x.ctx).ceil
  pre : l.desc.pre = rs.all (·.pre)
  rend : l.desc.rend = rs.any (·.rend)
  number : l.id = s.sched.nextLaunch

end Sys2Proof.Says

open Sys2Proof Sys2Proof.Machine Sys2Proof.Says in
/-- R133, R135 to R146, R256: a spawn folds into the waiting record of its identity, makes a record where its home has room, or waits; a home and a spill ring form
waves of one group, with their ENTRY forwarded; a home treats spawns once a cycle, after its gatherer; a task wave that is over answers its records. The plinth
cycle, the cycle in which a spawn arrives and the turn of the spill rings are read as log 8 says. -/
def Obligations.TasksFoldGatherAndComplete : Prop :=
  (∀ s h r, OneSpawn s h r → (∀ w ∈ (s.home h).recs, ¬ SameTask w r) → (s.home h).recs.length < 2048 → Does (.spawnArrive h) s fun t =>
      (t.home h).spawns = [] ∧ (∃ w, (t.home h).recs = (s.home h).recs ++ [w] ∧ w.sealed_ = false ∧ w.into = none ∧ w.arrived = s.plinth
        ∧ w.rec_ = { r with nwords := w.rec_.nwords, pay := w.rec_.pay } ∧ (r.oper ≠ 11 → w.rec_.pay = r.pay ∧ w.rec_.nwords = 0)
        ∧ (r.oper = 11 → w.rec_.pay = r.pay.take 1 ++ List.replicate 7 0 ∧ w.rec_.nwords = 1))
      ∧ (∀ g, g ≠ h → t.home g = s.home g) ∧ t.mem = s.mem ∧ t.waves = s.waves)
  ∧ (∀ s h r w pre post, OneSpawn s h r → (s.home h).recs = pre ++ w :: post → (∀ x ∈ pre, ¬ SameTask x r) → SameTask w r → (r.oper = 11 → w.rec_.nwords < 8) →
      Does (.spawnArrive h) s fun t => (t.home h).spawns = [] ∧ (∃ x, (t.home h).recs = pre ++ { w with rec_ := x } :: post
          ∧ x.folds.toNat = min (2 ^ 32 - 1) (w.rec_.folds.toNat + 1) ∧ x.prio = max w.rec_.prio r.prio ∧ x.rend = (w.rec_.rend || r.rend)
          ∧ x.pay = folded r.oper w.rec_.nwords w.rec_.pay r.pay ∧ x.nwords = (if r.oper = 11 then w.rec_.nwords + 1 else w.rec_.nwords)
          ∧ x = { w.rec_ with folds := x.folds, prio := x.prio, rend := x.rend, pay := x.pay, nwords := x.nwords })
        ∧ (∀ g, g ≠ h → t.home g = s.home g) ∧ t.mem = s.mem ∧ t.waves = s.waves)
  ∧ (∀ s h r, OneSpawn s h r → (∀ w ∈ (s.home h).recs, ¬ SameTask w r) → 2048 ≤ (s.home h).recs.length → (s.ctx r.ctx).ctqLog2 = 0 → Does (.spawnArrive h) s fun t =>
      (t.home h).recs = (s.home h).recs ∧ (t.home h).spawns.map (·.rec_) = [r] ∧ (∀ g, g ≠ h → t.home g = s.home g) ∧ t.mem = s.mem ∧ t.waves = s.waves)
  ∧ (∀ s h, ¬ HomeReady s h → Does (.spawnArrive h) s fun t => t = s)
  ∧ (∀ s h o rest, (s.home h).recs = o :: rest → HomesListed s → Eligible s h o → o.arrived + s.ctq.wait ≤ s.plinth → (s.home h).nextGather ≤ s.plinth → Does (.gatherStep h) s fun t =>
      ∃ l rs, t.sched.launches = s.sched.launches ++ [l] ∧ TaskWaveOf s h rs l ∧ (∀ r ∈ rs, ∃ w ∈ (s.home h).recs, Eligible s h w ∧ gathered s w.rec_ = r)
        ∧ (t.home h).recs.length = (s.home h).recs.length
        ∧ (∀ x ∈ (s.home h).recs.zip (t.home h).recs, x.2 = x.1 ∨ x.2 = { x.1 with sealed_ := true, into := some l.id })
        ∧ (((s.home h).recs.zip (t.home h).recs).filter fun x => x.1 != x.2).length = rs.length
        ∧ (∀ g, g ≠ h → t.home g = s.home g) ∧ t.mem = s.mem ∧ t.waves = s.waves)
  ∧ (∀ s c t0 ts, CtxsListed s → c < 64 → s.ctq.spillNext ≤ s.plinth → (∀ d, d < c → s.spillGroup d = []) → (s.ctx c).ctqCidx < (s.ctx c).ctqPidx → s.uncommitted 16 c < s.ctq.qmax → Sparse.get [] s.ctq.spills c = t0 :: ts →
      t0 + s.ctq.wait ≤ s.plinth → Does (.spillGather c) s fun t =>
        ∃ l rs, t.sched.launches = s.sched.launches ++ [l] ∧ (∀ r ∈ rs, r.ctx = c) ∧ 1 ≤ rs.length ∧ rs.length ≤ 32
          ∧ l.tasks = some { home := 16, recs := rs } ∧ CtxBecomes s t c { s.ctx c with ctqCidx := (s.ctx c).ctqCidx + rs.length } ∧ ∀ pa, t.byteAt pa = s.byteAt pa)
  ∧ (∀ s id l tw r u, Done s id l → l.tasks = some tw → tw.recs = [r] → r.orig = true → r.doneAddr ≠ 0 → ArmsListed s →
      s.writeVirt none l.ctx r.doneAddr.toNat (toBytes 8 r.doneVal.toNat) Access.engWrite = (.ok (), u) → Does (.taskWaveComplete id) s fun t =>
        t.launch? id = none ∧ t.mem = u.mem ∧ (∀ a, r.arm = some a → ArmBecomes s t a { s.arm a with outst := (s.arm a).outst - 1 })
        ∧ (r.arm = none → t.host.arms = s.host.arms))
  ∧ (∀ s id l tw, Done s id l → l.tasks = some tw → (∀ r ∈ tw.recs, r.orig = false) → Does (.taskWaveComplete id) s fun t =>
      t = { s with sched := { s.sched with launches := s.sched.launches.filter fun x => x.id != id } })

/-! ### Steps of the cores -/

namespace Sys2Proof.Says
open Sys2Proof.Machine

/-- The waves that wait for a thing go on, and no other changes. -/
def Wakes (s t : State) (p : Nat → Wave → Prop) : Prop :=
  ∀ k w, s.wave? k = some w → (p k w → t.wave? k = some { w with wait := .none }) ∧ (¬ p k w → t.wave? k = some w)

/-- R182: the end of the highest allocation, in ways of 64 KiB. -/
def neededWays (c : Core) : Nat := ((c.allocs.map fun a => if a.bytes = 0 then 0 else a.base + a.bytes).foldl max 0 + 65535) / 65536

/-- R196: a sleeping wave whose word in scratchpad is read again goes on where the condition holds, or its deadline has passed, or sleeps on. -/
def ReadsAgain (ins : Instr) (s : State) (k : Nat) (j : Iss) (d : Option Nat) : Prop :=
  let word := ofBytes (s.spRead j.core j.aliasOff (if j.v.w64 then 8 else 4))
  (metBy j word = true → Does ins s fun t => GivesLanes j (fun _ => truth true) t)
  ∧ (metBy j word = false → (∃ x, d = some x ∧ x ≤ s.dev.tsNow.toNat) → Does ins s fun t => GivesLanes j (fun _ => truth false) t)
  ∧ (metBy j word = false → (∀ x, d = some x → s.dev.tsNow.toNat < x) → Does ins s fun t => ∃ e, t.waitOf k = .word j.inAlias j.aliasOff d e)

/-- The wave sleeps at a waddr of a word in scratchpad, which no copy entry owns (R224) and whose check finds nothing (R21). -/
def Sleeps (s : State) (k : Nat) (j : Iss) (d : Option Nat) (table : Bool) : Prop :=
  (∃ a, s.waitOf k = .word true a d table ∧ s.waddrOwned k true a = false) ∧ s.pending k = some j ∧ j.inAlias = true
    ∧ j.localCheck 0x60 j.aliasAccs = ([], j.s)

end Sys2Proof.Says

open Sys2Proof Sys2Proof.Machine Sys2Proof.Says in
/-- R174, R175, R182, R185, R187, R188, R196, R201, R203, R231: what waves wait for comes about: results arrive, resizes and zeroing end, windows open, words and objects are
looked at again, pipes can be used, deadlines pass; a lost completion marks the wave's next access of host space (log 54). -/
def Obligations.WhatWavesWaitForComesAbout : Prop :=
  (∀ s k w o, Tidy s → s.wave? k = some w → w.heldLanes ≠ [] → w.ops.find? (fun x => x.id = o.id) = some o → o.kind = .result →
      o.bank.any (groupRefreshes s.now) = false → (w.wait = .none ∨ w.wait = .retry .token) → Does (.variableResultArrive k o.id) s fun t =>
        t.wave? k = some { w with ops := w.ops.filter (fun x => x.id != o.id), wait := .none } ∧ (∀ j, j ≠ k → t.wave? j = s.wave? j)
        ∧ t.mem = s.mem ∧ t.cores = s.cores)
  ∧ (∀ s k w o, s.wave? k = some w → w.ops.find? (fun x => x.id = o.id) = some o → o.bank.any (groupRefreshes s.now) = true →
      Does (.variableResultArrive k o.id) s fun t => t = s)
  ∧ (∀ s c r rest, (s.core c).resize = r :: rest → r.asker = none → CoresListed s → Does (.cresizeComplete c) s fun t => OnlyCores s t
      ∧ (∀ d, d ≠ c → t.core d = s.core d) ∧ (t.core c).ways = max (min r.ways 20) (neededWays (s.core c)) ∧ (t.core c).resize = rest
      ∧ (t.core c).allocs = (s.core c).allocs
      ∧ ∀ a, Memory.wf (s.core c).scratch = true → spAt t c a = if a < 65536 * min (t.core c).ways (s.core c).ways then spAt s c a else 0)
  ∧ (∀ s c r rest k w op, (s.core c).resize = r :: rest → r.asker = some (k, op) → CoresListed s → Tidy s → s.wave? k = some w → w.heldLanes ≠ [] → (∀ x, (w.kCell x).prior = []) →
      w.ops = [{ id := op, token := 0, kind := .resize, mem := true }] → w.wait = .none → Does (.cresizeComplete c) s fun t =>
        (t.core c).ways = max (min r.ways 20) (neededWays (s.core c)) ∧ (t.core c).resize = rest ∧ ∃ w', t.wave? k = some w' ∧ w'.ops = []
          ∧ (∀ x, x < 32 → (w.kCell x).due = .op op → w'.kVal x = (t.core c).ways % 2 ^ 64) ∧ ∀ x, (w.kCell x).due ≠ .op op → w'.kCell x = w.kCell x)
  ∧ (∀ s c, (s.core c).breg.zeroing = true → (s.core c).breg.next = none → CoresListed s → Does (.bregionZeroDone c) s fun t =>
      t = { s with waves := t.waves, cores := t.cores } ∧ CoreBecomes s t c { s.core c with breg := { (s.core c).breg with zeroing := false, mem := [] } }
      ∧ Wakes s t fun _ w => w.wait = .retry .zeroing)
  ∧ (∀ s c g G, (s.core c).breg.zeroing = true → (s.core c).breg.next = some g → (s.core c).breg.holder = none → s.gang? g = some G → CoresListed s →
      Does (.bregionZeroDone c) s fun t => t = { s with waves := t.waves, cores := t.cores }
      ∧ CoreBecomes s t c { s.core c with breg := { holder := some g, zeroing := false, next := none, ctx := G.ctx, gangIdx := G.index, mem := [] } }
      ∧ Wakes s t fun _ w => w.wait = .retry .zeroing)
  ∧ (∀ s die, Does (.refreshWindow die) s fun t => t = { s with waves := t.waves } ∧ Wakes s t fun k w => k / 128 / 48 = die ∧ w.wait = .retry .window)
  ∧ (∀ s k j d, Sleeps s k j d true → ReadsAgain (.waddrWake k) s k j d)
  ∧ (∀ s k j d, Sleeps s k j d false → ReadsAgain (.waddrPoll k) s k j d)
  ∧ (∀ s k j d b, Sleeps s k j (some d) b → d ≤ s.dev.tsNow.toNat → ReadsAgain (.waddrTimeout k) s k j (some d))
  ∧ (∀ s k j a ph d, s.waitOf k = .object a ph (some d) → d ≤ s.dev.tsNow.toNat → s.pending k = some j → CoresListed s →
      Memory.wf (s.core (k / 128)).scratch = true → Does (.barwaitTimeout k) s fun t =>
        let o := s.readObj (k / 128) a
        GivesLanes j (fun _ => truth (o.ph ≠ ph)) t ∧ t.readObj (k / 128) a = { o with wt := o.wt - 1 })
  ∧ (∀ s k j, s.waitOf k = .pipe → s.pending k = some j → j.pipesReady = true → Does (.pipeWaitComplete k) s fun t =>
      t = { s with waves := t.waves } ∧ t.waitOf k = .none ∧ ∀ i, i ≠ k → t.wave? i = s.wave? i)
  ∧ (∀ s k w, s.wave? k = some w → Does (.completionTimeout k) s fun t =>
      t = { s with waves := t.waves } ∧ t.wave? k = some { w with hostErr := true } ∧ ∀ i, i ≠ k → t.wave? i = s.wave? i)

namespace Sys2Proof.Says
open Sys2Proof.Machine

/-- R42, R192: the place of the next bytes of a linear copy, and how many one step moves: to the end of the destination's block. -/
def fromAt (e : CopyEntry) : Nat := ((e.word 1) + e.done) % 2 ^ 64
def toAt (e : CopyEntry) : Nat := ((e.word 2) + e.done) % 2 ^ 64
def stepLen (e : CopyEntry) : Nat := min (e.word 3 - e.done) (256 - toAt e % 256)

/-- No wave waits at an rrot, which bytes that an entry gives up could let go on (R183, R224). -/
def NoneRotates (s : State) : Prop := ∀ k, s.waitOf k ≠ .rrot

/-- A linear copy of a core that runs, alone on its core, with bytes left to move; the checks of scratchpad find nothing. -/
structure Copying (s : State) (core : Nat) (e : CopyEntry) : Prop where
  alone : (s.core core).copies = [e]
  runs : e.stat = .run
  linear : e.kind = 1
  left : e.done < e.word 3
  plain : e.dg = false
  intact : (s.core core).flaws = []
  still : NoneRotates s
  cores : CoresListed s
  bytes : Memory.wf (s.core core).scratch = true

/-- R192: the spaces of source and destination: SPC 0 global to global, 1 global to scratchpad, 2 scratchpad to global, 3 within scratchpad. -/
def spaces (e : CopyEntry) : Nat := e.word 0 / 2 ^ 12 % 4

/-- The entry has moved so many bytes more. -/
def Moved (t : State) (core : Nat) (e : CopyEntry) (n : Nat) : Prop := (t.core core).copies = [{ e with done := e.done + n }]

/-- The scratchpad ranges of a step lie in the allocation. -/
def Within (s : State) (core : Nat) (e : CopyEntry) (a n : Nat) : Prop := s.entryAlloc core e.who a n = true

/-- A put that begins: at its append the origin window was open to the context and held the range (R71), the fabric is enabled and the node has a link. -/
structure Sending (s : State) (core : Nat) (e : CopyEntry) (l : Nat) : Prop where
  alone : (s.core core).copies = [e]
  runs : e.stat = .run
  put : e.kind = 4
  first : e.done = 0
  unsent : s.fab.waits = [] ∧ s.fab.fences = []
  origin : e.origin = true
  enabled : s.fab.en = true
  way : Linked s e.node l
  plain : e.dg = false
  cores : CoresListed s
  memory : s.mem.canonical ∧ s.mem.flaws = [] ∧ winField s e.oWin 1 56 12 * 4096 + e.oOff + e.word 3 ≤ hostBase

end Sys2Proof.Says

open Sys2Proof Sys2Proof.Machine Sys2Proof.Says in
/-- R42, R71, R191 to R195: the engine takes the entry at HEAD, moves its bytes step by step, sends the packets of a put, and completes it: completion word, PROG, token. What one step
moves is the model's choice (log 22). -/
def Obligations.TheCopyEngineMovesAndCompletesEntries : Prop :=
  (∀ s core c ps u, s.inFlight core < 64 → s.nextQueue core = some c → s.readEntry core c = (.ok ps, u) → u.flawsOf (some core) false ps = [] → CoresListed u → s.mem.canonical →
      u.queueAt c core + 64 ≤ hostBase → u.startCz core (u.headEntry core c (u.wordsOf ps).1) = 0 → (u.headEntry core c (u.wordsOf ps).1).kind ≠ 3 →
      Does (.copyEntryStart core c) s fun t => ∃ e, (t.core core).copies = (u.core core).copies ++ [e] ∧ e.ctx = c ∧ e.seq = (u.qHead c core + 1) % 2 ^ 64
        ∧ e.words = (u.wordsOf ps).1 ∧ e.done = 0 ∧ e.stat = .run ∧ t.qHead c core = e.seq)
  ∧ (∀ s core e, Copying s core e → spaces e = 3 → Within s core e (fromAt e) (stepLen e) → Within s core e (toAt e) (stepLen e) → NoneWaits s core →
      Does (.copyBlockWrite core e.ctx) s fun t => Moved t core e (stepLen e) ∧ t.mem = s.mem
        ∧ ∀ a, spAt t core a = (lastSp [(toAt e, (List.range (stepLen e)).map fun j => spAt s core (fromAt e + j))] a).getD (spAt s core a))
  ∧ (∀ s core e ps u, Copying s core e → spaces e = 1 → Within s core e (toAt e) (stepLen e) → NoneWaits s core →
      State.translatePieces (some core) e.ctx Access.engRead (rangePieces 2 (fromAt e) (stepLen e)) s = (.ok ps, u) → u.flawsOf (some core) false ps = [] →
      CoresListed u → (u.core core).copies = [e] → (u.core core).scratch = (s.core core).scratch →
      Does (.copyBlockWrite core e.ctx) s fun t => Moved t core e (stepLen e) ∧ (∀ pa, t.byteAt pa = u.byteAt pa)
        ∧ ∀ a, spAt t core a = (lastSp [(toAt e, bytesOf u ps)] a).getD (spAt s core a))
  ∧ (∀ s core e ps u, Copying s core e → spaces e = 2 → Within s core e (fromAt e) (stepLen e) → s.checks core = false →
      State.translatePieces (some core) e.ctx Access.engWrite [(toAt e, stepLen e)] s = (.ok ps, u) → Access.engWrite.rule ps ≠ some 3 → u.mem.flaws = [] →
      u.mem.canonical → CoresListed u → (u.core core).copies = [e] → u.checks core = false → (∀ p ∈ ps, p.x.pa + p.n ≤ hostBase ∨ hostBase ≤ p.x.pa) →
      Does (.copyBlockWrite core e.ctx) s fun t => Moved t core e (stepLen e)
        ∧ ∀ pa, t.byteAt pa = (lastAt (partsOf ps ((List.range (stepLen e)).map fun j => spAt s core (fromAt e + j))) pa).getD (u.byteAt pa))
  ∧ (∀ s core e l, Sending s core e l → let n := min 256 (e.word 3); let a := winField s e.oWin 1 56 12 * 4096 + e.oOff
      Does (.copyBlockWrite core e.ctx) s fun t => ∃ p, t.fab.sent = s.fab.sent ++ [(l, .write p)] ∧ p.src = s.fab.node ∧ p.dst = e.node ∧ p.win = e.tWin ∧ p.off = e.tOff
        ∧ p.key = winField s e.oWin 0 47 32 ∧ p.total = e.word 3 ∧ p.pos = 0 ∧ p.data = (List.range n).map (fun j => s.byteAt (a + j)) ∧ ∀ pa, t.byteAt pa = s.byteAt pa ∨
          (s.queueAt e.ctx core + 32 ≤ pa ∧ pa < s.queueAt e.ctx core + 40))
  ∧ (∀ s core e k w o, (s.core core).copies = [e] → e.stat = .run → 1 ≤ e.kind → e.kind ≤ 3 → e.len ≤ e.done → e.dg = false → e.ba = false → s.keyOf e.who = some k →
      s.wave? k = some w → w.wait = .none → w.ops = [o] → o.kind = .copy core e.seq → CoresListed s → s.mem.canonical → s.queueAt e.ctx core + 64 ≤ hostBase →
      e.seq = (s.qProg e.ctx core + 1) % 2 ^ 64 → NoneWaits s core → NoneRotates s → Memory.wf (s.core core).scratch = true →
      Does (.copyEntryComplete core e.ctx) s fun t => (t.core core).copies = [] ∧ t.qProg e.ctx core = e.seq ∧ (∃ w', t.wave? k = some w' ∧ w'.ops = [])
        ∧ ∀ a, spAt t core a = if e.cw = true ∧ e.cwOff % 4 = 0 ∧ s.entryAlloc core e.who e.cwOff 4 = true ∧ e.cwOff ≤ a ∧ a < e.cwOff + 4
            then (toBytes 4 e.cval).getD (a - e.cwOff) 0 else spAt s core a)

/-! ### Steps of the rendering units -/

namespace Sys2Proof.Says
open Sys2Proof.Machine

/-- What a ray comes to from where it stands: the answers that it has got so far are taken again, and it goes on to its end, to a fault or to a call. -/
def ComesTo (s : State) (c : Nat) (k : UnitKind) (r : Ray) (res : Except Stop (List Byte)) (w : Walker) : Prop :=
  s.ray? c k r.id = some r ∧ r.stat = .run ∧ r.walk (match k with | .march => marchRay c r | .trace => traceRay c r) s = (res, w)
  ∧ CoresListed w.s ∧ (∀ u, w.s.raysOf c u = s.raysOf c u) ∧ ((w.s.raysOf c k).map (·.id)).Nodup

/-- The unit's rays with one changed. -/
def RayBecomes (u t : State) (c : Nat) (k : UnitKind) (r : Ray) (x : Ray) : Prop :=
  t.raysOf c k = (u.raysOf c k).map fun y => if y.id = r.id then x else y

/-- The count of rays that the instruction of a ray waits for falls by one; with the last one its operation is complete. -/
def CountsDown (u t : State) (r : Ray) : Prop :=
  ∀ v n o, u.wave? r.wave = some v → v.ops = [o] → o.id = r.op → o.kind = .rays n → v.wait = .none →
    ∃ v', t.wave? r.wave = some v' ∧ v'.lanes = v.lanes ∧ v'.ops = if n ≤ 1 then [] else [{ o with kind := .rays (n - 1) }]

/-- R265: a ray that is no lantern ray has its result. -/
def GetsResult (u t : State) (c : Nat) (k : UnitKind) (r : Ray) (res : List Byte) : Prop :=
  t.mem = u.mem ∧ RayBecomes u t c k r { r with stat := .done, result := res, log := [] } ∧ CountsDown u t r

/-- R265, R275: a complete ray whose wave has not left has its result record; one that a cause ends has T +∞, STATUS 5 for an invalid ray and 4 otherwise, its USER word and the cause. -/
def RayEnds (ins : Nat → Nat → Instr) (k : UnitKind) : Prop :=
  (∀ s c r b w, ComesTo s c k r (.ok b) w → r.lantern = false → (w.s.wave? r.wave).isSome = true → Does (ins c r.id) s fun t => GetsResult w.s t c k r b)
  ∧ (∀ s c r code w, ComesTo s c k r (.error (.fail code)) w → r.lantern = false → (w.s.wave? r.wave).isSome = true → Does (ins c r.id) s fun t =>
      GetsResult w.s t c k r ([0x7F800000, 0, 0, 0, 0, recUser r.record, if code ∈ [0xA9, 0xAA, 0xB1] then 5 else 4, code].flatMap (toBytes 4)))

/-- R267: a call gives the ray the next handle and puts its record in the core's gatherer. -/
def Calls (s : State) (c : Nat) (k : UnitKind) (r : Ray) (w : Walker) (entry named scr : Nat) (pay : List Nat) (saved : List Byte) (t : State) : Prop :=
  let h := Config.rayHandleBase + BitVec.ofNat 32 w.s.sched.nextRay
  RayBecomes w.s t c k r { r with stat := .called, log := w.log, handle := h, saved := saved }
  ∧ (t.core c).calls = (w.s.core c).calls
      ++ [{ ctx := r.ctx, handle := h, entry := BitVec.ofNat 64 entry, named := named, scr := scr, payload := pay.map (BitVec.ofNat 32)
            prio := r.prio, arrived := w.s.plinth, born := w.s.dev.tsNow }]
  ∧ t.sched.nextRay = w.s.sched.nextRay + 1 ∧ t.mem = w.s.mem ∧ (r.id ∈ (s.raysOf c k).map (·.id))

/-- R268: the batch that a unit collects; none or one. -/
def openBatch (s : State) (unit : Nat) : Option Batch := s.batches.find? fun b => b.unit = unit ∧ b.posted = none

/-- R268: with no batch collected, the fault's page becomes page 0 of a new one; with one, a kind 0 in reach of page 0 joins it, and
others wait until it is posted. -/
def Joins (u t : State) (unit : Nat) (p : Parked) : Prop :=
  match openBatch u unit with
  | none => t.batches = u.batches ++ [{ unit := unit, ctx := p.ctx, cause := p.cause, pages := [(p.page, p.w)], rays := [p.ray], later := [], posted := none }]
  | some b =>
    ∃ b', openBatch t unit = some b' ∧
      if b.takes p = true then b'.rays = b.rays ++ [p.ray] ∧ b'.later = b.later ∧ (∃ w, (p.page, w) ∈ b'.pages) ∧ b'.cause = b.cause
      else b'.rays = b.rays ∧ b'.pages = b.pages ∧ b'.later = b.later ++ [p]

/-- R268: a ray of a unit parks at a fault of kind 0, 1 or 15, with its progress kept. -/
def RayParks (k : UnitKind) : Prop :=
  ∀ s c r kind va wr w, c < 192 → ComesTo s c k r (.error (.fault kind va wr)) w → kind = 0 ∨ kind = 1 ∨ kind = 15 →
    Does (.renderFaultPark (unitOf c k) r.id) s fun t => t.mem = w.s.mem ∧ RayBecomes w.s t c k r { r with stat := .parked, log := w.log }
      ∧ Joins w.s t (unitOf c k) { ray := r.id, ctx := r.ctx, cause := memCause kind Access.engRead, page := va / 4096 * 4096, w := wr }

/-- The bytes of an entry of a fault queue. -/
def queueNum (s : State) (ctx p o n : Nat) : Nat := ofBytes (s.peekPhys ((s.ctx ctx).fqBase + 64 * (p % 2 ^ (s.ctx ctx).fqLog2) + o) n)

/-- R268, R240: posting a batch puts its entry in the context's fault queue; the faults that waited for it start the next. -/
def PostsBatch (s : State) (unit : Nat) (b : Batch) : Prop :=
  let p := s.fqPidx b.ctx
  Does (.faultBatchPost unit) s fun t =>
    (∃ x ∈ t.batches, x = { b with posted := some p, later := [] }) ∧ t.fqPidx b.ctx = p + 1 ∧ t.waves = s.waves ∧ (∀ c u, t.raysOf c u = s.raysOf c u)
    ∧ queueNum t b.ctx p 8 2 = unitSrc unit ∧ queueNum t b.ctx p 10 1 = (if b.cause < 0x44 then 0x43 else b.cause)
    ∧ queueNum t b.ctx p 11 1 = b.pages.length ∧ queueNum t b.ctx p 12 1 = 3 ∧ queueNum t b.ctx p 16 8 = 0
    ∧ (∀ q, b.pages.head? = some q → queueNum t b.ctx p 24 8 = q.1)
    ∧ (b.later = [] → t.batches = s.batches.map fun x => if x.unit = unit ∧ x.posted = none then { x with posted := some p, later := [] } else x)

/-- The rays of the posted batches of a unit that FQ_CIDX has passed. -/
def Passed (s : State) (unit id : Nat) : Prop := ∃ b ∈ s.batches, b.unit = unit ∧ id ∈ b.rays ∧ ∃ p, b.posted = some p ∧ p < s.fqCidx b.ctx

/-- R268: those rays go on at their faulting access. -/
def ResumesParked (k : UnitKind) : Prop :=
  ∀ s c, c < 192 → CoresListed s → Does (.parkedRayResume (unitOf c k)) s fun t =>
    (∃ f : Ray → Ray, t.raysOf c k = (s.raysOf c k).map f ∧ ∀ r ∈ s.raysOf c k,
      (Passed s (unitOf c k) r.id → f r = { r with stat := .run }) ∧ (¬ Passed s (unitOf c k) r.id → f r = r))
    ∧ (∀ d, d ≠ c → t.core d = s.core d) ∧ t.mem = s.mem ∧ t.waves = s.waves
    ∧ ∀ b, b ∈ t.batches ↔ b ∈ s.batches ∧ ¬ (b.unit = unitOf c k ∧ ∃ p, b.posted = some p ∧ p < s.fqCidx b.ctx)

/-- R284, R285, R287: the first primitive of a front-end, which no pre-emption has killed, and what is left of it after all it can do now. -/
def PrimComesTo (s : State) (f : Nat) (p : MeshPrim) (rest : List MeshPrim) (u : State) (left : Option MeshPrim) (at_ : Option (Nat × Nat × Bool)) : Prop :=
  (s.fe f).prims = p :: rest ∧ p.killed = false ∧ (∀ b ∈ s.batches, b.unit ≠ 0x1C0 + f) ∧ s.primStep f p = (u, left, at_) ∧ Sparse.wf FrontEnd.reset u.fes = true
  ∧ Sparse.wf PaySlot.reset (u.fe f).slots = true

end Sys2Proof.Says

open Sys2Proof Sys2Proof.Machine Sys2Proof.Says in
/-- R265 to R268, R275, R277: rays run to their result, to a call or to a fault, at which they park; batches of faults are posted and their rays go on. -/
def Sys2Proof.Says.RaysCompleteSuspendAndPark : Prop :=
  RayEnds .marchRayComplete .march ∧ RayEnds .traversalRayComplete .trace
  ∧ (∀ s c r w entry named scr pay, ComesTo s c .march r (.error (.call entry named scr pay)) w → Does (.raySuspend c r.id) s fun t =>
      Calls s c .march r w entry named scr (pay ++ [(Config.rayHandleBase + BitVec.ofNat 32 w.s.sched.nextRay).toNat]) [] t)
  ∧ (∀ s c r w entry named scr pay, ComesTo s c .trace r (.error (.call entry named scr pay)) w → s.ray? c .march r.id = none →
      Memory.wf (w.s.core c).scratch = true → NoneWaits w.s c → pay.length = 23 → Does (.raySuspend c r.id) s fun t =>
        ∃ saved, saved.length = 64 ∧ Calls s c .trace r w entry named scr (pay.take 7 ++ [r.area + 64]) saved t
          ∧ ∀ a, spAt t c a = (lastSp [(r.area + 64, saved)] a).getD (spAt w.s c a))
  ∧ RayParks .march ∧ RayParks .trace ∧ ResumesParked .march ∧ ResumesParked .trace
  ∧ (∀ s unit b, openBatch s unit = some b → s.fqFull b.ctx = true → Does (.faultBatchPost unit) s fun t => t = s)
  ∧ (∀ s unit b, openBatch s unit = some b → s.fqFull b.ctx = false → unit < 0x300 → b.pages.length ≤ 16 → b.cause < 256 →
      (∀ q ∈ b.pages, q.1 < 2 ^ 64) → s.mem.canonical → CoresListed s → s.fqPidx b.ctx + 1 < 2 ^ 64 →
      (s.ctx b.ctx).engblk + 16 ≤ hostBase → (s.ctx b.ctx).fqBase + 64 * 2 ^ (s.ctx b.ctx).fqLog2 ≤ hostBase →
      ((s.ctx b.ctx).engblk + 16 ≤ (s.ctx b.ctx).fqBase ∨ (s.ctx b.ctx).fqBase + 64 * 2 ^ (s.ctx b.ctx).fqLog2 ≤ (s.ctx b.ctx).engblk) → PostsBatch s unit b)

open Sys2Proof Sys2Proof.Machine Sys2Proof.Says in
/-- R256, R267, R282, R284, R285, R268: the gatherer of a core enqueues a wave of calls; a front-end's first primitive leaves its stage or parks; a payload slot is freed
with its last wave and primitive. -/
def Sys2Proof.Says.CallsGatherAndPrimitivesLeave : Prop :=
  (∀ s c r rest, s.callGroup c = r :: rest → CoresListed s → Does (.callableGather c) s fun t =>
      (t.core c).calls = (s.core c).calls.filter (fun x => ∀ y ∈ r :: rest, y.handle ≠ x.handle)
      ∧ (∀ d, d ≠ c → t.core d = s.core d) ∧ t.mem = s.mem
      ∧ ∃ l, t.sched.launches = s.sched.launches ++ [l] ∧ l.ctx = r.ctx ∧ l.desc.args = (r :: rest).length ∧ l.desc.total = 1 ∧ l.k1 = 0
          ∧ l.desc.members = [{ entry := s.forward r.ctx r.entry.toNat, named := r.named, waves := 1, scratch := 256 * r.scr }]
          ∧ l.rays = (r :: rest).map (fun x => (c, x.handle.toNat))
          ∧ ∃ w, l.tasks = some w ∧ w.home = 17 ∧ w.recs.map (·.pay) = (r :: rest).map (·.payload))
  ∧ (∀ s c, s.callGroup c = [] → Does (.callableGather c) s fun t => t = s)
  ∧ (∀ s f j, (s.slot f j).used = true → (s.slot f j).waves = 0 → (s.slot f j).prims = 0 → Sparse.wf FrontEnd.reset s.fes = true →
      Sparse.wf PaySlot.reset (s.fe f).slots = true → Does (.payloadSlotFree f j) s fun t =>
        (t.slot f j).used = false ∧ (∀ i, i ≠ j → t.slot f i = s.slot f i) ∧ t = { s with fes := t.fes, waves := t.waves }
        ∧ Wakes s t fun _ w => w.wait = .retry .slots)
  ∧ (∀ s f j, ((s.slot f j).used = false ∨ (s.slot f j).waves ≠ 0 ∨ (s.slot f j).prims ≠ 0) → Does (.payloadSlotFree f j) s fun t => t = s)
  ∧ (∀ s f p rest u, PrimComesTo s f p rest u none none → Does (.candelabraPrimitive f) s fun t => t = { u with fes := t.fes } ∧ (t.fe f).prims = rest
      ∧ (t.fe f).stats = (u.fe f).stats ∧ (t.slot f p.slot).prims = (u.slot f p.slot).prims - 1
      ∧ (t.slot f p.slot).waves = (u.slot f p.slot).waves)
  ∧ (∀ s f p rest u q k va wr, f < 16 → PrimComesTo s f p rest u (some q) (some (k, va, wr)) → Does (.renderFaultPark (0x1C0 + f) 0) s fun t =>
      t.mem = u.mem ∧ (t.fe f).prims = q :: rest ∧ Joins u t (0x1C0 + f)
        { ray := 0, ctx := p.ctx, cause := memCause k Access.engRead, page := va / 4096 * 4096, w := wr })

open Sys2Proof.Says in
/-- The statements above: steps of the rendering units. -/
def Obligations.RaysAndPrimitivesCompleteSuspendAndPark : Prop := RaysCompleteSuspendAndPark ∧ CallsGatherAndPrimitivesLeave

/-! ### Causes -/

namespace Sys2Proof.Says
open Sys2Proof.Machine

/-- R242, R243, R246 to R250: where `bad` holds, the instruction raises a cause for the lanes given: the wave enters its handler, its record names cause, lanes and
instruction, and the lanes resume at the instruction itself. -/
def Raises (ins : Instr) (r : Row) (v : View) (cause : Nat) (bad : Iss → Prop) (lanes : Iss → List Nat) : Prop :=
  ∀ s i, Issues r v s i → i.w.trapMode = false → i.w.busy = false → (s.ctx i.w.ctx).attach = false → CanTrap s i.key i.w → bad i →
    ∃ t w, exec ins s = .next t ∧ t.wave? i.key = some w ∧ InHandler s i.key cause i.w w
      ∧ Recorded s i.key { cause := cause, lane := 0xFF, mask := maskOfLanes (lanes i), iaddr := i.iaddr, maddr := 0, info := 0, adv := 0 } i.w t
      ∧ ∀ k, k ≠ i.key → t.wave? k = s.wave? k

/-- The lanes of Exec of which a condition holds. -/
def lanesThat (i : Iss) (p : Nat → Bool) : List Nat := i.ex.filter p

/-- R343: A is no pipe, and some lane of Exec names a code address for which a condition holds. -/
def Targets (p : Iss → Nat → Bool) (i : Iss) : Prop := i.pipesCz = [] ∧ i.pipesReady = true ∧ lanesThat i (fun l => p i (codeTarget i l)) ≠ []

def misaligned (_ : Iss) (a : Nat) : Bool := a % 4 != 0
def outside (i : Iss) (a : Nat) : Bool :=
  decide (a < (i.s.ctx i.w.ctx).codeBase) || decide ((i.s.ctx i.w.ctx).codeBase + 4096 * (i.s.ctx i.w.ctx).codePages ≤ a)
def allAligned (i : Iss) : Prop := ∀ l ∈ i.ex, codeTarget i l % 4 = 0
def fullStack (i : Iss) (l : Nat) : Bool := decide (32 ≤ (i.w.lane l).ret.length)
def emptyStack (i : Iss) (l : Nat) : Bool := (i.w.lane l).ret.isEmpty

/-- R343, R344, R345: the causes of control instructions. -/
def ControlRaises (jump call calli ret : Instr) (vj vc vi vr : View) : Prop :=
  Raises jump rowBri vj 0x19 (Targets misaligned) (fun i => lanesThat i fun l => misaligned i (codeTarget i l))
  ∧ Raises jump rowBri vj 0x1A (fun i => Targets outside i ∧ allAligned i) (fun i => lanesThat i fun l => outside i (codeTarget i l))
  ∧ Raises call rowCall vc 0x0F (fun i => lanesThat i (fullStack i) ≠ []) (fun i => lanesThat i (fullStack i))
  ∧ Raises calli rowCalli vi 0x0F (fun i => i.pipesCz = [] ∧ lanesThat i (fullStack i) ≠ []) (fun i => lanesThat i (fullStack i))
  ∧ Raises ret rowRet vr 0x11 (fun i => lanesThat i (emptyStack i) ≠ []) (fun i => lanesThat i (emptyStack i))

end Sys2Proof.Says

open Sys2Proof Sys2Proof.Machine Sys2Proof.Says in
/-- R162, R242, R246, R343 to R345, R359, R434, R435: instructions that cannot have their effect raise their cause: code addresses misaligned or outside the heap, return stacks full or
empty, tret outside trap mode, halt without a debugger, a lane instruction whose lanes are not together, and wrlane in the short form, which names no register. -/
def Obligations.InstructionsThatCannotRunRaiseTheirCause : Prop :=
  (∀ f c g h, ControlRaises (.bri f) (.call c) (.calli g) (.ret h) f.view c.view g.view h.view)
  ∧ (∀ f c g h, ControlRaises (.briShort f) (.callShort c) (.calliShort g) (.retShort h) f.view c.view g.view h.view)
  ∧ (∀ f, Raises (.tret f) rowTret f.view 0x13 (fun _ => True) Iss.ex) ∧ (∀ f, Raises (.tretShort f) rowTret f.view 0x13 (fun _ => True) Iss.ex)
  ∧ (∀ f, Raises (.halt f) rowHalt f.view 0x14 (fun i => i.ex ≠ []) Iss.ex) ∧ (∀ f, Raises (.haltShort f) rowHalt f.view 0x14 (fun i => i.ex ≠ []) Iss.ex)
  ∧ (∀ f, Raises (.redux f) rowRedux (LongF.view f) 0x08 (fun i => i.pipesCz = [] ∧ i.ex.length ≠ 32) Iss.ex)
  ∧ (∀ f, Raises (.scan f) rowScan (LongF.view f) 0x08 (fun i => i.pipesCz = [] ∧ i.ex.length ≠ 32) Iss.ex)
  ∧ (∀ f, Raises (.wrlaneShort f) rowWrlaneShort (ShortF.view f) 0x03 (fun _ => True) Iss.ex)

open Sys2Proof Sys2Proof.Machine Sys2Proof.Says in
/-- R128, R168, R174, R213, R242, R333: of every instruction of a wave: while a token that it waits for is not clear, nothing happens (a wave that waits for the
B-region has its claim noted beside, R185); where it waits for no token, deferred read or array that it is to regain, and it names a named register beyond the
wave's allocation, it does not have its effect but raises 0x07, or a cause before it. -/
def Obligations.EveryInstructionWaitsForItsTokensAndNeedsItsRegisters : Prop :=
  (∀ ins r v s i, Instr.row ins = some (r, v) → s.iss r v = some i → i.tokensOk = false → i.w.wait ≠ .retry .zeroing → exec ins s = .next s)
  ∧ (∀ ins r v s i, Instr.row ins = some (r, v) → s.iss r v = some i → i.tokensOk = true → i.readHeld = false →
      (s.mxFormer i.key = true → i.holdsMx = true) → i.w.wait ≠ .retry .zeroing → i.w.n < r.namedTop v → i.w.trapMode = false → i.w.busy = false →
      (s.ctx i.w.ctx).attach = false → CanTrap s i.key i.w →
      ∃ t w c, exec ins s = .next t ∧ t.wave? i.key = some w ∧ c ≤ 7 ∧ InHandler s i.key c i.w w)

/-! ### Completion -/

namespace Sys2Proof.Says
open Sys2Proof.Machine

/-- The instruction completes: for every state and operands that fit, `exec` answers a next state, in which its wave stands, with its lanes of Exec at the next instruction
(R155). -/
def CompletesWhere (ins : Instr) (r : Row) (v : View) (fits : State → Iss → Prop) : Prop :=
  ∀ s i, Issues r v s i → fits s i → ∃ t w, exec ins s = .next t ∧ t.wave? i.key = some w ∧ i.Advanced w

/-- R411: a wave of 32 lanes together finds the array free, or has been given it back. -/
def ArrayFree (s : State) (i : Iss) : Prop :=
  i.ex.length = 32 ∧ Sparse.wf Core.reset s.cores = true
    ∧ (((arr s i).owner = none ∧ (arr s i).fifo = []) ∨ ((arr s i).owner = some i.key ∧ i.w.mxStamp ≠ none))
/-- R411: an owner whose K-steps are done, of 32 lanes together, which waits for nothing of the array. -/
def ArrayIdle (s : State) (i : Iss) : Prop :=
  i.ex.length = 32 ∧ i.holdsMx = true ∧ Sparse.wf Core.reset s.cores = true ∧ s.mxBusy i.key = false ∧ ∀ x ∈ (arr s i).fifo, x.wave ≠ i.key
/-- R412: the K-steps of an mma. -/
def mmaSteps (f : LongF) : Nat := 8 * f.view.imm9.toNat
/-- R416: accrd names a row below 64. -/
def RowNamed (v : View) (i : Iss) : Prop := i.holdsMx = true ∧ i.ex ≠ [] ∧ i.w.operand v .i32 [] 0 v.a ≤ 63 ∧ ∃ b, v.b = .k b

end Sys2Proof.Says

open Sys2Proof Sys2Proof.Machine Sys2Proof.Says in
/-- R155, R182, R188, R392, R394, R409 to R417: where the spec lets them execute, each of pref, cflush, cinv, cresize, wsync, mxacq, mxrel and mxwait (both forms), mma (both rows),
mmas (both rows), acczero, accst, accld and accrd COMPLETES: `exec` answers a next state with the wave at the next instruction. The conditions are on state and operands alone;
what else the next state holds the statements of each say. -/
def Obligations.CacheAndMatrixInstructionsComplete : Prop :=
  (∀ f, CompletesWhere (.pref f) rowPref (LongF.view f) fun _ _ => True)
  ∧ (∀ f, CompletesWhere (.cflush f) rowCflush (LongF.view f) fun _ _ => True)
  ∧ (∀ f, CompletesWhere (.cinv f) rowCinv (LongF.view f) fun _ _ => True)
  ∧ (∀ f, CompletesWhere (.cresize f) rowCresize (LongF.view f) fun _ _ => True)
  ∧ (∀ f, CompletesWhere (.wsync f) rowWsync (LongF.view f) fun _ i => i.ex = [] ∨ windowFits i (min 4095 (i.w.operand f.view .i32 [] 0 f.view.a)))
  ∧ (∀ f, CompletesWhere (.mxacq f) rowMxacq (LongF.view f) ArrayFree) ∧ (∀ f, CompletesWhere (.mxacqShort f) rowMxacq (ShortF.view f) ArrayFree)
  ∧ (∀ f, CompletesWhere (.mxrel f) rowMxrel (LongF.view f) ArrayIdle) ∧ (∀ f, CompletesWhere (.mxrelShort f) rowMxrel (ShortF.view f) ArrayIdle)
  ∧ (∀ f, CompletesWhere (.mxwait f) rowMxwait (LongF.view f) fun s i => i.holdsMx = true ∧ (i.ex = [] ∨ s.mxBusy i.key = false))
  ∧ (∀ f, CompletesWhere (.mxwaitShort f) rowMxwait (ShortF.view f) fun s i => i.holdsMx = true ∧ (i.ex = [] ∨ s.mxBusy i.key = false))
  ∧ (∀ f, CompletesWhere (.mma f) rowMma (LongF.view f) (CanStart f.view (mmaSteps f) fun _ => True))
  ∧ (∀ f, CompletesWhere (.mmaSg1 f) rowMmaSg1 (LongF.view f) (CanStart f.view (mmaSteps f) fun _ => True))
  ∧ (∀ f n, f.view.d = .named n → CompletesWhere (.mmas f) rowMmas (LongF.view f) (CanStart f.view (scaledSteps f.view) (ScalesKnown f.view n)))
  ∧ (∀ f n, f.view.d = .named n → CompletesWhere (.mmas32 f) rowMmas32 (LongF.view f) (CanStart f.view (scaledSteps f.view) (ScalesKnown f.view n)))
  ∧ (∀ f, CompletesWhere (.acczero f) rowAcczero (LongF.view f) (OnTile rowAcczero f.view))
  ∧ (∀ f, CompletesWhere (.accst f) rowAccst (LongF.view f) fun s i => OnTile rowAccst f.view s i ∧ TilePlace i ∧ NoneWaits s i.core)
  ∧ (∀ f, CompletesWhere (.accld f) rowAccld (LongF.view f) fun s i =>
      OnTile rowAccld f.view s i ∧ TilePlace i ∧ (s.coreFlaws i.core 4 false i.tileAcc).any Flaw.fatal = false)
  ∧ (∀ f, CompletesWhere (.accrd f) rowAccrd (LongF.view f) fun _ i => RowNamed f.view i)

namespace Sys2Proof.Says
open Sys2Proof.Machine

/-- R418, R142: a tspawn whose spawns the homes have accepted. -/
def AllAccepted (v : View) (s : State) (i : Iss) : Prop :=
  unaccepted i = [] ∧ ∃ ls u, Accesses rowTspawn v s i Access.read i.headerAcc [] ls u ∧ CanSpawn v s i (ofBytes (bytesOf u (allPieces ls)))
/-- R422: a launch of a descriptor of gangs, or of a task whose eight words can be read. -/
def LaunchReads (v : View) (s : State) (i : Iss) : Prop :=
  ∃ d u, CanLaunch v s i d u
    ∧ (d.task = true → (∃ pay u', u.readVirt (some i.core) i.w.ctx d.args 32 Access.read = (.ok pay, u') ∧ Sparse.wf Home.reset u'.ctq.homes = true))

end Sys2Proof.Says

open Sys2Proof Sys2Proof.Machine Sys2Proof.Says in
/-- R155, R418 to R433: where the spec lets them execute, each of tspawn (once its spawns are accepted), targ, tqry, pclose (both forms), launch, mch (both rows), mchres, rayq,
rayres, raysus (both rows), lant, bfetch, fbrun, prune, temit, memit.vert and memit.prim COMPLETES: `exec` answers a next state with the wave at the next instruction. The
conditions are on state and operands alone; what else the next state holds the statements of each say. -/
def Obligations.TaskRayAndRenderingInstructionsComplete : Prop :=
  (∀ f, CompletesWhere (.tspawn f) rowTspawn (LongF.view f) (AllAccepted f.view))
  ∧ (∀ f, CompletesWhere (.targ f) rowTarg (LongF.view f) (Computable aluTarg rowTarg f.view))
  ∧ (∀ f, CompletesWhere (.tqry f) rowTqry (LongF.view f) (Computable aluTqry rowTqry f.view))
  ∧ (∀ f, CompletesWhere (.pclose f) rowPclose (LongF.view f) fun s i => (s.pipeEnd i.w.gang f.view.aRaw false).isSome = true)
  ∧ (∀ f, CompletesWhere (.pcloseShort f) rowPclose (ShortF.view f) fun s i => (s.pipeEnd i.w.gang f.view.aRaw false).isSome = true)
  ∧ (∀ f, CompletesWhere (.launch f) rowLaunch (LongF.view f) (LaunchReads f.view))
  ∧ (∀ f, CompletesWhere (.mch f) rowMch (LongF.view f) (CanSubmit .march 0xA9 WindowRoom))
  ∧ (∀ f, CompletesWhere (.mchAff f) rowMchAff (LongF.view f) (CanSubmit .march 0xA9 WindowRoom))
  ∧ (∀ f, CompletesWhere (.mchres f) rowMchres (LongF.view f) (CanDeliver .march))
  ∧ (∀ f, CompletesWhere (.rayq f) rowRayq (LongF.view f) (CanSubmit .trace 0xAA AreasFit))
  ∧ (∀ f, CompletesWhere (.rayres f) rowRayres (LongF.view f) (CanDeliver .trace))
  ∧ (∀ f, CompletesWhere (.raysus f) rowRaysus (LongF.view f) CanAnswerTrace)
  ∧ (∀ f, CompletesWhere (.raysusMarch f) rowRaysusMarch (LongF.view f) (CanAnswerMarch f.view))
  ∧ (∀ f, CompletesWhere (.lant f) rowLant (LongF.view f) (CanSubmit .trace 0xAA AreasFit))
  ∧ (∀ f, CompletesWhere (.bfetch f) rowBfetch (LongF.view f) fun s i => ∃ k u, CanFetch f.view s i k u)
  ∧ (∀ f, CompletesWhere (.fbrun f) rowFbrun (LongF.view f) fun s i => ∃ l b u, CanRunField s i l b u)
  ∧ (∀ f, CompletesWhere (.prune f) rowPrune (LongF.view f) fun s i => ∃ b u, CanPrune f.view s i b u)
  ∧ (∀ f, CompletesWhere (.temit f) rowTemit (LongF.view f) fun s i => ∃ slot d b u u', CanEmit s i slot d b u u')
  ∧ (∀ f, CompletesWhere (.memitVert f) rowMemitVert (LongF.view f) CanEmitVertices)
  ∧ (∀ f, CompletesWhere (.memitPrim f) rowMemitPrim (LongF.view f) fun _ i => CanEmitPrimitives f.view i)
end

