-- ==== Sys2Proof/Laws/State.lean ====
section
/-!
SUPPORT. What the named updates of State and Wave leave unchanged, field by field, for simp; each is true by rfl or by one split.
-/
namespace Sys2Proof.Machine

/-! ### State.setWave -/

@[simp] theorem State.setWave_dev (s : State) (k : Nat) (v : Wave) : (s.setWave k v).dev = s.dev := rfl
@[simp] theorem State.setWave_mem (s : State) (k : Nat) (v : Wave) : (s.setWave k v).mem = s.mem := rfl
@[simp] theorem State.setWave_bln (s : State) (k : Nat) (v : Wave) : (s.setWave k v).bln = s.bln := rfl
@[simp] theorem State.setWave_fab (s : State) (k : Nat) (v : Wave) : (s.setWave k v).fab = s.fab := rfl
@[simp] theorem State.setWave_host (s : State) (k : Nat) (v : Wave) : (s.setWave k v).host = s.host := rfl
@[simp] theorem State.setWave_obsis (s : State) (k : Nat) (v : Wave) : (s.setWave k v).obsis = s.obsis := rfl
@[simp] theorem State.setWave_ctxs (s : State) (k : Nat) (v : Wave) : (s.setWave k v).ctxs = s.ctxs := rfl
@[simp] theorem State.setWave_sched (s : State) (k : Nat) (v : Wave) : (s.setWave k v).sched = s.sched := rfl
@[simp] theorem State.setWave_ctq (s : State) (k : Nat) (v : Wave) : (s.setWave k v).ctq = s.ctq := rfl
@[simp] theorem State.setWave_xlt (s : State) (k : Nat) (v : Wave) : (s.setWave k v).xlt = s.xlt := rfl
@[simp] theorem State.setWave_fes (s : State) (k : Nat) (v : Wave) : (s.setWave k v).fes = s.fes := rfl
@[simp] theorem State.setWave_batches (s : State) (k : Nat) (v : Wave) : (s.setWave k v).batches = s.batches := rfl
@[simp] theorem State.setWave_cores (s : State) (k : Nat) (v : Wave) : (s.setWave k v).cores = s.cores := rfl
@[simp] theorem State.setWave_wstore (s : State) (k : Nat) (v : Wave) : (s.setWave k v).wstore = s.wstore := rfl
@[simp] theorem State.setWave_storeFlaws (s : State) (k : Nat) (v : Wave) : (s.setWave k v).storeFlaws = s.storeFlaws := rfl
@[simp] theorem State.setWave_gangs (s : State) (k : Nat) (v : Wave) : (s.setWave k v).gangs = s.gangs := rfl
@[simp] theorem State.setWave_cur (s : State) (k : Nat) (v : Wave) : (s.setWave k v).cur = s.cur := rfl
@[simp] theorem State.setWave_turns (s : State) (k : Nat) (v : Wave) : (s.setWave k v).turns = s.turns := rfl
@[simp] theorem State.setWave_clocks (s : State) (k : Nat) (v : Wave) : (s.setWave k v).clocks = s.clocks := rfl
@[simp] theorem State.setWave_rotated (s : State) (k : Nat) (v : Wave) : (s.setWave k v).rotated = s.rotated := rfl
@[simp] theorem State.setWave_freeCtr (s : State) (k : Nat) (v : Wave) : (s.setWave k v).freeCtr = s.freeCtr := rfl

/-! ### State.dropWave -/

@[simp] theorem State.dropWave_dev (s : State) (k : Nat) : (s.dropWave k).dev = s.dev := rfl
@[simp] theorem State.dropWave_mem (s : State) (k : Nat) : (s.dropWave k).mem = s.mem := rfl
@[simp] theorem State.dropWave_bln (s : State) (k : Nat) : (s.dropWave k).bln = s.bln := rfl
@[simp] theorem State.dropWave_fab (s : State) (k : Nat) : (s.dropWave k).fab = s.fab := rfl
@[simp] theorem State.dropWave_host (s : State) (k : Nat) : (s.dropWave k).host = s.host := rfl
@[simp] theorem State.dropWave_obsis (s : State) (k : Nat) : (s.dropWave k).obsis = s.obsis := rfl
@[simp] theorem State.dropWave_ctxs (s : State) (k : Nat) : (s.dropWave k).ctxs = s.ctxs := rfl
@[simp] theorem State.dropWave_sched (s : State) (k : Nat) : (s.dropWave k).sched = s.sched := rfl
@[simp] theorem State.dropWave_ctq (s : State) (k : Nat) : (s.dropWave k).ctq = s.ctq := rfl
@[simp] theorem State.dropWave_xlt (s : State) (k : Nat) : (s.dropWave k).xlt = s.xlt := rfl
@[simp] theorem State.dropWave_fes (s : State) (k : Nat) : (s.dropWave k).fes = s.fes := rfl
@[simp] theorem State.dropWave_batches (s : State) (k : Nat) : (s.dropWave k).batches = s.batches := rfl
@[simp] theorem State.dropWave_cores (s : State) (k : Nat) : (s.dropWave k).cores = s.cores := rfl
@[simp] theorem State.dropWave_wstore (s : State) (k : Nat) : (s.dropWave k).wstore = s.wstore := rfl
@[simp] theorem State.dropWave_storeFlaws (s : State) (k : Nat) : (s.dropWave k).storeFlaws = s.storeFlaws := rfl
@[simp] theorem State.dropWave_gangs (s : State) (k : Nat) : (s.dropWave k).gangs = s.gangs := rfl
@[simp] theorem State.dropWave_cur (s : State) (k : Nat) : (s.dropWave k).cur = s.cur := rfl
@[simp] theorem State.dropWave_turns (s : State) (k : Nat) : (s.dropWave k).turns = s.turns := rfl
@[simp] theorem State.dropWave_clocks (s : State) (k : Nat) : (s.dropWave k).clocks = s.clocks := rfl
@[simp] theorem State.dropWave_rotated (s : State) (k : Nat) : (s.dropWave k).rotated = s.rotated := rfl
@[simp] theorem State.dropWave_freeCtr (s : State) (k : Nat) : (s.dropWave k).freeCtr = s.freeCtr := rfl

/-! ### State.setGang -/

@[simp] theorem State.setGang_dev (s : State) (k : Nat) (v : Gang) : (s.setGang k v).dev = s.dev := rfl
@[simp] theorem State.setGang_mem (s : State) (k : Nat) (v : Gang) : (s.setGang k v).mem = s.mem := rfl
@[simp] theorem State.setGang_bln (s : State) (k : Nat) (v : Gang) : (s.setGang k v).bln = s.bln := rfl
@[simp] theorem State.setGang_fab (s : State) (k : Nat) (v : Gang) : (s.setGang k v).fab = s.fab := rfl
@[simp] theorem State.setGang_host (s : State) (k : Nat) (v : Gang) : (s.setGang k v).host = s.host := rfl
@[simp] theorem State.setGang_obsis (s : State) (k : Nat) (v : Gang) : (s.setGang k v).obsis = s.obsis := rfl
@[simp] theorem State.setGang_ctxs (s : State) (k : Nat) (v : Gang) : (s.setGang k v).ctxs = s.ctxs := rfl
@[simp] theorem State.setGang_sched (s : State) (k : Nat) (v : Gang) : (s.setGang k v).sched = s.sched := rfl
@[simp] theorem State.setGang_ctq (s : State) (k : Nat) (v : Gang) : (s.setGang k v).ctq = s.ctq := rfl
@[simp] theorem State.setGang_xlt (s : State) (k : Nat) (v : Gang) : (s.setGang k v).xlt = s.xlt := rfl
@[simp] theorem State.setGang_fes (s : State) (k : Nat) (v : Gang) : (s.setGang k v).fes = s.fes := rfl
@[simp] theorem State.setGang_batches (s : State) (k : Nat) (v : Gang) : (s.setGang k v).batches = s.batches := rfl
@[simp] theorem State.setGang_cores (s : State) (k : Nat) (v : Gang) : (s.setGang k v).cores = s.cores := rfl
@[simp] theorem State.setGang_wstore (s : State) (k : Nat) (v : Gang) : (s.setGang k v).wstore = s.wstore := rfl
@[simp] theorem State.setGang_storeFlaws (s : State) (k : Nat) (v : Gang) : (s.setGang k v).storeFlaws = s.storeFlaws := rfl
@[simp] theorem State.setGang_waves (s : State) (k : Nat) (v : Gang) : (s.setGang k v).waves = s.waves := rfl
@[simp] theorem State.setGang_cur (s : State) (k : Nat) (v : Gang) : (s.setGang k v).cur = s.cur := rfl
@[simp] theorem State.setGang_turns (s : State) (k : Nat) (v : Gang) : (s.setGang k v).turns = s.turns := rfl
@[simp] theorem State.setGang_clocks (s : State) (k : Nat) (v : Gang) : (s.setGang k v).clocks = s.clocks := rfl
@[simp] theorem State.setGang_rotated (s : State) (k : Nat) (v : Gang) : (s.setGang k v).rotated = s.rotated := rfl
@[simp] theorem State.setGang_freeCtr (s : State) (k : Nat) (v : Gang) : (s.setGang k v).freeCtr = s.freeCtr := rfl

/-! ### State.dropGang -/

@[simp] theorem State.dropGang_dev (s : State) (k : Nat) : (s.dropGang k).dev = s.dev := rfl
@[simp] theorem State.dropGang_mem (s : State) (k : Nat) : (s.dropGang k).mem = s.mem := rfl
@[simp] theorem State.dropGang_bln (s : State) (k : Nat) : (s.dropGang k).bln = s.bln := rfl
@[simp] theorem State.dropGang_fab (s : State) (k : Nat) : (s.dropGang k).fab = s.fab := rfl
@[simp] theorem State.dropGang_host (s : State) (k : Nat) : (s.dropGang k).host = s.host := rfl
@[simp] theorem State.dropGang_obsis (s : State) (k : Nat) : (s.dropGang k).obsis = s.obsis := rfl
@[simp] theorem State.dropGang_ctxs (s : State) (k : Nat) : (s.dropGang k).ctxs = s.ctxs := rfl
@[simp] theorem State.dropGang_sched (s : State) (k : Nat) : (s.dropGang k).sched = s.sched := rfl
@[simp] theorem State.dropGang_ctq (s : State) (k : Nat) : (s.dropGang k).ctq = s.ctq := rfl
@[simp] theorem State.dropGang_xlt (s : State) (k : Nat) : (s.dropGang k).xlt = s.xlt := rfl
@[simp] theorem State.dropGang_fes (s : State) (k : Nat) : (s.dropGang k).fes = s.fes := rfl
@[simp] theorem State.dropGang_batches (s : State) (k : Nat) : (s.dropGang k).batches = s.batches := rfl
@[simp] theorem State.dropGang_cores (s : State) (k : Nat) : (s.dropGang k).cores = s.cores := rfl
@[simp] theorem State.dropGang_wstore (s : State) (k : Nat) : (s.dropGang k).wstore = s.wstore := rfl
@[simp] theorem State.dropGang_storeFlaws (s : State) (k : Nat) : (s.dropGang k).storeFlaws = s.storeFlaws := rfl
@[simp] theorem State.dropGang_waves (s : State) (k : Nat) : (s.dropGang k).waves = s.waves := rfl
@[simp] theorem State.dropGang_cur (s : State) (k : Nat) : (s.dropGang k).cur = s.cur := rfl
@[simp] theorem State.dropGang_turns (s : State) (k : Nat) : (s.dropGang k).turns = s.turns := rfl
@[simp] theorem State.dropGang_clocks (s : State) (k : Nat) : (s.dropGang k).clocks = s.clocks := rfl
@[simp] theorem State.dropGang_rotated (s : State) (k : Nat) : (s.dropGang k).rotated = s.rotated := rfl
@[simp] theorem State.dropGang_freeCtr (s : State) (k : Nat) : (s.dropGang k).freeCtr = s.freeCtr := rfl

/-! ### State.setCore -/

@[simp] theorem State.setCore_dev (s : State) (k : Nat) (v : Core) : (s.setCore k v).dev = s.dev := rfl
@[simp] theorem State.setCore_mem (s : State) (k : Nat) (v : Core) : (s.setCore k v).mem = s.mem := rfl
@[simp] theorem State.setCore_bln (s : State) (k : Nat) (v : Core) : (s.setCore k v).bln = s.bln := rfl
@[simp] theorem State.setCore_fab (s : State) (k : Nat) (v : Core) : (s.setCore k v).fab = s.fab := rfl
@[simp] theorem State.setCore_host (s : State) (k : Nat) (v : Core) : (s.setCore k v).host = s.host := rfl
@[simp] theorem State.setCore_obsis (s : State) (k : Nat) (v : Core) : (s.setCore k v).obsis = s.obsis := rfl
@[simp] theorem State.setCore_ctxs (s : State) (k : Nat) (v : Core) : (s.setCore k v).ctxs = s.ctxs := rfl
@[simp] theorem State.setCore_sched (s : State) (k : Nat) (v : Core) : (s.setCore k v).sched = s.sched := rfl
@[simp] theorem State.setCore_ctq (s : State) (k : Nat) (v : Core) : (s.setCore k v).ctq = s.ctq := rfl
@[simp] theorem State.setCore_xlt (s : State) (k : Nat) (v : Core) : (s.setCore k v).xlt = s.xlt := rfl
@[simp] theorem State.setCore_fes (s : State) (k : Nat) (v : Core) : (s.setCore k v).fes = s.fes := rfl
@[simp] theorem State.setCore_batches (s : State) (k : Nat) (v : Core) : (s.setCore k v).batches = s.batches := rfl
@[simp] theorem State.setCore_wstore (s : State) (k : Nat) (v : Core) : (s.setCore k v).wstore = s.wstore := rfl
@[simp] theorem State.setCore_storeFlaws (s : State) (k : Nat) (v : Core) : (s.setCore k v).storeFlaws = s.storeFlaws := rfl
@[simp] theorem State.setCore_gangs (s : State) (k : Nat) (v : Core) : (s.setCore k v).gangs = s.gangs := rfl
@[simp] theorem State.setCore_waves (s : State) (k : Nat) (v : Core) : (s.setCore k v).waves = s.waves := rfl
@[simp] theorem State.setCore_cur (s : State) (k : Nat) (v : Core) : (s.setCore k v).cur = s.cur := rfl
@[simp] theorem State.setCore_turns (s : State) (k : Nat) (v : Core) : (s.setCore k v).turns = s.turns := rfl
@[simp] theorem State.setCore_clocks (s : State) (k : Nat) (v : Core) : (s.setCore k v).clocks = s.clocks := rfl
@[simp] theorem State.setCore_rotated (s : State) (k : Nat) (v : Core) : (s.setCore k v).rotated = s.rotated := rfl
@[simp] theorem State.setCore_freeCtr (s : State) (k : Nat) (v : Core) : (s.setCore k v).freeCtr = s.freeCtr := rfl

/-! ### State.setCtx -/

@[simp] theorem State.setCtx_dev (s : State) (k : Nat) (v : Ctx) : (s.setCtx k v).dev = s.dev := rfl
@[simp] theorem State.setCtx_mem (s : State) (k : Nat) (v : Ctx) : (s.setCtx k v).mem = s.mem := rfl
@[simp] theorem State.setCtx_bln (s : State) (k : Nat) (v : Ctx) : (s.setCtx k v).bln = s.bln := rfl
@[simp] theorem State.setCtx_fab (s : State) (k : Nat) (v : Ctx) : (s.setCtx k v).fab = s.fab := rfl
@[simp] theorem State.setCtx_host (s : State) (k : Nat) (v : Ctx) : (s.setCtx k v).host = s.host := rfl
@[simp] theorem State.setCtx_obsis (s : State) (k : Nat) (v : Ctx) : (s.setCtx k v).obsis = s.obsis := rfl
@[simp] theorem State.setCtx_sched (s : State) (k : Nat) (v : Ctx) : (s.setCtx k v).sched = s.sched := rfl
@[simp] theorem State.setCtx_ctq (s : State) (k : Nat) (v : Ctx) : (s.setCtx k v).ctq = s.ctq := rfl
@[simp] theorem State.setCtx_xlt (s : State) (k : Nat) (v : Ctx) : (s.setCtx k v).xlt = s.xlt := rfl
@[simp] theorem State.setCtx_fes (s : State) (k : Nat) (v : Ctx) : (s.setCtx k v).fes = s.fes := rfl
@[simp] theorem State.setCtx_batches (s : State) (k : Nat) (v : Ctx) : (s.setCtx k v).batches = s.batches := rfl
@[simp] theorem State.setCtx_cores (s : State) (k : Nat) (v : Ctx) : (s.setCtx k v).cores = s.cores := rfl
@[simp] theorem State.setCtx_wstore (s : State) (k : Nat) (v : Ctx) : (s.setCtx k v).wstore = s.wstore := rfl
@[simp] theorem State.setCtx_storeFlaws (s : State) (k : Nat) (v : Ctx) : (s.setCtx k v).storeFlaws = s.storeFlaws := rfl
@[simp] theorem State.setCtx_gangs (s : State) (k : Nat) (v : Ctx) : (s.setCtx k v).gangs = s.gangs := rfl
@[simp] theorem State.setCtx_waves (s : State) (k : Nat) (v : Ctx) : (s.setCtx k v).waves = s.waves := rfl
@[simp] theorem State.setCtx_cur (s : State) (k : Nat) (v : Ctx) : (s.setCtx k v).cur = s.cur := rfl
@[simp] theorem State.setCtx_turns (s : State) (k : Nat) (v : Ctx) : (s.setCtx k v).turns = s.turns := rfl
@[simp] theorem State.setCtx_clocks (s : State) (k : Nat) (v : Ctx) : (s.setCtx k v).clocks = s.clocks := rfl
@[simp] theorem State.setCtx_rotated (s : State) (k : Nat) (v : Ctx) : (s.setCtx k v).rotated = s.rotated := rfl
@[simp] theorem State.setCtx_freeCtr (s : State) (k : Nat) (v : Ctx) : (s.setCtx k v).freeCtr = s.freeCtr := rfl

/-! ### State.onCore -/

@[simp] theorem State.onCore_dev (s : State) (k : Nat) (f : Core → Core) : (s.onCore k f).dev = s.dev := rfl
@[simp] theorem State.onCore_mem (s : State) (k : Nat) (f : Core → Core) : (s.onCore k f).mem = s.mem := rfl
@[simp] theorem State.onCore_bln (s : State) (k : Nat) (f : Core → Core) : (s.onCore k f).bln = s.bln := rfl
@[simp] theorem State.onCore_fab (s : State) (k : Nat) (f : Core → Core) : (s.onCore k f).fab = s.fab := rfl
@[simp] theorem State.onCore_host (s : State) (k : Nat) (f : Core → Core) : (s.onCore k f).host = s.host := rfl
@[simp] theorem State.onCore_obsis (s : State) (k : Nat) (f : Core → Core) : (s.onCore k f).obsis = s.obsis := rfl
@[simp] theorem State.onCore_ctxs (s : State) (k : Nat) (f : Core → Core) : (s.onCore k f).ctxs = s.ctxs := rfl
@[simp] theorem State.onCore_sched (s : State) (k : Nat) (f : Core → Core) : (s.onCore k f).sched = s.sched := rfl
@[simp] theorem State.onCore_ctq (s : State) (k : Nat) (f : Core → Core) : (s.onCore k f).ctq = s.ctq := rfl
@[simp] theorem State.onCore_xlt (s : State) (k : Nat) (f : Core → Core) : (s.onCore k f).xlt = s.xlt := rfl
@[simp] theorem State.onCore_fes (s : State) (k : Nat) (f : Core → Core) : (s.onCore k f).fes = s.fes := rfl
@[simp] theorem State.onCore_batches (s : State) (k : Nat) (f : Core → Core) : (s.onCore k f).batches = s.batches := rfl
@[simp] theorem State.onCore_wstore (s : State) (k : Nat) (f : Core → Core) : (s.onCore k f).wstore = s.wstore := rfl
@[simp] theorem State.onCore_storeFlaws (s : State) (k : Nat) (f : Core → Core) : (s.onCore k f).storeFlaws = s.storeFlaws := rfl
@[simp] theorem State.onCore_gangs (s : State) (k : Nat) (f : Core → Core) : (s.onCore k f).gangs = s.gangs := rfl
@[simp] theorem State.onCore_waves (s : State) (k : Nat) (f : Core → Core) : (s.onCore k f).waves = s.waves := rfl
@[simp] theorem State.onCore_cur (s : State) (k : Nat) (f : Core → Core) : (s.onCore k f).cur = s.cur := rfl
@[simp] theorem State.onCore_turns (s : State) (k : Nat) (f : Core → Core) : (s.onCore k f).turns = s.turns := rfl
@[simp] theorem State.onCore_clocks (s : State) (k : Nat) (f : Core → Core) : (s.onCore k f).clocks = s.clocks := rfl
@[simp] theorem State.onCore_rotated (s : State) (k : Nat) (f : Core → Core) : (s.onCore k f).rotated = s.rotated := rfl
@[simp] theorem State.onCore_freeCtr (s : State) (k : Nat) (f : Core → Core) : (s.onCore k f).freeCtr = s.freeCtr := rfl

/-! ### State.onCtx -/

@[simp] theorem State.onCtx_dev (s : State) (k : Nat) (f : Ctx → Ctx) : (s.onCtx k f).dev = s.dev := rfl
@[simp] theorem State.onCtx_mem (s : State) (k : Nat) (f : Ctx → Ctx) : (s.onCtx k f).mem = s.mem := rfl
@[simp] theorem State.onCtx_bln (s : State) (k : Nat) (f : Ctx → Ctx) : (s.onCtx k f).bln = s.bln := rfl
@[simp] theorem State.onCtx_fab (s : State) (k : Nat) (f : Ctx → Ctx) : (s.onCtx k f).fab = s.fab := rfl
@[simp] theorem State.onCtx_host (s : State) (k : Nat) (f : Ctx → Ctx) : (s.onCtx k f).host = s.host := rfl
@[simp] theorem State.onCtx_obsis (s : State) (k : Nat) (f : Ctx → Ctx) : (s.onCtx k f).obsis = s.obsis := rfl
@[simp] theorem State.onCtx_sched (s : State) (k : Nat) (f : Ctx → Ctx) : (s.onCtx k f).sched = s.sched := rfl
@[simp] theorem State.onCtx_ctq (s : State) (k : Nat) (f : Ctx → Ctx) : (s.onCtx k f).ctq = s.ctq := rfl
@[simp] theorem State.onCtx_xlt (s : State) (k : Nat) (f : Ctx → Ctx) : (s.onCtx k f).xlt = s.xlt := rfl
@[simp] theorem State.onCtx_fes (s : State) (k : Nat) (f : Ctx → Ctx) : (s.onCtx k f).fes = s.fes := rfl
@[simp] theorem State.onCtx_batches (s : State) (k : Nat) (f : Ctx → Ctx) : (s.onCtx k f).batches = s.batches := rfl
@[simp] theorem State.onCtx_cores (s : State) (k : Nat) (f : Ctx → Ctx) : (s.onCtx k f).cores = s.cores := rfl
@[simp] theorem State.onCtx_wstore (s : State) (k : Nat) (f : Ctx → Ctx) : (s.onCtx k f).wstore = s.wstore := rfl
@[simp] theorem State.onCtx_storeFlaws (s : State) (k : Nat) (f : Ctx → Ctx) : (s.onCtx k f).storeFlaws = s.storeFlaws := rfl
@[simp] theorem State.onCtx_gangs (s : State) (k : Nat) (f : Ctx → Ctx) : (s.onCtx k f).gangs = s.gangs := rfl
@[simp] theorem State.onCtx_waves (s : State) (k : Nat) (f : Ctx → Ctx) : (s.onCtx k f).waves = s.waves := rfl
@[simp] theorem State.onCtx_cur (s : State) (k : Nat) (f : Ctx → Ctx) : (s.onCtx k f).cur = s.cur := rfl
@[simp] theorem State.onCtx_turns (s : State) (k : Nat) (f : Ctx → Ctx) : (s.onCtx k f).turns = s.turns := rfl
@[simp] theorem State.onCtx_clocks (s : State) (k : Nat) (f : Ctx → Ctx) : (s.onCtx k f).clocks = s.clocks := rfl
@[simp] theorem State.onCtx_rotated (s : State) (k : Nat) (f : Ctx → Ctx) : (s.onCtx k f).rotated = s.rotated := rfl
@[simp] theorem State.onCtx_freeCtr (s : State) (k : Nat) (f : Ctx → Ctx) : (s.onCtx k f).freeCtr = s.freeCtr := rfl

/-! ### State.onWave -/

@[simp] theorem State.onWave_dev (s : State) (k : Nat) (f : Wave → Wave) : (s.onWave k f).dev = s.dev := by unfold State.onWave; split <;> rfl
@[simp] theorem State.onWave_mem (s : State) (k : Nat) (f : Wave → Wave) : (s.onWave k f).mem = s.mem := by unfold State.onWave; split <;> rfl
@[simp] theorem State.onWave_bln (s : State) (k : Nat) (f : Wave → Wave) : (s.onWave k f).bln = s.bln := by unfold State.onWave; split <;> rfl
@[simp] theorem State.onWave_fab (s : State) (k : Nat) (f : Wave → Wave) : (s.onWave k f).fab = s.fab := by unfold State.onWave; split <;> rfl
@[simp] theorem State.onWave_host (s : State) (k : Nat) (f : Wave → Wave) : (s.onWave k f).host = s.host := by unfold State.onWave; split <;> rfl
@[simp] theorem State.onWave_obsis (s : State) (k : Nat) (f : Wave → Wave) : (s.onWave k f).obsis = s.obsis := by unfold State.onWave; split <;> rfl
@[simp] theorem State.onWave_ctxs (s : State) (k : Nat) (f : Wave → Wave) : (s.onWave k f).ctxs = s.ctxs := by unfold State.onWave; split <;> rfl
@[simp] theorem State.onWave_sched (s : State) (k : Nat) (f : Wave → Wave) : (s.onWave k f).sched = s.sched := by unfold State.onWave; split <;> rfl
@[simp] theorem State.onWave_ctq (s : State) (k : Nat) (f : Wave → Wave) : (s.onWave k f).ctq = s.ctq := by unfold State.onWave; split <;> rfl
@[simp] theorem State.onWave_xlt (s : State) (k : Nat) (f : Wave → Wave) : (s.onWave k f).xlt = s.xlt := by unfold State.onWave; split <;> rfl
@[simp] theorem State.onWave_fes (s : State) (k : Nat) (f : Wave → Wave) : (s.onWave k f).fes = s.fes := by unfold State.onWave; split <;> rfl
@[simp] theorem State.onWave_batches (s : State) (k : Nat) (f : Wave → Wave) : (s.onWave k f).batches = s.batches := by unfold State.onWave; split <;> rfl
@[simp] theorem State.onWave_cores (s : State) (k : Nat) (f : Wave → Wave) : (s.onWave k f).cores = s.cores := by unfold State.onWave; split <;> rfl
@[simp] theorem State.onWave_wstore (s : State) (k : Nat) (f : Wave → Wave) : (s.onWave k f).wstore = s.wstore := by unfold State.onWave; split <;> rfl
@[simp] theorem State.onWave_storeFlaws (s : State) (k : Nat) (f : Wave → Wave) : (s.onWave k f).storeFlaws = s.storeFlaws := by unfold State.onWave; split <;> rfl
@[simp] theorem State.onWave_gangs (s : State) (k : Nat) (f : Wave → Wave) : (s.onWave k f).gangs = s.gangs := by unfold State.onWave; split <;> rfl
@[simp] theorem State.onWave_cur (s : State) (k : Nat) (f : Wave → Wave) : (s.onWave k f).cur = s.cur := by unfold State.onWave; split <;> rfl
@[simp] theorem State.onWave_turns (s : State) (k : Nat) (f : Wave → Wave) : (s.onWave k f).turns = s.turns := by unfold State.onWave; split <;> rfl
@[simp] theorem State.onWave_clocks (s : State) (k : Nat) (f : Wave → Wave) : (s.onWave k f).clocks = s.clocks := by unfold State.onWave; split <;> rfl
@[simp] theorem State.onWave_rotated (s : State) (k : Nat) (f : Wave → Wave) : (s.onWave k f).rotated = s.rotated := by unfold State.onWave; split <;> rfl
@[simp] theorem State.onWave_freeCtr (s : State) (k : Nat) (f : Wave → Wave) : (s.onWave k f).freeCtr = s.freeCtr := by unfold State.onWave; split <;> rfl

/-! ### State.onGang -/

@[simp] theorem State.onGang_dev (s : State) (k : Nat) (f : Gang → Gang) : (s.onGang k f).dev = s.dev := by unfold State.onGang; split <;> rfl
@[simp] theorem State.onGang_mem (s : State) (k : Nat) (f : Gang → Gang) : (s.onGang k f).mem = s.mem := by unfold State.onGang; split <;> rfl
@[simp] theorem State.onGang_bln (s : State) (k : Nat) (f : Gang → Gang) : (s.onGang k f).bln = s.bln := by unfold State.onGang; split <;> rfl
@[simp] theorem State.onGang_fab (s : State) (k : Nat) (f : Gang → Gang) : (s.onGang k f).fab = s.fab := by unfold State.onGang; split <;> rfl
@[simp] theorem State.onGang_host (s : State) (k : Nat) (f : Gang → Gang) : (s.onGang k f).host = s.host := by unfold State.onGang; split <;> rfl
@[simp] theorem State.onGang_obsis (s : State) (k : Nat) (f : Gang → Gang) : (s.onGang k f).obsis = s.obsis := by unfold State.onGang; split <;> rfl
@[simp] theorem State.onGang_ctxs (s : State) (k : Nat) (f : Gang → Gang) : (s.onGang k f).ctxs = s.ctxs := by unfold State.onGang; split <;> rfl
@[simp] theorem State.onGang_sched (s : State) (k : Nat) (f : Gang → Gang) : (s.onGang k f).sched = s.sched := by unfold State.onGang; split <;> rfl
@[simp] theorem State.onGang_ctq (s : State) (k : Nat) (f : Gang → Gang) : (s.onGang k f).ctq = s.ctq := by unfold State.onGang; split <;> rfl
@[simp] theorem State.onGang_xlt (s : State) (k : Nat) (f : Gang → Gang) : (s.onGang k f).xlt = s.xlt := by unfold State.onGang; split <;> rfl
@[simp] theorem State.onGang_fes (s : State) (k : Nat) (f : Gang → Gang) : (s.onGang k f).fes = s.fes := by unfold State.onGang; split <;> rfl
@[simp] theorem State.onGang_batches (s : State) (k : Nat) (f : Gang → Gang) : (s.onGang k f).batches = s.batches := by unfold State.onGang; split <;> rfl
@[simp] theorem State.onGang_cores (s : State) (k : Nat) (f : Gang → Gang) : (s.onGang k f).cores = s.cores := by unfold State.onGang; split <;> rfl
@[simp] theorem State.onGang_wstore (s : State) (k : Nat) (f : Gang → Gang) : (s.onGang k f).wstore = s.wstore := by unfold State.onGang; split <;> rfl
@[simp] theorem State.onGang_storeFlaws (s : State) (k : Nat) (f : Gang → Gang) : (s.onGang k f).storeFlaws = s.storeFlaws := by unfold State.onGang; split <;> rfl
@[simp] theorem State.onGang_waves (s : State) (k : Nat) (f : Gang → Gang) : (s.onGang k f).waves = s.waves := by unfold State.onGang; split <;> rfl
@[simp] theorem State.onGang_cur (s : State) (k : Nat) (f : Gang → Gang) : (s.onGang k f).cur = s.cur := by unfold State.onGang; split <;> rfl
@[simp] theorem State.onGang_turns (s : State) (k : Nat) (f : Gang → Gang) : (s.onGang k f).turns = s.turns := by unfold State.onGang; split <;> rfl
@[simp] theorem State.onGang_clocks (s : State) (k : Nat) (f : Gang → Gang) : (s.onGang k f).clocks = s.clocks := by unfold State.onGang; split <;> rfl
@[simp] theorem State.onGang_rotated (s : State) (k : Nat) (f : Gang → Gang) : (s.onGang k f).rotated = s.rotated := by unfold State.onGang; split <;> rfl
@[simp] theorem State.onGang_freeCtr (s : State) (k : Nat) (f : Gang → Gang) : (s.onGang k f).freeCtr = s.freeCtr := by unfold State.onGang; split <;> rfl

/-! ### State.irq -/

@[simp] theorem State.irq_dev (s : State) (b : Nat) : (s.irq b).dev = s.dev := rfl
@[simp] theorem State.irq_mem (s : State) (b : Nat) : (s.irq b).mem = s.mem := rfl
@[simp] theorem State.irq_bln (s : State) (b : Nat) : (s.irq b).bln = s.bln := rfl
@[simp] theorem State.irq_fab (s : State) (b : Nat) : (s.irq b).fab = s.fab := rfl
@[simp] theorem State.irq_obsis (s : State) (b : Nat) : (s.irq b).obsis = s.obsis := rfl
@[simp] theorem State.irq_ctxs (s : State) (b : Nat) : (s.irq b).ctxs = s.ctxs := rfl
@[simp] theorem State.irq_sched (s : State) (b : Nat) : (s.irq b).sched = s.sched := rfl
@[simp] theorem State.irq_ctq (s : State) (b : Nat) : (s.irq b).ctq = s.ctq := rfl
@[simp] theorem State.irq_xlt (s : State) (b : Nat) : (s.irq b).xlt = s.xlt := rfl
@[simp] theorem State.irq_fes (s : State) (b : Nat) : (s.irq b).fes = s.fes := rfl
@[simp] theorem State.irq_batches (s : State) (b : Nat) : (s.irq b).batches = s.batches := rfl
@[simp] theorem State.irq_cores (s : State) (b : Nat) : (s.irq b).cores = s.cores := rfl
@[simp] theorem State.irq_wstore (s : State) (b : Nat) : (s.irq b).wstore = s.wstore := rfl
@[simp] theorem State.irq_storeFlaws (s : State) (b : Nat) : (s.irq b).storeFlaws = s.storeFlaws := rfl
@[simp] theorem State.irq_gangs (s : State) (b : Nat) : (s.irq b).gangs = s.gangs := rfl
@[simp] theorem State.irq_waves (s : State) (b : Nat) : (s.irq b).waves = s.waves := rfl
@[simp] theorem State.irq_cur (s : State) (b : Nat) : (s.irq b).cur = s.cur := rfl
@[simp] theorem State.irq_turns (s : State) (b : Nat) : (s.irq b).turns = s.turns := rfl
@[simp] theorem State.irq_clocks (s : State) (b : Nat) : (s.irq b).clocks = s.clocks := rfl
@[simp] theorem State.irq_rotated (s : State) (b : Nat) : (s.irq b).rotated = s.rotated := rfl
@[simp] theorem State.irq_freeCtr (s : State) (b : Nat) : (s.irq b).freeCtr = s.freeCtr := rfl

/-! ### State.perf -/

@[simp] theorem State.perf_dev (s : State) (core ctx event n : Nat) : (s.perf core ctx event n).dev = s.dev := by unfold State.perf; dsimp only; split <;> rfl
@[simp] theorem State.perf_mem (s : State) (core ctx event n : Nat) : (s.perf core ctx event n).mem = s.mem := by unfold State.perf; dsimp only; split <;> rfl
@[simp] theorem State.perf_bln (s : State) (core ctx event n : Nat) : (s.perf core ctx event n).bln = s.bln := by unfold State.perf; dsimp only; split <;> rfl
@[simp] theorem State.perf_fab (s : State) (core ctx event n : Nat) : (s.perf core ctx event n).fab = s.fab := by unfold State.perf; dsimp only; split <;> rfl
@[simp] theorem State.perf_host (s : State) (core ctx event n : Nat) : (s.perf core ctx event n).host = s.host := by unfold State.perf; dsimp only; split <;> rfl
@[simp] theorem State.perf_obsis (s : State) (core ctx event n : Nat) : (s.perf core ctx event n).obsis = s.obsis := by unfold State.perf; dsimp only; split <;> rfl
@[simp] theorem State.perf_ctxs (s : State) (core ctx event n : Nat) : (s.perf core ctx event n).ctxs = s.ctxs := by unfold State.perf; dsimp only; split <;> rfl
@[simp] theorem State.perf_sched (s : State) (core ctx event n : Nat) : (s.perf core ctx event n).sched = s.sched := by unfold State.perf; dsimp only; split <;> rfl
@[simp] theorem State.perf_ctq (s : State) (core ctx event n : Nat) : (s.perf core ctx event n).ctq = s.ctq := by unfold State.perf; dsimp only; split <;> rfl
@[simp] theorem State.perf_xlt (s : State) (core ctx event n : Nat) : (s.perf core ctx event n).xlt = s.xlt := by unfold State.perf; dsimp only; split <;> rfl
@[simp] theorem State.perf_fes (s : State) (core ctx event n : Nat) : (s.perf core ctx event n).fes = s.fes := by unfold State.perf; dsimp only; split <;> rfl
@[simp] theorem State.perf_batches (s : State) (core ctx event n : Nat) : (s.perf core ctx event n).batches = s.batches := by unfold State.perf; dsimp only; split <;> rfl
@[simp] theorem State.perf_wstore (s : State) (core ctx event n : Nat) : (s.perf core ctx event n).wstore = s.wstore := by unfold State.perf; dsimp only; split <;> rfl
@[simp] theorem State.perf_storeFlaws (s : State) (core ctx event n : Nat) : (s.perf core ctx event n).storeFlaws = s.storeFlaws := by unfold State.perf; dsimp only; split <;> rfl
@[simp] theorem State.perf_gangs (s : State) (core ctx event n : Nat) : (s.perf core ctx event n).gangs = s.gangs := by unfold State.perf; dsimp only; split <;> rfl
@[simp] theorem State.perf_waves (s : State) (core ctx event n : Nat) : (s.perf core ctx event n).waves = s.waves := by unfold State.perf; dsimp only; split <;> rfl
@[simp] theorem State.perf_cur (s : State) (core ctx event n : Nat) : (s.perf core ctx event n).cur = s.cur := by unfold State.perf; dsimp only; split <;> rfl
@[simp] theorem State.perf_turns (s : State) (core ctx event n : Nat) : (s.perf core ctx event n).turns = s.turns := by unfold State.perf; dsimp only; split <;> rfl
@[simp] theorem State.perf_clocks (s : State) (core ctx event n : Nat) : (s.perf core ctx event n).clocks = s.clocks := by unfold State.perf; dsimp only; split <;> rfl
@[simp] theorem State.perf_rotated (s : State) (core ctx event n : Nat) : (s.perf core ctx event n).rotated = s.rotated := by unfold State.perf; dsimp only; split <;> rfl
@[simp] theorem State.perf_freeCtr (s : State) (core ctx event n : Nat) : (s.perf core ctx event n).freeCtr = s.freeCtr := by unfold State.perf; dsimp only; split <;> rfl

/-! ### State.wake -/

@[simp] theorem State.wake_dev (s : State) (r : Retry) : (s.wake r).dev = s.dev := rfl
@[simp] theorem State.wake_mem (s : State) (r : Retry) : (s.wake r).mem = s.mem := rfl
@[simp] theorem State.wake_bln (s : State) (r : Retry) : (s.wake r).bln = s.bln := rfl
@[simp] theorem State.wake_fab (s : State) (r : Retry) : (s.wake r).fab = s.fab := rfl
@[simp] theorem State.wake_host (s : State) (r : Retry) : (s.wake r).host = s.host := rfl
@[simp] theorem State.wake_obsis (s : State) (r : Retry) : (s.wake r).obsis = s.obsis := rfl
@[simp] theorem State.wake_ctxs (s : State) (r : Retry) : (s.wake r).ctxs = s.ctxs := rfl
@[simp] theorem State.wake_sched (s : State) (r : Retry) : (s.wake r).sched = s.sched := rfl
@[simp] theorem State.wake_ctq (s : State) (r : Retry) : (s.wake r).ctq = s.ctq := rfl
@[simp] theorem State.wake_xlt (s : State) (r : Retry) : (s.wake r).xlt = s.xlt := rfl
@[simp] theorem State.wake_fes (s : State) (r : Retry) : (s.wake r).fes = s.fes := rfl
@[simp] theorem State.wake_batches (s : State) (r : Retry) : (s.wake r).batches = s.batches := rfl
@[simp] theorem State.wake_cores (s : State) (r : Retry) : (s.wake r).cores = s.cores := rfl
@[simp] theorem State.wake_wstore (s : State) (r : Retry) : (s.wake r).wstore = s.wstore := rfl
@[simp] theorem State.wake_storeFlaws (s : State) (r : Retry) : (s.wake r).storeFlaws = s.storeFlaws := rfl
@[simp] theorem State.wake_gangs (s : State) (r : Retry) : (s.wake r).gangs = s.gangs := rfl
@[simp] theorem State.wake_cur (s : State) (r : Retry) : (s.wake r).cur = s.cur := rfl
@[simp] theorem State.wake_turns (s : State) (r : Retry) : (s.wake r).turns = s.turns := rfl
@[simp] theorem State.wake_clocks (s : State) (r : Retry) : (s.wake r).clocks = s.clocks := rfl
@[simp] theorem State.wake_rotated (s : State) (r : Retry) : (s.wake r).rotated = s.rotated := rfl
@[simp] theorem State.wake_freeCtr (s : State) (r : Retry) : (s.wake r).freeCtr = s.freeCtr := rfl

/-! ### Wave.setLane -/

@[simp] theorem Wave.setLane_gang (w : Wave) (l : Nat) (v : Lane) : (w.setLane l v).gang = w.gang := rfl
@[simp] theorem Wave.setLane_idx (w : Wave) (l : Nat) (v : Lane) : (w.setLane l v).idx = w.idx := rfl
@[simp] theorem Wave.setLane_ctx (w : Wave) (l : Nat) (v : Lane) : (w.setLane l v).ctx = w.ctx := rfl
@[simp] theorem Wave.setLane_n (w : Wave) (l : Nat) (v : Lane) : (w.setLane l v).n = w.n := rfl
@[simp] theorem Wave.setLane_k (w : Wave) (l : Nat) (v : Lane) : (w.setLane l v).k = w.k := rfl
@[simp] theorem Wave.setLane_flags (w : Wave) (l : Nat) (v : Lane) : (w.setLane l v).flags = w.flags := rfl
@[simp] theorem Wave.setLane_domains (w : Wave) (l : Nat) (v : Lane) : (w.setLane l v).domains = w.domains := rfl
@[simp] theorem Wave.setLane_flagsWas (w : Wave) (l : Nat) (v : Lane) : (w.setLane l v).flagsWas = w.flagsWas := rfl
@[simp] theorem Wave.setLane_rstateWas (w : Wave) (l : Nat) (v : Lane) : (w.setLane l v).rstateWas = w.rstateWas := rfl
@[simp] theorem Wave.setLane_ops (w : Wave) (l : Nat) (v : Lane) : (w.setLane l v).ops = w.ops := rfl
@[simp] theorem Wave.setLane_carried (w : Wave) (l : Nat) (v : Lane) : (w.setLane l v).carried = w.carried := rfl
@[simp] theorem Wave.setLane_asyncs (w : Wave) (l : Nat) (v : Lane) : (w.setLane l v).asyncs = w.asyncs := rfl
@[simp] theorem Wave.setLane_rstate (w : Wave) (l : Nat) (v : Lane) : (w.setLane l v).rstate = w.rstate := rfl
@[simp] theorem Wave.setLane_trapMode (w : Wave) (l : Nat) (v : Lane) : (w.setLane l v).trapMode = w.trapMode := rfl
@[simp] theorem Wave.setLane_dbgHalt (w : Wave) (l : Nat) (v : Lane) : (w.setLane l v).dbgHalt = w.dbgHalt := rfl
@[simp] theorem Wave.setLane_fltPend (w : Wave) (l : Nat) (v : Lane) : (w.setLane l v).fltPend = w.fltPend := rfl
@[simp] theorem Wave.setLane_deadline (w : Wave) (l : Nat) (v : Lane) : (w.setLane l v).deadline = w.deadline := rfl
@[simp] theorem Wave.setLane_spawned (w : Wave) (l : Nat) (v : Lane) : (w.setLane l v).spawned = w.spawned := rfl
@[simp] theorem Wave.setLane_wait (w : Wave) (l : Nat) (v : Lane) : (w.setLane l v).wait = w.wait := rfl
@[simp] theorem Wave.setLane_words (w : Wave) (l : Nat) (v : Lane) : (w.setLane l v).words = w.words := rfl
@[simp] theorem Wave.setLane_cycle (w : Wave) (l : Nat) (v : Lane) : (w.setLane l v).cycle = w.cycle := rfl
@[simp] theorem Wave.setLane_next (w : Wave) (l : Nat) (v : Lane) : (w.setLane l v).next = w.next := rfl
@[simp] theorem Wave.setLane_issued (w : Wave) (l : Nat) (v : Lane) : (w.setLane l v).issued = w.issued := rfl
@[simp] theorem Wave.setLane_active (w : Wave) (l : Nat) (v : Lane) : (w.setLane l v).active = w.active := rfl
@[simp] theorem Wave.setLane_since (w : Wave) (l : Nat) (v : Lane) : (w.setLane l v).since = w.since := rfl
@[simp] theorem Wave.setLane_age (w : Wave) (l : Nat) (v : Lane) : (w.setLane l v).age = w.age := rfl
@[simp] theorem Wave.setLane_turnAt (w : Wave) (l : Nat) (v : Lane) : (w.setLane l v).turnAt = w.turnAt := rfl
@[simp] theorem Wave.setLane_conflict (w : Wave) (l : Nat) (v : Lane) : (w.setLane l v).conflict = w.conflict := rfl
@[simp] theorem Wave.setLane_fenced (w : Wave) (l : Nat) (v : Lane) : (w.setLane l v).fenced = w.fenced := rfl
@[simp] theorem Wave.setLane_stepped (w : Wave) (l : Nat) (v : Lane) : (w.setLane l v).stepped = w.stepped := rfl
@[simp] theorem Wave.setLane_skip (w : Wave) (l : Nat) (v : Lane) : (w.setLane l v).skip = w.skip := rfl
@[simp] theorem Wave.setLane_mesh (w : Wave) (l : Nat) (v : Lane) : (w.setLane l v).mesh = w.mesh := rfl
@[simp] theorem Wave.setLane_mxStamp (w : Wave) (l : Nat) (v : Lane) : (w.setLane l v).mxStamp = w.mxStamp := rfl
@[simp] theorem Wave.setLane_emitted (w : Wave) (l : Nat) (v : Lane) : (w.setLane l v).emitted = w.emitted := rfl
@[simp] theorem Wave.setLane_hostErr (w : Wave) (l : Nat) (v : Lane) : (w.setLane l v).hostErr = w.hostErr := rfl

/-! ### Wave.onLane -/

@[simp] theorem Wave.onLane_gang (w : Wave) (l : Nat) (f : Lane → Lane) : (w.onLane l f).gang = w.gang := rfl
@[simp] theorem Wave.onLane_idx (w : Wave) (l : Nat) (f : Lane → Lane) : (w.onLane l f).idx = w.idx := rfl
@[simp] theorem Wave.onLane_ctx (w : Wave) (l : Nat) (f : Lane → Lane) : (w.onLane l f).ctx = w.ctx := rfl
@[simp] theorem Wave.onLane_n (w : Wave) (l : Nat) (f : Lane → Lane) : (w.onLane l f).n = w.n := rfl
@[simp] theorem Wave.onLane_k (w : Wave) (l : Nat) (f : Lane → Lane) : (w.onLane l f).k = w.k := rfl
@[simp] theorem Wave.onLane_flags (w : Wave) (l : Nat) (f : Lane → Lane) : (w.onLane l f).flags = w.flags := rfl
@[simp] theorem Wave.onLane_domains (w : Wave) (l : Nat) (f : Lane → Lane) : (w.onLane l f).domains = w.domains := rfl
@[simp] theorem Wave.onLane_flagsWas (w : Wave) (l : Nat) (f : Lane → Lane) : (w.onLane l f).flagsWas = w.flagsWas := rfl
@[simp] theorem Wave.onLane_rstateWas (w : Wave) (l : Nat) (f : Lane → Lane) : (w.onLane l f).rstateWas = w.rstateWas := rfl
@[simp] theorem Wave.onLane_ops (w : Wave) (l : Nat) (f : Lane → Lane) : (w.onLane l f).ops = w.ops := rfl
@[simp] theorem Wave.onLane_carried (w : Wave) (l : Nat) (f : Lane → Lane) : (w.onLane l f).carried = w.carried := rfl
@[simp] theorem Wave.onLane_asyncs (w : Wave) (l : Nat) (f : Lane → Lane) : (w.onLane l f).asyncs = w.asyncs := rfl
@[simp] theorem Wave.onLane_rstate (w : Wave) (l : Nat) (f : Lane → Lane) : (w.onLane l f).rstate = w.rstate := rfl
@[simp] theorem Wave.onLane_trapMode (w : Wave) (l : Nat) (f : Lane → Lane) : (w.onLane l f).trapMode = w.trapMode := rfl
@[simp] theorem Wave.onLane_dbgHalt (w : Wave) (l : Nat) (f : Lane → Lane) : (w.onLane l f).dbgHalt = w.dbgHalt := rfl
@[simp] theorem Wave.onLane_fltPend (w : Wave) (l : Nat) (f : Lane → Lane) : (w.onLane l f).fltPend = w.fltPend := rfl
@[simp] theorem Wave.onLane_deadline (w : Wave) (l : Nat) (f : Lane → Lane) : (w.onLane l f).deadline = w.deadline := rfl
@[simp] theorem Wave.onLane_spawned (w : Wave) (l : Nat) (f : Lane → Lane) : (w.onLane l f).spawned = w.spawned := rfl
@[simp] theorem Wave.onLane_wait (w : Wave) (l : Nat) (f : Lane → Lane) : (w.onLane l f).wait = w.wait := rfl
@[simp] theorem Wave.onLane_words (w : Wave) (l : Nat) (f : Lane → Lane) : (w.onLane l f).words = w.words := rfl
@[simp] theorem Wave.onLane_cycle (w : Wave) (l : Nat) (f : Lane → Lane) : (w.onLane l f).cycle = w.cycle := rfl
@[simp] theorem Wave.onLane_next (w : Wave) (l : Nat) (f : Lane → Lane) : (w.onLane l f).next = w.next := rfl
@[simp] theorem Wave.onLane_issued (w : Wave) (l : Nat) (f : Lane → Lane) : (w.onLane l f).issued = w.issued := rfl
@[simp] theorem Wave.onLane_active (w : Wave) (l : Nat) (f : Lane → Lane) : (w.onLane l f).active = w.active := rfl
@[simp] theorem Wave.onLane_since (w : Wave) (l : Nat) (f : Lane → Lane) : (w.onLane l f).since = w.since := rfl
@[simp] theorem Wave.onLane_age (w : Wave) (l : Nat) (f : Lane → Lane) : (w.onLane l f).age = w.age := rfl
@[simp] theorem Wave.onLane_turnAt (w : Wave) (l : Nat) (f : Lane → Lane) : (w.onLane l f).turnAt = w.turnAt := rfl
@[simp] theorem Wave.onLane_conflict (w : Wave) (l : Nat) (f : Lane → Lane) : (w.onLane l f).conflict = w.conflict := rfl
@[simp] theorem Wave.onLane_fenced (w : Wave) (l : Nat) (f : Lane → Lane) : (w.onLane l f).fenced = w.fenced := rfl
@[simp] theorem Wave.onLane_stepped (w : Wave) (l : Nat) (f : Lane → Lane) : (w.onLane l f).stepped = w.stepped := rfl
@[simp] theorem Wave.onLane_skip (w : Wave) (l : Nat) (f : Lane → Lane) : (w.onLane l f).skip = w.skip := rfl
@[simp] theorem Wave.onLane_mesh (w : Wave) (l : Nat) (f : Lane → Lane) : (w.onLane l f).mesh = w.mesh := rfl
@[simp] theorem Wave.onLane_mxStamp (w : Wave) (l : Nat) (f : Lane → Lane) : (w.onLane l f).mxStamp = w.mxStamp := rfl
@[simp] theorem Wave.onLane_emitted (w : Wave) (l : Nat) (f : Lane → Lane) : (w.onLane l f).emitted = w.emitted := rfl
@[simp] theorem Wave.onLane_hostErr (w : Wave) (l : Nat) (f : Lane → Lane) : (w.onLane l f).hostErr = w.hostErr := rfl

/-! ### Wave.onLanes -/

@[simp] theorem Wave.onLanes_gang (w : Wave) (ls : List Nat) (f : Nat → Lane → Lane) : (w.onLanes ls f).gang = w.gang := rfl
@[simp] theorem Wave.onLanes_idx (w : Wave) (ls : List Nat) (f : Nat → Lane → Lane) : (w.onLanes ls f).idx = w.idx := rfl
@[simp] theorem Wave.onLanes_ctx (w : Wave) (ls : List Nat) (f : Nat → Lane → Lane) : (w.onLanes ls f).ctx = w.ctx := rfl
@[simp] theorem Wave.onLanes_n (w : Wave) (ls : List Nat) (f : Nat → Lane → Lane) : (w.onLanes ls f).n = w.n := rfl
@[simp] theorem Wave.onLanes_k (w : Wave) (ls : List Nat) (f : Nat → Lane → Lane) : (w.onLanes ls f).k = w.k := rfl
@[simp] theorem Wave.onLanes_flags (w : Wave) (ls : List Nat) (f : Nat → Lane → Lane) : (w.onLanes ls f).flags = w.flags := rfl
@[simp] theorem Wave.onLanes_domains (w : Wave) (ls : List Nat) (f : Nat → Lane → Lane) : (w.onLanes ls f).domains = w.domains := rfl
@[simp] theorem Wave.onLanes_flagsWas (w : Wave) (ls : List Nat) (f : Nat → Lane → Lane) : (w.onLanes ls f).flagsWas = w.flagsWas := rfl
@[simp] theorem Wave.onLanes_rstateWas (w : Wave) (ls : List Nat) (f : Nat → Lane → Lane) : (w.onLanes ls f).rstateWas = w.rstateWas := rfl
@[simp] theorem Wave.onLanes_ops (w : Wave) (ls : List Nat) (f : Nat → Lane → Lane) : (w.onLanes ls f).ops = w.ops := rfl
@[simp] theorem Wave.onLanes_carried (w : Wave) (ls : List Nat) (f : Nat → Lane → Lane) : (w.onLanes ls f).carried = w.carried := rfl
@[simp] theorem Wave.onLanes_asyncs (w : Wave) (ls : List Nat) (f : Nat → Lane → Lane) : (w.onLanes ls f).asyncs = w.asyncs := rfl
@[simp] theorem Wave.onLanes_rstate (w : Wave) (ls : List Nat) (f : Nat → Lane → Lane) : (w.onLanes ls f).rstate = w.rstate := rfl
@[simp] theorem Wave.onLanes_trapMode (w : Wave) (ls : List Nat) (f : Nat → Lane → Lane) : (w.onLanes ls f).trapMode = w.trapMode := rfl
@[simp] theorem Wave.onLanes_dbgHalt (w : Wave) (ls : List Nat) (f : Nat → Lane → Lane) : (w.onLanes ls f).dbgHalt = w.dbgHalt := rfl
@[simp] theorem Wave.onLanes_fltPend (w : Wave) (ls : List Nat) (f : Nat → Lane → Lane) : (w.onLanes ls f).fltPend = w.fltPend := rfl
@[simp] theorem Wave.onLanes_deadline (w : Wave) (ls : List Nat) (f : Nat → Lane → Lane) : (w.onLanes ls f).deadline = w.deadline := rfl
@[simp] theorem Wave.onLanes_spawned (w : Wave) (ls : List Nat) (f : Nat → Lane → Lane) : (w.onLanes ls f).spawned = w.spawned := rfl
@[simp] theorem Wave.onLanes_wait (w : Wave) (ls : List Nat) (f : Nat → Lane → Lane) : (w.onLanes ls f).wait = w.wait := rfl
@[simp] theorem Wave.onLanes_words (w : Wave) (ls : List Nat) (f : Nat → Lane → Lane) : (w.onLanes ls f).words = w.words := rfl
@[simp] theorem Wave.onLanes_cycle (w : Wave) (ls : List Nat) (f : Nat → Lane → Lane) : (w.onLanes ls f).cycle = w.cycle := rfl
@[simp] theorem Wave.onLanes_next (w : Wave) (ls : List Nat) (f : Nat → Lane → Lane) : (w.onLanes ls f).next = w.next := rfl
@[simp] theorem Wave.onLanes_issued (w : Wave) (ls : List Nat) (f : Nat → Lane → Lane) : (w.onLanes ls f).issued = w.issued := rfl
@[simp] theorem Wave.onLanes_active (w : Wave) (ls : List Nat) (f : Nat → Lane → Lane) : (w.onLanes ls f).active = w.active := rfl
@[simp] theorem Wave.onLanes_since (w : Wave) (ls : List Nat) (f : Nat → Lane → Lane) : (w.onLanes ls f).since = w.since := rfl
@[simp] theorem Wave.onLanes_age (w : Wave) (ls : List Nat) (f : Nat → Lane → Lane) : (w.onLanes ls f).age = w.age := rfl
@[simp] theorem Wave.onLanes_turnAt (w : Wave) (ls : List Nat) (f : Nat → Lane → Lane) : (w.onLanes ls f).turnAt = w.turnAt := rfl
@[simp] theorem Wave.onLanes_conflict (w : Wave) (ls : List Nat) (f : Nat → Lane → Lane) : (w.onLanes ls f).conflict = w.conflict := rfl
@[simp] theorem Wave.onLanes_fenced (w : Wave) (ls : List Nat) (f : Nat → Lane → Lane) : (w.onLanes ls f).fenced = w.fenced := rfl
@[simp] theorem Wave.onLanes_stepped (w : Wave) (ls : List Nat) (f : Nat → Lane → Lane) : (w.onLanes ls f).stepped = w.stepped := rfl
@[simp] theorem Wave.onLanes_skip (w : Wave) (ls : List Nat) (f : Nat → Lane → Lane) : (w.onLanes ls f).skip = w.skip := rfl
@[simp] theorem Wave.onLanes_mesh (w : Wave) (ls : List Nat) (f : Nat → Lane → Lane) : (w.onLanes ls f).mesh = w.mesh := rfl
@[simp] theorem Wave.onLanes_mxStamp (w : Wave) (ls : List Nat) (f : Nat → Lane → Lane) : (w.onLanes ls f).mxStamp = w.mxStamp := rfl
@[simp] theorem Wave.onLanes_emitted (w : Wave) (ls : List Nat) (f : Nat → Lane → Lane) : (w.onLanes ls f).emitted = w.emitted := rfl
@[simp] theorem Wave.onLanes_hostErr (w : Wave) (ls : List Nat) (f : Nat → Lane → Lane) : (w.onLanes ls f).hostErr = w.hostErr := rfl

/-! ### Wave.setK -/

@[simp] theorem Wave.setK_gang (w : Wave) (due : Due) (r v : Nat) : (w.setK due r v).gang = w.gang := rfl
@[simp] theorem Wave.setK_idx (w : Wave) (due : Due) (r v : Nat) : (w.setK due r v).idx = w.idx := rfl
@[simp] theorem Wave.setK_ctx (w : Wave) (due : Due) (r v : Nat) : (w.setK due r v).ctx = w.ctx := rfl
@[simp] theorem Wave.setK_n (w : Wave) (due : Due) (r v : Nat) : (w.setK due r v).n = w.n := rfl
@[simp] theorem Wave.setK_lanes (w : Wave) (due : Due) (r v : Nat) : (w.setK due r v).lanes = w.lanes := rfl
@[simp] theorem Wave.setK_flags (w : Wave) (due : Due) (r v : Nat) : (w.setK due r v).flags = w.flags := rfl
@[simp] theorem Wave.setK_domains (w : Wave) (due : Due) (r v : Nat) : (w.setK due r v).domains = w.domains := rfl
@[simp] theorem Wave.setK_flagsWas (w : Wave) (due : Due) (r v : Nat) : (w.setK due r v).flagsWas = w.flagsWas := rfl
@[simp] theorem Wave.setK_rstateWas (w : Wave) (due : Due) (r v : Nat) : (w.setK due r v).rstateWas = w.rstateWas := rfl
@[simp] theorem Wave.setK_ops (w : Wave) (due : Due) (r v : Nat) : (w.setK due r v).ops = w.ops := rfl
@[simp] theorem Wave.setK_carried (w : Wave) (due : Due) (r v : Nat) : (w.setK due r v).carried = w.carried := rfl
@[simp] theorem Wave.setK_asyncs (w : Wave) (due : Due) (r v : Nat) : (w.setK due r v).asyncs = w.asyncs := rfl
@[simp] theorem Wave.setK_rstate (w : Wave) (due : Due) (r v : Nat) : (w.setK due r v).rstate = w.rstate := rfl
@[simp] theorem Wave.setK_trapMode (w : Wave) (due : Due) (r v : Nat) : (w.setK due r v).trapMode = w.trapMode := rfl
@[simp] theorem Wave.setK_dbgHalt (w : Wave) (due : Due) (r v : Nat) : (w.setK due r v).dbgHalt = w.dbgHalt := rfl
@[simp] theorem Wave.setK_fltPend (w : Wave) (due : Due) (r v : Nat) : (w.setK due r v).fltPend = w.fltPend := rfl
@[simp] theorem Wave.setK_deadline (w : Wave) (due : Due) (r v : Nat) : (w.setK due r v).deadline = w.deadline := rfl
@[simp] theorem Wave.setK_spawned (w : Wave) (due : Due) (r v : Nat) : (w.setK due r v).spawned = w.spawned := rfl
@[simp] theorem Wave.setK_wait (w : Wave) (due : Due) (r v : Nat) : (w.setK due r v).wait = w.wait := rfl
@[simp] theorem Wave.setK_words (w : Wave) (due : Due) (r v : Nat) : (w.setK due r v).words = w.words := rfl
@[simp] theorem Wave.setK_cycle (w : Wave) (due : Due) (r v : Nat) : (w.setK due r v).cycle = w.cycle := rfl
@[simp] theorem Wave.setK_next (w : Wave) (due : Due) (r v : Nat) : (w.setK due r v).next = w.next := rfl
@[simp] theorem Wave.setK_issued (w : Wave) (due : Due) (r v : Nat) : (w.setK due r v).issued = w.issued := rfl
@[simp] theorem Wave.setK_active (w : Wave) (due : Due) (r v : Nat) : (w.setK due r v).active = w.active := rfl
@[simp] theorem Wave.setK_since (w : Wave) (due : Due) (r v : Nat) : (w.setK due r v).since = w.since := rfl
@[simp] theorem Wave.setK_age (w : Wave) (due : Due) (r v : Nat) : (w.setK due r v).age = w.age := rfl
@[simp] theorem Wave.setK_turnAt (w : Wave) (due : Due) (r v : Nat) : (w.setK due r v).turnAt = w.turnAt := rfl
@[simp] theorem Wave.setK_conflict (w : Wave) (due : Due) (r v : Nat) : (w.setK due r v).conflict = w.conflict := rfl
@[simp] theorem Wave.setK_fenced (w : Wave) (due : Due) (r v : Nat) : (w.setK due r v).fenced = w.fenced := rfl
@[simp] theorem Wave.setK_stepped (w : Wave) (due : Due) (r v : Nat) : (w.setK due r v).stepped = w.stepped := rfl
@[simp] theorem Wave.setK_skip (w : Wave) (due : Due) (r v : Nat) : (w.setK due r v).skip = w.skip := rfl
@[simp] theorem Wave.setK_mesh (w : Wave) (due : Due) (r v : Nat) : (w.setK due r v).mesh = w.mesh := rfl
@[simp] theorem Wave.setK_mxStamp (w : Wave) (due : Due) (r v : Nat) : (w.setK due r v).mxStamp = w.mxStamp := rfl
@[simp] theorem Wave.setK_emitted (w : Wave) (due : Due) (r v : Nat) : (w.setK due r v).emitted = w.emitted := rfl
@[simp] theorem Wave.setK_hostErr (w : Wave) (due : Due) (r v : Nat) : (w.setK due r v).hostErr = w.hostErr := rfl

/-! ### Wave.setFlags -/

@[simp] theorem Wave.setFlags_gang (w : Wave) (f : Flg) (dom : Nat) : (w.setFlags f dom).gang = w.gang := rfl
@[simp] theorem Wave.setFlags_idx (w : Wave) (f : Flg) (dom : Nat) : (w.setFlags f dom).idx = w.idx := rfl
@[simp] theorem Wave.setFlags_ctx (w : Wave) (f : Flg) (dom : Nat) : (w.setFlags f dom).ctx = w.ctx := rfl
@[simp] theorem Wave.setFlags_n (w : Wave) (f : Flg) (dom : Nat) : (w.setFlags f dom).n = w.n := rfl
@[simp] theorem Wave.setFlags_lanes (w : Wave) (f : Flg) (dom : Nat) : (w.setFlags f dom).lanes = w.lanes := rfl
@[simp] theorem Wave.setFlags_k (w : Wave) (f : Flg) (dom : Nat) : (w.setFlags f dom).k = w.k := rfl
@[simp] theorem Wave.setFlags_flagsWas (w : Wave) (f : Flg) (dom : Nat) : (w.setFlags f dom).flagsWas = w.flagsWas := rfl
@[simp] theorem Wave.setFlags_rstateWas (w : Wave) (f : Flg) (dom : Nat) : (w.setFlags f dom).rstateWas = w.rstateWas := rfl
@[simp] theorem Wave.setFlags_ops (w : Wave) (f : Flg) (dom : Nat) : (w.setFlags f dom).ops = w.ops := rfl
@[simp] theorem Wave.setFlags_carried (w : Wave) (f : Flg) (dom : Nat) : (w.setFlags f dom).carried = w.carried := rfl
@[simp] theorem Wave.setFlags_asyncs (w : Wave) (f : Flg) (dom : Nat) : (w.setFlags f dom).asyncs = w.asyncs := rfl
@[simp] theorem Wave.setFlags_rstate (w : Wave) (f : Flg) (dom : Nat) : (w.setFlags f dom).rstate = w.rstate := rfl
@[simp] theorem Wave.setFlags_trapMode (w : Wave) (f : Flg) (dom : Nat) : (w.setFlags f dom).trapMode = w.trapMode := rfl
@[simp] theorem Wave.setFlags_dbgHalt (w : Wave) (f : Flg) (dom : Nat) : (w.setFlags f dom).dbgHalt = w.dbgHalt := rfl
@[simp] theorem Wave.setFlags_fltPend (w : Wave) (f : Flg) (dom : Nat) : (w.setFlags f dom).fltPend = w.fltPend := rfl
@[simp] theorem Wave.setFlags_deadline (w : Wave) (f : Flg) (dom : Nat) : (w.setFlags f dom).deadline = w.deadline := rfl
@[simp] theorem Wave.setFlags_spawned (w : Wave) (f : Flg) (dom : Nat) : (w.setFlags f dom).spawned = w.spawned := rfl
@[simp] theorem Wave.setFlags_wait (w : Wave) (f : Flg) (dom : Nat) : (w.setFlags f dom).wait = w.wait := rfl
@[simp] theorem Wave.setFlags_words (w : Wave) (f : Flg) (dom : Nat) : (w.setFlags f dom).words = w.words := rfl
@[simp] theorem Wave.setFlags_cycle (w : Wave) (f : Flg) (dom : Nat) : (w.setFlags f dom).cycle = w.cycle := rfl
@[simp] theorem Wave.setFlags_next (w : Wave) (f : Flg) (dom : Nat) : (w.setFlags f dom).next = w.next := rfl
@[simp] theorem Wave.setFlags_issued (w : Wave) (f : Flg) (dom : Nat) : (w.setFlags f dom).issued = w.issued := rfl
@[simp] theorem Wave.setFlags_active (w : Wave) (f : Flg) (dom : Nat) : (w.setFlags f dom).active = w.active := rfl
@[simp] theorem Wave.setFlags_since (w : Wave) (f : Flg) (dom : Nat) : (w.setFlags f dom).since = w.since := rfl
@[simp] theorem Wave.setFlags_age (w : Wave) (f : Flg) (dom : Nat) : (w.setFlags f dom).age = w.age := rfl
@[simp] theorem Wave.setFlags_turnAt (w : Wave) (f : Flg) (dom : Nat) : (w.setFlags f dom).turnAt = w.turnAt := rfl
@[simp] theorem Wave.setFlags_conflict (w : Wave) (f : Flg) (dom : Nat) : (w.setFlags f dom).conflict = w.conflict := rfl
@[simp] theorem Wave.setFlags_fenced (w : Wave) (f : Flg) (dom : Nat) : (w.setFlags f dom).fenced = w.fenced := rfl
@[simp] theorem Wave.setFlags_stepped (w : Wave) (f : Flg) (dom : Nat) : (w.setFlags f dom).stepped = w.stepped := rfl
@[simp] theorem Wave.setFlags_skip (w : Wave) (f : Flg) (dom : Nat) : (w.setFlags f dom).skip = w.skip := rfl
@[simp] theorem Wave.setFlags_mesh (w : Wave) (f : Flg) (dom : Nat) : (w.setFlags f dom).mesh = w.mesh := rfl
@[simp] theorem Wave.setFlags_mxStamp (w : Wave) (f : Flg) (dom : Nat) : (w.setFlags f dom).mxStamp = w.mxStamp := rfl
@[simp] theorem Wave.setFlags_emitted (w : Wave) (f : Flg) (dom : Nat) : (w.setFlags f dom).emitted = w.emitted := rfl
@[simp] theorem Wave.setFlags_hostErr (w : Wave) (f : Flg) (dom : Nat) : (w.setFlags f dom).hostErr = w.hostErr := rfl

/-! ### Wave.writeFlags -/

@[simp] theorem Wave.writeFlags_gang (w : Wave) (v : BitVec 8) : (w.writeFlags v).gang = w.gang := rfl
@[simp] theorem Wave.writeFlags_idx (w : Wave) (v : BitVec 8) : (w.writeFlags v).idx = w.idx := rfl
@[simp] theorem Wave.writeFlags_ctx (w : Wave) (v : BitVec 8) : (w.writeFlags v).ctx = w.ctx := rfl
@[simp] theorem Wave.writeFlags_n (w : Wave) (v : BitVec 8) : (w.writeFlags v).n = w.n := rfl
@[simp] theorem Wave.writeFlags_lanes (w : Wave) (v : BitVec 8) : (w.writeFlags v).lanes = w.lanes := rfl
@[simp] theorem Wave.writeFlags_k (w : Wave) (v : BitVec 8) : (w.writeFlags v).k = w.k := rfl
@[simp] theorem Wave.writeFlags_flagsWas (w : Wave) (v : BitVec 8) : (w.writeFlags v).flagsWas = w.flagsWas := rfl
@[simp] theorem Wave.writeFlags_rstateWas (w : Wave) (v : BitVec 8) : (w.writeFlags v).rstateWas = w.rstateWas := rfl
@[simp] theorem Wave.writeFlags_ops (w : Wave) (v : BitVec 8) : (w.writeFlags v).ops = w.ops := rfl
@[simp] theorem Wave.writeFlags_carried (w : Wave) (v : BitVec 8) : (w.writeFlags v).carried = w.carried := rfl
@[simp] theorem Wave.writeFlags_asyncs (w : Wave) (v : BitVec 8) : (w.writeFlags v).asyncs = w.asyncs := rfl
@[simp] theorem Wave.writeFlags_rstate (w : Wave) (v : BitVec 8) : (w.writeFlags v).rstate = w.rstate := rfl
@[simp] theorem Wave.writeFlags_trapMode (w : Wave) (v : BitVec 8) : (w.writeFlags v).trapMode = w.trapMode := rfl
@[simp] theorem Wave.writeFlags_dbgHalt (w : Wave) (v : BitVec 8) : (w.writeFlags v).dbgHalt = w.dbgHalt := rfl
@[simp] theorem Wave.writeFlags_fltPend (w : Wave) (v : BitVec 8) : (w.writeFlags v).fltPend = w.fltPend := rfl
@[simp] theorem Wave.writeFlags_deadline (w : Wave) (v : BitVec 8) : (w.writeFlags v).deadline = w.deadline := rfl
@[simp] theorem Wave.writeFlags_spawned (w : Wave) (v : BitVec 8) : (w.writeFlags v).spawned = w.spawned := rfl
@[simp] theorem Wave.writeFlags_wait (w : Wave) (v : BitVec 8) : (w.writeFlags v).wait = w.wait := rfl
@[simp] theorem Wave.writeFlags_words (w : Wave) (v : BitVec 8) : (w.writeFlags v).words = w.words := rfl
@[simp] theorem Wave.writeFlags_cycle (w : Wave) (v : BitVec 8) : (w.writeFlags v).cycle = w.cycle := rfl
@[simp] theorem Wave.writeFlags_next (w : Wave) (v : BitVec 8) : (w.writeFlags v).next = w.next := rfl
@[simp] theorem Wave.writeFlags_issued (w : Wave) (v : BitVec 8) : (w.writeFlags v).issued = w.issued := rfl
@[simp] theorem Wave.writeFlags_active (w : Wave) (v : BitVec 8) : (w.writeFlags v).active = w.active := rfl
@[simp] theorem Wave.writeFlags_since (w : Wave) (v : BitVec 8) : (w.writeFlags v).since = w.since := rfl
@[simp] theorem Wave.writeFlags_age (w : Wave) (v : BitVec 8) : (w.writeFlags v).age = w.age := rfl
@[simp] theorem Wave.writeFlags_turnAt (w : Wave) (v : BitVec 8) : (w.writeFlags v).turnAt = w.turnAt := rfl
@[simp] theorem Wave.writeFlags_conflict (w : Wave) (v : BitVec 8) : (w.writeFlags v).conflict = w.conflict := rfl
@[simp] theorem Wave.writeFlags_fenced (w : Wave) (v : BitVec 8) : (w.writeFlags v).fenced = w.fenced := rfl
@[simp] theorem Wave.writeFlags_stepped (w : Wave) (v : BitVec 8) : (w.writeFlags v).stepped = w.stepped := rfl
@[simp] theorem Wave.writeFlags_skip (w : Wave) (v : BitVec 8) : (w.writeFlags v).skip = w.skip := rfl
@[simp] theorem Wave.writeFlags_mesh (w : Wave) (v : BitVec 8) : (w.writeFlags v).mesh = w.mesh := rfl
@[simp] theorem Wave.writeFlags_mxStamp (w : Wave) (v : BitVec 8) : (w.writeFlags v).mxStamp = w.mxStamp := rfl
@[simp] theorem Wave.writeFlags_emitted (w : Wave) (v : BitVec 8) : (w.writeFlags v).emitted = w.emitted := rfl
@[simp] theorem Wave.writeFlags_hostErr (w : Wave) (v : BitVec 8) : (w.writeFlags v).hostErr = w.hostErr := rfl

/-! ### Wave.unpark -/

@[simp] theorem Wave.unpark_gang (w : Wave)  : (w.unpark).gang = w.gang := by unfold Wave.unpark; split <;> rfl
@[simp] theorem Wave.unpark_idx (w : Wave)  : (w.unpark).idx = w.idx := by unfold Wave.unpark; split <;> rfl
@[simp] theorem Wave.unpark_ctx (w : Wave)  : (w.unpark).ctx = w.ctx := by unfold Wave.unpark; split <;> rfl
@[simp] theorem Wave.unpark_n (w : Wave)  : (w.unpark).n = w.n := by unfold Wave.unpark; split <;> rfl
@[simp] theorem Wave.unpark_k (w : Wave)  : (w.unpark).k = w.k := by unfold Wave.unpark; split <;> rfl
@[simp] theorem Wave.unpark_flags (w : Wave)  : (w.unpark).flags = w.flags := by unfold Wave.unpark; split <;> rfl
@[simp] theorem Wave.unpark_domains (w : Wave)  : (w.unpark).domains = w.domains := by unfold Wave.unpark; split <;> rfl
@[simp] theorem Wave.unpark_flagsWas (w : Wave)  : (w.unpark).flagsWas = w.flagsWas := by unfold Wave.unpark; split <;> rfl
@[simp] theorem Wave.unpark_rstateWas (w : Wave)  : (w.unpark).rstateWas = w.rstateWas := by unfold Wave.unpark; split <;> rfl
@[simp] theorem Wave.unpark_ops (w : Wave)  : (w.unpark).ops = w.ops := by unfold Wave.unpark; split <;> rfl
@[simp] theorem Wave.unpark_carried (w : Wave)  : (w.unpark).carried = w.carried := by unfold Wave.unpark; split <;> rfl
@[simp] theorem Wave.unpark_asyncs (w : Wave)  : (w.unpark).asyncs = w.asyncs := by unfold Wave.unpark; split <;> rfl
@[simp] theorem Wave.unpark_rstate (w : Wave)  : (w.unpark).rstate = w.rstate := by unfold Wave.unpark; split <;> rfl
@[simp] theorem Wave.unpark_trapMode (w : Wave)  : (w.unpark).trapMode = w.trapMode := by unfold Wave.unpark; split <;> rfl
@[simp] theorem Wave.unpark_dbgHalt (w : Wave)  : (w.unpark).dbgHalt = w.dbgHalt := by unfold Wave.unpark; split <;> rfl
@[simp] theorem Wave.unpark_fltPend (w : Wave)  : (w.unpark).fltPend = w.fltPend := by unfold Wave.unpark; split <;> rfl
@[simp] theorem Wave.unpark_deadline (w : Wave)  : (w.unpark).deadline = w.deadline := by unfold Wave.unpark; split <;> rfl
@[simp] theorem Wave.unpark_spawned (w : Wave)  : (w.unpark).spawned = w.spawned := by unfold Wave.unpark; split <;> rfl
@[simp] theorem Wave.unpark_wait (w : Wave)  : (w.unpark).wait = w.wait := by unfold Wave.unpark; split <;> rfl
@[simp] theorem Wave.unpark_words (w : Wave)  : (w.unpark).words = w.words := by unfold Wave.unpark; split <;> rfl
@[simp] theorem Wave.unpark_cycle (w : Wave)  : (w.unpark).cycle = w.cycle := by unfold Wave.unpark; split <;> rfl
@[simp] theorem Wave.unpark_next (w : Wave)  : (w.unpark).next = w.next := by unfold Wave.unpark; split <;> rfl
@[simp] theorem Wave.unpark_issued (w : Wave)  : (w.unpark).issued = w.issued := by unfold Wave.unpark; split <;> rfl
@[simp] theorem Wave.unpark_active (w : Wave)  : (w.unpark).active = w.active := by unfold Wave.unpark; split <;> rfl
@[simp] theorem Wave.unpark_since (w : Wave)  : (w.unpark).since = w.since := by unfold Wave.unpark; split <;> rfl
@[simp] theorem Wave.unpark_age (w : Wave)  : (w.unpark).age = w.age := by unfold Wave.unpark; split <;> rfl
@[simp] theorem Wave.unpark_turnAt (w : Wave)  : (w.unpark).turnAt = w.turnAt := by unfold Wave.unpark; split <;> rfl
@[simp] theorem Wave.unpark_conflict (w : Wave)  : (w.unpark).conflict = w.conflict := by unfold Wave.unpark; split <;> rfl
@[simp] theorem Wave.unpark_fenced (w : Wave)  : (w.unpark).fenced = w.fenced := by unfold Wave.unpark; split <;> rfl
@[simp] theorem Wave.unpark_stepped (w : Wave)  : (w.unpark).stepped = w.stepped := by unfold Wave.unpark; split <;> rfl
@[simp] theorem Wave.unpark_skip (w : Wave)  : (w.unpark).skip = w.skip := by unfold Wave.unpark; split <;> rfl
@[simp] theorem Wave.unpark_mesh (w : Wave)  : (w.unpark).mesh = w.mesh := by unfold Wave.unpark; split <;> rfl
@[simp] theorem Wave.unpark_mxStamp (w : Wave)  : (w.unpark).mxStamp = w.mxStamp := by unfold Wave.unpark; split <;> rfl
@[simp] theorem Wave.unpark_emitted (w : Wave)  : (w.unpark).emitted = w.emitted := by unfold Wave.unpark; split <;> rfl
@[simp] theorem Wave.unpark_hostErr (w : Wave)  : (w.unpark).hostErr = w.hostErr := by unfold Wave.unpark; split <;> rfl

/-! ### Wave.resumeAt -/

@[simp] theorem Wave.resumeAt_gang (w : Wave) (adv : Nat) : (w.resumeAt adv).gang = w.gang := by unfold Wave.resumeAt; split <;> rfl
@[simp] theorem Wave.resumeAt_idx (w : Wave) (adv : Nat) : (w.resumeAt adv).idx = w.idx := by unfold Wave.resumeAt; split <;> rfl
@[simp] theorem Wave.resumeAt_ctx (w : Wave) (adv : Nat) : (w.resumeAt adv).ctx = w.ctx := by unfold Wave.resumeAt; split <;> rfl
@[simp] theorem Wave.resumeAt_n (w : Wave) (adv : Nat) : (w.resumeAt adv).n = w.n := by unfold Wave.resumeAt; split <;> rfl
@[simp] theorem Wave.resumeAt_k (w : Wave) (adv : Nat) : (w.resumeAt adv).k = w.k := by unfold Wave.resumeAt; split <;> rfl
@[simp] theorem Wave.resumeAt_flags (w : Wave) (adv : Nat) : (w.resumeAt adv).flags = w.flags := by unfold Wave.resumeAt; split <;> rfl
@[simp] theorem Wave.resumeAt_domains (w : Wave) (adv : Nat) : (w.resumeAt adv).domains = w.domains := by unfold Wave.resumeAt; split <;> rfl
@[simp] theorem Wave.resumeAt_flagsWas (w : Wave) (adv : Nat) : (w.resumeAt adv).flagsWas = w.flagsWas := by unfold Wave.resumeAt; split <;> rfl
@[simp] theorem Wave.resumeAt_rstateWas (w : Wave) (adv : Nat) : (w.resumeAt adv).rstateWas = w.rstateWas := by unfold Wave.resumeAt; split <;> rfl
@[simp] theorem Wave.resumeAt_ops (w : Wave) (adv : Nat) : (w.resumeAt adv).ops = w.ops := by unfold Wave.resumeAt; split <;> rfl
@[simp] theorem Wave.resumeAt_carried (w : Wave) (adv : Nat) : (w.resumeAt adv).carried = w.carried := by unfold Wave.resumeAt; split <;> rfl
@[simp] theorem Wave.resumeAt_asyncs (w : Wave) (adv : Nat) : (w.resumeAt adv).asyncs = w.asyncs := by unfold Wave.resumeAt; split <;> rfl
@[simp] theorem Wave.resumeAt_rstate (w : Wave) (adv : Nat) : (w.resumeAt adv).rstate = w.rstate := by unfold Wave.resumeAt; split <;> rfl
@[simp] theorem Wave.resumeAt_trapMode (w : Wave) (adv : Nat) : (w.resumeAt adv).trapMode = w.trapMode := by unfold Wave.resumeAt; split <;> rfl
@[simp] theorem Wave.resumeAt_dbgHalt (w : Wave) (adv : Nat) : (w.resumeAt adv).dbgHalt = w.dbgHalt := by unfold Wave.resumeAt; split <;> rfl
@[simp] theorem Wave.resumeAt_fltPend (w : Wave) (adv : Nat) : (w.resumeAt adv).fltPend = w.fltPend := by unfold Wave.resumeAt; split <;> rfl
@[simp] theorem Wave.resumeAt_deadline (w : Wave) (adv : Nat) : (w.resumeAt adv).deadline = w.deadline := by unfold Wave.resumeAt; split <;> rfl
@[simp] theorem Wave.resumeAt_spawned (w : Wave) (adv : Nat) : (w.resumeAt adv).spawned = w.spawned := by unfold Wave.resumeAt; split <;> rfl
@[simp] theorem Wave.resumeAt_wait (w : Wave) (adv : Nat) : (w.resumeAt adv).wait = w.wait := by unfold Wave.resumeAt; split <;> rfl
@[simp] theorem Wave.resumeAt_words (w : Wave) (adv : Nat) : (w.resumeAt adv).words = w.words := by unfold Wave.resumeAt; split <;> rfl
@[simp] theorem Wave.resumeAt_cycle (w : Wave) (adv : Nat) : (w.resumeAt adv).cycle = w.cycle := by unfold Wave.resumeAt; split <;> rfl
@[simp] theorem Wave.resumeAt_next (w : Wave) (adv : Nat) : (w.resumeAt adv).next = w.next := by unfold Wave.resumeAt; split <;> rfl
@[simp] theorem Wave.resumeAt_issued (w : Wave) (adv : Nat) : (w.resumeAt adv).issued = w.issued := by unfold Wave.resumeAt; split <;> rfl
@[simp] theorem Wave.resumeAt_active (w : Wave) (adv : Nat) : (w.resumeAt adv).active = w.active := by unfold Wave.resumeAt; split <;> rfl
@[simp] theorem Wave.resumeAt_since (w : Wave) (adv : Nat) : (w.resumeAt adv).since = w.since := by unfold Wave.resumeAt; split <;> rfl
@[simp] theorem Wave.resumeAt_age (w : Wave) (adv : Nat) : (w.resumeAt adv).age = w.age := by unfold Wave.resumeAt; split <;> rfl
@[simp] theorem Wave.resumeAt_turnAt (w : Wave) (adv : Nat) : (w.resumeAt adv).turnAt = w.turnAt := by unfold Wave.resumeAt; split <;> rfl
@[simp] theorem Wave.resumeAt_conflict (w : Wave) (adv : Nat) : (w.resumeAt adv).conflict = w.conflict := by unfold Wave.resumeAt; split <;> rfl
@[simp] theorem Wave.resumeAt_fenced (w : Wave) (adv : Nat) : (w.resumeAt adv).fenced = w.fenced := by unfold Wave.resumeAt; split <;> rfl
@[simp] theorem Wave.resumeAt_stepped (w : Wave) (adv : Nat) : (w.resumeAt adv).stepped = w.stepped := by unfold Wave.resumeAt; split <;> rfl
@[simp] theorem Wave.resumeAt_skip (w : Wave) (adv : Nat) : (w.resumeAt adv).skip = w.skip := by unfold Wave.resumeAt; split <;> rfl
@[simp] theorem Wave.resumeAt_mesh (w : Wave) (adv : Nat) : (w.resumeAt adv).mesh = w.mesh := by unfold Wave.resumeAt; split <;> rfl
@[simp] theorem Wave.resumeAt_mxStamp (w : Wave) (adv : Nat) : (w.resumeAt adv).mxStamp = w.mxStamp := by unfold Wave.resumeAt; split <;> rfl
@[simp] theorem Wave.resumeAt_emitted (w : Wave) (adv : Nat) : (w.resumeAt adv).emitted = w.emitted := by unfold Wave.resumeAt; split <;> rfl
@[simp] theorem Wave.resumeAt_hostErr (w : Wave) (adv : Nat) : (w.resumeAt adv).hostErr = w.hostErr := by unfold Wave.resumeAt; split <;> rfl

end Sys2Proof.Machine
end

