-- ==== Sys2Proof/Laws/Store.lean ====
section
/-!
SUPPORT. The laws of keyed lists and of sparse arrays: what a write changes, what a read finds after it, and that every
operation of memory keeps the canonical form.
-/
namespace Sys2Proof.Machine

/-! ### Keyed lists -/

@[simp] theorem find?_put_same {α : Type} (m : List (Nat × α)) (i : Nat) (v : α) : find? (put m i v) i = some v := by
  induction m with
  | nil => simp [put, find?]
  | cons x m ih => obtain ⟨k, w⟩ := x; by_cases h : i = k <;> simp [put, find?, h, ih]

theorem find?_put_other {α : Type} (m : List (Nat × α)) {i j : Nat} (v : α) (h : j ≠ i) :
    find? (put m i v) j = find? m j := by
  induction m with
  | nil => simp [put, find?, h]
  | cons x m ih =>
    obtain ⟨k, w⟩ := x
    by_cases hk : i = k
    · subst hk; simp [put, find?, h]
    · simp [put, find?, hk, ih]

/-- What a keyed list answers stands in it. -/
theorem find?_mem {α : Type} : ∀ {m : List (Nat × α)} {i : Nat} {v : α}, find? m i = some v → (i, v) ∈ m
  | [], _, _, h => by cases h
  | (k, w) :: m, i, v, h => by
    rw [find?] at h
    split at h
    · next e => cases h; simp [e]
    · exact List.mem_cons_of_mem _ (find?_mem h)

@[simp] theorem State.wave?_setWave_same (s : State) (k : Nat) (v : Wave) : (s.setWave k v).wave? k = some v :=
  find?_put_same _ _ _

theorem State.wave?_setWave_other (s : State) {k j : Nat} (v : Wave) (h : j ≠ k) : (s.setWave k v).wave? j = s.wave? j :=
  find?_put_other _ _ h

@[simp] theorem State.gang?_setGang_same (s : State) (k : Nat) (v : Gang) : (s.setGang k v).gang? k = some v :=
  find?_put_same _ _ _

theorem State.gang?_setGang_other (s : State) {k j : Nat} (v : Gang) (h : j ≠ k) : (s.setGang k v).gang? j = s.gang? j :=
  find?_put_other _ _ h

/-! ### Sparse arrays -/

section Sparse

variable {α : Type} [DecidableEq α] {d : α}

omit [DecidableEq α] in
/-- An entry of a sparse array is a listed one or the default. -/
theorem Sparse.get_or : ∀ (m : Sparse α) (i : Nat), Sparse.get d m i = d ∨ ∃ k, (k, Sparse.get d m i) ∈ m
  | [], _ => .inl rfl
  | (k, v) :: m, i => by
    rw [Sparse.get]
    split
    · exact .inr ⟨k, List.mem_cons_self⟩
    · split
      · exact .inl rfl
      · exact (Sparse.get_or m i).imp_right fun ⟨k, h⟩ => ⟨k, List.mem_cons_of_mem _ h⟩

theorem Sparse.wfFrom_cons {lo k : Nat} {v : α} {m : Sparse α} :
    Sparse.wfFrom d lo ((k, v) :: m) = true ↔ lo ≤ k ∧ v ≠ d ∧ Sparse.wfFrom d (k + 1) m = true := by
  simp [Sparse.wfFrom, and_assoc]

theorem Sparse.wfFrom_mono {lo hi : Nat} (h : lo ≤ hi) : ∀ {m : Sparse α}, Sparse.wfFrom d hi m = true → Sparse.wfFrom d lo m = true
  | [], _ => rfl
  | (k, v) :: m, hm => by
    rw [Sparse.wfFrom_cons] at hm ⊢
    exact ⟨Nat.le_trans h hm.1, hm.2⟩

theorem Sparse.wfFrom_consEntry {lo i : Nat} {v : α} {m : Sparse α} (hi : lo ≤ i) (hm : Sparse.wfFrom d (i + 1) m = true) :
    Sparse.wfFrom d lo (Sparse.cons d i v m) = true := by
  unfold Sparse.cons
  split
  · exact Sparse.wfFrom_mono (by omega) hm
  · exact Sparse.wfFrom_cons.2 ⟨hi, ‹_›, hm⟩

theorem Sparse.wfFrom_set {i : Nat} {v : α} : ∀ {m : Sparse α} {lo : Nat}, lo ≤ i → Sparse.wfFrom d lo m = true →
    Sparse.wfFrom d lo (Sparse.set d m i v) = true
  | [], _, hi, _ => by simpa [Sparse.set] using Sparse.wfFrom_consEntry hi rfl
  | (k, w) :: m, lo, hi, hm => by
    rw [Sparse.wfFrom_cons] at hm
    unfold Sparse.set
    split
    · subst_vars; exact Sparse.wfFrom_consEntry hi hm.2.2
    · split
      · exact Sparse.wfFrom_consEntry hi (Sparse.wfFrom_cons.2 ⟨by omega, hm.2.1, hm.2.2⟩)
      · exact Sparse.wfFrom_cons.2 ⟨hm.1, hm.2.1, Sparse.wfFrom_set (by omega) hm.2.2⟩

/-- A write of one entry keeps the canonical form. -/
theorem Sparse.wf_set {m : Sparse α} (i : Nat) (v : α) (h : Sparse.wf d m = true) : Sparse.wf d (Sparse.set d m i v) = true :=
  Sparse.wfFrom_set (Nat.zero_le i) h

theorem Sparse.get_below {i : Nat} : ∀ {m : Sparse α} {lo : Nat}, i < lo → Sparse.wfFrom d lo m = true → Sparse.get d m i = d
  | [], _, _, _ => rfl
  | (k, v) :: m, lo, h, hm => by
    rw [Sparse.wfFrom_cons] at hm
    have hk : i < k := by omega
    simp [Sparse.get, hk, Nat.ne_of_lt hk]

theorem Sparse.get_consEntry {i : Nat} {v : α} {m : Sparse α} (hm : Sparse.wfFrom d (i + 1) m = true) (j : Nat) :
    Sparse.get d (Sparse.cons d i v m) j = if j = i then v else if j < i then d else Sparse.get d m j := by
  unfold Sparse.cons
  split
  · subst_vars
    split
    · exact Sparse.get_below (by omega) hm
    · split
      · exact Sparse.get_below (by omega) hm
      · rfl
  · rfl

theorem Sparse.get_set_from {i : Nat} {v : α} : ∀ {m : Sparse α} {lo : Nat}, Sparse.wfFrom d lo m = true → ∀ j,
    Sparse.get d (Sparse.set d m i v) j = if j = i then v else Sparse.get d m j
  | [], _, _, j => by
    rw [show Sparse.set d [] i v = Sparse.cons d i v [] from rfl, Sparse.get_consEntry rfl]
    by_cases h1 : j = i
    · simp [h1]
    · simp [h1, Sparse.get]
  | (k, w) :: m, lo, hm, j => by
    have hm' := Sparse.wfFrom_cons.1 hm
    by_cases h1 : i = k
    · subst h1
      rw [show Sparse.set d ((i, w) :: m) i v = Sparse.cons d i v m by simp [Sparse.set],
        Sparse.get_consEntry hm'.2.2]
      by_cases h2 : j = i
      · simp [h2]
      · simp [h2, Sparse.get]
    · by_cases h2 : i < k
      · rw [show Sparse.set d ((k, w) :: m) i v = Sparse.cons d i v ((k, w) :: m) by simp [Sparse.set, h1, h2],
          Sparse.get_consEntry (Sparse.wfFrom_cons.2 ⟨by omega, hm'.2.1, hm'.2.2⟩)]
        by_cases h3 : j = i
        · simp [h3]
        · by_cases h4 : j < i
          · have : j < k := by omega
            simp [h3, h4, Sparse.get, this, Nat.ne_of_lt this]
          · simp [h3, h4]
      · rw [show Sparse.set d ((k, w) :: m) i v = (k, w) :: Sparse.set d m i v by simp [Sparse.set, h1, h2]]
        by_cases h3 : j = k
        · simp [Sparse.get, h3, Ne.symm h1]
        · by_cases h4 : j < k
          · simp [Sparse.get, h3, h4, show j ≠ i by omega]
          · simp [Sparse.get, h3, h4, Sparse.get_set_from hm'.2.2 j]

/-- A read after a write of one entry: the value written there, every other entry as it was. -/
theorem Sparse.get_set {m : Sparse α} (h : Sparse.wf d m = true) (i j : Nat) (v : α) :
    Sparse.get d (Sparse.set d m i v) j = if j = i then v else Sparse.get d m j :=
  Sparse.get_set_from h j

theorem Sparse.wfFrom_filter {p : Nat × α → Bool} : ∀ {m : Sparse α} {lo : Nat}, Sparse.wfFrom d lo m = true →
    Sparse.wfFrom d lo (m.filter p) = true
  | [], _, _ => rfl
  | (k, v) :: m, lo, hm => by
    have hm' := Sparse.wfFrom_cons.1 hm
    by_cases hp : p (k, v) = true
    · rw [List.filter_cons_of_pos hp]
      exact Sparse.wfFrom_cons.2 ⟨hm'.1, hm'.2.1, Sparse.wfFrom_filter hm'.2.2⟩
    · rw [List.filter_cons_of_neg hp]
      exact Sparse.wfFrom_filter (Sparse.wfFrom_mono (by omega) hm'.2.2)

theorem Sparse.wfFrom_from {a : Nat} : ∀ {m : Sparse α} {lo : Nat}, Sparse.wfFrom d lo m = true →
    Sparse.wfFrom d (max lo a) (m.from_ a) = true
  | [], _, _ => rfl
  | (k, v) :: m, lo, hm => by
    have hm' := Sparse.wfFrom_cons.1 hm
    by_cases hk : k < a
    · rw [show Sparse.from_ ((k, v) :: m) a = Sparse.from_ m a by simp [Sparse.from_, hk]]
      exact Sparse.wfFrom_mono (by omega) (Sparse.wfFrom_from (a := a) hm'.2.2)
    · rw [show Sparse.from_ ((k, v) :: m) a = (k, v) :: m by simp [Sparse.from_, hk]]
      exact Sparse.wfFrom_cons.2 ⟨by omega, hm'.2.1, hm'.2.2⟩

/-- Entries below an address followed by entries from it on. -/
theorem Sparse.wfFrom_upTo_append {a : Nat} {r : Sparse α} (hr : Sparse.wfFrom d a r = true) :
    ∀ {m : Sparse α} {lo : Nat}, lo ≤ a → Sparse.wfFrom d lo m = true → Sparse.wfFrom d lo (m.upTo a ++ r) = true
  | [], _, h, _ => Sparse.wfFrom_mono h hr
  | (k, v) :: m, lo, h, hm => by
    have hm' := Sparse.wfFrom_cons.1 hm
    by_cases hk : k < a
    · rw [show Sparse.upTo ((k, v) :: m) a ++ r = (k, v) :: (Sparse.upTo m a ++ r) by simp [Sparse.upTo, hk]]
      exact Sparse.wfFrom_cons.2 ⟨hm'.1, hm'.2.1, Sparse.wfFrom_upTo_append hr (by omega) hm'.2.2⟩
    · rw [show Sparse.upTo ((k, v) :: m) a ++ r = r by simp [Sparse.upTo, hk]]
      exact Sparse.wfFrom_mono h hr

theorem Sparse.get_upTo_append {a : Nat} {r : Sparse α} (hr : Sparse.wfFrom d a r = true) (j : Nat) :
    ∀ {m : Sparse α} {lo : Nat}, Sparse.wfFrom d lo m = true →
    Sparse.get d (m.upTo a ++ r) j = if j < a then Sparse.get d m j else Sparse.get d r j
  | [], _, _ => by
    by_cases h : j < a
    · simp [Sparse.upTo, h, Sparse.get, Sparse.get_below h hr]
    · simp [Sparse.upTo, h]
  | (k, v) :: m, lo, hm => by
    have hm' := Sparse.wfFrom_cons.1 hm
    by_cases hk : k < a
    · rw [show Sparse.upTo ((k, v) :: m) a ++ r = (k, v) :: (Sparse.upTo m a ++ r) by simp [Sparse.upTo, hk]]
      have ih := Sparse.get_upTo_append hr j hm'.2.2
      by_cases h1 : j = k
      · simp [Sparse.get, h1, hk]
      · by_cases h2 : j < k
        · simp [Sparse.get, h1, h2, show j < a by omega]
        · simp [Sparse.get, h1, h2, ih]
    · rw [show Sparse.upTo ((k, v) :: m) a ++ r = r by simp [Sparse.upTo, hk]]
      by_cases h : j < a
      · simp [h, Sparse.get_below h hr, Sparse.get, show j ≠ k by omega, show j < k by omega]
      · simp [h]

theorem Sparse.get_from {a j : Nat} (h : a ≤ j) : ∀ {m : Sparse α} {lo : Nat}, Sparse.wfFrom d lo m = true →
    Sparse.get d (m.from_ a) j = Sparse.get d m j
  | [], _, _ => rfl
  | (k, v) :: m, lo, hm => by
    have hm' := Sparse.wfFrom_cons.1 hm
    by_cases hk : k < a
    · rw [show Sparse.from_ ((k, v) :: m) a = Sparse.from_ m a by simp [Sparse.from_, hk], Sparse.get_from h hm'.2.2]
      simp [Sparse.get, show j ≠ k by omega, show ¬ j < k by omega]
    · rw [show Sparse.from_ ((k, v) :: m) a = (k, v) :: m by simp [Sparse.from_, hk]]

end Sparse

/-! ### Bytes -/

theorem entriesOf_cons (a : Nat) (b : Byte) (bs : List Byte) :
    entriesOf a (b :: bs) = if b = 0 then entriesOf (a + 1) bs else (a, b) :: entriesOf (a + 1) bs := rfl

theorem entriesOf_wf : ∀ (bs : List Byte) (a : Nat) {r : Sparse Byte}, Sparse.wfFrom 0 (a + bs.length) r = true →
    Sparse.wfFrom 0 a (entriesOf a bs ++ r) = true
  | [], a, r, hr => by simpa [entriesOf] using hr
  | b :: bs, a, r, hr => by
    have ih := entriesOf_wf bs (a + 1) (r := r) (by rwa [show a + 1 + bs.length = a + (b :: bs).length by simp; omega])
    rw [entriesOf_cons]
    split
    · exact Sparse.wfFrom_mono (by omega) ih
    · exact Sparse.wfFrom_cons.2 ⟨Nat.le_refl a, ‹_›, ih⟩

theorem get_entriesOf : ∀ (bs : List Byte) (a : Nat) {r : Sparse Byte}, Sparse.wfFrom 0 (a + bs.length) r = true → ∀ j, a ≤ j →
    Sparse.get 0 (entriesOf a bs ++ r) j = if j < a + bs.length then bs.getD (j - a) 0 else Sparse.get 0 r j
  | [], a, r, _, j, h => by simp [entriesOf, Nat.not_lt.2 h]
  | b :: bs, a, r, hr, j, h => by
    have hr' : Sparse.wfFrom 0 (a + 1 + bs.length) r = true := by
      rwa [show a + 1 + bs.length = a + (b :: bs).length by simp; omega]
    have ih := get_entriesOf bs (a + 1) hr'
    have hw := entriesOf_wf bs (a + 1) hr'
    have hl : a + (b :: bs).length = a + 1 + bs.length := by simp; omega
    rw [hl]
    by_cases hj : j = a
    · subst hj
      rw [if_pos (show j < j + 1 + bs.length by omega)]
      rw [entriesOf_cons]
      split
      · rename_i hb
        rw [Sparse.get_below (Nat.lt_succ_self j) hw]
        simp [hb]
      · simp [Sparse.get]
    · have hge : a + 1 ≤ j := by omega
      have hg : (b :: bs).getD (j - a) 0 = bs.getD (j - (a + 1)) 0 := by
        rw [show j - a = (j - (a + 1)) + 1 by omega]; rfl
      rw [hg, ← ih j hge]
      rw [entriesOf_cons]
      split
      · rfl
      · simp [Sparse.get, hj, show ¬ j < a by omega]

/-- A write of bytes keeps the canonical form. -/
theorem writeBytes_wf {m : Sparse Byte} (a : Nat) (bs : List Byte) (h : Memory.wf m = true) :
    Memory.wf (writeBytes m a bs) = true := by
  unfold writeBytes Memory.wf Sparse.wf
  rw [List.append_assoc]
  exact Sparse.wfFrom_upTo_append
    (entriesOf_wf bs a (Sparse.wfFrom_mono (Nat.le_max_right _ _) (Sparse.wfFrom_from h))) (Nat.zero_le a) h

/-- A read after a write of bytes: the bytes written in their range, every other byte as it was. -/
theorem get_writeBytes {m : Sparse Byte} (h : Memory.wf m = true) (a : Nat) (bs : List Byte) (j : Nat) :
    Sparse.get 0 (writeBytes m a bs) j
      = if a ≤ j ∧ j < a + bs.length then bs.getD (j - a) 0 else Sparse.get 0 m j := by
  have hr : Sparse.wfFrom 0 (a + bs.length) (m.from_ (a + bs.length)) = true :=
    Sparse.wfFrom_mono (Nat.le_max_right _ _) (Sparse.wfFrom_from h)
  unfold writeBytes
  rw [List.append_assoc, Sparse.get_upTo_append (entriesOf_wf bs a hr) j h]
  by_cases h1 : j < a
  · simp [h1, show ¬ a ≤ j by omega]
  · rw [if_neg h1, get_entriesOf bs a hr j (by omega)]
    by_cases h2 : j < a + bs.length
    · simp [h2, show a ≤ j by omega]
    · rw [if_neg h2, if_neg (by omega), Sparse.get_from (by omega) h]

theorem readOn_get : ∀ (n : Nat) (a : Nat) {m : Sparse Byte}, Sparse.wfFrom 0 a m = true →
    readOn n a m = (List.range n).map fun i => Sparse.get 0 m (a + i)
  | 0, _, _, _ => rfl
  | n + 1, a, [], _ => by
    rw [readOn, readOn_get n (a + 1) (m := []) rfl, List.range_succ_eq_map]
    simp [Sparse.get, Function.comp_def]
  | n + 1, a, (k, v) :: m, hm => by
    have hm' := Sparse.wfFrom_cons.1 hm
    rw [List.range_succ_eq_map, List.map_cons, List.map_map]
    unfold readOn
    split
    · rename_i hk
      subst hk
      rw [readOn_get n (k + 1) hm'.2.2]
      congr 1
      · simp [Sparse.get]
      · refine List.map_congr_left fun i _ => ?_
        simp [Sparse.get, show ¬ k + (i + 1) < k by omega, Nat.add_assoc, Nat.add_comm 1 i]
    · rename_i hk
      have hw : Sparse.wfFrom 0 (a + 1) ((k, v) :: m) = true := Sparse.wfFrom_cons.2 ⟨by omega, hm'.2.1, hm'.2.2⟩
      rw [readOn_get n (a + 1) hw]
      congr 1
      · simp [Sparse.get, show a ≠ k by omega, show a < k by omega]
      · refine List.map_congr_left fun i _ => ?_
        simp [Nat.add_assoc, Nat.add_comm 1 i]

/-- What a read of bytes finds. -/
theorem readBytes_get {m : Sparse Byte} (h : Memory.wf m = true) (a n : Nat) :
    readBytes m a n = (List.range n).map fun i => Sparse.get 0 m (a + i) := by
  unfold readBytes
  rw [readOn_get n a (Sparse.wfFrom_mono (Nat.le_max_right _ _) (Sparse.wfFrom_from h))]
  exact List.map_congr_left fun i _ => Sparse.get_from (by omega) h

/-- A range set to 0 keeps the canonical form. -/
theorem zeroRange_wf {m : Sparse Byte} (a n : Nat) (h : Memory.wf m = true) : Memory.wf (zeroRange m a n) = true :=
  Sparse.wfFrom_filter h

/-! ### Physical memory -/



/-- Two states have the same bytes of nominal and of host memory. -/
def SameBytes (s t : State) : Prop := t.mem.cells = s.mem.cells ∧ t.mem.host = s.mem.host

theorem SameBytes.rfl' (s : State) : SameBytes s s := ⟨rfl, rfl⟩
theorem SameBytes.trans {s t u : State} (h : SameBytes s t) (g : SameBytes t u) : SameBytes s u :=
  ⟨g.1.trans h.1, g.2.trans h.2⟩

/-- Equal bytes are canonical together. -/
theorem SameBytes.canonical {s t : State} (h : SameBytes s t) (c : s.mem.canonical) : t.mem.canonical := by
  unfold Mem.canonical at c ⊢
  rw [h.1, h.2]; exact c

/-- Steps that change no byte change none together. -/
theorem SameBytes.foldl {β : Type} {f : State → β → State} (h : ∀ s b, SameBytes s (f s b)) (l : List β) (s : State) :
    SameBytes s (l.foldl f s) := by
  induction l generalizing s with
  | nil => exact .rfl' s
  | cons b l ih => exact (h s b).trans (ih (f s b))

theorem State.setRun_bytes (s : State) (b : Nat) (v : BlockMeta) : SameBytes s (s.setRun b v) := ⟨rfl, rfl⟩

theorem State.fixBlock_bytes (s : State) (b : Nat) (comp : Option Bool) : SameBytes s (s.fixBlock b comp) := by
  unfold State.fixBlock
  dsimp only
  split <;> exact ⟨rfl, rfl⟩

theorem State.closeEntry_bytes (s : State) (e : WcbEntry) (full : Bool) : SameBytes s (s.closeEntry e full) := by
  unfold State.closeEntry
  dsimp only
  split
  · exact SameBytes.trans ⟨rfl, rfl⟩ (State.fixBlock_bytes _ _ _)
  · exact ⟨rfl, rfl⟩

theorem State.closeBlock_bytes (s : State) (b : Nat) : SameBytes s (s.closeBlock b) := by
  unfold State.closeBlock
  split
  · exact State.closeEntry_bytes _ _ _
  · exact .rfl' s

theorem State.reachBlock_bytes (s : State) (b : Nat) : SameBytes s (s.reachBlock b) :=
  (State.closeBlock_bytes s b).trans ⟨rfl, rfl⟩

theorem State.combine_bytes (s : State) (b mk : Nat) (ch : Bool) (comp : Option Bool) : SameBytes s (s.combine b mk ch comp) := by
  have h1 := fun (s : State) (e : WcbEntry) (f : Bool) => (State.closeEntry_bytes s e f).1
  have h2 := fun (s : State) (e : WcbEntry) (f : Bool) => (State.closeEntry_bytes s e f).2
  unfold State.combine SameBytes
  dsimp only
  repeat' split
  all_goals first | exact ⟨rfl, rfl⟩ | simp only [h1, h2, Mem.touch, Mem.setBlock, and_self]

theorem State.dropLines_mem (s : State) (bs : List Nat) : (s.dropLines bs).mem = s.mem := by
  unfold State.dropLines
  split
  · rename_i h
    clear h
    unfold State.eachCore
    generalize s.cores = l
    induction l generalizing s with
    | nil => rfl
    | cons x l ih => rw [List.foldl_cons, ih]; rfl
  · rfl

theorem State.putParts_canonical (s : State) (ps : List WritePart) (h : s.mem.canonical) : (s.putParts ps).mem.canonical := by
  unfold State.putParts Mem.canonical
  dsimp only
  generalize s.mem = m at h
  induction ps generalizing m with
  | nil => exact h
  | cons p ps ih =>
    rw [List.foldl_cons]
    apply ih
    split
    · exact ⟨writeBytes_wf _ _ h.1, h.2⟩
    · exact ⟨h.1, writeBytes_wf _ _ h.2⟩

/-- A write outside checking keeps the canonical form. -/
theorem State.writeFree_canonical (s : State) (ps : List WritePart) (h : s.mem.canonical) : (s.writeFree ps).mem.canonical := by
  unfold State.writeFree
  refine (SameBytes.foldl (fun t b => State.combine_bytes t b _ _ _) _ _).canonical ?_
  rw [State.dropLines_mem]
  exact State.putParts_canonical s ps h

/-- An atomic at its slice keeps the canonical form. -/
theorem State.writeAtomic_canonical (s : State) (ps : List WritePart) (h : s.mem.canonical) : (s.writeAtomic ps).mem.canonical := by
  unfold State.writeAtomic
  refine (SameBytes.foldl (fun t b => ?_) _ _).canonical ?_
  · split
    · exact .rfl' t
    · exact State.fixBlock_bytes _ _ _
  · rw [State.dropLines_mem]
    exact State.putParts_canonical _ ps ((SameBytes.foldl State.reachBlock_bytes _ s).canonical h)

/-- A write of one range keeps the canonical form. -/
theorem State.writePhys_canonical (s : State) (pa : Nat) (data : List Byte) (comp : Option Bool) (h : s.mem.canonical) :
    (s.writePhys pa data comp).mem.canonical := State.writeFree_canonical s _ h

/-- An image of the device keeps the canonical form. -/
theorem State.writeImage_canonical (s : State) (pa n : Nat) (parts : List (Nat × List Byte)) (h : s.mem.canonical) :
    (s.writeImage pa n parts).mem.canonical := by
  unfold State.writeImage
  refine (SameBytes.foldl (fun t b => State.combine_bytes t b _ _ _) _ _).canonical ?_
  rw [State.dropLines_mem]
  refine ⟨?_, h.2⟩
  have h0 : ∀ (l : List (Nat × List Byte)) (m : Sparse Byte), Memory.wf m = true →
      Memory.wf (l.foldl (fun m x => writeBytes m (pa + x.1) x.2) m) = true := by
    intro l
    induction l with
    | nil => exact fun m h => h
    | cons x l ih => exact fun m h => ih _ (writeBytes_wf _ _ h)
  exact h0 parts _ (zeroRange_wf pa n h.1)

/-- A read changes no byte. -/
theorem State.readPhys_bytes (s : State) (pa n : Nat) (hits : List Nat) : SameBytes s (s.readPhys pa n hits).2 := by
  unfold State.readPhys
  split
  · exact SameBytes.foldl State.reachBlock_bytes _ s
  · exact .rfl' s

/-- A checked write is tried on canonical memory and leaves it so. -/
theorem State.tryChecked_canonical (s : State) (ps : List WritePart) (h : s.mem.canonical) :
    (s.tryChecked ps).2.mem.canonical := by
  unfold State.tryChecked
  have h2 : ((s.putParts ps).dropLines (partBlocks ps)).mem.canonical := by
    rw [State.dropLines_mem]; exact State.putParts_canonical _ ps h
  dsimp only
  revert h2
  generalize (s.putParts ps).dropLines (partBlocks ps) = u
  intro h2
  suffices ∀ (bs : List Nat) (a : Nat × State), SameBytes a.2 (bs.foldl (fun (g, s2) b =>
        let s2 : State := { s2 with mem := s2.mem.touch b }
        let same := (blockCells s.mem.cells b == blockCells u.mem.cells b)
        if same then (g, s2)
        else
          let v := s2.newMeta b (s2.compOf b (partComp s.mem.cells ps b))
          (g + (v.size - (s2.mem.block b).size), State.setRun { s2 with mem := s2.mem.unwait b } b v)) a).2 from
    (this _ _).canonical h2
  intro bs
  induction bs with
  | nil => exact fun a => .rfl' _
  | cons b bs ih =>
    intro a
    rw [List.foldl_cons]
    refine SameBytes.trans ?_ (ih _)
    dsimp only
    split <;> exact ⟨rfl, rfl⟩

/-- Closing entries changes no byte. -/
theorem State.closeParts_bytes (s : State) (ps : List WritePart) : SameBytes s (s.closeParts ps) :=
  SameBytes.foldl State.closeBlock_bytes _ s

/-- The writes of an instruction keep the canonical form, checked or not, atomic or not. -/
theorem State.writeParts_canonical (s t : State) (checked atomic : Bool) (ps : List WritePart) (h : s.mem.canonical)
    (ht : s.writeParts checked atomic ps = some t) : t.mem.canonical := by
  unfold State.writeParts at ht
  split at ht
  · dsimp only at ht
    split at ht
    · cases ht; exact State.tryChecked_canonical _ ps ((State.closeParts_bytes s ps).canonical h)
    · cases ht
  · cases ht
    split
    · exact State.writeAtomic_canonical s ps h
    · exact State.writeFree_canonical s ps h

end Sys2Proof.Machine
end

