-- ==== Sys2Proof/Laws/Issue.lean ====
section
/-!
SUPPORT. The issue of an instruction: when it runs its effect, and what the shared steps of an effect do to the wave.
-/
namespace Sys2Proof.Machine

theorem Issues.view {r : Row} {v : View} {s : State} {i : Iss} (h : Issues r v s i) :
    i.s = s ∧ i.key = s.cur ∧ i.v = v ∧ i.row = r := by
  have := h.at_issue
  unfold State.iss at this
  split at this
  · cases this
  · cases this; exact ⟨rfl, rfl, rfl, rfl⟩

/-- The wave at issue is the resident wave with its released lanes, its issue address and its lanes there. -/
theorem Issues.wave {r : Row} {v : View} {s : State} {i : Iss} (h : Issues r v s i) :
    ∃ w0, s.wave? s.cur = some w0 ∧ i.w = w0.unpark ∧ i.pc = i.w.issuePc.getD retiredPc
      ∧ i.at_ = i.w.liveLanes.filter (fun l => (i.w.lane l).pc = i.pc)
      ∧ i.ex = i.at_.filter (i.w.passes v.ctl.guard) := by
  have := h.at_issue
  unfold State.iss at this
  split at this
  · cases this
  · rename_i w0 hw; cases this; exact ⟨w0, hw, rfl, rfl, rfl, rfl⟩

theorem Issues.baseCz {r : Row} {v : View} {s : State} {i : Iss} (h : Issues r v s i) : i.baseCz = [] := by
  obtain ⟨hs, -, hv, hr⟩ := h.view
  have h1 : i.namedCz = [] := by
    unfold Iss.namedCz
    rw [hv, hr, if_pos h.named]
  have h3 : i.staleCz i.stale = [] := by
    unfold Iss.staleCz
    rw [hs]
    cases hc : (s.core i.core).checkEn
    · rfl
    · simp [h.arrived hc]
  simp [Iss.baseCz, h1, h3, h.quiet, h.sound]

/-- An instruction that issues and raises nothing has its effect. -/
theorem issue_next {r : Row} {v : View} {s : State} {i : Iss} {causes : Iss → List Cz} {effect : Iss → State}
    (h : Issues r v s i) (hc : causes i = []) : issue r v s causes effect = .next (effect i) := by
  unfold issue
  rw [h.at_issue]
  simp [h.tokens, h.baseCz, h.unheld, hc, lowestCz]

/-- An instruction that issues and raises causes raises the lowest of them (R242). -/
theorem issue_raise {r : Row} {v : View} {s : State} {i : Iss} {causes : Iss → List Cz} {effect : Iss → State} {c : Cz}
    (h : Issues r v s i) (hc : lowestCz (causes i) = some c) : issue r v s causes effect = .next (i.fail c) := by
  unfold issue
  rw [h.at_issue]
  simp [h.tokens, h.baseCz, h.unheld, hc]

/-! ### Lanes -/

theorem at?_of_lt {α : Type} {d : α} {l : List α} {j : Nat} (h : j < l.length) : at? d l j = l[j] := by
  simp [at?, h]

theorem at?_of_ge {α : Type} {d : α} {l : List α} {j : Nat} (h : l.length ≤ j) : at? d l j = d := by
  simp [at?, h]

/-- A lane of a wave whose lanes are mapped with their numbers. -/
theorem at?_mapIdx (f : Lane × Nat → Lane) (ls : List Lane) (j : Nat) :
    at? Lane.empty (ls.zipIdx.map f) j = if j < ls.length then f (at? Lane.empty ls j, j) else Lane.empty := by
  by_cases h : j < ls.length
  · rw [if_pos h, at?_of_lt h, at?_of_lt (by simpa using h)]; simp
  · rw [if_neg h, at?_of_ge (by simpa using Nat.le_of_not_lt h)]

theorem Wave.lane_of_ge {w : Wave} {j : Nat} (h : w.lanes.length ≤ j) : w.lane j = Lane.empty := at?_of_ge h

theorem Lane.empty_not_live : Lane.empty.live = false := by decide

theorem Wave.lt_of_live {w : Wave} {j : Nat} (h : j ∈ w.liveLanes) : j < w.lanes.length := by
  rcases Nat.lt_or_ge j w.lanes.length with hj | hj
  · exact hj
  · have := (List.mem_filter.1 h).2
    rw [Wave.lane_of_ge hj, Lane.empty_not_live] at this
    cases this

theorem Issues.lt_of_at {r : Row} {v : View} {s : State} {i : Iss} (h : Issues r v s i) {j : Nat} (hj : j ∈ i.at_) :
    j < i.w.lanes.length := by
  obtain ⟨_, _, _, _, hat, _⟩ := h.wave
  rw [hat] at hj
  exact Wave.lt_of_live (List.mem_filter.1 hj).1

theorem Issues.at_of_ex {r : Row} {v : View} {s : State} {i : Iss} (h : Issues r v s i) {j : Nat} (hj : j ∈ i.ex) :
    j ∈ i.at_ := by
  obtain ⟨_, _, _, _, _, hex⟩ := h.wave
  rw [hex] at hj
  exact (List.mem_filter.1 hj).1

/-! ### Commit -/

/-- The wave that commit leaves. -/
def Iss.committed (i : Iss) (w : Wave) (adv : List Nat) : Wave :=
  { w.delay i.conflict with
    lanes := (w.delay i.conflict).lanes.zipIdx.map fun (l, j) =>
      let l := if l.parked.isSome then { l with parked := some true } else l
      if adv.contains j then { l with pc := i.nextPc } else l
    next := w.cycle + max 1 i.v.ctl.stl.toNat + i.conflict
    issued := w.issued + 1
    stepped := true
    skip := false
    fenced := false
    wait := match w.wait with | .fault _ | .ahead .. | .faultSpace .. | .space _ => .none | x => x }

theorem State.wave?_perf (s : State) (core ctx event n k : Nat) : (s.perf core ctx event n).wave? k = s.wave? k := by
  unfold State.wave?; rw [State.perf_waves]

theorem Wave.delay_same (d : Nat) (w : Wave) : w.delay d = { w with
    lanes := (w.delay d).lanes, k := (w.delay d).k, flagsWas := (w.delay d).flagsWas, rstateWas := (w.delay d).rstateWas } := by
  unfold Wave.delay; split <;> rfl

theorem Wave.delay_kVals (d : Nat) (w : Wave) : (w.delay d).kVals = w.kVals := by
  unfold Wave.delay Wave.kVals; split
  · rfl
  · simp [List.map_map, Function.comp_def, KCell.delay]

/-- R327: a delay changes no value. -/
theorem Lane.delay_keeps (now d : Nat) (l : Lane) : LaneKeeps l (l.delay now d) ∧ (l.delay now d).pc = l.pc := by
  refine ⟨⟨?_, ?_, ?_, rfl, rfl⟩, rfl⟩ <;>
    simp [Lane.shelfVals, Lane.namedVals, Lane.predVals, Lane.delay, List.map_map, Function.comp_def, Cell.delay, PCell.delay]

theorem Wave.delay_length (d : Nat) (w : Wave) : (w.delay d).lanes.length = w.lanes.length := by
  unfold Wave.delay; split <;> simp

theorem Wave.delay_lane (d : Nat) (w : Wave) (j : Nat) : LaneKeeps (w.lane j) ((w.delay d).lane j) ∧ ((w.delay d).lane j).pc = (w.lane j).pc := by
  unfold Wave.delay
  split
  · exact ⟨⟨rfl, rfl, rfl, rfl, rfl⟩, rfl⟩
  · unfold Wave.lane
    dsimp only
    rcases Nat.lt_or_ge j w.lanes.length with h | h
    · rw [at?_of_lt h, at?_of_lt (by simpa using h)]; simpa using Lane.delay_keeps _ _ _
    · rw [at?_of_ge h, at?_of_ge (by simpa using h)]; exact ⟨⟨rfl, rfl, rfl, rfl, rfl⟩, rfl⟩

theorem LaneKeeps.trans {a b c : Lane} (h : LaneKeeps a b) (g : LaneKeeps b c) : LaneKeeps a c :=
  ⟨g.shelf.trans h.shelf, g.named.trans h.named, g.preds.trans h.preds, g.ret.trans h.ret, g.task.trans h.task⟩

@[simp] theorem Iss.commit_wave (i : Iss) (s : State) (w : Wave) (adv : List Nat) :
    (i.commit s w adv).wave? i.key = some (i.committed w adv) := by
  unfold Iss.commit Iss.counted
  simp only [State.wave?_perf, State.wave?_setWave_same]
  rfl

theorem Iss.commit_wave_other (i : Iss) (s : State) (w : Wave) (adv : List Nat) {k : Nat} (h : k ≠ i.key) :
    (i.commit s w adv).wave? k = s.wave? k := by
  unfold Iss.commit Iss.counted
  simp only [State.wave?_perf, State.wave?_setWave_other _ _ h]

theorem Iss.committed_lane (i : Iss) (w : Wave) (adv : List Nat) (j : Nat) :
    LaneKeeps (w.lane j) ((i.committed w adv).lane j)
      ∧ ((i.committed w adv).lane j).pc = if j < w.lanes.length ∧ j ∈ adv then i.nextPc else (w.lane j).pc := by
  obtain ⟨k, p⟩ := w.delay_lane i.conflict j
  have step : LaneKeeps ((w.delay i.conflict).lane j) ((i.committed w adv).lane j)
      ∧ ((i.committed w adv).lane j).pc = if j < w.lanes.length ∧ j ∈ adv then i.nextPc else ((w.delay i.conflict).lane j).pc := by
    unfold Wave.lane Iss.committed
    rw [at?_mapIdx, Wave.delay_length]
    by_cases h : j < w.lanes.length
    · simp only [h, if_true, true_and, List.contains_iff_mem]
      by_cases h2 : j ∈ adv
      · simp only [h2, if_true]; split <;> exact ⟨⟨rfl, rfl, rfl, rfl, rfl⟩, trivial⟩
      · simp only [h2, if_false]; split <;> exact ⟨⟨rfl, rfl, rfl, rfl, rfl⟩, rfl⟩
    · simp only [h, if_false, false_and]
      rw [at?_of_ge (by rw [Wave.delay_length]; exact Nat.le_of_not_lt h)]
      exact ⟨⟨rfl, rfl, rfl, rfl, rfl⟩, rfl⟩
  exact ⟨k.trans step.1, by rw [step.2, p]⟩

/-- R438: performance counters alone change. -/
theorem State.core_perf {s : State} (h : Sparse.wf Core.reset s.cores = true) (core ctx event n c : Nat) :
    Core.SameButPerf (s.core c) ((s.perf core ctx event n).core c) := by
  unfold State.perf
  dsimp only
  split
  · rfl
  · unfold State.core State.setCore
    dsimp only
    rw [Sparse.get_set h]
    split
    · subst_vars; rfl
    · rfl

theorem State.wf_perf {s : State} (h : Sparse.wf Core.reset s.cores = true) (core ctx event n : Nat) :
    Sparse.wf Core.reset (s.perf core ctx event n).cores = true := by
  unfold State.perf
  dsimp only
  split
  · exact h
  · exact Sparse.wf_set _ _ h

theorem Core.SameButPerf.trans {a b c : Core} (h : Core.SameButPerf a b) (g : Core.SameButPerf b c) : Core.SameButPerf a c := by
  unfold Core.SameButPerf at *
  rw [g, h]

/-- Commit on the state at issue changes the wave and performance counters alone. -/
theorem Iss.commit_local (i : Iss) (w : Wave) (adv : List Nat) (h : Sparse.wf Core.reset i.s.cores = true) :
    i.Local (i.commit i.s w adv) := by
  refine ⟨?_, ?_, fun c => ?_, fun k hk => i.commit_wave_other _ _ _ hk⟩
  · have : ∀ a b : State, a.dev = b.dev → a.mem = b.mem → a.bln = b.bln → a.fab = b.fab → a.host = b.host → a.obsis = b.obsis →
        a.ctxs = b.ctxs → a.sched = b.sched → a.ctq = b.ctq → a.xlt = b.xlt → a.fes = b.fes → a.batches = b.batches →
        a.wstore = b.wstore → a.storeFlaws = b.storeFlaws → a.cur = b.cur → a.turns = b.turns → a.clocks = b.clocks → a.rotated = b.rotated → a.freeCtr = b.freeCtr → SameOutside a b := by
      intro a b; intros; cases a; cases b; unfold SameOutside; simp_all
    apply this <;> simp [Iss.commit, Iss.counted]
  · simp [Iss.commit, Iss.counted]
  · unfold Iss.commit Iss.counted
    refine ((State.core_perf (s := i.s.setWave _ _) h _ _ _ _ c).trans
      (State.core_perf (State.wf_perf (s := i.s.setWave _ _) h _ _ _ _) _ _ _ _ c)).trans (State.core_perf ?_ _ _ _ _ c)
    exact State.wf_perf (State.wf_perf (s := i.s.setWave _ _) h _ _ _ _) _ _ _ _

end Sys2Proof.Machine
end

