-- ==== Sys2Proof/Laws/Alu.lean ====
section
/-!
SUPPORT. Instructions with register operands: they run, what each lane gets, and what stays.
-/
namespace Sys2Proof.Machine

/-! ### Results of a lane -/

theorem map_val_setAt (f : Cell → W32) (cs : List Cell) (r : Nat) (c : Cell) :
    (setAt cs r c).map f = setAt (cs.map f) r (f c) := by
  induction cs generalizing r with
  | nil => rfl
  | cons x cs ih => cases r <;> simp [setAt, ih]

theorem map_kval_setAt (cs : List KCell) (r : Nat) (c : KCell) :
    (setAt cs r c).map (·.val) = setAt (cs.map (·.val)) r c.val := by
  induction cs generalizing r with
  | nil => rfl
  | cons x cs ih => cases r <;> simp [setAt, ih]

theorem Wave.overCell_val (w : Wave) (due : Due) (c : Cell) (v : W32) : (w.overCell due c v).val = v := rfl
theorem Wave.overPCell_val (w : Wave) (due : Due) (c : PCell) (v : Bool) : (w.overPCell due c v).val = v := rfl
theorem Wave.overKCell_val (w : Wave) (due : Due) (c : KCell) (v : W64) : (w.overKCell due c v).val = v := rfl

theorem Wave.pushAll (w : Wave) (due : Due) (ws : List W32) (l : Lane) :
    (ws.foldl (w.pushLane due) l).shelfVals = pushWords l.shelfVals ws ∧ (ws.foldl (w.pushLane due) l).named = l.named
      ∧ (ws.foldl (w.pushLane due) l).preds = l.preds ∧ (ws.foldl (w.pushLane due) l).ret = l.ret
      ∧ (ws.foldl (w.pushLane due) l).task = l.task ∧ (ws.foldl (w.pushLane due) l).parked = l.parked
      ∧ (ws.foldl (w.pushLane due) l).pc = l.pc := by
  induction ws generalizing l with
  | nil => simp [pushWords]
  | cons v ws ih =>
    rw [List.foldl_cons]
    obtain ⟨h1, h2, h3, h4, h5, h6, h7⟩ := ih (w.pushLane due l v)
    refine ⟨?_, h2, h3, h4, h5, h6, h7⟩
    rw [h1]
    simp [pushWords, Wave.pushLane, Lane.shelfVals, List.map_take, Wave.overCell_val]

theorem Wave.nameAll (w : Wave) (due : Due) (r : Nat) (ws : List W32) (l : Lane) :
    (w.nameResults due l r ws).namedVals = nameWords r ws l.namedVals ∧ (w.nameResults due l r ws).shelf = l.shelf
      ∧ (w.nameResults due l r ws).preds = l.preds ∧ (w.nameResults due l r ws).ret = l.ret
      ∧ (w.nameResults due l r ws).task = l.task ∧ (w.nameResults due l r ws).parked = l.parked
      ∧ (w.nameResults due l r ws).pc = l.pc := by
  induction ws generalizing l with
  | nil => simp [Wave.nameResults, nameWords]
  | cons v ws ih =>
    unfold Wave.nameResults
    obtain ⟨h1, h2, h3, h4, h5, h6, h7⟩ := ih (w.nameLane due l (r + ws.length) v)
    refine ⟨?_, h2, h3, h4, h5, h6, h7⟩
    rw [h1]
    simp [nameWords, Wave.nameLane, Lane.namedVals, map_val_setAt, Wave.overCell_val]

theorem Wave.predAll (w : Wave) (due : Due) (bs : List Bool) (l : Lane) :
    (bs.foldl (w.predLane due) l).predVals = pushBools l.predVals bs ∧ (bs.foldl (w.predLane due) l).named = l.named
      ∧ (bs.foldl (w.predLane due) l).shelf = l.shelf ∧ (bs.foldl (w.predLane due) l).ret = l.ret
      ∧ (bs.foldl (w.predLane due) l).task = l.task ∧ (bs.foldl (w.predLane due) l).parked = l.parked
      ∧ (bs.foldl (w.predLane due) l).pc = l.pc := by
  induction bs generalizing l with
  | nil => simp [pushBools]
  | cons v bs ih =>
    rw [List.foldl_cons]
    obtain ⟨h1, h2, h3, h4, h5, h6, h7⟩ := ih (w.predLane due l v)
    refine ⟨?_, h2, h3, h4, h5, h6, h7⟩
    rw [h1]
    simp [pushBools, Wave.predLane, Lane.predVals, List.map_take, Wave.overPCell_val]

/-- What the registers of a lane are after its results: R166 to R168, R171. -/
theorem Wave.laneResult_gets (w : Wave) (due : Due) (d : Dst) (l : Lane) (o : AluOut) :
    LaneGets d o l (o.preds.foldl (w.predLane due) (w.laneResult due d l o.res)) := by
  obtain ⟨h1, h2, h3, h4, h5, -, -⟩ := Wave.predAll w due o.preds (w.laneResult due d l o.res)
  obtain ⟨p1, p2, p3, p4, p5, -, -⟩ := Wave.pushAll w due o.res l
  cases d with
  | named r =>
    obtain ⟨n1, n2, n3, n4, n5, -, -⟩ := Wave.nameAll w due r o.res (o.res.foldl (w.pushLane due) l)
    have e : w.laneResult due (.named r) l o.res = w.nameResults due (o.res.foldl (w.pushLane due) l) r o.res := rfl
    rw [e] at h1 h2 h3 h4 h5 ⊢
    refine ⟨?_, ?_, ?_, by rw [h4, n4, p4], by rw [h5, n5, p5]⟩
    · simp only [Lane.shelfVals] at p1 ⊢; rw [h3, n2, p1]; rfl
    · simp only [Lane.namedVals] at n1 ⊢; rw [h2, n1, p2]; rfl
    · rw [h1]; simp only [Lane.predVals]; rw [n3, p3]
  | shelf =>
    have e : w.laneResult due .shelf l o.res = o.res.foldl (w.pushLane due) l := rfl
    rw [e] at h1 h2 h3 h4 h5 ⊢
    refine ⟨?_, ?_, ?_, by rw [h4, p4], by rw [h5, p5]⟩
    · simp only [Lane.shelfVals] at p1 ⊢; rw [h3, p1]; rfl
    · simp only [Lane.namedVals]; rw [h2, p2]; rfl
    · rw [h1]; simp only [Lane.predVals]; rw [p3]
  | _ => exact ⟨by simp only [Lane.shelfVals]; rw [h3]; rfl, by simp only [Lane.namedVals]; rw [h2]; rfl, h1, h4, h5⟩

theorem Wave.laneResult_pc (w : Wave) (due : Due) (d : Dst) (l : Lane) (o : AluOut) :
    (o.preds.foldl (w.predLane due) (w.laneResult due d l o.res)).pc = l.pc := by
  rw [(Wave.predAll w due o.preds _).2.2.2.2.2.2]
  cases d <;> simp only [Wave.laneResult, (Wave.nameAll w due _ _ _).2.2.2.2.2.2, (Wave.pushAll w due _ _).2.2.2.2.2.2]

/-! ### The effect -/

theorem find?_map_self {α : Type} (f : Nat → α) (ls : List Nat) (j : Nat) :
    find? (ls.map fun l => (l, f l)) j = if j ∈ ls then some (f j) else none := by
  induction ls with
  | nil => rfl
  | cons l ls ih =>
    by_cases h : j = l
    · subst h; simp [find?]
    · simp [find?, h, ih]

theorem flagsOf_foldl (f : Flg) (outs : List (Nat × AluOut)) :
    outs.foldl (fun f (_, o) => f ||| o.fl) f = f ||| flagsOf outs := by
  unfold flagsOf
  suffices ∀ (g h : Flg), outs.foldl (fun f (x : Nat × AluOut) => f ||| x.2.fl) (g ||| h)
      = g ||| outs.foldl (fun f (x : Nat × AluOut) => f ||| x.2.fl) h by
    simpa using this f 0
  induction outs with
  | nil => intro g h; rfl
  | cons x outs ih => intro g h; rw [List.foldl_cons, List.foldl_cons, ← ih, BitVec.or_assoc]

theorem Iss.results_lane (i : Iss) (due : Due) (d : Dst) (f : Nat → AluOut) (j : Nat) (hlt : ∀ l ∈ i.ex, l < i.w.lanes.length) :
    (if j ∈ i.ex then LaneGets d (f j) (i.w.lane j) ((i.results due d (i.ex.map fun l => (l, f l))).lane j)
      else LaneKeeps (i.w.lane j) ((i.results due d (i.ex.map fun l => (l, f l))).lane j))
    ∧ ((i.results due d (i.ex.map fun l => (l, f l))).lane j).pc = (i.w.lane j).pc := by
  unfold Wave.lane Iss.results
  dsimp only
  rw [at?_mapIdx]
  dsimp only
  rw [find?_map_self]
  by_cases h : j ∈ i.ex
  · rw [if_pos (hlt j h), if_pos h, if_pos h]
    exact ⟨Wave.laneResult_gets _ _ _ _ _, Wave.laneResult_pc _ _ _ _ _⟩
  · rw [if_neg h, if_neg h]
    by_cases hl : j < i.w.lanes.length
    · rw [if_pos hl]; exact ⟨⟨rfl, rfl, rfl, rfl, rfl⟩, rfl⟩
    · rw [if_neg hl, at?_of_ge (Nat.le_of_not_lt hl)]; exact ⟨⟨rfl, rfl, rfl, rfl, rfl⟩, rfl⟩

theorem LaneGets.trans {d : Dst} {o : AluOut} {a b c : Lane} (h : LaneGets d o a b) (g : LaneKeeps b c) : LaneGets d o a c :=
  ⟨g.shelf.trans h.shelf, g.named.trans h.named, g.preds.trans h.preds, g.ret.trans h.ret, g.task.trans h.task⟩

/-- The instruction of a view reads its operands where `rd` says. -/
theorem Iss.operand_rd (i : Iss) (t : OpTy) (src : Src) (l : Nat) : i.operand i.popAll.1 (some t) src l = i.rd t src l := rfl

/-- An instruction with register operands that meets nothing has its effect. -/
theorem runAlu_next {x : Alu} {r : Row} {v : View} {s : State} {i : Iss} (h : Computable x r v s i) :
    runAlu x r v s = .next (aluEffect x i) := by
  unfold runAlu
  rw [issue_next h.toIssues h.causeless, h.fed]
  rfl

/-- The wave that an instruction with register operands leaves, before it is committed. -/
def aluWave (x : Alu) (i : Iss) (out : Nat → AluOut) : Wave :=
  let fin (w : Wave) : Wave := if i.v.ts = 0 && (i.latency (x.lat i.v)).isSome then w else i.addOp w .result
  match i.v.d, i.ex with
  | .k _, [] => fin i.w
  | .k r, l :: _ => fin ((i.w.setK (i.due (x.lat i.v)) r (kValue (x.sgn i.v) (out l).res)).setFlags (out l).fl (x.dom i.v))
  | d, ex =>
    fin ((i.results (i.due (x.lat i.v)) d (ex.map fun l => (l, out l))).setFlags (flagsOf (ex.map fun l => (l, out l)))
      (x.dom i.v))

/-- What an instruction computes for a lane. -/
def Alu.out (x : Alu) (i : Iss) (l : Nat) : AluOut :=
  x.fn i l (i.operand i.popAll.1 (x.ta i.v) i.v.a l) (i.operand i.popAll.1 (x.tb i.v) i.v.b l)
    (i.operand i.popAll.1 (x.tc i.v) i.v.c l)

/-- The effect commits that wave. -/
theorem aluEffect_commit (x : Alu) (i : Iss) : ∃ s', aluEffect x i = i.commit s' (aluWave x i (x.out i)) i.at_ := by
  have hout : ∀ l, x.out i l = x.fn i l (i.operand i.popAll.1 (x.ta i.v) i.v.a l) (i.operand i.popAll.1 (x.tb i.v) i.v.b l)
    (i.operand i.popAll.1 (x.tc i.v) i.v.c l) := fun _ => rfl
  rcases hp : i.popAll with ⟨pops, s'⟩
  rw [hp] at hout
  dsimp only at hout
  rcases hd : i.v.d with _ | _ | r | _ | _ <;> rcases hx : i.ex with _ | ⟨l, ls⟩ <;>
    simp only [aluEffect, aluWave, hp, hd, hx, hout] <;> (try (split <;> try split)) <;> exact ⟨_, rfl⟩

theorem Iss.fin_lane (i : Iss) (c : Bool) (w : Wave) (j : Nat) :
    (if c then w else i.addOp w .result).lane j = w.lane j := by split <;> rfl
theorem Iss.fin_k (i : Iss) (c : Bool) (w : Wave) : (if c then w else i.addOp w .result).k = w.k := by split <;> rfl
theorem Iss.fin_flags (i : Iss) (c : Bool) (w : Wave) : (if c then w else i.addOp w .result).flags = w.flags := by split <;> rfl
theorem Iss.fin_length (i : Iss) (c : Bool) (w : Wave) :
    (if c then w else i.addOp w .result).lanes.length = w.lanes.length := by split <;> rfl

/-- What a committed wave keeps of the one that was committed. -/
theorem Iss.commit_keeps (i : Iss) (s' : State) (w : Wave) (hat : ∀ j, j ∈ i.at_ → j < i.w.lanes.length)
    (hl : w.lanes.length = i.w.lanes.length) (hp : ∀ j, (w.lane j).pc = (i.w.lane j).pc) :
    ∃ w', (i.commit s' w i.at_).wave? i.key = some w' ∧ i.Advanced w' ∧ w'.kVals = w.kVals ∧ w'.flags = w.flags
      ∧ ∀ j, LaneKeeps (w.lane j) (w'.lane j) := by
  refine ⟨_, Iss.commit_wave _ _ _ _, fun j => ?_, Wave.delay_kVals _ _, by rw [Iss.committed, Wave.delay_same], fun j => (Iss.committed_lane i w i.at_ j).1⟩
  rw [(Iss.committed_lane i w i.at_ j).2, hl, hp]
  by_cases hj : j ∈ i.at_
  · simp [hj, hat j hj]
  · simp [hj]

/-- What every lane and register has after it. -/
theorem aluEffect_gives {x : Alu} {r : Row} {v : View} {s : State} {i : Iss} (h : Issues r v s i) :
    i.Gives (x.sgn i.v) (x.out i) (aluEffect x i) := by
  have hlt : ∀ l ∈ i.ex, l < i.w.lanes.length := fun l hl => h.lt_of_at (h.at_of_ex hl)
  have hat : ∀ j, j ∈ i.at_ → j < i.w.lanes.length := fun j hj => h.lt_of_at hj
  obtain ⟨s', hs'⟩ := aluEffect_commit x i
  rw [hs']
  unfold Iss.Gives
  generalize x.out i = out
  have other : ∀ d, aluWave x i out = (if (i.v.ts = 0 && (i.latency (x.lat i.v)).isSome) = true then
        (i.results (i.due (x.lat i.v)) d (i.ex.map fun l => (l, out l))).setFlags (flagsOf (i.ex.map fun l => (l, out l)))
          (x.dom i.v)
      else i.addOp ((i.results (i.due (x.lat i.v)) d (i.ex.map fun l => (l, out l))).setFlags
          (flagsOf (i.ex.map fun l => (l, out l))) (x.dom i.v)) .result) →
      ∃ w, (i.commit s' (aluWave x i out) i.at_).wave? i.key = some w ∧ i.Advanced w ∧
        w.kVals = i.w.kVals ∧ w.flags = i.ex.foldl (fun f l => f ||| (out l).fl) i.w.flags ∧
        ∀ j, if j ∈ i.ex then LaneGets d (out j) (i.w.lane j) (w.lane j) else LaneKeeps (i.w.lane j) (w.lane j) := by
    intro d e
    have hres := fun j => Iss.results_lane i (i.due (x.lat i.v)) d out j hlt
    obtain ⟨w', h1, h2, h3, h4, h5⟩ := i.commit_keeps s' (aluWave x i out) hat
      (by rw [e, Iss.fin_length]; simp [Wave.setFlags, Iss.results])
      (fun j => by rw [e, Iss.fin_lane]; exact (hres j).2)
    refine ⟨w', h1, h2, ?_, ?_, fun j => ?_⟩
    · rw [h3, e, Wave.kVals, Iss.fin_k]; rfl
    · rw [h4, e, Iss.fin_flags]
      have : ∀ f : Flg, i.ex.foldl (fun f l => f ||| (out l).fl) f
          = (i.ex.map fun l => (l, out l)).foldl (fun f (x : Nat × AluOut) => f ||| x.2.fl) f := by
        intro f; rw [List.foldl_map]
      rw [this, flagsOf_foldl]
      rfl
    · have hj := (hres j).1
      have hk := h5 j
      rw [e, Iss.fin_lane] at hk
      split
      · rename_i hm; rw [if_pos hm] at hj; exact hj.trans hk
      · rename_i hm; rw [if_neg hm] at hj; exact hj.trans hk
  rcases hd : i.v.d with _ | _ | r | _ | _
  case k =>
    rcases hx : i.ex with _ | ⟨l, ls⟩
    · obtain ⟨w', h1, h2, h3, h4, h5⟩ := i.commit_keeps s' (aluWave x i out) hat
        (by simp only [aluWave, hd, hx, Iss.fin_length]) (fun j => by simp only [aluWave, hd, hx, Iss.fin_lane])
      refine ⟨w', h1, h2, fun j => ?_, ?_, ?_⟩
      · have := h5 j; simpa only [aluWave, hd, hx, Iss.fin_lane] using this
      · rw [h3]; simp only [Wave.kVals, aluWave, hd, hx, Iss.fin_k]
      · simp only [h4, aluWave, hd, hx, Iss.fin_flags]
    · obtain ⟨w', h1, h2, h3, h4, h5⟩ := i.commit_keeps s' (aluWave x i out) hat
        (by simp only [aluWave, hd, hx, Iss.fin_length]; rfl)
        (fun j => by simp only [aluWave, hd, hx, Iss.fin_lane]; rfl)
      refine ⟨w', h1, h2, fun j => ?_, ?_, ?_⟩
      · have := h5 j
        simp only [aluWave, hd, hx, Iss.fin_lane] at this
        exact this
      · rw [h3]; simp only [Wave.kVals, aluWave, hd, hx, Iss.fin_k]
        exact map_kval_setAt _ _ _
      · simp only [h4, aluWave, hd, hx, Iss.fin_flags]; rfl
  all_goals exact other _ (by simp only [aluWave, hd])

/-- Without pipe operands the effect commits on the state at issue. -/
theorem aluEffect_commit_here (x : Alu) (i : Iss) (hp : i.pops = []) (hq : i.pushes = none) :
    aluEffect x i = i.commit i.s (aluWave x i (x.out i)) i.at_ := by
  have hout : ∀ l, x.out i l = x.fn i l (i.operand i.popAll.1 (x.ta i.v) i.v.a l) (i.operand i.popAll.1 (x.tb i.v) i.v.b l)
    (i.operand i.popAll.1 (x.tc i.v) i.v.c l) := fun _ => rfl
  have hpop : i.popAll = ([], i.s) := by unfold Iss.popAll; rw [hp]; rfl
  rw [hpop] at hout
  dsimp only at hout
  rcases hd : i.v.d with _ | _ | r | q | _
  case pipe => simp [Iss.pushes, hd] at hq
  all_goals
    rcases hx : i.ex with _ | ⟨l, ls⟩ <;> simp only [aluEffect, aluWave, hpop, hd, hx, hout]

theorem aluWave_frame (x : Alu) (i : Iss) (out : Nat → AluOut) : Wave.SameFrame i.w (aluWave x i out) := by
  have fin : ∀ (c : Bool) (w : Wave), Wave.SameFrame i.w w → Wave.SameFrame i.w (if c then w else i.addOp w .result) := by
    intro c w h
    split
    · exact h
    · unfold Wave.SameFrame at *
      rw [h]
      rfl
  unfold aluWave
  dsimp only
  split
  · exact fin _ _ rfl
  · exact fin _ _ rfl
  · exact fin _ _ rfl

/-- Commit keeps the frame. -/
theorem Wave.SameFrame.committed {i : Iss} {w : Wave} {adv : List Nat} (h : Wave.SameFrame i.w w) : Wave.SameFrame i.w (i.committed w adv) := by
  unfold Wave.SameFrame at *
  unfold Iss.committed
  rw [Wave.delay_same]
  generalize (w.delay i.conflict).lanes = a, (w.delay i.conflict).k = b, (w.delay i.conflict).flagsWas = c,
    (w.delay i.conflict).rstateWas = d
  rw [h]

/-- What an instruction with register operands leaves unchanged. -/
theorem aluEffect_local (x : Alu) (i : Iss) (hp : i.pops = []) (hq : i.pushes = none)
    (hc : Sparse.wf Core.reset i.s.cores = true) :
    i.Local (aluEffect x i) ∧ ∀ w, (aluEffect x i).wave? i.key = some w → Wave.SameFrame i.w w := by
  rw [aluEffect_commit_here x i hp hq]
  refine ⟨i.commit_local _ _ hc, fun w hw => ?_⟩
  rw [i.commit_wave] at hw
  cases hw
  exact (aluWave_frame x i (x.out i)).committed

end Sys2Proof.Machine
end

