-- ==== Sys2Proof/Tests/Slice0.lean ====
section
/-!
SUPPORT. Tests: words of the spec's encoding decode to their instructions; ill-formed terms are refused; and for each statement with hypotheses a state and
operands that meet them, at the edges of their ranges. Each test is of one step at most.
-/
namespace Sys2Proof.Tests
set_option Elab.async false
open Sys2Proof.Machine Sys2Proof.Says

def ctl : Ctl := { sy := false, guard := none, stl := 0 }
/-- A long form: D, C, SUB, MOD, LA, LB, IMM9. -/
def lf (d c sub md la lb imm9 : Nat) : LongF :=
  { ctl := ctl, d := BitVec.ofNat 7 d, c := BitVec.ofNat 7 c, sub := BitVec.ofNat 8 sub, md := BitVec.ofNat 10 md
    la := BitVec.ofNat 7 la, lb := BitVec.ofNat 7 lb, ts := 0, tw := 0, imm9 := BitVec.ofNat 9 imm9, lit := none }
/-- A short form: A, B. -/
def sf (a b : Nat) : ShortF := { ctl := ctl, a := BitVec.ofNat 6 a, b := BitVec.ofNat 6 b, lit := none }
def lv (d c sub md la lb imm9 : Nat) : View := (lf d c sub md la lb imm9).view
def sv (a b : Nat) : View := (sf a b).view
/-- The same guarded by p0, which is false in every lane of the bench: Exec is empty. -/
def off (f : LongF) : LongF := { f with ctl := { ctl with guard := some { depth := 0, neg := false } } }

/-- A lane of the bench at offset 0: s0 = l + 1, s1 = 2, s2 = 2.0, s3 = 3, and n0 = 16 l, n1 = 0, n2 = 1, n3 = 1.0; p1 true in even lanes. -/
def lane (l : Nat) : Lane :=
  { Lane.start 8 0 with
    shelf := [BitVec.ofNat 32 (l + 1), 2, 0x40000000, 3].map (fun x => { Cell.zero with val := x }) ++ List.replicate 12 Cell.zero
    named := [BitVec.ofNat 32 (16 * l), 0, 1, 0x3F800000].map (fun x => { Cell.zero with val := x }) ++ List.replicate 4 Cell.zero
    preds := (List.range 8).map fun d => { PCell.zero with val := d = 1 && l % 2 = 0 } }
/-- k0 to k7 of the bench. -/
def ks : List Nat := [0, 1, 2, 0x1000, 0x800, 64, 512, 3]
/-- The wave of the bench, with 8 named registers. -/
def wave : Wave :=
  { Wave.start 0 0 0 8 0 (startK 0 0 0 0 0 0) 0 with
    lanes := (List.range 32).map lane
    k := (ks ++ List.replicate 24 0).map fun x => { KCell.zero with val := BitVec.ofNat 64 x } }
def core : Core := { Core.reset with ways := 1, allocs := [{ base := 0, bytes := 65536, gang := 0 }] }
def gang : Gang := { Gang.start 0 0 0 0 0 1 0 0 0 0 0 0 with waves := [0], bytes := 65536 }
/-- One wave alone on core 0 with 64 KiB of scratchpad, in context 0 whose page 1 is mapped; its save area, engine block and fault queue have places, and VBASE
is 0x5000. -/
def bench : State :=
  let s := State.reset.withFetchWord 32 0
  { s with
    waves := [(0, wave)]
    gangs := [(0, gang)]
    cores := [(0, core)]
    mem := { s.mem with cells := writeBytes s.mem.cells 0x200000 (toBytes 8 0x5000) }
    ctxs := [(0, { s.ctx 0 with save := 0x200000, engblk := 0x100000, fqBase := 0x110000, vec := 0x1000 })] }
/-- The bench with another wave in place of its own. -/
def benchOf (w : Wave) : State := { bench with waves := [(0, w)] }
/-- The bench with a debugger attached. -/
def attached : State := { bench with ctxs := [(0, { bench.ctx 0 with attach := true, attn := true })] }
/-- The bench with a value in k5, and with return stacks of so many entries. -/
def withK5 (x : Nat) : State := benchOf { wave with k := setAt wave.k 5 { KCell.zero with val := BitVec.ofNat 64 x } }
def deep (n : Nat) : State := benchOf { wave with lanes := wave.lanes.map fun l => { l with ret := List.replicate n 0x10 } }

/-- What an instruction of the bench needs in order to issue, and a condition on it. -/
def meets (r : Row) (v : View) (s : State) (p : Iss → Bool) : Bool :=
  match s.iss r v with
  | none => false
  | some i => r.causes v = [] && i.tokensOk && decide (r.namedTop v ≤ i.w.n) && i.dbgCz = [] && decide (i.parity = 0) && !i.readHeld && (!(s.core i.core).checkEn || !i.stale) && p i
/-- The instruction at issue. -/
def at_ (r : Row) (v : View) (s : State) : Iss :=
  (s.iss r v).getD { s := s, key := 0, w := wave, v := v, row := r, pc := 0, at_ := [], ex := [] }

theorem issues {r : Row} {v : View} {s : State} {p : Iss → Bool} (h : meets r v s p = true) : Issues r v s (at_ r v s) ∧ p (at_ r v s) = true := by
  unfold meets at h
  unfold at_
  split at h
  · cases h
  · rename_i i hi
    simp only [Bool.and_eq_true, decide_eq_true_eq, Bool.or_eq_true, Bool.not_eq_true'] at h
    obtain ⟨⟨⟨⟨⟨⟨⟨h1, h2⟩, h3⟩, h4⟩, h7⟩, h8⟩, h5⟩, h6⟩ := h
    rw [hi]
    show Issues r v s i ∧ p i = true
    refine ⟨⟨h1, hi, h2, h3, h4, h7, h8, fun hc => ?_⟩, h6⟩
    rcases h5 with h5 | h5
    · rw [h5] at hc; cases hc
    · exact h5

theorem alu {x : Alu} {r : Row} {v : View} {s : State} (h : meets r v s (fun i => aluCauses x i = [] && i.pipesReady) = true) :
    ∃ i, Computable x r v s i := by
  obtain ⟨h, g⟩ := issues h
  simp only [Bool.and_eq_true, decide_eq_true_eq] at g
  exact ⟨_, { h with causeless := g.1, fed := g.2 }⟩

theorem allIssue (l : List View) {r : Row} {s : State} (p : Iss → Bool) (h : (l.all fun v => meets r v s p) = true) : ∀ v ∈ l, ∃ i, Issues r v s i ∧ p i = true :=
  fun v hv => ⟨_, issues (List.all_eq_true.mp h v hv)⟩

/-! ### Words and ill-formed terms -/

/-! One word or more of each row of the opcode map, put together by hand from R313 to R332; those of the comment "the spec's" are in its text. -/
theorem test_decode_row0 : decodeWords [0x00000000#32] = .ok (.nopShort (sf 0 0)) 1
    ∧ decodeWords [0x00000005#32, 0x00000000#32, 0xFE800000#32] = .ok (.br (.long (lf 0 0 0 0 0 0 0x1FD))) 3
    ∧ decodeWords [0x0000000E#32, 0x00000008#32, 0x00000000#32] = .ok (.call (.lit ctl 8)) 3 := by decide +kernel
/-- The spec's: icmp.lt.z32 n3, 10 (R347). -/
theorem test_decode_row1 : decodeWords [0x00000061#32, 0x70008000#32, 0x05003D13#32] = .ok (.icmp (lf 0 0 2 0x1C0 19 122 10)) 3 := by decide +kernel
theorem test_decode_row2 : decodeWords [0x62000090#32] = .ok (.shlShort (sf 0 49)) 1 := by decide +kernel
theorem test_decode_row3 : decodeWords [0x040800C0#32] = .ok (.pandShort (sf 1 2)) 1 := by decide +kernel
theorem test_decode_row4 : decodeWords [0x0000010D#32, 0x00000A92#32, 0x00000080#32] = .ok (.fma (lf 18 21 0 0 0 1 0)) 3 := by decide +kernel
theorem test_decode_row5 : decodeWords [0x00000141#32, 0x00004000#32, 0x00000080#32] = .ok (.hadd2 (lf 0 0 1 0 0 1 0)) 3 := by decide +kernel
theorem test_decode_row6 : decodeWords [0x00000181#32, 0xB000C000#32, 0x00000005#32] = .ok (.cvt (lf 0 0 3 0x2C0 5 0 0)) 3 := by decide +kernel
theorem test_decode_row7 : decodeWords [0x001001D0#32] = .ok (.xsqrShort (sf 2 0)) 1 := by decide +kernel
theorem test_decode_row8 : decodeWords [0x00000201#32, 0x0000C000#32, 0x02803D00#32] = .ok (.shfl (lf 0 0 3 0 0 122 5)) 3 := by decide +kernel
theorem test_decode_row9 : decodeWords [0x0000024D#32, 0x00008180#32, 0x00003DF8#32] = .ok (.sts (lf 0 3 2 0 120 123 0)) 3 := by decide +kernel
/-- The spec's: atom.add.z32.ar.dv n6, [k3 + n2*4 + 8], 1. -/
theorem test_decode_rowA : decodeWords [0x00000281#32, 0x76C83E96#32, 0x0400C953#32]
    = .ok (.atom { lf 22 125 32 0x1DB 83 18 8 with ts := 3 }) 3 := by decide +kernel
/-- The spec's: bar. -/
theorem test_decode_rowB : decodeWords [0x000002C4#32] = .ok (.barShort (sf 0 0)) 1
    ∧ decodeWords [0x000002C1#32, 0x09000000#32, 0x00000000#32] = .ok (.fence (lf 0 0 0 0x24 0 0 0)) 3 := by decide +kernel
theorem test_decode_rowC : decodeWords [0x00000311#32, 0x00004012#32, 0x00000000#32] = .ok (.qseq (lf 18 0 1 0 0 0 0)) 3 := by decide +kernel
theorem test_decode_rowD : decodeWords [0x00000340#32] = .ok (.mxacqShort (sf 0 0)) 1
    ∧ decodeWords [0x00000349#32, 0x0000C280#32, 0x020028D0#32] = .ok (.mma (lf 0 5 3 0 80 81 4)) 3 := by decide +kernel
/-- The spec's: pclose q1. -/
theorem test_decode_rowE : decodeWords [0x0008038C#32] = .ok (.pcloseShort (sf 1 0)) 1 := by decide +kernel
theorem test_decode_rowF : decodeWords [0x01C003CC#32] = .ok (.perfrdShort (sf 56 0)) 1 := by decide +kernel
/-- The spec's first kernel: ld n1, [k8 + n0*4] and fadd.rn s, n1, k10, with their tokens and stalls. -/
theorem test_decode_kernel :
    decodeWords [0x00000241#32, 0x00008011#32, 0x00028858#32] = .ok (.ld { lf 17 0 2 0 88 16 0 with ts := 2, tw := 1 }) 3
    ∧ decodeWords [0x00001501#32, 0x00000000#32, 0x00042D11#32] = .ok (.fadd { lf 0 0 0 0 17 90 0 with ctl := { ctl with stl := 5 }, tw := 2 }) 3 := by decide +kernel

/-- The cause and the length of words that are no instruction. -/
noncomputable def badWords (ws : List W32) : Option (Nat × Nat) := match decodeWords ws with
  | .bad c n _ => some (c, n)
  | _ => none
/-- R330, R316, R315, R161, R333: a form that the map does not mark, a long form with B in word 0, TS = 7, a guard depth without GE and OP 0x0B are no instructions;
two words of three are none either. -/
theorem test_decode_refused : badWords [0x0000010C#32] = some (0x03, 1) ∧ badWords [0x02000241#32, 0x76408011#32, 0x08004BD2#32] = some (0x03, 3)
    ∧ badWords [0x0004C901#32, 0x00000014#32, 0x0001E900#32] = some (0x03, 3) ∧ badWords [0x00008000#32] = some (0x03, 1)
    ∧ badWords [0x0000002C#32] = some (0x01, 1) ∧ decodeWords [0x00000241#32, 0x76408011#32] = .short 3 := by decide +kernel

/-! An ill-formed term for each check of `Row.causes`, which it refuses. -/
theorem test_wf_sub : (Instr.iadd (lf 0 0 2 0 0 1 0)).fates = [0x02] := by decide
theorem test_wf_mod : (Instr.iadd (lf 0 0 0 5 0 1 0)).fates = [0x03] := by decide
theorem test_wf_ts : (Instr.iadd { lf 0 0 0 0 0 1 0 with ts := 7 }).fates = [0x03] := by decide
theorem test_wf_zero : (Instr.mma (lf 0 5 3 0 80 81 0)).fates = [0x03] := by decide
theorem test_wf_step : (Instr.mmaSg1 (lf 0 0 9 0 80 81 1)).fates = [0x06] := by decide
theorem test_wf_unused : (Instr.iadd (lf 0 3 0 0 0 1 0)).fates = [0x03] := by decide
theorem test_wf_source : (Instr.iadd (lf 0 0 0 0 116 1 0)).fates = [0x04] := by decide
theorem test_wf_literal : (Instr.iadd (lf 0 0 0 0 121 1 0)).fates = [0x0B] := by decide
theorem test_wf_pair_age : (Instr.iadd64 (lf 0 0 0 0 15 1 0)).fates = [0x04] := by decide
theorem test_wf_pair_odd : (Instr.iadd64 (lf 0 0 0 0 17 1 0)).fates = [0x04] := by decide
theorem test_wf_raw : (Instr.pand (lf 0 0 0 0 8 1 0)).fates = [0x04] := by decide
theorem test_wf_base : (Instr.ld (lf 0 0 0 0 0 120 0)).fates = [0x04] := by decide
theorem test_wf_destination : (Instr.iadd (lf 5 0 0 0 0 1 0)).fates = [0x04] := by decide
theorem test_wf_no_destination : (Instr.st (lf 17 0 0 0 80 120 0)).fates = [0x03] := by decide
theorem test_wf_uniform : (Instr.iadd (lf 80 0 0 0 0 81 0)).fates = [0x05] := by decide
theorem test_wf_pipes : (Instr.iadd (lf 0 0 0 0 112 112 0)).fates = [0x04] := by decide
theorem test_wf_block : (Instr.cpyb (lf 0 82 0 0x100 80 81 30)).fates = [0x04] := by decide


theorem alus (l : List (Alu × Row × View)) (h : (l.all fun x => meets x.2.1 x.2.2 bench fun i => aluCauses x.1 i = [] && i.pipesReady) = true) :
    ∀ x ∈ l, ∃ i, Computable x.1 x.2.1 x.2.2 bench i := fun x hx => alu (List.all_eq_true.mp h x hx)

/-- Every integer instruction can compute. -/
theorem witness_integer_instructions : ∀ x ∈ [
    (aluIadd, rowIadd, lv 0 0 0 0 0 1 0), (aluIsub, rowIsub, lv 0 0 0 0 0 1 0), (aluImul, rowImul, lv 0 0 0 0 0 1 0),
    (aluImad, rowImad, lv 0 0 0 0 0 1 0), (aluIdiv, rowIdiv, lv 0 0 0 0 0 1 0), (aluImin, rowImin, lv 0 0 0 0 0 1 0),
    (aluImax, rowImax, lv 0 0 0 0 0 1 0), (aluIabs, rowIabs, lv 0 0 0 0 0 0 0), (aluIcmp, rowIcmp, lv 0 0 0 0 0 1 0),
    (aluIaddsat, rowIaddsat, lv 0 0 0 0 0 1 0), (aluLea, rowLea, lv 0 0 0 0 0 1 0), (aluSel, rowSel, lv 0 0 0 0 0 1 0),
    (aluMov, rowMov, lv 0 0 0 0 0 0 0), (aluIadd64, rowIadd64, lv 0 0 0 0 0 1 0), (aluImad64, rowImad64, lv 0 0 0 0 0 1 0),
    (aluIsub64, rowIsub64, lv 0 0 0 0 0 1 0)],
    ∃ i, Computable x.1 x.2.1 x.2.2 bench i :=
  alus _ (by decide +kernel)

/-- Every bit instruction can compute. -/
theorem witness_bit_instructions : ∀ x ∈ [
    (aluAnd, rowAnd, lv 0 0 0 0 0 1 0), (aluOr, rowOr, lv 0 0 0 0 0 1 0), (aluXor, rowXor, lv 0 0 0 0 0 1 0), (aluNot, rowNot, lv 0 0 0 0 0 0 0),
    (aluShl, rowShl, lv 0 0 0 0 0 1 0), (aluShr, rowShr, lv 0 0 0 0 0 1 0), (aluSar, rowSar, lv 0 0 0 0 0 1 0), (aluRot, rowRot, lv 0 0 0 0 0 1 0),
    (aluPopc, rowPopc, lv 0 0 0 0 0 0 0), (aluClz, rowClz, lv 0 0 0 0 0 0 0), (aluCtz, rowCtz, lv 0 0 0 0 0 0 0),
    (aluBrev, rowBrev, lv 0 0 0 0 0 0 0), (aluBfx, rowBfx, lv 0 0 0 0 0 1 0), (aluBfi, rowBfi, lv 0 0 0 0 0 1 0),
    (aluShf64, rowShf64, lv 0 0 0 0 0 1 0), (aluBsel, rowBsel, lv 0 0 0 0 0 1 0)],
    ∃ i, Computable x.1 x.2.1 x.2.2 bench i :=
  alus _ (by decide +kernel)

/-- Every predicate instruction can compute. -/
theorem witness_predicate_instructions : ∀ x ∈ [
    (aluPand, rowPand, lv 0 0 0 0 0 1 0), (aluPor, rowPor, lv 0 0 0 0 0 1 0), (aluPxor, rowPxor, lv 0 0 0 0 0 1 0),
    (aluPnot, rowPnot, lv 0 0 0 0 0 0 0), (aluPpush, rowPpush, lv 0 0 0 0 0 0 0), (aluPget, rowPget, lv 0 0 0 0 0 0 0),
    (aluRdsp, rowRdsp, lv 0 0 0 0 0 0 0), (aluRdlane, rowRdlane, lv 0 0 0 0 0 84 0)],
    ∃ i, Computable x.1 x.2.1 x.2.2 bench i :=
  alus _ (by decide +kernel)

/-- Every lane instruction can compute. -/
theorem witness_lane_instructions : ∀ x ∈ [
    (aluShfl, rowShfl, lv 0 0 0 0 0 1 0), (aluBcast, rowBcast, lv 0 0 0 0 0 84 0), (aluVote, rowVote, lv 0 0 0 0 0 0 0),
    (aluMcount, rowMcount, lv 0 0 0 0 0 0 0), (aluLanes, rowLanes, lv 0 0 0 0 0 0 0), (aluRedux, rowRedux, lv 0 0 0 0 0 0 0),
    (aluScan, rowScan, lv 0 0 0 0 0 0 0), (aluDdx, rowDdx, lv 0 0 0 0 0 0 0), (aluDdy, rowDdy, lv 0 0 0 0 0 0 0)],
    ∃ i, Computable x.1 x.2.1 x.2.2 bench i :=
  alus _ (by decide +kernel)

/-- Every float instruction can compute. -/
theorem witness_float_instructions : ∀ x ∈ [
    (aluFadd, rowFadd, lv 0 0 0 0 0 1 0), (aluFsub, rowFsub, lv 0 0 0 0 0 1 0), (aluFmul, rowFmul, lv 0 0 0 0 0 1 0),
    (aluFma, rowFma, lv 0 0 0 0 0 1 0), (aluFmin, rowFmin, lv 0 0 0 0 0 1 0), (aluFmax, rowFmax, lv 0 0 0 0 0 1 0),
    (aluFcmp, rowFcmp, lv 0 0 0 0 0 1 0), (aluFdiv, rowFdiv, lv 0 0 0 0 0 1 0), (aluFdivApx, rowFdivApx, lv 0 0 1 0 0 1 0),
    (aluFsqrt, rowFsqrt, lv 0 0 0 0 0 0 0), (aluFrcp, rowFrcp, lv 0 0 0 0 0 0 0), (aluFrsq, rowFrsq, lv 0 0 0 0 0 0 0),
    (aluFtrn, rowFtrn, lv 0 0 0 0 0 0 0), (aluFrnd, rowFrnd, lv 0 0 0 0 0 0 0), (aluFfract, rowFfract, lv 0 0 0 0 0 0 0),
    (aluFclass, rowFclass, lv 0 0 0 0 0 0 0), (aluFscale, rowFscale, lv 0 0 0 0 0 1 0)],
    ∃ i, Computable x.1 x.2.1 x.2.2 bench i :=
  alus _ (by decide +kernel)

/-- Every packed instruction can compute. -/
theorem witness_packed_instructions : ∀ x ∈ [
    (aluHadd2, rowHadd2, lv 0 0 0 0 0 1 0), (aluHmul2, rowHmul2, lv 0 0 0 0 0 1 0), (aluHfma2, rowHfma2, lv 0 0 0 0 0 1 0),
    (aluHmin2, rowHmin2, lv 0 0 0 0 0 1 0), (aluHmax2, rowHmax2, lv 0 0 0 0 0 1 0), (aluHcmp2, rowHcmp2, lv 0 0 0 0 0 1 0),
    (aluHdot2, rowHdot2, lv 0 0 0 0 0 1 0)],
    ∃ i, Computable x.1 x.2.1 x.2.2 bench i :=
  alus _ (by decide +kernel)

/-- Every conversion instruction can compute. -/
theorem witness_conversion_instructions : ∀ x ∈ [
    (aluCvt, rowCvt, lv 0 0 0 0 0 0 0), (aluCvtn, rowCvtn, lv 0 0 0 0 0 1 0), (aluCvtw, rowCvtw, lv 0 0 0 0 0 1 0),
    (aluSgnpk, rowSgnpk, lv 0 0 0 0 0 0 0), (aluSgnex, rowSgnex, lv 0 0 0 0 0 1 0), (aluScl, rowScl, lv 0 85 0 0 83 84 0),
    (aluScl32, rowScl32, lv 0 85 1 16 83 84 0), (aluRngl, rowRngl, lv 0 0 0 0 0 1 0)],
    ∃ i, Computable x.1 x.2.1 x.2.2 bench i :=
  alus _ (by decide +kernel)

/-- Every interval instruction can compute. -/
theorem witness_interval_instructions : ∀ x ∈ [
    (aluXadd, rowXadd, lv 0 0 0 0 0 1 0), (aluXsub, rowXsub, lv 0 0 0 0 0 1 0), (aluXmul, rowXmul, lv 0 0 0 0 0 1 0),
    (aluXdiv, rowXdiv, lv 0 0 0 0 0 1 0), (aluXsqr, rowXsqr, lv 0 0 0 0 0 0 0), (aluXsqrt, rowXsqrt, lv 0 0 0 0 0 0 0),
    (aluXmin, rowXmin, lv 0 0 0 0 0 1 0), (aluXmax, rowXmax, lv 0 0 0 0 0 1 0), (aluXabs, rowXabs, lv 0 0 0 0 0 0 0),
    (aluXhull, rowXhull, lv 0 0 0 0 0 1 0), (aluXmeet, rowXmeet, lv 0 0 0 0 0 1 0), (aluXtest, rowXtest, lv 0 0 0 0 0 1 0),
    (aluXmk, rowXmk, lv 0 0 0 0 0 1 0), (aluXmid, rowXmid, lv 0 0 0 0 0 0 0)],
    ∃ i, Computable x.1 x.2.1 x.2.2 bench i :=
  alus _ (by decide +kernel)


/-! ### Control and exceptions -/

/-- A form guarded by p1: Exec is the even lanes. -/
def even (f : LongF) : LongF := { f with ctl := { ctl with guard := some { depth := 1, neg := false } } }

/-- A branch in each layout issues; an indirect one lands at the first and at the last word of the heap. -/
theorem witness_branches :
    (∃ i, Issues rowBr (BrF.view (.long (lf 0 0 0 0 0 0 511))) bench i) ∧ (∃ i, Issues rowBr (ShortBr.view { ctl := ctl, disp := 0x800 }) bench i)
    ∧ (∃ i, Issues rowBr (BrF.view (.lit ctl 0xFFFFFFFFFFFFFFFC)) bench i)
    ∧ (∃ i, Issues rowBri (lv 0 0 0 0 83 0 0) bench i ∧ Lands i) ∧ (∃ i, Issues rowBri (sv 53 0) (withK5 0x1FFC) i ∧ Lands i) := by
  refine ⟨⟨_, (issues (p := fun _ => true) (by decide +kernel)).1⟩, ⟨_, (issues (p := fun _ => true) (by decide +kernel)).1⟩,
    ⟨_, (issues (p := fun _ => true) (by decide +kernel)).1⟩, ⟨_, (issues (p := fun _ => true) (by decide +kernel)).1, ?_⟩,
    ⟨_, (issues (p := fun _ => true) (by decide +kernel)).1, ?_⟩⟩ <;> unfold Lands <;> decide +kernel

/-- Calls with 0 and with 31 entries on the stacks, returns with 1 and with 32. -/
theorem witness_calls_and_returns :
    (∃ i, Issues rowCall (ShortBr.view { ctl := ctl, disp := 1 }) bench i ∧ ∀ l ∈ i.ex, (i.w.lane l).ret.length < 32)
    ∧ (∃ i, Issues rowCalli (lv 0 0 0 0 83 0 0) (deep 31) i ∧ Lands i ∧ ∀ l ∈ i.ex, (i.w.lane l).ret.length < 32) ∧ bench.mem.canonical
    ∧ (∃ i, Issues rowRet (sv 0 0) (deep 1) i ∧ ∀ l ∈ i.ex, (i.w.lane l).ret ≠ []) ∧ (∃ i, Issues rowRet (sv 0 0) (deep 32) i ∧ ∀ l ∈ i.ex, (i.w.lane l).ret ≠ []) := by
  refine ⟨⟨_, (issues (p := fun _ => true) (by decide +kernel)).1, by decide +kernel⟩, ⟨_, (issues (p := fun _ => true) (by decide +kernel)).1, ?_, by decide +kernel⟩,
    ?_, ⟨_, (issues (p := fun _ => true) (by decide +kernel)).1, by decide +kernel⟩, ⟨_, (issues (p := fun _ => true) (by decide +kernel)).1, by decide +kernel⟩⟩
  · unfold Lands; decide +kernel
  · unfold Mem.canonical; decide +kernel

/-- exit in some lanes leaves the others; yieldl parks. -/
theorem witness_exit_and_yieldl :
    (∃ i, Issues rowExit (even (lf 0 0 0 0 0 0 0)).view bench i ∧ ∃ j ∈ i.w.heldLanes, j ∉ i.ex ∧ i.nextPc ≠ retiredPc)
    ∧ ∃ i, Issues rowYieldl (sv 0 0) bench i :=
  ⟨⟨_, (issues (p := fun _ => true) (by decide +kernel)).1, by decide +kernel⟩, ⟨_, (issues (p := fun _ => true) (by decide +kernel)).1⟩⟩

theorem bench_can_trap : CanTrap bench 0 wave := by unfold CanTrap Mem.canonical; decide +kernel

/-- trap and brk with lanes in Exec and with none; with a debugger, brk, halt and dbgmk. -/
theorem witness_traps :
    (∃ i, Issues rowTrap (sv 0 0) bench i ∧ i.ex ≠ [] ∧ i.w.trapMode = false ∧ i.w.busy = false ∧ CanTrap bench i.key i.w)
    ∧ (∃ i, Issues rowBrk (off (lf 0 0 0 0 0 0 0)).view bench i ∧ i.ex = [] ∧ (i.s.ctx i.w.ctx).attach = false)
    ∧ (∃ i, Issues rowHalt (sv 0 0) attached i ∧ (attached.ctx i.w.ctx).attach = true ∧ i.w.trapMode = false ∧ i.ex ≠ [] ∧ i.w.busy = false)
    ∧ (∃ i, Issues rowDbgmk (lv 0 0 0 0 83 0 0) attached i ∧ (attached.ctx i.w.ctx).attn = true ∧ i.ex ≠ [])
    ∧ ∃ i, Issues rowDbgmk (sv 51 0) bench i ∧ (bench.ctx i.w.ctx).attach = false := by
  refine ⟨⟨_, (issues (p := fun _ => true) (by decide +kernel)).1, by decide +kernel, by decide +kernel, by decide +kernel, ?_⟩,
    ⟨_, (issues (p := fun _ => true) (by decide +kernel)).1, by decide +kernel⟩, ⟨_, (issues (p := fun _ => true) (by decide +kernel)).1, by decide +kernel⟩,
    ⟨_, (issues (p := fun _ => true) (by decide +kernel)).1, by decide +kernel⟩, ⟨_, (issues (p := fun _ => true) (by decide +kernel)).1, by decide +kernel⟩⟩
  unfold CanTrap Mem.canonical; decide +kernel

/-- The bench with pending causes and flags; in trap mode. -/
def pending (as : List (Nat × Nat)) : State := benchOf { wave with asyncs := as, flags := 0x41, domains := 0x0A000003 }
def flagged : State := { pending [] with ctxs := [(0, { bench.ctx 0 with trapEn := 0x40 })] }
def inTrap : State := benchOf { wave with trapMode := true }

theorem witness_tfence_and_tret :
    (∃ i, Issues rowTfence (sv 0 0) bench i ∧ (∀ t, t < 6 → i.w.tokenClear t = true) ∧ i.w.asyncs = [] ∧ i.w.flags &&& (bench.ctx i.w.ctx).trapEn = 0)
    ∧ (∃ i c q rest, Issues rowTfence (sv 0 0) (pending [(0x80, 5), (0xA9, 0)]) i ∧ i.w.asyncs = (c, q) :: rest ∧ i.w.trapMode = false ∧ CanTrap bench i.key i.w)
    ∧ (∃ i, Issues rowTfence (sv 0 0) flagged i ∧ i.w.asyncs = [] ∧ (i.w.flags &&& (flagged.ctx i.w.ctx).trapEn).getLsbD 6 = true
        ∧ ∀ g, g < 6 → (i.w.flags &&& (flagged.ctx i.w.ctx).trapEn).getLsbD g = false)
    ∧ ∃ i, Issues rowTret (sv 0 0) inTrap i ∧ i.w.trapMode = true ∧ inTrap.liveRecord i.w.ctx i.key + 24576 ≤ hostBase := by
  refine ⟨⟨_, (issues (p := fun _ => true) (by decide +kernel)).1, by decide +kernel⟩,
    ⟨_, 0x80, 5, [(0xA9, 0)], (issues (p := fun _ => true) (by decide +kernel)).1, by decide +kernel, by decide +kernel, ?_⟩,
    ⟨_, (issues (p := fun _ => true) (by decide +kernel)).1, by decide +kernel⟩, ⟨_, (issues (p := fun _ => true) (by decide +kernel)).1, by decide +kernel⟩⟩
  unfold CanTrap Mem.canonical; decide +kernel

/-- A delivery leaves a wave in its handler. -/
theorem delivered (t : TrapRec) (h : wave.trapMode = false ∧ bench.vbase (bench.refill 0 wave.settle).ctx ≠ 0) : ∃ h, (bench.deliver 0 wave t).wave? 0 = some h := by
  unfold State.deliver
  rw [if_neg (by simp [h.1])]
  simp only
  exact ⟨_, State.wave?_setWave_same _ _ _⟩

theorem witness_reload : ∃ t h, wave.trapMode = false ∧ CanTrap bench 0 wave ∧ wave.n ≤ 64 ∧ (bench.deliver 0 wave t).wave? 0 = some h := by
  obtain ⟨h, e⟩ := delivered ({ cause := 0x0C, lane := 0xFF, mask := 1, iaddr := 0x1000, maddr := 0, info := 0, adv := 4 } : TrapRec) ⟨rfl, by decide +kernel⟩
  exact ⟨_, h, rfl, bench_can_trap, by decide +kernel, e⟩

/-- Each cause of a control instruction at the edge of its range: targets just before and just after the heap, an odd one, full and empty stacks. -/
theorem witness_causes :
    (∃ i, Issues rowBri (sv 53 0) (withK5 0x1002) i ∧ Targets misaligned i) ∧ (∃ i, Issues rowBri (sv 53 0) (withK5 0xFFC) i ∧ Targets outside i ∧ allAligned i)
    ∧ (∃ i, Issues rowBri (lv 0 0 0 0 85 0 0) (withK5 0x2000) i ∧ Targets outside i ∧ allAligned i)
    ∧ (∃ i, Issues rowCall (ShortBr.view { ctl := ctl, disp := 1 }) (deep 32) i ∧ lanesThat i (fullStack i) ≠ [])
    ∧ (∃ i, Issues rowRet (sv 0 0) (deep 0) i ∧ lanesThat i (emptyStack i) ≠ [])
    ∧ (∃ i, Issues rowRedux (even (lf 0 0 0 0 0 0 0)).view bench i ∧ i.pipesCz = [] ∧ i.ex.length ≠ 32)
    ∧ (∃ i, Issues rowScan (off (lf 0 0 0 0 0 0 0)).view bench i ∧ i.pipesCz = [] ∧ i.ex.length ≠ 32)
    ∧ (∃ i, Issues rowTret (sv 0 0) bench i ∧ i.w.trapMode = false) ∧ (∃ i, Issues rowHalt (sv 0 0) bench i ∧ i.ex ≠ [])
    ∧ ∃ i, Issues rowWrlaneShort (sv 50 51) bench i := by
  refine ⟨⟨_, (issues (p := fun _ => true) (by decide +kernel)).1, ?_⟩, ⟨_, (issues (p := fun _ => true) (by decide +kernel)).1, ?_⟩,
    ⟨_, (issues (p := fun _ => true) (by decide +kernel)).1, ?_⟩, ⟨_, (issues (p := fun _ => true) (by decide +kernel)).1, by decide +kernel⟩,
    ⟨_, (issues (p := fun _ => true) (by decide +kernel)).1, by decide +kernel⟩, ⟨_, (issues (p := fun _ => true) (by decide +kernel)).1, by decide +kernel⟩,
    ⟨_, (issues (p := fun _ => true) (by decide +kernel)).1, by decide +kernel⟩, ⟨_, (issues (p := fun _ => true) (by decide +kernel)).1, by decide +kernel⟩,
    ⟨_, (issues (p := fun _ => true) (by decide +kernel)).1, by decide +kernel⟩, ⟨_, (issues (p := fun _ => true) (by decide +kernel)).1⟩⟩ <;>
    unfold Targets <;> (try unfold allAligned) <;> decide +kernel

/-- A token that is not clear; a named register beyond the allocation. -/
theorem witness_tokens_and_registers :
    (∃ i, (benchOf { wave with ops := [{ id := 0, token := 3, kind := .result, mem := true }] }).iss rowIadd ({ lf 0 0 0 0 0 1 0 with tw := 4 } : LongF).view = some i
        ∧ i.tokensOk = false)
    ∧ ∃ i, bench.iss rowIadd (lv 0 0 0 0 24 1 0) = some i ∧ i.tokensOk = true ∧ i.w.n < rowIadd.namedTop (lv 0 0 0 0 24 1 0) ∧ i.w.trapMode = false
        ∧ i.w.busy = false ∧ (bench.ctx i.w.ctx).attach = false :=
  ⟨⟨_, rfl, by decide +kernel⟩, ⟨_, rfl, by decide +kernel⟩⟩

/-! ### Memory -/

/-- Nothing stops an instruction's accesses. -/
def reachable (a : Access) (accs : Iss → List LaneAcc) (pre : Iss → List Cz) (p : Iss → List LaneX → State → Bool) (i : Iss) : Bool :=
  let x := i.s.xlateLanes i.core i.w.ctx a (accs i)
  i.watchCz a (accs i) = [] && i.pipesCz = [] && i.pipesReady && pre i = [] && !i.s.owned i.w.ctx i.core false (accs i) && decide (i.fenceFirst i.sysRelease = none)
    && x.1.all (fun y => y.cz a = none) && !i.w.hostErr && ueLanes a x.1 (x.2.flawsMet (some i.core) i.viaL1 a x.1) = [] && !i.soHeld x.1 && !x.2.ownedPa (allPieces x.1)
    && p i x.1 x.2

theorem accesses {r : Row} {v : View} {s : State} {a : Access} (accs : Iss → List LaneAcc) (pre : Iss → List Cz)
    (p : Iss → List LaneX → State → Bool) (h : meets r v s (reachable a accs pre p) = true) :
    ∃ i ls u, Accesses r v s i a (accs i) (pre i) ls u ∧ p i ls u = true := by
  obtain ⟨h, g⟩ := issues h
  simp only [reachable, Bool.and_eq_true, decide_eq_true_eq, Bool.not_eq_true', List.all_eq_true] at g
  obtain ⟨⟨⟨⟨⟨⟨⟨⟨⟨⟨⟨g1, p1⟩, p2⟩, g2⟩, g3⟩, p3⟩, g4⟩, g5⟩, g6⟩, g8⟩, g9⟩, g7⟩ := g
  exact ⟨_, _, _, { h with
    unwatched := g1, piped := p1, stocked := p2, checked := g2, unowned := g3, fenced := p3, translated := rfl, allowed := g4, answered := g5, intact := g6
    inOrder := g8, free := g9 }, g7⟩

/-- Nothing stops an access within the allocation. -/
def within (code : Nat) (pre : Iss → List Cz) (p : Iss → Bool) (i : Iss) : Bool :=
  i.accs.all (fun x => i.s.inAlloc i.w.gang x.a x.n) && !i.s.owned i.w.ctx i.core true i.accs && decide (i.pipesCz = []) && i.pipesReady && decide (pre i = [])
    && decide (i.fenceFirst i.sysRelease = none) && decide ((i.localCheck code i.accs).1 = []) && !i.s.readsA i.core i.key i.accs && p i

theorem nearby {r : Row} {v : View} {s : State} (code : Nat) (pre : Iss → List Cz) (p : Iss → Bool) (h : meets r v s (within code pre p) = true) :
    ∃ i, Nearby r v s i code (pre i) ∧ p i = true := by
  obtain ⟨h, g⟩ := issues h
  simp only [within, Bool.and_eq_true, decide_eq_true_eq, Bool.not_eq_true', List.all_eq_true] at g
  obtain ⟨⟨⟨⟨⟨⟨⟨⟨g1, g2⟩, p1⟩, p2⟩, g3⟩, g5⟩, g6⟩, g7⟩, g4⟩ := g
  exact ⟨_, { h with inside := g1, unowned := g2, piped := p1, stocked := p2, checked := g3, fenced := g5, intact := g6, unread := fun _ => g7 }, g4⟩

/-- A store has lanes, canonical memory and sectors enough. -/
def storable (atomic : Bool) (parts : Iss → List LaneX → State → List WritePart) (close : List LaneX → State → State) (i : Iss) (ls : List LaneX) (u : State) : Bool :=
  i.ex ≠ [] && Memory.wf u.mem.cells && Memory.wf u.mem.host && ((close ls u).writeParts ((close ls u).checks i.core) atomic (parts i ls u)).isSome

theorem allReach (l : List View) {r : Row} {s : State} {a : View → Access} (accs : Iss → List LaneAcc) (pre : Iss → List Cz)
    (p : Iss → List LaneX → State → Bool) (h : (l.all fun v => meets r v s (reachable (a v) accs pre p)) = true) :
    ∀ v ∈ l, ∃ i ls u, Accesses r v s i (a v) (accs i) (pre i) ls u ∧ p i ls u = true :=
  fun v hv => accesses accs pre p (List.all_eq_true.mp h v hv)

theorem allNear (l : List View) {r : Row} {s : State} (code : Nat) (pre : Iss → List Cz) (p : Iss → Bool)
    (h : (l.all fun v => meets r v s (within code pre p)) = true) : ∀ v ∈ l, ∃ i, Nearby r v s i code (pre i) ∧ p i = true :=
  fun v hv => nearby code pre p (List.all_eq_true.mp h v hv)

/-- Loads: of 32 and of 64 bits by every lane, and of single bytes up to the last of the page by the even lanes. -/
theorem witness_loads : ∀ v ∈ [lv 0 0 0 0 83 16 0, lv 16 0 0 0x200 83 0 0, (even (lf 0 0 7 0x40 83 16 255)).view],
    ∃ i ls u, Accesses rowLd v bench i (Access.read.at v.order) i.accs [] ls u ∧ decide (i.ex ≠ []) = true :=
  allReach (a := fun v => Access.read.at v.order) _ Iss.accs (fun _ => []) (fun i _ _ => i.ex ≠ []) (by decide +kernel)

/-- Stores: the same, and one in which every lane writes the same bytes. -/
theorem witness_stores : ∀ v ∈ [lv 0 0 0 0 83 16 0, lv 0 16 0 0x200 83 0 0, (even (lf 0 2 7 0x40 83 16 255)).view, lv 0 0 0 0 83 17 0],
    ∃ i ls u, Accesses rowSt v bench i (Access.write.at v.order) i.accs [] ls u ∧ storable false (fun i ls _ => storeParts i ls) (fun _ u => u) i ls u = true :=
  allReach (a := fun v => Access.write.at v.order) _ Iss.accs (fun _ => []) _ (by decide +kernel)

/-- Uniform loads and stores. -/
theorem witness_uniform :
    (∀ v ∈ [lv 85 0 0 0 83 81 0, lv 95 0 0 0x40 83 82 255], ∃ i ls u, Accesses rowLdk v bench i (Access.read.at v.order) i.accsK [] ls u
      ∧ (decide (i.ex ≠ []) && (match i.v.d with | .k _ => true | _ => false)) = true)
    ∧ ∀ v ∈ [lv 0 84 0 0 83 81 0, lv 0 84 0 0x200 83 82 255], ∃ i ls u, Accesses rowStk v bench i (Access.write.at v.order) i.accsK [] ls u
      ∧ storable false (fun i ls _ => storeParts i ls) (fun _ u => u) i ls u = true :=
  ⟨allReach (a := fun v => Access.read.at v.order) _ Iss.accsK (fun _ => []) (fun i _ _ => decide (i.ex ≠ []) && (match i.v.d with | .k _ => true | _ => false)) (by decide +kernel),
   allReach (a := fun v => Access.write.at v.order) _ Iss.accsK (fun _ => []) _ (by decide +kernel)⟩

theorem benchCores : Sparse.wf Core.reset bench.cores = true ∧ ∀ c, c = 0 → Memory.wf (bench.core c).scratch = true := by
  refine ⟨by decide +kernel, ?_⟩
  rintro c rfl
  decide +kernel

/-- Scratchpad loads and stores from the first byte of the allocation to its last. -/
theorem witness_scratchpad :
    (∀ v ∈ [lv 0 0 0 0 80 16 0, (even (lf 16 0 0 0x200 80 16 1)).view, lv 0 0 0x10 0x140 80 16 0], ∃ i, Nearby rowLds v bench i 0x60 []
      ∧ (decide (i.ex ≠ []) && Memory.wf (i.s.core i.core).scratch) = true)
    ∧ (∃ i, Nearby rowLds (lv 0 0 0 0x140 85 17 0) (withK5 0xFFFF) i 0x60 [] ∧ i.ex ≠ [])
    ∧ ∀ v ∈ [lv 0 0 0 0 80 16 0, (even (lf 0 16 0 0x200 80 16 1)).view, lv 0 0 0 0 80 17 0], ∃ i, Nearby rowSts v bench i 0x61 []
      ∧ (decide (i.ex ≠ []) && Sparse.wf Core.reset i.s.cores && Memory.wf (i.s.core i.core).scratch && i.s.waves.all fun x => x.2.wait = .none) = true := by
  refine ⟨allNear _ 0x60 (fun _ => []) _ (by decide +kernel), ?_, allNear _ 0x61 (fun _ => []) _ (by decide +kernel)⟩
  obtain ⟨i, h, g⟩ := nearby 0x60 (fun _ => []) (fun i => decide (i.ex ≠ [])) (r := rowLds) (v := lv 0 0 0 0x140 85 17 0) (s := withK5 0xFFFF) (by decide +kernel)
  exact ⟨i, h, of_decide_eq_true g⟩

/-- A weight-store load, which needs no lane; the twelve accesses guarded by a predicate that no lane has. -/
theorem witness_weights_and_idle :
    (∃ i, Issues rowLdw (lv 0 0 0 0 83 0 0) bench i)
    ∧ ∀ x ∈ [(rowLd, 0, 0, 0), (rowSt, 0, 0, 0), (rowLdk, 85, 0, 0), (rowStk, 0, 84, 0), (rowLds, 0, 0, 0), (rowSts, 0, 0, 0), (rowAtom, 0, 0, 0x1C0), (rowAtoms, 0, 0, 0x1C0),
        (rowRed, 0, 0, 0x1C0), (rowReds, 0, 0, 0x1C0), (rowCas, 0, 16, 0), (rowCass, 0, 16, 0)],
      ∃ i, Issues x.1 (off (lf x.2.1 x.2.2.1 0 x.2.2.2 83 81 0)).view bench i ∧ i.ex = [] := by
  refine ⟨⟨_, (issues (p := fun _ => true) (by decide +kernel)).1⟩, ?_⟩
  intro x hx
  have h := List.all_eq_true.mp (show (List.all [(rowLd, 0, 0, 0), (rowSt, 0, 0, 0), (rowLdk, 85, 0, 0), (rowStk, 0, 84, 0), (rowLds, 0, 0, 0), (rowSts, 0, 0, 0),
    (rowAtom, 0, 0, 0x1C0), (rowAtoms, 0, 0, 0x1C0), (rowRed, 0, 0, 0x1C0), (rowReds, 0, 0, 0x1C0), (rowCas, 0, 16, 0), (rowCass, 0, 16, 0)]
    fun x => meets x.1 (off (lf x.2.1 x.2.2.1 0 x.2.2.2 83 81 0)).view bench fun i => i.ex = []) = true by decide +kernel) x hx
  exact ⟨_, (issues h).1, of_decide_eq_true (issues h).2⟩

/-- Translation: a leaf that permits reads and writes; a root entry without V; a root in no memory. -/
theorem witness_translation :
    (∃ e pa lo u, bench.mem.canonical ∧ canonical 0x1FFF = true ∧ bench.walk none 0 0x1FFF = (.leaf e pa lo, u) ∧ pa + 8 ≤ hostBase ∧ permits e Access.write)
    ∧ (bench.mem.rangeBad (bench.ctx 0).root 4096 = false ∧ bit (ofBytes (bench.peekPhys ((bench.ctx 0).root + 8 * bits (2 ^ 48) 48 9) 8)) 0 = false)
    ∧ (bench.onCtx 0 fun c => { c with root := 0xFFFFFFF000 }).mem.rangeBad ((bench.onCtx 0 fun c => { c with root := 0xFFFFFFF000 }).ctx 0).root 4096 = true := by
  refine ⟨⟨0x2003F, 0x14108, 12, (bench.walk none 0 0x1FFF).2, ?_, by decide +kernel, ?_, by decide +kernel, ?_⟩, by decide +kernel, by decide +kernel⟩
  · unfold Mem.canonical; decide +kernel
  · exact Prod.ext (by decide +kernel) rfl
  · unfold permits; decide +kernel

/-- Atomics of 32 and of 64 bits, one address for every lane and one for each. -/
theorem witness_atomics :
    (∀ v ∈ [lv 0 0 0 0 83 16 0, lv 16 16 0x40 0x201 83 17 0, lv 0 0 8 0x1C0 83 17 0], (∃ i ls u, Accesses rowAtom v bench i Access.atomic i.atomAccs i.alignCz ls u
        ∧ storable true (fun i ls u => atomParts v.memBytes i Iss.atomFn ls u) (fun ls u => u.closePieces (allPieces ls)) i ls u = true)
      ∧ takes (v.sub % 16) v.memTy)
    ∧ (∀ v ∈ [lv 0 0 2 0x280 83 16 0], (∃ i ls u, Accesses rowRed v bench i Access.atomic i.atomAccs i.alignCz ls u
        ∧ storable true (fun i ls u => atomParts v.memBytes i Iss.atomFn ls u) (fun ls u => u.closePieces (allPieces ls)) i ls u = true)
      ∧ takes (v.sub % 16) v.memTy)
    ∧ (∀ v ∈ [lv 0 16 0 0 83 16 0, lv 16 16 0 0x200 83 17 0], (∃ i ls u, Accesses rowCas v bench i Access.atomic i.atomAccs i.alignCz ls u
        ∧ storable true (fun i ls u => atomParts v.memBytes i Iss.casFn ls u) (fun ls u => u.closePieces (allPieces ls)) i ls u = true)
      ∧ casTakes v.memTy)
    ∧ (∀ v ∈ [lv 0 0 0 0 80 16 0, lv 0 0 10 0x280 80 17 0], ∃ i, Nearby rowAtoms v bench i 0x62 i.alignCz ∧ (decide (i.ex ≠ [])) = true)
    ∧ (∀ v ∈ [lv 0 0 1 0 80 17 0], ∃ i, Nearby rowReds v bench i 0x62 i.alignCz ∧ (decide (i.ex ≠ [])) = true)
    ∧ (∀ v ∈ [lv 0 16 0 0 80 17 0], ∃ i, Nearby rowCass v bench i 0x62 i.alignCz ∧ (decide (i.ex ≠ [])) = true)
    ∧ (0x02 ∈ rowAtom.causes (lv 0 0 11 0 83 16 0) ∧ ¬ takes (8 % 16) .b32) := by
  refine ⟨?_, ?_, ?_, allNear _ 0x62 Iss.alignCz _ (by decide +kernel), allNear _ 0x62 Iss.alignCz _ (by decide +kernel), allNear _ 0x62 Iss.alignCz _ (by decide +kernel), ?_⟩
  · intro v hv
    exact ⟨accesses Iss.atomAccs Iss.alignCz _ (by revert v; decide +kernel), by first | (unfold takes; revert v; decide +kernel) | (unfold casTakes; revert v; decide +kernel)⟩
  · intro v hv
    exact ⟨accesses Iss.atomAccs Iss.alignCz _ (by revert v; decide +kernel), by first | (unfold takes; revert v; decide +kernel) | (unfold casTakes; revert v; decide +kernel)⟩
  · intro v hv
    exact ⟨accesses Iss.atomAccs Iss.alignCz _ (by revert v; decide +kernel), by first | (unfold takes; revert v; decide +kernel) | (unfold casTakes; revert v; decide +kernel)⟩
  · unfold takes; decide +kernel

/-! ### Fences, barriers and waits -/

theorem rowWords {ws : List W32} {op : Nat} {v : View} {r : Row} (h : viewOfWords ws = some (op, v)) (g : rowOf op v = some r) : rowOfWords ws = some (r, v) := by
  unfold rowOfWords
  rw [h]
  simp [g]

/-- A fence that finds nothing under way, and one of whose wave an entry that is to leave the device has not been sent. -/
theorem witness_fences :
    (∃ i, Issues rowFence (lv 0 0 0 0x21 0 0 0) bench i ∧ FabricQuiet i) ∧ (∃ i, Issues rowFenceUn (lv 0 0 1 0 0 0 0) bench i ∧ FabricQuiet i)
    ∧ ∃ i, Issues rowFence (lv 0 0 0 0x22 0 0 0) { bench with cores := [(0, { core with copyOwners := [{ ctx := 0, seq := 1, gang := 0, idx := 0, kind := 4 }] })] } i
        ∧ ¬ FabricQuiet i := by
  refine ⟨⟨_, (issues (p := fun _ => true) (by decide +kernel)).1, ?_⟩, ⟨_, (issues (p := fun _ => true) (by decide +kernel)).1, ?_⟩,
    ⟨_, (issues (p := fun _ => true) (by decide +kernel)).1, ?_⟩⟩ <;> unfold FabricQuiet <;> decide +kernel

/-- Gangs of two waves: wave 1 has arrived and waits at its bar, or stands elsewhere. -/
def waveOf (idx : Nat) (i : Instr) (wt : Wait) : Wave := { wave with idx := idx, words := encode i, wait := wt }
def pair (i : Instr) (arrived : Bool) : State :=
  { bench with
    waves := [(0, waveOf 0 i .none), (1, waveOf 1 i (if arrived then .bar else .none))]
    gangs := [(0, { gang with waves := [0, 1], barArr := if arrived then [1] else [] })] }
def gangOf (i : Instr) (arrived : Bool) : Gang := ((pair i arrived).gang? 0).getD gang

theorem bar_words : rowOfWords (encode (.bar (lf 0 0 0 0 0 0 0))) = some (rowBar, lv 0 0 0 0 0 0 0)
    ∧ rowOfWords (encode (.barCnt (lf 0 0 1 0 82 0 0))) = some (rowBarCnt, lv 0 0 1 0 82 0 0)
    ∧ rowOfWords (encode (.ebar (lf 0 0 0 0 0 0 0))) = some (rowEbar, lv 0 0 0 0 0 0 0)
    ∧ rowOfWords (encode (.regroup (lf 0 0 0 0x10 16 0 0))) = some (rowRegroup, lv 0 0 0 0x10 16 0 0) :=
  ⟨rowWords (op := 0xB1) (by decide +kernel) rfl, rowWords (op := 0xB1) (by decide +kernel) rfl, rowWords (op := 0xBA) (by decide +kernel) rfl,
   rowWords (op := 0x87) (by decide +kernel) rfl⟩

/-- bar by the last of two waves and by the first; bar.cnt with a count of two. -/
theorem witness_bar :
    (∃ i, Arrives rowBar (lv 0 0 0 0 0 0 0) (pair (.bar (lf 0 0 0 0 0 0 0)) true) i (gangOf (.bar (lf 0 0 0 0 0 0 0)) true) none
      ∧ Completes (gangOf (.bar (lf 0 0 0 0 0 0 0)) true) i.w.idx none ∧ rowOfWords i.w.words = some (rowBar, lv 0 0 0 0 0 0 0)
      ∧ ∀ x ∈ (gangOf (.bar (lf 0 0 0 0 0 0 0)) true).left, x.1 ∈ (gangOf (.bar (lf 0 0 0 0 0 0 0)) true).barArr → x.1 ≠ i.w.idx →
          (pair (.bar (lf 0 0 0 0 0 0 0)) true).waitOf x.2 = .bar ∧ ((pair (.bar (lf 0 0 0 0 0 0 0)) true).pending x.2).isSome = true)
    ∧ (∃ i, Arrives rowBar (lv 0 0 0 0 0 0 0) (pair (.bar (lf 0 0 0 0 0 0 0)) false) i (gangOf (.bar (lf 0 0 0 0 0 0 0)) false) none
      ∧ ¬ Completes (gangOf (.bar (lf 0 0 0 0 0 0 0)) false) i.w.idx none)
    ∧ ∃ i, Arrives rowBarCnt (lv 0 0 1 0 82 0 0) (pair (.barCnt (lf 0 0 1 0 82 0 0)) false) i (gangOf (.barCnt (lf 0 0 1 0 82 0 0)) false) (some i.barN)
      ∧ ¬ Completes (gangOf (.barCnt (lf 0 0 1 0 82 0 0)) false) i.w.idx (some i.barN) := by
  refine ⟨⟨_, { (issues (p := fun _ => true) (by decide +kernel)).1 with
      converged := by decide +kernel, settled := by unfold Settled; decide +kernel, gang := by decide +kernel, member := by decide +kernel, once := by decide +kernel
      fresh := by decide +kernel, agrees := by decide +kernel, count := by intro c hc; cases hc }, by unfold Completes; decide +kernel, bar_words.1, by decide +kernel⟩,
    ⟨_, { (issues (p := fun _ => true) (by decide +kernel)).1 with
      converged := by decide +kernel, settled := by unfold Settled; decide +kernel, gang := by decide +kernel, member := by decide +kernel, once := by decide +kernel
      fresh := by decide +kernel, agrees := by decide +kernel, count := by intro c hc; cases hc }, by unfold Completes; decide +kernel⟩,
    ⟨_, { (issues (p := fun _ => true) (by decide +kernel)).1 with
      converged := by decide +kernel, settled := by unfold Settled; decide +kernel, gang := by decide +kernel, member := by decide +kernel, once := by decide +kernel
      fresh := by decide +kernel, agrees := by decide +kernel, count := ?_ }, by unfold Completes; decide +kernel⟩⟩
  rintro _ ⟨⟩
  exact ⟨rfl, by decide +kernel, by decide +kernel⟩

/-- ebar by the last wave of an ensemble, and by the first of two; rrot by the one member of an ensemble. -/
def ebarPair (arrived : Bool) : State :=
  { bench with
    waves := [(0, waveOf 0 (.ebar (lf 0 0 0 0 0 0 0)) .none), (1, waveOf 1 (.ebar (lf 0 0 0 0 0 0 0)) (if arrived then .ebar else .none))]
    gangs := [(0, { gang with waves := [0, 1], ebarArr := if arrived then [1] else [] })] }

theorem witness_ebar :
    (∃ i G, Issues rowEbar (lv 0 0 0 0 0 0 0) (ebarPair true) i ∧ i.ex.length = 32 ∧ Settled i ∧ (ebarPair true).gang? i.w.gang = some G ∧ G.task = false
      ∧ G.callable = false ∧ (i.w.idx, i.key) ∈ G.left ∧ ((ebarPair true).gangs.map (·.1)).Nodup ∧ (((ebarPair true).ensGangs G.ens).flatMap fun x => x.2.left.map (·.2)).Nodup
      ∧ (∀ x ∈ (ebarPair true).ensGangs G.ens, ∀ y ∈ x.2.left, y.2 ≠ i.key →
          y.1 ∈ x.2.ebarArr ∧ (ebarPair true).waitOf y.2 = .ebar ∧ ((ebarPair true).pending y.2).isSome = true)
      ∧ rowOfWords i.w.words = some (rowEbar, lv 0 0 0 0 0 0 0))
    ∧ ∃ i G, Issues rowEbar (lv 0 0 0 0 0 0 0) (ebarPair false) i ∧ (ebarPair false).gang? i.w.gang = some G
      ∧ ∃ x ∈ (ebarPair false).ensGangs G.ens, ∃ y ∈ x.2.left, y.2 ≠ i.key ∧ (y.1 ∉ x.2.ebarArr ∨ (ebarPair false).waitOf y.2 ≠ .ebar) := by
  refine ⟨⟨_, _, (issues (p := fun _ => true) (by decide +kernel)).1, by decide +kernel, by unfold Settled; decide +kernel, rfl, by decide +kernel, by decide +kernel, by decide +kernel,
    by decide +kernel, by decide +kernel, by decide +kernel, bar_words.2.2.1⟩, ⟨_, _, (issues (p := fun _ => true) (by decide +kernel)).1, rfl, by decide +kernel⟩⟩

/-- rrot of 64 bytes from address 0 to address 512, by a member alone. -/
def rotator : State := benchOf (waveOf 0 (.rrot (lf 0 85 0 0 80 86 0)) .none)
theorem noneWaits {s : State} (h : (s.waves.all fun x => x.2.wait = .none) = true) (c : Nat) : NoneWaits s c := by
  intro k _ a p d e
  unfold State.waitOf State.wave? at e
  split at e
  · next w hw =>
    have g := List.all_eq_true.mp h _ (find?_mem hw)
    simp [e] at g
  · cases e

/-- Every core's scratchpad is in canonical form. -/
theorem scratchForms {s : State} (h : (s.cores.all fun x => Memory.wf x.2.scratch) = true) (c : Nat) : Memory.wf (s.core c).scratch = true := by
  unfold State.core
  rcases Sparse.get_or (d := Core.reset) s.cores c with e | ⟨k, e⟩
  · rw [e]; rfl
  · exact List.all_eq_true.mp h _ e

theorem witness_rrot : ∃ i G r, Issues rowRrot (lv 0 85 0 0 80 86 0) rotator i ∧ i.ex.length = 32 ∧ Settled i ∧ rotator.gang? i.w.gang = some G ∧ i.rotCz = []
    ∧ ((((Says.waiting i .rrot).ensGangs G.ens).filter fun x => !x.2.left.isEmpty).map (Says.waiting i .rrot).rotOf) = [r].map some
    ∧ (r.len = i.rotL ∧ r.up = decide (i.v.sub = 0) ∧ (Says.waiting i .rrot).rotCz [r] r = none) ∧ (Says.waiting i .rrot).rotOwned [r] = false
    ∧ (∀ c, NoneWaits rotator c) ∧ Sparse.wf Core.reset rotator.cores = true ∧ ∀ c, Memory.wf (rotator.core c).scratch = true := by
  refine ⟨_, gang, { key := 0, gang := 0, G := gang, src := 0, dst := 512, len := 64, up := true }, (issues (p := fun _ => true) (by decide +kernel)).1, by decide +kernel,
    by unfold Settled; decide +kernel, by decide +kernel, by decide +kernel, by decide +kernel, by decide +kernel, by decide +kernel,
    noneWaits (by decide +kernel), by decide +kernel, scratchForms (by decide +kernel)⟩

/-- The bench with an object in its scratchpad at the address that k7 + 13 names, 16. -/
def withObj (o : BarObj) : State := bench.writeObj 0 16 o
def obj (e a : Nat) : BarObj := { exp := e, arr := a, ph := 0, ovr := false, cpe := false, rsv := 0, wt := 0, time := 0 }

theorem ueLocal_nil (code : Nat) (accs : List LaneAcc) : ueLocal code accs [] = [] := by simp [ueLocal]

theorem atObject {r : Row} {v : View} {s : State} {p : Iss → Bool} (h : meets r v s (fun i => decide (i.ex ≠ []) && i.s.inAlloc i.w.gang i.addrU 16
      && decide (i.addrU % 16 = 0) && !i.s.owned i.w.ctx i.core true i.objAcc && !i.s.readsA i.core i.key i.objAcc && decide (i.s.coreFlaws i.core 4 false i.objAcc = [])
      && decide (i.pipesCz = []) && i.pipesReady && Sparse.wf Core.reset i.s.cores
      && Memory.wf (i.s.core i.core).scratch && p i) = true) : ∃ i, AtObject r v s i ∧ p i = true := by
  obtain ⟨h, g⟩ := issues h
  simp only [Bool.and_eq_true, decide_eq_true_eq, Bool.not_eq_true'] at g
  obtain ⟨⟨⟨⟨⟨⟨⟨⟨⟨⟨g1, g2⟩, g3⟩, g4⟩, u1⟩, u2⟩, g5⟩, g6⟩, g7⟩, g8⟩, g9⟩ := g
  exact ⟨_, { h with some_ := g1, inside := g2, aligned := g3, unowned := g4, unread := u1, intact := fun c => (by rw [u2]; exact ueLocal_nil c _), piped := g5, ready := g6, cores := g7, bytes := g8 }, g9⟩

/-- Barrier objects: counts below EXP and up to it; waits in a phase that is over and in the present one, late or not. -/
theorem witness_objects :
    (∃ i, AtObject rowBarinit (lv 0 85 0 0 87 0 13) bench i ∧ ((i.s.readObj i.core i.addrU).wt = 0 && decide (0 < i.objExp ∧ i.objExp ≤ 65535)) = true)
    ∧ (∃ i, AtObject rowBarrive (lv 0 18 0 0 87 0 13) (withObj (obj 64 31)) i ∧ (!(i.s.readObj i.core i.addrU).bad && (i.ex.all fun l => i.rd .i32 i.v.c l ≠ 0)
        && decide ((i.s.readObj i.core i.addrU).arr + (i.ex.map fun l => i.rd .i32 i.v.c l).sum < (i.s.readObj i.core i.addrU).exp)) = true)
    ∧ (∃ i, AtObject rowBarrive (lv 0 18 0 0 87 0 13) (withObj (obj 64 32)) i ∧ (!(i.s.readObj i.core i.addrU).bad && (i.ex.all fun l => i.rd .i32 i.v.c l ≠ 0)
        && decide ((i.s.readObj i.core i.addrU).arr + (i.ex.map fun l => i.rd .i32 i.v.c l).sum = (i.s.readObj i.core i.addrU).exp)) = true)
    ∧ (∃ i, AtObject rowBarwait (lv 0 80 0 0 87 81 13) (withObj (obj 2 1)) i ∧ (!(i.s.readObj i.core i.addrU).bad && decide ((i.s.readObj i.core i.addrU).ph ≠ i.phase)) = true)
    ∧ (∃ i, AtObject rowBarwait (lv 0 80 0 0 87 80 13) (withObj (obj 2 1)) i ∧ (!(i.s.readObj i.core i.addrU).bad && decide ((i.s.readObj i.core i.addrU).ph = i.phase)
        && decide (dueBy i = some 0)) = true)
    ∧ (∃ i, AtObject rowBarwait (lv 0 81 0 0 87 80 13) (withObj (obj 2 1)) i ∧ (!(i.s.readObj i.core i.addrU).bad && decide ((i.s.readObj i.core i.addrU).ph = i.phase)
        && decide (dueBy i = some 1 ∧ (i.s.readObj i.core i.addrU).wt < 65535)) = true)
    ∧ ∃ i, AtObject rowBartest (lv 0 0 0 0 87 80 13) (withObj (obj 2 1)) i ∧ (!(i.s.readObj i.core i.addrU).bad) = true :=
  ⟨atObject (by decide +kernel), atObject (by decide +kernel), atObject (by decide +kernel), atObject (by decide +kernel), atObject (by decide +kernel),
   atObject (by decide +kernel), atObject (by decide +kernel)⟩

/-- waddr at the alias of scratchpad byte 0, whose word is zero, with the conditions equal and not equal, late and not; in global memory; with no lane; icinv; wtok
below and above its token's count. -/
theorem witness_waits :
    (∀ v ∈ [lv 0 80 0 0 87 80 0, lv 0 80 0 0x80 87 80 0, lv 0 81 0 0x80 87 80 0],
      ∃ i, Issues rowWaddr v (benchOf { wave with k := setAt wave.k 7 { KCell.zero with val := 0xFFFFFFFFFFE00000 } }) i
      ∧ (decide (i.ex ≠ []) && i.inAlias && decide (i.waddrCz = []) && !i.s.owned i.w.ctx i.core true i.aliasAccs
        && decide ((i.localCheck 0x60 i.aliasAccs).1 = [])) = true)
    ∧ (∃ i ls u, Accesses rowWaddr (lv 0 80 0 0 83 80 0) bench i (Access.read.at 0) i.waddrAccs i.waddrCz ls u ∧ (decide (i.ex ≠ []) && !i.inAlias) = true)
    ∧ (∃ i, Issues rowWaddr (off (lf 0 80 0 0 83 80 0)).view bench i ∧ i.ex = [])
    ∧ (∃ i, Issues rowIcinv (lv 0 0 0 0 83 84 0) bench i ∧ i.ex ≠ [])
    ∧ (∃ i, Issues rowWtok (lv 0 0 0 0 80 0 0) bench i ∧ i.wtokA % 8 ≤ 5 ∧ i.w.tokenCount (i.wtokA % 8) ≤ i.wtokA / 8 % 64)
    ∧ ∃ i, Issues rowWtok (sv 48 0) (benchOf { wave with ops := [{ id := 0, token := 1, kind := .result, mem := true }] }) i ∧ i.wtokA % 8 ≤ 5
        ∧ i.wtokA / 8 % 64 < i.w.tokenCount (i.wtokA % 8) := by
  refine ⟨?_, accesses Iss.waddrAccs Iss.waddrCz (fun i _ _ => decide (i.ex ≠ []) && !i.inAlias) (by decide +kernel), ⟨_, (issues (p := fun _ => true) (by decide +kernel)).1, by decide +kernel⟩,
    ⟨_, (issues (p := fun _ => true) (by decide +kernel)).1, by decide +kernel⟩, ⟨_, (issues (p := fun _ => true) (by decide +kernel)).1, by decide +kernel⟩,
    ⟨_, (issues (p := fun _ => true) (by decide +kernel)).1, by decide +kernel⟩⟩
  exact allIssue _ _ (by decide +kernel)

/-! ### Registers by name, caches, local memory, futures -/

/-- pdrop by the even lanes; wrsp of the flags, of %rstate, and with no lane; wrlane into the first and the last lane. -/
theorem witness_registers :
    (∃ i, Issues rowPdrop (even (lf 0 0 7 0 0 0 0)).view bench i ∧ ∀ j ∈ i.ex, (i.w.lane j).preds.length = 8)
    ∧ (∃ i, Issues rowWrsp (lv 0 0 0 0 2 82 0) bench i ∧ i.ex ≠ [] ∧ i.wrspOk = true) ∧ (∃ i, Issues rowWrsp (sv 2 51) bench i)
    ∧ (∃ i, Issues rowWrlane (lv 18 0 0 0 82 80 0) bench i ∧ (lv 18 0 0 0 82 80 0).d = .named 2) ∧ ∃ i, Issues rowPerfrd (lv 0 0 0 0 87 0 0) bench i := by
  refine ⟨⟨_, (issues (p := fun _ => true) (by decide +kernel)).1, by decide +kernel⟩, ⟨_, (issues (p := fun _ => true) (by decide +kernel)).1, by decide +kernel⟩,
    ⟨_, (issues (p := fun _ => true) (by decide +kernel)).1⟩, ⟨_, (issues (p := fun _ => true) (by decide +kernel)).1, by decide +kernel⟩,
    ⟨_, (issues (p := fun _ => true) (by decide +kernel)).1⟩⟩

/-- regroup by the only wave of its gang, with lanes that carry the keys 0, 16, 32, … -/
theorem witness_regroup : ∃ i, Issues rowRegroup (lv 0 0 0 0x10 16 0 0) (benchOf (waveOf 0 (.regroup (lf 0 0 0 0x10 16 0 0)) .none)) i ∧ Settled i ∧ i.ex = i.w.heldLanes ∧ i.ex ≠ []
    ∧ i.pipesCz = [] ∧ i.pipesReady = true ∧ i.s.gang? i.w.gang = some gang ∧ gang.left = [(i.w.idx, i.key)] ∧ rowOfWords i.w.words = some (rowRegroup, lv 0 0 0 0x10 16 0 0)
    ∧ i.w.lanes.length = 32 ∧ (∀ j, j < 32 → (i.w.lane j).ret.length ≤ 8) ∧ i.nextPc ≠ retiredPc ∧ gang.barArr = [] ∧ gang.ebarArr = []
    ∧ Tidy (benchOf (waveOf 0 (.regroup (lf 0 0 0 0x10 16 0 0)) .none)) :=
  ⟨_, (issues (p := fun _ => true) (by decide +kernel)).1, by unfold Settled; decide +kernel, by decide +kernel, by decide +kernel, by decide +kernel, by decide +kernel,
    by decide +kernel, by decide +kernel, bar_words.2.2.2, by decide +kernel, by decide +kernel, by decide +kernel, by decide +kernel, by decide +kernel,
    by unfold Tidy; decide +kernel⟩

/-- The bench at a tick of the timestamp. -/
def atTick (n : Nat) : State := { bench with dev := { bench.dev with tsNow := BitVec.ofNat 64 n } }

/-- Prefetch, flush, invalidation, resizing; wsync at the end of a refresh, just before, and with no cycles left before the next. -/
theorem witness_caches :
    (∃ i, Issues rowPref (lv 0 0 0 0 83 16 0) bench i) ∧ (∃ i, Issues rowCflush (lv 0 0 1 0 0 0 0) bench i) ∧ (∃ i, Issues rowCinv (lv 0 0 0 0 83 85 0) bench i ∧ i.ex ≠ [])
    ∧ (∃ i, Issues rowCresize (lv 16 0 0 0 85 0 0) bench i ∧ i.ex ≠ [])
    ∧ (∃ i, Issues rowWsync (lv 0 0 0 0 85 0 0) (atTick 1256) i ∧ windowFits i 64)
    ∧ (∃ i, Issues rowWsync (lv 0 0 0 0 85 0 0) (atTick 1255) i ∧ i.ex ≠ [] ∧ ¬ windowFits i 64)
    ∧ ∃ i, Issues rowWsync (lv 0 0 0 0 85 0 0) (atTick 1999) i ∧ i.ex ≠ [] ∧ ¬ windowFits i 64 := by
  refine ⟨⟨_, (issues (p := fun _ => true) (by decide +kernel)).1⟩, ⟨_, (issues (p := fun _ => true) (by decide +kernel)).1⟩,
    ⟨_, (issues (p := fun _ => true) (by decide +kernel)).1, by decide +kernel⟩, ⟨_, (issues (p := fun _ => true) (by decide +kernel)).1, by decide +kernel⟩,
    ⟨_, (issues (p := fun _ => true) (by decide +kernel)).1, ?_⟩, ⟨_, (issues (p := fun _ => true) (by decide +kernel)).1, by decide +kernel, ?_⟩,
    ⟨_, (issues (p := fun _ => true) (by decide +kernel)).1, by decide +kernel, ?_⟩⟩ <;> unfold windowFits <;> decide +kernel

/-- The bench with page 1 a page of futures, and the words that n0 and k3 name full or empty. -/
def futures (full : Bool) : State :=
  { bench with mem := { bench.mem with
      cells := writeBytes bench.mem.cells 0x14108 (toBytes 8 0x200BF), full := if full then (List.range 64).map fun j => (0x4000 + j, true) else [] } }
def words8 (ls : List LaneX) : List Nat := ls.map LaneX.word8

def allFull (i : Iss) (ls : List LaneX) (u : State) : Bool := (words8 ls).all u.isFull && u.mem.deferred.all fun d => d.wave ≠ i.key
def oneEmpty (i : Iss) (ls : List LaneX) (u : State) : Bool := match ls with
  | [x] => !u.isFull x.word8 && (u.mem.deferred.all fun d => d.wave ≠ i.key) && u.futRoom i.core (i.s.ctx i.w.ctx).futW x.word8 && decide (u.ctx i.w.ctx = i.s.ctx i.w.ctx)
  | _ => false
def fillable (i : Iss) (ls : List LaneX) (u : State) : Bool :=
  (words8 ls).all (fun w => !u.isFull w) && decide (words8 ls).Nodup && (u.mem.deferred.all fun d => !(words8 ls).contains d.word) && Memory.wf u.mem.cells
  && Memory.wf u.mem.host && Sparse.wf false u.mem.full
  && (u.writeParts (u.checks i.core) false (ls.flatMap fun x => partsOf x.pieces (toBytes 8 (i.rd .i64 i.v.c x.acc.lane)))).isSome
def oneLane : State := { futures false with waves := [(0, { wave with lanes := [lane 0] })] }

/-- Futures: full words for every lane, and for none; an empty one for one lane; words to fill and words to empty. -/
theorem witness_ldfut :
    (∃ i ls u, Accesses rowLdfut (lv 0 0 0 0 83 16 0) (futures true) i Access.read.future i.accs8 (i.futureCz 0x4C) ls u ∧ allFull i ls u = true)
    ∧ (∃ i ls u, Accesses rowLdfut (off (lf 0 0 0 0 83 16 0)).view (futures true) i Access.read.future i.accs8 (i.futureCz 0x4C) ls u ∧ allFull i ls u = true)
    ∧ ∃ i ls u, Accesses rowLdfut (lv 0 0 0 0 83 16 0) oneLane i Access.read.future i.accs8 (i.futureCz 0x4C) ls u ∧ oneEmpty i ls u = true :=
  ⟨accesses Iss.accs8 (fun i => i.futureCz 0x4C) allFull (by decide +kernel), accesses Iss.accs8 (fun i => i.futureCz 0x4C) allFull (by decide +kernel),
   accesses Iss.accs8 (fun i => i.futureCz 0x4C) oneEmpty (by decide +kernel)⟩
theorem witness_stfill_and_streset :
    (∃ i ls u, Accesses rowStfill (lv 0 16 0 0 83 16 0) (futures false) i Access.write.future i.accs8 (i.futureCz 0x4D) ls u ∧ fillable i ls u = true)
    ∧ ∃ i ls u, Accesses rowStreset (lv 0 0 0 0 83 16 0) (futures true) i Access.write.future i.accs8 (i.futureCz 0x4D) ls u ∧ Sparse.wf false u.mem.full = true :=
  ⟨accesses Iss.accs8 (fun i => i.futureCz 0x4D) fillable (by decide +kernel),
   accesses Iss.accs8 (fun i => i.futureCz 0x4D) (fun _ _ u => Sparse.wf false u.mem.full) (by decide +kernel)⟩

/-! ### Copy queues and the matrix array -/

/-- The bench with a copy queue on page 1 that holds so many entries. -/
def queued (held : Nat) : State :=
  { bench with mem := { bench.mem with cells := writeBytes bench.mem.cells 0x100400 ([0x1000, 2 ^ 64 - 200, 2 ^ 64 - 200 + held, 2 ^ 64 - 200].flatMap (toBytes 8)) } }

/-- An append is not held up. -/
def appendable (sys : Bool) (regs : List Nat) (kind : Nat) (i : Iss) (ls : List LaneX) (u : State) : Bool :=
  i.ex ≠ [] && decide (i.s.qBase i.w.ctx i.core ≠ 0) && decide ((i.s.qTail i.w.ctx i.core + 2 ^ 64 - i.s.qHead i.w.ctx i.core) % 2 ^ 64 ≠ 256)
  && (!(i.s.core i.core).checkEn || regs.all fun k => i.w.ready (i.w.kCell k).due)
  && decide (i.fenceFirst sys = none) && (kind ≠ 3 || (!(i.s.core i.core).breg.zeroing && !(i.s.core i.core).breg.others i.w.gang))
  && decide (i.s.queueAt i.w.ctx i.core + 64 ≤ hostBase)
  && ((allPieces ls).all fun p => p.x.pa + p.n ≤ i.s.queueAt i.w.ctx i.core || i.s.queueAt i.w.ctx i.core + 64 ≤ p.x.pa)
  && Memory.wf u.mem.cells && Memory.wf u.mem.host && Sparse.wf Core.reset u.cores
def place (i : Iss) : List LaneAcc := [{ lane := i.ex.headD 0, a := i.s.ringAt i.w.ctx i.core (i.s.qTail i.w.ctx i.core), n := 64 }]

theorem appends {r : Row} {v : View} {s : State} (sys : Bool) (regs : List Nat) (kind : Nat)
    (h : meets r v s (reachable (Access.write.at 0) place (fun _ => []) (appendable sys regs kind)) = true) :
    ∃ i ls u, Appends r v s i sys regs kind ls u := by
  obtain ⟨i, ls, u, h, g⟩ := accesses place (fun _ => []) _ h
  simp only [appendable, Bool.and_eq_true, Bool.or_eq_true, decide_eq_true_eq, Bool.not_eq_true', List.all_eq_true] at g
  obtain ⟨⟨⟨⟨⟨⟨⟨⟨⟨⟨g1, g2⟩, g3⟩, g4⟩, g0⟩, g5⟩, g6⟩, g7⟩, g8⟩, g9⟩, g10⟩ := g
  refine ⟨i, ls, u, ⟨h, g1, g2, g3, fun hc => ?_, g0, fun hk => ?_, g6, g7, ⟨⟨g8, g9⟩, g10⟩⟩⟩
  · rcases g4 with g4 | g4
    · rw [g4] at hc; cases hc
    · exact g4
  · rcases g5 with g5 | g5
    · exact absurd hk g5
    · exact g5

/-- Appends into an empty queue and into one with a single place left, whose index wraps; with a completion block; to the B-region; with no lane; from scratchpad. -/
theorem witness_appends :
    (∃ i ls u, Appends rowCpy (lv 0 84 3 0 82 83 0) (queued 0) i false [] 1 ls u) ∧ (∃ i ls u, Appends rowCpy (lv 0 84 0 0x40 82 83 4) (queued 255) i false [4, 5, 6] 1 ls u)
    ∧ (∃ i ls u, Appends rowCpy2d (lv 0 84 0 0 82 83 0) (queued 7) i false [4, 5, 6] 2 ls u ∧ (lv 0 84 0 0 82 83 0).c = .k 4)
    ∧ (∃ i ls u, Appends rowCpyb (lv 0 84 0 0 82 83 0) (queued 0) i false [] 3 ls u) ∧ (∃ i ls u, Appends rowPut (lv 0 84 0 0 82 83 0) (queued 0) i false [] 4 ls u)
    ∧ (∃ i ls u, Appends rowMsg (lv 0 0 1 0 82 83 0) (queued 0) i false [] 5 ls u)
    ∧ (∃ i, Issues rowPut (off (lf 0 84 0 0 82 83 0)).view (queued 0) i ∧ i.ex = [])
    ∧ (∃ i ls u, Appends rowQput (lv 0 0 0 0 85 0 0) (queued 0) i false [] 0 ls u ∧ i.qputA = 64) :=
  ⟨appends false [] 1 (by decide +kernel), appends false [4, 5, 6] 1 (by decide +kernel),
   (appends false [4, 5, 6] 2 (by decide +kernel)).imp fun _ h => h.imp fun _ h => h.imp fun _ h => ⟨h, by decide +kernel⟩,
   appends false [] 3 (by decide +kernel), appends false [] 4 (by decide +kernel), appends false [] 5 (by decide +kernel),
   ⟨_, (issues (p := fun _ => true) (by decide +kernel)).1, by decide +kernel⟩, by
    obtain ⟨h, g⟩ := issues (r := rowQput) (v := lv 0 0 0 0 85 0 0) (s := queued 0) (p := fun i => i.qputA = 64) (by decide +kernel)
    obtain ⟨i, ls, u, h'⟩ := appends (r := rowQput) (v := lv 0 0 0 0 85 0 0) (s := queued 0) false [] 0 (by decide +kernel)
    exact ⟨i, ls, u, h', by
      have e := h'.at_issue.symm.trans h.at_issue
      rw [Option.some.inj e]
      exact of_decide_eq_true g⟩⟩

/-- qseq; cpwait for a number that PROG has reached, and for the next. -/
theorem witness_queue_records :
    (∃ i, Issues rowQseq (lv 0 0 1 0 0 0 0) (queued 0) i) ∧ (∃ i, Issues rowCpwait (lv 0 0 0 0 82 0 0) (queued 0) i ∧ u64 i (lv 0 0 0 0 82 0 0).a ≤ (queued 0).qProg i.w.ctx i.core)
    ∧ ∃ i, Issues rowCpwait (lv 0 0 0 0 82 0 0) bench i ∧ i.ex ≠ [] ∧ bench.qProg i.w.ctx i.core < u64 i (lv 0 0 0 0 82 0 0).a :=
  ⟨⟨_, (issues (p := fun _ => true) (by decide +kernel)).1⟩, ⟨_, (issues (p := fun _ => true) (by decide +kernel)).1, by decide +kernel⟩,
    ⟨_, (issues (p := fun _ => true) (by decide +kernel)).1, by decide +kernel⟩⟩

/-- The bench with the array owned by its wave or free, and an instruction with so many K-steps done of 8 in it; the gang holds the B-region. -/
def mxOp (k : Nat) : MxOp :=
  { wave := 0, ctx := 0, aAt := 0, weights := false, op := 0, fmt := 10, acc := 1, rows := List.replicate 64 (List.replicate 64 1), bOff := 0, k := k, steps := 8, scales := [], specials := [], blk32 := false }
def array (owner : Option Nat) (ops : List MxOp) : State :=
  { bench with cores := [(0, { core with mx := { core.mx with owner := owner, ops := ops }, breg := { core.breg with holder := some 0 } })] }

/-- The array free, taken by another, waited for by a former owner, given back to it, and asked for by its owner; released idle and busy,
waited for idle and busy. -/
def former : State := { bench with cores := [(0, { core with mx := { core.mx with owner := some 5, fifo := [{ stamp := 0, wave := 0, image := some ([], 0) }] } })] }
def restoredOwner : State := { array (some 0) [] with waves := [(0, { wave with mxStamp := some 0 })] }
theorem witness_array :
    (∃ i, Issues rowMxacq (lv 0 0 0 0 0 0 0) bench i ∧ i.ex.length = 32 ∧ (arr bench i).owner = none ∧ (arr bench i).fifo = [])
    ∧ (∃ i, Issues rowMxacq (sv 0 0) (array (some 5) []) i ∧ i.ex.length = 32 ∧ (arr (array (some 5) []) i).owner = some 5 ∧ 5 ≠ i.key
        ∧ (array (some 5) []).mxFormer i.key = false)
    ∧ (∃ i, Issues rowMxacq (sv 0 0) former i ∧ i.ex.length = 32 ∧ (arr former i).owner ≠ some i.key ∧ former.mxFormer i.key = true)
    ∧ (∃ i, Issues rowMxacq (sv 0 0) restoredOwner i ∧ i.ex.length = 32 ∧ (arr restoredOwner i).owner = some i.key ∧ i.w.mxStamp ≠ none)
    ∧ (∃ i, Issues rowMxacq (sv 0 0) (array (some 0) []) i ∧ i.ex.length = 32 ∧ (arr (array (some 0) []) i).owner = some i.key ∧ i.w.mxStamp = none)
    ∧ (∃ i, Issues rowMxrel (lv 0 0 0 0 0 0 0) (array (some 0) []) i ∧ i.ex.length = 32 ∧ i.holdsMx = true ∧ (array (some 0) []).mxBusy i.key = false)
    ∧ (∃ i, Issues rowMxrel (sv 0 0) (array (some 0) [mxOp 7]) i ∧ i.ex.length = 32 ∧ i.holdsMx = true ∧ (array (some 0) [mxOp 7]).mxBusy i.key = true)
    ∧ (∃ i, Issues rowMxwait (lv 0 0 0 0 0 0 0) (array (some 0) []) i ∧ i.holdsMx = true ∧ (array (some 0) []).mxBusy i.key = false)
    ∧ (∃ i, Issues rowMxwait (sv 0 0) (array (some 0) [mxOp 0]) i ∧ i.holdsMx = true ∧ i.ex ≠ [] ∧ (array (some 0) [mxOp 0]).mxBusy i.key = true)
    ∧ Sparse.wf Core.reset (array (some 0) [mxOp 0]).cores = true ∧ Sparse.wf Core.reset former.cores = true := by
  refine ⟨⟨_, (issues (p := fun _ => true) ?_).1, by decide +kernel⟩, ⟨_, (issues (p := fun _ => true) ?_).1, by decide +kernel⟩,
   ⟨_, (issues (p := fun _ => true) ?_).1, by decide +kernel⟩, ⟨_, (issues (p := fun _ => true) ?_).1, by decide +kernel⟩,
   ⟨_, (issues (p := fun _ => true) ?_).1, by decide +kernel⟩, ⟨_, (issues (p := fun _ => true) ?_).1, by decide +kernel⟩,
   ⟨_, (issues (p := fun _ => true) ?_).1, by decide +kernel⟩, ⟨_, (issues (p := fun _ => true) ?_).1, by decide +kernel⟩,
   ⟨_, (issues (p := fun _ => true) ?_).1, by decide +kernel⟩, by decide +kernel, by decide +kernel⟩ <;> decide +kernel

/-- An mma of n K-steps may enter the array. -/
def startable (n : Nat) (pre : Iss → Bool) (s : State) (i : Iss) : Bool :=
  decide (i.ex.length = 32) && i.holdsMx && decide (i.tileCz n = []) && pre i && decide ((arr s i).ops.length < 2)
    && (bit i.v.sub 4 || !s.owned i.w.ctx i.core true (i.rowsA n)) && !(i.flawsA n ++ i.flawsB n).any Flaw.fatal && Sparse.wf Core.reset s.cores
    && Memory.wf (s.core i.core).scratch

theorem starts {r : Row} {v : View} {s : State} (n : Nat) (pre : Iss → Bool) (h : meets r v s (startable n pre s) = true) (e : ((s.iss r v).map (·.v.sub)) = some v.sub) :
    ∃ i, Issues r v s i ∧ CanStart v n (fun i => pre i = true) s i := by
  obtain ⟨h, g⟩ := issues h
  have e : (at_ r v s).v.sub = v.sub := by
    have := h.at_issue
    rw [this] at e
    exact Option.some.inj e
  simp only [startable, Bool.and_eq_true, Bool.or_eq_true, decide_eq_true_eq, Bool.not_eq_true'] at g
  obtain ⟨⟨⟨⟨⟨⟨⟨⟨g1, g2⟩, g3⟩, g4⟩, g5⟩, g6⟩, g7⟩, g8⟩, g9⟩ := g
  refine ⟨_, h, ⟨g1, g2, g3, g4, g5, fun hb => ?_, g7, g8, g9⟩⟩
  rcases g6 with g6 | g6
  · rw [e] at g6; rw [hb] at g6; cases g6
  · exact g6

/-- mma with one row of the smallest and of the largest length that the allocation holds, one instruction in the array before it; mmas with scales. -/
theorem witness_mma :
    (∃ i, Issues rowMma (lv 0 1 10 0 80 85 1) (array (some 0) [mxOp 0]) i ∧ CanStart (lv 0 1 10 0 80 85 1) 8 (fun _ => true = true) (array (some 0) [mxOp 0]) i)
    ∧ (∃ i, Issues rowMma (lv 0 7 0x1A 0 83 80 255) (array (some 0) []) i ∧ CanStart (lv 0 7 0x1A 0 83 80 255) 2040 (fun _ => true = true) (array (some 0) []) i)
    ∧ (∃ i, Issues rowMmaSg1 (lv 0 0 9 0x10 80 80 16) (array (some 0) []) i ∧ CanStart (lv 0 0 9 0x10 80 80 16) 128 (fun _ => true = true) (array (some 0) []) i)
    ∧ (∃ i, Issues rowMmas (lv 16 1 0xC4 0 80 85 0) (array (some 0) []) i
        ∧ CanStart (lv 16 1 0xC4 0 80 85 0) 4 (fun i => (decide (0 + 1 < i.w.n) && !i.scaleStale) = true) (array (some 0) []) i)
    ∧ (∃ i, Issues rowMmas32 (lv 23 1 0x20 0x10 80 85 0) (array (some 0) []) i
        ∧ CanStart (lv 23 1 0x20 0x10 80 85 0) 8 (fun i => (!i.scaleStale) = true) (array (some 0) []) i)
    ∧ scaledSteps (lv 16 1 0xC4 0 80 85 0) = 4 ∧ scaledSteps (lv 23 1 0x20 0x10 80 85 0) = 8
    ∧ (lv 16 1 0xC4 0 80 85 0).d = .named 0 ∧ (lv 23 1 0x20 0x10 80 85 0).d = .named 7 :=
  ⟨starts 8 (fun _ => true) (by decide +kernel) (by decide +kernel), starts 2040 (fun _ => true) (by decide +kernel) (by decide +kernel),
   starts 128 (fun _ => true) (by decide +kernel) (by decide +kernel), starts 4 (fun i => decide (0 + 1 < i.w.n) && !i.scaleStale) (by decide +kernel) (by decide +kernel),
   starts 8 (fun i => !i.scaleStale) (by decide +kernel) (by decide +kernel), by decide +kernel, by decide +kernel, by decide +kernel, by decide +kernel⟩

theorem onTile {r : Row} {v : View} {s : State} {p : Iss → Bool} (h : meets r v s (fun i => i.holdsMx && decide (i.ex ≠ []) && !s.mxBusy i.key && Sparse.wf Core.reset s.cores
      && Sparse.wf 0 (s.core i.core).mx.acc && Memory.wf (s.core i.core).scratch && p i) = true) : ∃ i, OnTile r v s i ∧ p i = true := by
  obtain ⟨h, g⟩ := issues h
  simp only [Bool.and_eq_true, decide_eq_true_eq, Bool.not_eq_true'] at g
  obtain ⟨⟨⟨⟨⟨⟨g1, g2⟩, g3⟩, g4⟩, g5⟩, g6⟩, g7⟩ := g
  exact ⟨_, { h with holds := g1, some_ := g2, idle := g3, cores := g4, cells := g5, bytes := g6 }, g7⟩
def placed (i : Iss) : Bool :=
  i.tileAddr % 64 = 0 && i.s.inAlloc i.w.gang i.tileAddr (4096 * accBytes i.v) && !i.s.owned i.w.ctx i.core true i.tileAcc
    && !(i.s.coreFlaws i.core 4 false i.tileAcc).any Flaw.fatal

/-- Tiles: moves of 32-bit and of 16-bit cells; rows 0 and 63; a K-step that is not the last and one that is. -/
theorem witness_tiles :
    (∃ i, OnTile rowAcczero (lv 0 7 0 0 0 0 0) (array (some 0) []) i ∧ true = true)
    ∧ (∃ i, OnTile rowAccst (lv 0 0 10 0 80 0 0) (array (some 0) []) i ∧ placed i = true) ∧ (∃ i, OnTile rowAccst (lv 0 1 11 0 85 0 0) (array (some 0) []) i ∧ placed i = true)
    ∧ (∃ i, OnTile rowAccld (lv 0 7 12 0 85 0 0) (array (some 0) []) i ∧ placed i = true)
    ∧ (∃ i, Issues rowAccrd (lv 16 1 0 0 80 87 0) (array (some 0) []) i ∧ i.holdsMx = true ∧ i.ex ≠ [] ∧ i.w.operand (lv 16 1 0 0 80 87 0) .i32 [] 0 (lv 16 1 0 0 80 87 0).a ≤ 63
        ∧ (lv 16 1 0 0 80 87 0).b = .k 7)
    ∧ (((array (some 0) [mxOp 0, mxOp 3]).core 0).mx.ops = [mxOp 0, mxOp 3] ∧ Sparse.wf Core.reset (array (some 0) [mxOp 0, mxOp 3]).cores = true
        ∧ Sparse.wf 0 ((array (some 0) [mxOp 0, mxOp 3]).core 0).mx.acc = true ∧ (∃ k, (array (some 0) [mxOp 0, mxOp 3]).wave? (mxOp 0).wave = some k ∧ k.wait = .none ∧ k.heldLanes ≠ [])
        ∧ (mxOp 0).rows.length = 64 ∧ (mxOp 0).atWindow (array (some 0) [mxOp 0, mxOp 3]).now = false ∧ ¬ (mxOp 0).steps ≤ (mxOp 0).k + 1 ∧ (mxOp 7).steps ≤ (mxOp 7).k + 1) :=
  ⟨onTile (p := fun _ => true) (by decide +kernel), onTile (by decide +kernel), onTile (by decide +kernel), onTile (by decide +kernel),
   ⟨_, (issues (p := fun _ => true) (by decide +kernel)).1, by decide +kernel⟩,
   by decide +kernel, by decide +kernel, by decide +kernel, ⟨wave, rfl, by decide +kernel⟩, by decide +kernel⟩

/-! ### Tasks, launches, rays, rendering -/

/-- The bench with these bytes at the start of page 1 and a value in k5, its launch a renderer's. -/
def rendering (bs : List Nat) (x : Nat) : State :=
  { withK5 x with
    mem := { bench.mem with cells := writeBytes bench.mem.cells 0x20000 (bs.map fun b => BitVec.ofNat 8 b) }
    gangs := [(0, { gang with rend := true, slot := some (0, 0) })] }

def spawnable (i : Iss) (ls : List LaneX) (u : State) : Bool :=
  decide (i.v.md / 64 % 16 < 13) && i.s.codeOk i.w.ctx (u64 i i.v.a) && Sparse.wf Home.reset i.s.ctq.homes && headerOk (ofBytes (bytesOf u (allPieces ls)))

theorem sound {i : Iss} {l : List LaneAcc} (h : (i.s.core i.core).flaws = []) : Sound i l := by
  unfold Sound Iss.localCheck
  have e : ∀ w, i.s.coreFlaws i.core 4 w l = [] := fun w => by unfold State.coreFlaws; rw [h]; rfl
  simp only [e]
  exact Prod.ext (ueLocal_nil _ _) rfl

theorem spawns {v : View} {s : State} (p : Iss → Bool) (h : meets rowTspawn v s (reachable Access.read Iss.headerAcc (fun _ => []) fun i ls u =>
      spawnable i ls u && p i) = true) (e : ((s.iss rowTspawn v).map fun i => (i.v, i.s)) = some (v, s)) :
    ∃ i ls u, Accesses rowTspawn v s i Access.read i.headerAcc [] ls u ∧ CanSpawn v s i (ofBytes (bytesOf u (allPieces ls))) ∧ p i = true := by
  obtain ⟨i, ls, u, h, g⟩ := accesses Iss.headerAcc (fun _ => []) _ h
  have e : i.v = v ∧ i.s = s := by
    rw [h.at_issue] at e
    exact ⟨congrArg Prod.fst (Option.some.inj e), congrArg Prod.snd (Option.some.inj e)⟩
  simp only [spawnable, Bool.and_eq_true, decide_eq_true_eq] at g
  rw [e.1, e.2] at g
  exact ⟨i, ls, u, h, ⟨g.1.1.1.1, g.1.1.1.2, g.1.1.2, g.1.2⟩, g.2⟩

/-- tspawn of a task whose header stands before it, with every lane to accept and with none. -/
theorem witness_tspawn :
    (∃ i ls u, Accesses rowTspawn (lv 0 16 0 0x300 85 16 0) (rendering [0x40, 0x00, 0x00, 0x5A] 0x1008) i Access.read i.headerAcc [] ls u
      ∧ CanSpawn (lv 0 16 0 0x300 85 16 0) (rendering [0x40, 0x00, 0x00, 0x5A] 0x1008) i (ofBytes (bytesOf u (allPieces ls))) ∧ decide (unaccepted i ≠ []) = true)
    ∧ ∃ i ls u, Accesses rowTspawn (off (lf 0 16 0 0 85 16 0)).view (rendering [8, 0, 20, 0x5A] 0x1008) i Access.read i.headerAcc [] ls u
      ∧ CanSpawn (off (lf 0 16 0 0 85 16 0)).view (rendering [8, 0, 20, 0x5A] 0x1008) i (ofBytes (bytesOf u (allPieces ls))) ∧ decide (unaccepted i = []) = true :=
  ⟨spawns (fun i => decide (unaccepted i ≠ [])) (by decide +kernel) rfl, spawns (fun i => decide (unaccepted i = [])) (by decide +kernel) rfl⟩

/-- A descriptor at 0x1000: one wave of 8 named registers at 0x1000, one gang; FLAGS as given. -/
def descriptor (flags : Nat) : List Nat :=
  [0x00, 0x10, 0, 0, 0, 0, 0, 0] ++ List.replicate 24 0 ++ [1, 0, 0, 0, 1, 0, 0, 0, 1, 0, 0, 0] ++ [8, 1, 1, 3] ++ [0, 0, 0, 0] ++ [flags, 0, 0, 0] ++ List.replicate 72 0
/-- A task descriptor whose eight words are its own first bytes. -/
def taskDesc : List Nat := (descriptor 2).take 8 ++ [0x00, 0x10] ++ (descriptor 2).drop 10
def descOf (r : DescRes × State) (task : Bool) : Bool := match r.1 with | .ok d => d.task = task | _ => false
theorem desc_ok {r : DescRes × State} {task : Bool} (h : descOf r task = true) : ∃ d u, r = (.ok d, u) ∧ d.task = task := by
  obtain ⟨x, u⟩ := r
  unfold descOf at h
  split at h
  · rename_i d hd
    exact ⟨d, u, by simp only at hd; rw [hd], of_decide_eq_true h⟩
  · cases h

def canLaunch (v : View) (s : State) (task : Bool) (i : Iss) : Bool :=
  i.ex ≠ [] && decide (u64 i v.a % 128 = 0) && !s.owned i.w.ctx i.core false [{ lane := 0, a := u64 i v.a, n := 128 }]
    && descOf (s.readDesc (some i.core) i.w.ctx (u64 i v.a)) task

theorem launches {v : View} {s : State} {task : Bool} (h : meets rowLaunch v s (canLaunch v s task) = true) :
    ∃ i d u, Issues rowLaunch v s i ∧ CanLaunch v s i d u ∧ d.task = task := by
  obtain ⟨h, g⟩ := issues h
  simp only [canLaunch, Bool.and_eq_true, decide_eq_true_eq, Bool.not_eq_true'] at g
  obtain ⟨d, u, e, t⟩ := desc_ok g.2
  exact ⟨_, d, u, h, ⟨g.1.1.1, g.1.1.2, g.1.2, e⟩, t⟩

/-- What a task descriptor's arguments need. -/
def argsRead (s : State) : Bool :=
  match s.readDesc (some 0) 0 0x1000 with
  | (.ok d, u) => (match u.readVirt (some 0) 0 d.args 32 Access.read with
    | (.ok _, u') => Sparse.wf Home.reset u'.ctq.homes
    | _ => false)
  | _ => false

/-- launch of a gang descriptor and of a task descriptor, whose eight words can be read. -/
theorem witness_launch :
    (∃ i d u, Issues rowLaunch (lv 0 0 0 0 83 0 0) (rendering (descriptor 0) 0) i ∧ CanLaunch (lv 0 0 0 0 83 0 0) (rendering (descriptor 0) 0) i d u ∧ d.task = false)
    ∧ (∃ i d u, Issues rowLaunch (lv 0 0 0 0 83 0 0) (rendering taskDesc 0) i ∧ CanLaunch (lv 0 0 0 0 83 0 0) (rendering taskDesc 0) i d u ∧ d.task = true)
    ∧ argsRead (rendering taskDesc 0) = true :=
  ⟨launches (by decide +kernel), launches (by decide +kernel), by decide +kernel⟩

/-- pclose of pipe 3, bound out of the gang into itself; targ and tqry. -/
def pipe : Pipe := { consumer := 0, index := 2, base := 0x8000, size := 4096, closed := false, count := 0, head := 0 }
def piped : State := { bench with gangs := [(0, { gang with pipes := [none, none, some pipe, none, none, none, none, some pipe] })] }
theorem witness_pipes_and_queries :
    (∃ i, Issues rowPclose (lv 0 0 0 0 3 0 0) piped i ∧ piped.pipeEnd i.w.gang (lv 0 0 0 0 3 0 0).aRaw false = some (0, 2, pipe))
    ∧ (∃ i, Computable aluTarg rowTarg (lv 0 0 0 0 82 0 0) { bench with gangs := [(0, { gang with task := true })] } i) ∧ ∃ i, Computable aluTqry rowTqry (lv 0 0 0 0 82 0 0) bench i :=
  ⟨⟨_, (issues (p := fun _ => true) (by decide +kernel)).1, by decide +kernel⟩, alu (by decide +kernel), alu (by decide +kernel)⟩

/-- What a unit needs of the records: lanes, places, a launch that renders, room, nothing owned, sound words. -/
def submittable (k : UnitKind) (bad : Nat) (ready : Iss → Bool) (s : State) (i : Iss) : Bool :=
  i.ex ≠ [] && decide (i.rec64Cz bad = []) && ready i && !s.owned i.w.ctx i.core true (i.recAccs 64) && decide ((i.s.core i.core).flaws = [])
    && (i.ex.all fun l => s.rayRoom i.core k i.w l) && Sparse.wf Core.reset s.cores && Memory.wf (s.core i.core).scratch

theorem submits {r : Row} {v : View} {s : State} (k : UnitKind) (bad : Nat) (ready : Iss → Bool) (h : meets r v s (submittable k bad ready s) = true) :
    ∃ i, Issues r v s i ∧ CanSubmit k bad (fun i => ready i = true) s i := by
  obtain ⟨h, g⟩ := issues h
  simp only [submittable, Bool.and_eq_true, decide_eq_true_eq, Bool.not_eq_true', List.all_eq_true] at g
  obtain ⟨⟨⟨⟨⟨⟨⟨g1, g2⟩, g3⟩, g4⟩, g5⟩, g6⟩, g7⟩, g8⟩ := g
  exact ⟨_, h, ⟨g1, g2, g3, g4, sound g5, g6, g7, g8⟩⟩

theorem canSubmitOf {k : UnitKind} {bad : Nat} {p q : Iss → Prop} {s : State} {i : Iss} (f : p i → q i) (h : CanSubmit k bad p s i) : CanSubmit k bad q s i :=
  { h with ready := f h.ready }
def window (i : Iss) : Bool := decide ((i.s.core i.core).window + i.ex.length ≤ 256)
def areas (i : Iss) : Bool := i.ex.all fun l => decide (i.areaA l % 64 = 0) && i.s.inAlloc i.w.gang (i.areaA l) 128
theorem areasFit {i : Iss} (h : areas i = true) : AreasFit i := fun l hl => by
  have := List.all_eq_true.mp h l hl
  simp only [Bool.and_eq_true, decide_eq_true_eq] at this
  exact this

theorem witness_rays_submitted :
    (∃ i, Issues rowMch (lv 0 0 0 0 80 16 0) (rendering [] 0) i ∧ CanSubmit .march 0xA9 WindowRoom (rendering [] 0) i)
    ∧ (∃ i, Issues rowMchAff (even (lf 0 0 0 0x18 80 16 16)).view (rendering [] 0) i ∧ CanSubmit .march 0xA9 WindowRoom (rendering [] 0) i)
    ∧ (∃ i, Issues rowRayq (lv 0 85 0 0 80 16 0) (rendering [] 0x8000) i ∧ CanSubmit .trace 0xAA AreasFit (rendering [] 0x8000) i)
    ∧ ∃ i, Issues rowLant (lv 0 85 0 0 80 16 0) (rendering [] (65536 - 128)) i ∧ CanSubmit .trace 0xAA AreasFit (rendering [] (65536 - 128)) i :=
  ⟨(submits .march 0xA9 window (by decide +kernel)).imp fun _ h => ⟨h.1, canSubmitOf of_decide_eq_true h.2⟩,
   (submits .march 0xA9 window (by decide +kernel)).imp fun _ h => ⟨h.1, canSubmitOf of_decide_eq_true h.2⟩,
   (submits .trace 0xAA areas (by decide +kernel)).imp fun _ h => ⟨h.1, canSubmitOf areasFit h.2⟩,
   (submits .trace 0xAA areas (by decide +kernel)).imp fun _ h => ⟨h.1, canSubmitOf areasFit h.2⟩⟩

/-- One lane with a ray at each unit, done or suspended at a call. -/
def ray (st : RayStat) (n : Nat) : Ray :=
  { id := 0, wave := 0, gang := 0, idx := 0, lane := 0, op := 0, ctx := 0, prio := 0, record := List.replicate 64 0, affine := false, lantern := false, area := 0, rstate := 0
    stat := st, log := [], handle := 64, saved := List.replicate 64 0, result := List.replicate n 0 }
def withRays (st : RayStat) : State :=
  let s := rendering [] 64
  { s with
    waves := s.waves.map fun x => (x.1, { x.2 with lanes := [lane 0] })
    cores := [(0, { core with rays := [ray st 32], travRays := [ray st 32] })]
    sched := { s.sched with launches := [{ Launch.of 0 { args := 0, doneAddr := 0, doneVal := 0, total := 1, prio := 0, pre := true, task := false, rend := true, members := [], pipes := [] }
        0 0 0 with rays := [(0, 64)] }] } }

def deliverable (k : UnitKind) (s : State) (i : Iss) : Bool :=
  decide (i.scratchCz 0x69 (i.recAccs 32) = []) && decide (∀ l ∈ i.ex, i.recA l % 16 = 0) && i.rend && !s.owned i.w.ctx i.core true (i.recAccs 32)
    && !s.readsA i.core i.key (i.recAccs 32) && (s.waves.all fun x => x.2.wait = .none) && Sparse.wf Core.reset s.cores && Memory.wf (s.core i.core).scratch
    && i.ex.all fun l => (oldest i k l).any fun x => decide (x.stat = .done) && decide (resultCode x.result = none)

theorem delivers {r : Row} {v : View} {s : State} (k : UnitKind) (h : meets r v s (deliverable k s) = true) : ∃ i, Issues r v s i ∧ CanDeliver k s i := by
  obtain ⟨h, g⟩ := issues h
  simp only [deliverable, Bool.and_eq_true, decide_eq_true_eq, Bool.not_eq_true'] at g
  obtain ⟨⟨⟨⟨⟨⟨⟨⟨g1, g2⟩, g3⟩, g4⟩, g5⟩, g6⟩, g7⟩, g8⟩, g9⟩ := g
  refine ⟨_, h, ⟨g1, g2, g3, g4, g5, noneWaits g6 _, g7, g8, fun l hl => ?_⟩⟩
  have e := List.all_eq_true.mp g9 l hl
  cases hx : oldest (at_ r v s) k l with
  | none => rw [hx] at e; cases e
  | some x =>
    rw [hx] at e
    simp only [Option.any_some, Bool.and_eq_true, decide_eq_true_eq] at e
    exact ⟨x, rfl, e.1, e.2⟩

theorem witness_rays_delivered :
    (∃ i, Issues rowMchres (lv 0 0 0 0 80 16 0) (withRays .done) i ∧ CanDeliver .march (withRays .done) i)
    ∧ ∃ i, Issues rowRayres (lv 0 0 0 0 80 16 0) (withRays .done) i ∧ CanDeliver .trace (withRays .done) i :=
  ⟨delivers .march (by decide +kernel), delivers .trace (by decide +kernel)⟩

/-- A march ray and a traversal ray that have called are answered by the one lane. -/
theorem witness_rays_answered :
    (∃ i, Issues rowRaysusMarch (lv 0 16 1 0 85 18 0) (withRays .called) i ∧ CanAnswerMarch (lv 0 16 1 0 85 18 0) (withRays .called) i ∧ i.ex = [0])
    ∧ ∃ i, Issues rowRaysus (lv 0 16 0 0 85 18 0) (withRays .called) i ∧ CanAnswerTrace (withRays .called) i ∧ i.ex = [0] := by
  refine ⟨⟨_, (issues (p := fun _ => true) (by decide +kernel)).1,
      ⟨by decide +kernel, by decide +kernel, fun c => ?_, by decide +kernel, by decide +kernel, by decide +kernel⟩, by decide +kernel⟩,
    ⟨_, (issues (p := fun _ => true) (by decide +kernel)).1, ⟨by decide +kernel, by decide +kernel, fun l hl => ?_, by decide +kernel⟩, by decide +kernel⟩⟩
  · show (((withRays .called).core c).rays.map (·.id)).Nodup
    unfold State.core
    rcases Sparse.get_or (d := Core.reset) (withRays .called).cores c with e | ⟨k, e⟩
    · rw [e]; decide +kernel
    · obtain ⟨-, h⟩ := Prod.mk.inj (List.mem_singleton.mp e)
      rw [h]
      decide +kernel
  · have e : (at_ rowRaysus (lv 0 16 0 0 85 18 0) (withRays .called)).ex = [0] := by decide +kernel
    rw [e] at hl
    obtain rfl := List.mem_singleton.mp hl
    exact ⟨0, ray .called 32, by decide +kernel, by decide +kernel, by decide +kernel⟩

/-- An evaluation that ends with a result. -/
theorem evaluated {α : Type} {m : Eval α} {s : State} {p : α → Bool} (h : (match (evalNow m s).1 with | .ok x => p x | .error _ => false) = true) :
    ∃ x, evalNow m s = (.ok x, (evalNow m s).2) ∧ p x = true := by
  split at h
  · rename_i x hx
    exact ⟨x, Prod.ext hx rfl, h⟩
  · cases h

/-- A brick of edge 4; the bytecode of the coordinate x. -/
def brickBytes : List Nat := List.replicate 14 0 ++ [0x80, 0x3F] ++ List.replicate 48 0
def xBytes : List Nat := [2, 0, 1, 0, 0, 0, 1, 0, 2, 0]
def prunable : State := rendering xBytes 0x1000

theorem witness_bfetch : ∃ i k u, Issues rowBfetch (lv 16 0 0 0 83 18 0) (rendering brickBytes 0) i ∧ CanFetch (lv 16 0 0 0 83 18 0) (rendering brickBytes 0) i k u ∧ k.n = 4 := by
  obtain ⟨k, h, g⟩ := evaluated (m := getBrick (at_ rowBfetch (lv 16 0 0 0 83 18 0) (rendering brickBytes 0)).unitRead 0xAE
    (u64 (at_ rowBfetch (lv 16 0 0 0 83 18 0) (rendering brickBytes 0)) (lv 16 0 0 0 83 18 0).a)) (s := rendering brickBytes 0) (p := fun k => k.n = 4) (by decide +kernel)
  exact ⟨_, k, _, (issues (p := fun _ => true) (by decide +kernel)).1, ⟨by decide +kernel, by decide +kernel, by decide +kernel, h⟩, of_decide_eq_true g⟩

/-- prune of that bytecode into 512 bytes at address 64. -/
theorem witness_prune : ∃ i b u, Issues rowPrune (lv 16 85 0 0 83 80 0) prunable i ∧ CanPrune (lv 16 85 0 0 83 80 0) prunable i b u := by
  obtain ⟨b, h, g⟩ := evaluated (m := (at_ rowPrune (lv 16 85 0 0 83 80 0) prunable).pruned) (s := prunable)
    (p := fun b => decide (b.length ≤ (at_ rowPrune (lv 16 85 0 0 83 80 0) prunable).kOf 1 ∧ b.length < 2 ^ 32)
      && prunable.inAlloc (at_ rowPrune (lv 16 85 0 0 83 80 0) prunable).w.gang ((at_ rowPrune (lv 16 85 0 0 83 80 0) prunable).kOf 0) b.length) (by decide +kernel)
  simp only [Bool.and_eq_true, decide_eq_true_eq] at g
  exact ⟨_, b, _, (issues (p := fun _ => true) (by decide +kernel)).1,
    { some_ := by decide +kernel, known := fun _ => by decide +kernel, aligned := by decide +kernel, box := by decide +kernel, rend := by decide +kernel
      unowned := by decide +kernel, unread := by decide +kernel, sound := sound (by decide +kernel), result := h, same := by decide +kernel, room := g.1, place := g.2
      noneWaits := noneWaits (by decide +kernel) _, cores := by decide +kernel, bytes := by decide +kernel }⟩

/-- fbrun by one lane whose record names that bytecode. -/
def fielded : State :=
  let s := rendering xBytes 0
  let s : State := { s with waves := s.waves.map fun x => (x.1, { x.2 with lanes := [lane 0] }) }
  s.onCore 0 fun c => { c with scratch := writeBytes c.scratch 0 (toBytes 8 0x1000) }
theorem witness_fbrun : ∃ i b u, Issues rowFbrun (lv 0 0 0 0 80 16 0) fielded i ∧ CanRunField fielded i 0 b u := by
  obtain ⟨b, h, -⟩ := evaluated (m := (at_ rowFbrun (lv 0 0 0 0 80 16 0) fielded).fbEval (recordOf (at_ rowFbrun (lv 0 0 0 0 80 16 0) fielded) 0)) (s := fielded)
    (p := fun _ => true) (by decide +kernel)
  exact ⟨_, b, _, (issues (p := fun _ => true) (by decide +kernel)).1,
    { one := by decide +kernel, aligned := by decide +kernel, inside := by decide +kernel, rend := by decide +kernel, unowned := by decide +kernel, unread := by decide +kernel
      sound := sound (by decide +kernel), memory := by decide +kernel, valid := by decide +kernel, result := h, same := by decide +kernel
      noneWaits := noneWaits (by decide +kernel) _, cores := by decide +kernel, bytes := by decide +kernel }⟩

/-- temit of three gangs of a descriptor with a payload of 64 bytes: k8 the descriptor, k9 the raster state. -/
def rsBytes : List Nat := [0, 0, 0, 0, 0, 0, 0, 0, 128, 0, 0, 0, 1, 0, 0, 64] ++ List.replicate 240 0
def emitting : State :=
  let s := rendering (((descriptor 4).take 48 ++ [0, 1] ++ (descriptor 4).drop 50) ++ List.replicate 128 0 ++ rsBytes) 0
  { s with waves := s.waves.map fun x =>
      (x.1, { x.2 with k := ([0x1000, 0x1100, 64, 3] : List Nat).zipIdx.foldl (fun k y => setAt k (8 + y.2) { KCell.zero with val := BitVec.ofNat 64 y.1 }) x.2.k }) }
theorem witness_temit : ∃ i d b u u', Issues rowTemit (lv 0 88 0 0 80 0 0) emitting i ∧ CanEmit emitting i 0 d b u u' ∧ i.kOf 3 = 3 ∧ i.kOf 2 = 64 := by
  have h : (match emitting.readDesc (some 0) 0 0x1000 with
      | (.ok d, u) => (match u.readVirt (some 0) 0 0x1100 256 Access.read with
        | (.ok b, u') => meshDescOk d && decide (64 ≤ (meshMember d).scratch) && decide (rsCz b (at_ rowTemit (lv 0 88 0 0 80 0 0) emitting).ex = [])
            && Sparse.wf FrontEnd.reset u'.fes && Sparse.wf PaySlot.reset (u'.fe 0).slots && Memory.wf (u'.core 0).scratch
        | _ => false)
      | _ => false) = true := by decide +kernel
  split at h
  · rename_i d u hd
    split at h
    · rename_i b u' hb
      simp only [Bool.and_eq_true, decide_eq_true_eq] at h
      obtain ⟨⟨⟨⟨⟨h1, h2⟩, h3⟩, h4⟩, h5⟩, h6⟩ := h
      exact ⟨_, d, b, u, u', (issues (r := rowTemit) (v := lv 0 88 0 0 80 0 0) (s := emitting) (p := fun _ => true) (by decide +kernel)).1,
        { some_ := by decide +kernel, known := fun _ => by decide +kernel, aligned := by decide +kernel, limits := by decide +kernel, inside := by decide +kernel
          rend := by decide +kernel, slot := by decide +kernel, unowned := by decide +kernel, sound := sound (by decide +kernel), desc := hd, rstate := hb
          mesh := ⟨h1, h2⟩, valid := h3, ends := ⟨h4, h5⟩, bytes := h6 }, by decide +kernel, by decide +kernel⟩
    · cases h
  · cases h

/-- memit.vert at vertices 0 and 95; memit.prim at primitives 0 and 159 once there is a vertex. -/
def oneVertex : State :=
  let s := rendering [] 159
  { s with waves := s.waves.map fun x => (x.1, { x.2 with mesh := { x.2.mesh with verts := [(0, [1])] } }) }
theorem witness_memit :
    (∃ i, Issues rowMemitVert (lv 0 80 0 0 80 16 16) (rendering [] 0) i ∧ CanEmitVertices (rendering [] 0) i ∧ ∀ l ∈ i.ex, i.meshC l = 0)
    ∧ (∃ i, Issues rowMemitVert (lv 0 85 0 0 80 16 16) (rendering [] 95) i ∧ CanEmitVertices (rendering [] 95) i ∧ ∀ l ∈ i.ex, i.meshC l = 95)
    ∧ (∀ c ∈ [80, 85], ∃ i, Issues rowMemitPrim (lv 0 c 1 0 17 0 0) oneVertex i ∧ CanEmitPrimitives (lv 0 c 1 0 17 0 0) i) := by
  refine ⟨⟨_, (issues (p := fun _ => true) (by decide +kernel)).1, ⟨by decide +kernel, by decide +kernel, ⟨by decide +kernel, _, (0, 0), rfl, rfl⟩, by decide +kernel,
      sound (by decide +kernel), by decide +kernel, by decide +kernel⟩, by decide +kernel⟩,
    ⟨_, (issues (p := fun _ => true) (by decide +kernel)).1, ⟨by decide +kernel, by decide +kernel, ⟨by decide +kernel, _, (0, 0), rfl, rfl⟩, by decide +kernel,
      sound (by decide +kernel), by decide +kernel, by decide +kernel⟩, by decide +kernel⟩, ?_⟩
  intro c hc
  simp only [List.mem_cons, List.not_mem_nil, or_false] at hc
  rcases hc with rfl | rfl
  · exact ⟨_, (issues (p := fun _ => true) (by decide +kernel)).1, by decide +kernel, by decide +kernel, _, (0, 0), rfl, rfl⟩
  · exact ⟨_, (issues (p := fun _ => true) (by decide +kernel)).1, by decide +kernel, by decide +kernel, _, (0, 0), rfl, rfl⟩

/-! ### Events of the package and registers of the host -/

/-- Obsis with a command taken: its opcode and its arguments; and link 11 in a state, with so many bad flits. -/
def commanded (op : Nat) (rest : List Nat) : State :=
  { bench with obsis := { bench.obsis with
      busy := true, cmd := writeBytes bench.obsis.cmd 0 (([op, 0, rest.length, 0] ++ rest).map fun b => BitVec.ofNat 8 b) } }
def linked (st fails : Nat) (dis : Bool) : State :=
  { bench with fab := { bench.fab with links := [(11, { Link.reset with state := st, fails := fails, dis := dis })] } }

/-- Power, clock, timestamp; mailbox commands; a check of each array from 3 to 8. -/
theorem witness_package :
    Serving bench ∧ { bench.dev with cclk := 1675 }.cclk ≤ 1675 ∧ 25 < State.reset.dev.cclk ∧ Sparse.wf Core.reset bench.cores = true
    ∧ { bench.dev with tsRun := true }.tsRun = true ∧ { bench.dev with tsRun := false }.tsRun = false
    ∧ (Commanded (commanded 1 (List.replicate 9 0 ++ [1] ++ List.replicate 6 0)) 1 16 ∧ fwLen (commanded 1 (List.replicate 9 0 ++ [1] ++ List.replicate 6 0)) = 256
        ∧ (commanded 1 (List.replicate 9 0 ++ [1] ++ List.replicate 6 0)).mem.rangeBad (fwAddr (commanded 1 (List.replicate 9 0 ++ [1] ++ List.replicate 6 0))) 256 = false)
    ∧ (∀ n ∈ [2, 7], Commanded (commanded 2 (n :: List.replicate 64 1)) 2 65 ∧ ofBytes ((commanded 2 (n :: List.replicate 64 1)).obsis.arg 0 1) = n
        ∧ Sparse.wf zero64 (commanded 2 (n :: List.replicate 64 1)).obsis.meas = true)
    ∧ (∀ n ∈ [0, 1, 8, 255], ofBytes ((commanded 2 (n :: List.replicate 64 1)).obsis.arg 0 1) = n)
    ∧ (Commanded (commanded 3 (List.replicate 64 7)) 3 64 ∧ Memory.wf (commanded 3 (List.replicate 64 7)).obsis.resp = true) ∧ Commanded (commanded 4 []) 4 0
    ∧ Sparse.wf (0 : W64) bench.dev.errCe = true ∧ Sparse.wf (0 : W64) bench.dev.errUe = true ∧ 32 * 5 + 32 ≤ bench.mem.nominal := by
  refine ⟨?_, by decide +kernel, by decide +kernel, by decide +kernel, rfl, rfl, ?_, ?_, by decide +kernel, ?_, ?_, by decide +kernel, by decide +kernel, by decide +kernel⟩ <;>
    first | (unfold Serving; decide +kernel) | (unfold Commanded fwLen fwAddr; decide +kernel) | (unfold Commanded; decide +kernel)

theorem witness_links :
    (∀ x ∈ [(0, 0, true), (1, 0, false), (2, 0, false), (2, 1, false), (3, 16, false), (2, 17, false)], LinksListed (linked x.1 x.2.1 x.2.2) ∧ LinkIdle (linked x.1 x.2.1 x.2.2) 11
      ∧ Serving (linked x.1 x.2.1 x.2.2) ∧ (linked x.1 x.2.1 x.2.2).link 11 = { Link.reset with state := x.1, fails := x.2.1, dis := x.2.2 })
    ∧ (8 : W64).getLsbD 3 = true ∧ (0 : W64).getLsbD 3 = false := by
  unfold LinksListed LinkIdle Serving; decide +kernel

/-- A boot and a reload of the firmware about to end; an answer that waits; a power above its limit; links with a good flit before, with a flit to be resent
and with a resent one; sources of places. -/
theorem witness_boots_and_retries :
    (∃ s : State, s.obsis.since = some 199999999 ∧ s.host.boot = 0 ∧ Sparse.wf zero64 s.obsis.meas = true)
    ∧ (∃ s : State, s.obsis.since = some 99999999 ∧ s.host.boot = 1)
    ∧ (∃ s : State, s.obsis.busy = true ∧ s.obsis.pending = some 4)
    ∧ (∃ s : State, s.dev.pwrLim.toNat < s.dev.pwrWatts.toNat) ∧ bench.dev.pwrWatts.toNat ≤ bench.dev.pwrLim.toNat
    ∧ { bench.obsis with since := none }.since = none
    ∧ (2 ≤ ((linked 2 0 false).link 11).state ∧ ((linked 2 0 false).link 11).fails = 0)
    ∧ (0 < ((linked 3 16 false).link 11).fails ∧ ((linked 3 16 false).link 11).resent = false)
    ∧ (∃ s : State, LinksListed s ∧ (s.link 11).fails = 16 ∧ (s.link 11).resent = true)
    ∧ srcFits 8 0x01F = true ∧ srcFits 6 0x1D0 = true ∧ srcFits 3 0x100 = false := by
  refine ⟨⟨{ State.reset with obsis := { State.reset.obsis with since := some 199999999 } }, rfl, rfl, rfl⟩,
    ⟨{ State.reset with obsis := { State.reset.obsis with since := some 99999999 }, host := { State.reset.host with boot := 1 } }, rfl, rfl⟩,
    ⟨{ State.reset with obsis := { State.reset.obsis with busy := true, pending := some 4 } }, rfl, rfl⟩,
    ⟨{ State.reset with dev := { State.reset.dev with pwrLim := 600, pwrWatts := 601 } }, by decide⟩, by decide +kernel, rfl, by decide +kernel, by decide +kernel,
    ⟨{ bench with fab := { bench.fab with links := [(11, { Link.reset with state := 2, fails := 16, resent := true })] } }, by unfold LinksListed; decide +kernel,
      by decide +kernel, by decide +kernel⟩, by decide +kernel, by decide +kernel, by decide +kernel⟩

/-- A context's descriptor while it may be written and while it may not; an arming entry that stands armed and one that does not. -/
theorem witness_descriptors :
    CtxsListed bench ∧ (bench.ctx 63).state = .off ∧ (bench.ctx 0).state = .run ∧ (field 4 4 0 = 4 ∧ field 16 4 0 = 16)
    ∧ (bench.ctx 63).ctqPidx = (bench.ctx 63).ctqCidx ∧ ArmsListed bench ∧ (bench.arm 4095).v = false ∧ (bench.arm 4095).outst = 0
    ∧ ({ bench with host := { bench.host with arms := [(0, { Arm.reset with v := true })] } }.arm 0).v = true := by
  unfold CtxsListed ArmsListed; decide +kernel

/-- Thresholds in order at its narrowest, and out of it; a window word of an entry that is not valid, with the smallest and the largest size. -/
theorem witness_checked_registers :
    (∀ m ∈ [({ bench.mem with wmLow := 8194, wmCrit := 8193, wmHyst := 1 } : Mem).withMark .exh 8192], Ordered m.wmLow m.wmCrit m.wmHyst m.wmExh)
    ∧ (∀ m ∈ [bench.mem.withMark .exh 8191, bench.mem.withMark .crit 0], ¬ Ordered m.wmLow m.wmCrit m.wmHyst m.wmExh)
    ∧ Sparse.wf (0 : W64) bench.fab.windows = true ∧ field (BitVec.ofNat 64 (bench.winWord 255 0)) 63 63 = 0
    ∧ (0x2000 : W64).toNat + max 1 (bench.winWord 255 2 % 2 ^ 28) * 4096 ≤ bench.mem.nominal
    ∧ bench.winBase 255 + 1 * 4096 ≤ bench.mem.nominal
    ∧ Sparse.wf ({ cfg := 0, cnt := 0 } : PerfCtr) (bench.core 191).perf = true ∧ CoresListed bench ∧ Sparse.wf (0 : W64) bench.mem.stats = true := by
  unfold Ordered CoresListed; decide +kernel

/-! ### Memory, ballooning, the fabric, messages -/

/-- The engine in a state, with so many free sectors. -/
def engine (st : BlnState) (free : Nat) : State :=
  { bench with mem := { bench.mem with sectFree := free }, bln := { bench.bln with state := st, en := true, csweep := 1 } }
/-- A donor list whose next entry has a value. -/
def donor (e : Nat) : State :=
  let s := engine .cdonor 1048577
  { s with bln := { s.bln with donorBase := 0x140000, donorLog2 := 4, donorHead := 15, donorLimit := 16 }
           mem := { s.mem with cells := writeBytes s.mem.cells 0x140078 (toBytes 8 e) } }

/-- A reformat in progress. -/
def reformatting (n : Nat) : State := { bench with mem := { bench.mem with reformat := some n } }

/-- A change of RATIO with every context OFF, with and without LOCK, and with one that runs; one in progress. -/
def allOff (lock : Bool) : State := { bench with ctxs := [], mem := { bench.mem with lock := lock } }
theorem witness_ratio : ∀ b ∈ [false, true], Serving (allOff b) ∧ (allOff b).mem.reformat = none ∧ (allOff b).mem.lock = b ∧ ∀ x ∈ (allOff b).ctxs, x.2.state = .off := by
  unfold Serving; decide +kernel
theorem witness_ratio_values :
    (∀ v ∈ [65, 128], 64 ≤ field (BitVec.ofNat 64 v) 7 0 ∧ field (BitVec.ofNat 64 v) 7 0 ≤ 128 ∧ field (BitVec.ofNat 64 v) 7 0 ≠ bench.mem.ratio)
    ∧ (∀ v ∈ [63, 129], field (BitVec.ofNat 64 v) 7 0 < 64 ∨ 128 < field (BitVec.ofNat 64 v) 7 0) ∧ ∃ x ∈ bench.ctxs, x.2.state ≠ .off := by decide +kernel
theorem witness_reformat : (reformatting 96).mem.reformat = some 96 ∧ Serving (reformatting 96) := ⟨rfl, by unfold Serving; decide +kernel⟩

/-- Each row of the engine's table at the thresholds 8192, 1048576, 1310720 and 8388608. -/
theorem witness_engine :
    ((engine .idle 8388608).bln.state = .idle ∧ (engine .idle 8388608).mem.sectFree ≤ (engine .idle 8388608).mem.wmLow)
    ∧ (engine .idle 8388609).mem.wmLow < (engine .idle 8388609).mem.sectFree
    ∧ (NoneHeld (engine .sweep 8192) ∧ (engine .sweep 8192).mem.sectFree ≤ (engine .sweep 8192).mem.wmExh)
    ∧ ((engine .sweep 8193).mem.wmExh < (engine .sweep 8193).mem.sectFree ∧ (engine .sweep 1048576).mem.sectFree ≤ (engine .sweep 1048576).mem.wmCrit)
    ∧ ((engine .sweep 8388609).mem.wmLow < (engine .sweep 8388609).mem.sectFree ∧ { (engine .sweep 8388609).bln with en := false }.en = false)
    ∧ (Relieved (engine .csweep 1310721) ∧ ¬ Relieved (engine .csweep 1310720) ∧ (engine .csweep 1310721).bln.en = true)
    ∧ ({ (engine .csweep 1310720).bln with crit := 2 ^ 20 }.csweep * 2 ^ 20 ≤ { (engine .csweep 1310720).bln with crit := 2 ^ 20 }.crit)
    ∧ ((engine .cdonor 1310720).bln.donorHead = (engine .cdonor 1310720).bln.donorLimit ∧ NoneHeld (engine .cdonor 1310720))
    ∧ (¬ Relieved (engine .escalated 1310720) ∧ { (engine .escalated 1310720).bln with kick := true }.kick = true) := by
  unfold Relieved NoneHeld; decide +kernel

/-- The sweep at the block of a page table and at an empty block, in SWEEP and in CSWEEP. -/
theorem witness_sweep :
    (SweepRuns { engine .sweep 1048577 with bln := { (engine .sweep 1048577).bln with cursor := 256 } } ∧ SweepRuns (engine .csweep 1310720)) ∧ (engine .sweep 1048577).mem.canonical
    ∧ BlocksListed (engine .sweep 1048577) ∧ 0 < (engine .sweep 1048577).mem.nominal ∧ 256 * Visited (engine .sweep 1048577) + 256 ≤ hostBase := by
  unfold SweepRuns Relieved Mem.canonical BlocksListed; decide +kernel

/-- Donor entries that name the first page of each size beyond the tables, and one that names none. -/
theorem witness_inflation :
    (∀ x ∈ [(0x1000, 0x1000, 2 ^ 12), (0x30001, 0x30000, 2 ^ 16), (0x200002, 0x200000, 2 ^ 21)],
      Inflates (donor x.1) ∧ (donor x.1).mem.canonical ∧ PageNamed (donor x.1) (donorEntry (donor x.1)) x.2.1 x.2.2
      ∧ (0x140078 + 8 ≤ x.2.1 ∨ x.2.1 + x.2.2 ≤ 0x140078) ∧ (donor x.1).mem.nominal ≤ hostBase)
    ∧ ∀ frame size, ¬ PageNamed (donor 3) (donorEntry (donor 3)) frame size := by
  refine ⟨by unfold Inflates Relieved Mem.canonical PageNamed; decide +kernel, ?_⟩
  intro frame size h
  have e : donorEntry (donor 3) = 3 := by decide +kernel
  rw [e] at h
  obtain ⟨h, -⟩ := h
  omega

/-- An open entry of a block of zeros, and of one that is not; a write that waits at its slice. -/
def open_ (b : Nat) : State :=
  let e : WcbEntry := { block := b, mask := 0, changed := true, comp := some false }
  { bench with mem := { bench.mem with wcb := [e], waiting := [e] } }
theorem witness_combining :
    (∀ b ∈ [0, 512], (open_ b).mem.wcb.find? (fun e => e.block = b) = some { block := b, mask := 0, changed := true, comp := some false } ∧ BlocksListed (open_ b)
      ∧ 8 ≤ (open_ b).mem.sectFree ∧ Sparse.wf (0 : W64) (open_ b).mem.stats = true)
    ∧ (open_ 0).mem.canonical ∧ (ZeroBlock (open_ 0) 0 ∧ ¬ ZeroBlock (open_ 256) 256) := by
  refine ⟨by unfold BlocksListed; decide +kernel, by unfold Mem.canonical; decide +kernel, ?_, ?_⟩
  · unfold ZeroBlock; decide +kernel
  · intro h
    exact absurd (h 0 (by decide)) (by decide +kernel)

/-- Node 0 with a way to node 5 over link 11, and window 0: valid, writable, sources 4 to 6, key 9, one page at 0x300000, counters at 0x310000 and 0x310008. -/
def fabric : State :=
  { bench with fab := { bench.fab with
      node := 0, en := true, msgEn := true, msgLo := 4, msgHi := 6, links := [(11, { Link.reset with state := 2 })], routes := [(5, { v := true, link := 11 })]
      windows := [(0, BitVec.ofNat 64 (2 ^ 63 + 2 ^ 62 + 9 * 2 ^ 32 + 4 * 2 ^ 20 + 6 * 2 ^ 8)), (1, 0x300000), (2, 1), (3, 0x310000), (4, 0x310008)] } }
def packet (src key off total pos : Nat) : WritePacket :=
  { src := src, dst := 0, id := 3, win := 0, key := key, off := off, total := total, pos := pos, data := [1, 2, 3, 4] }

/-- Packets that pass at the window's first and last bytes, and one for each reason of a refusal, just past its bound. -/
theorem witness_packets :
    (∀ p ∈ [packet 5 9 0 8 0, packet 5 9 4092 4 0, packet 5 9 4088 8 4], FromPeer fabric 11 p.src p.dst ∧ refusal fabric p = 0
      ∧ fabric.fab.refused.contains (p.src, p.id) = false ∧ landing fabric p + p.data.length ≤ hostBase ∧ Linked fabric p.src 11 ∧ counterAt fabric p.win 3 + 8 ≤ hostBase
      ∧ (counterAt fabric p.win 3 + 8 ≤ landing fabric p ∨ landing fabric p + p.data.length ≤ counterAt fabric p.win 3))
    ∧ fabric.mem.canonical
    ∧ (refusal fabric { packet 5 9 0 8 0 with win := 256 } = 1 ∧ refusal fabric (packet 3 9 0 8 0) = 3 ∧ refusal fabric (packet 7 9 0 8 0) = 3 ∧ refusal fabric (packet 5 8 0 8 0) = 4
        ∧ refusal fabric (packet 5 9 4092 5 0) = 5 ∧ refusal { fabric with fab := { fabric.fab with windows := [(0, BitVec.ofNat 64 (2 ^ 63))] } } (packet 5 9 0 8 0) = 2)
    ∧ Sparse.wf (0 : W64) fabric.fab.stats = true
    ∧ { fabric.fab with refused := [(5, 3)] }.refused.contains (5, 3) = true ∧ ¬ Carries fabric 3 ∧ ¬ Carries (linked 2 1 false) 11 := by
  unfold FromPeer Carries Linked Mem.canonical; decide +kernel

/-- A put and a message that wait for the answer of node 5; fences that wait for one link and for two. -/
def awaiting (m : Bool) : State :=
  { fabric with
    fab := { fabric.fab with waits := [{ id := 3, core := 0, ctx := 0, seq := 1, node := 5, links := [11], win := 0, msg := m, whole := true }] }
    cores := [(0, { core with copies := [{ ctx := 0, seq := 1, words := List.replicate 8 0, who := none, done := 0, crc := 0, stat := .sent }] })] }
def fenced (i : Instr) (links : List Nat) : State :=
  let s := benchOf (waveOf 0 i (.fence 0))
  { s with fab := { s.fab with links := [(2, { Link.reset with state := 2 }), (11, { Link.reset with state := 3 })], fences := [{ id := 0, who := .wave 0, pending := [], links := links }] } }
theorem witness_answers :
    (∀ m ∈ [false, true], ∃ q e, Unanswered (awaiting m) 11 { src := 5, dst := 0, id := 3, reason := 0 } q e ∧ q.msg = m ∧ counterAt (awaiting m) q.win 4 + 8 ≤ hostBase
      ∧ (counterAt (awaiting m) q.win 4 + 8 ≤ (awaiting m).queueAt q.ctx q.core ∨ (awaiting m).queueAt q.ctx q.core + 64 ≤ counterAt (awaiting m) q.win 4))
    ∧ (∀ i ∈ [Instr.fence (lf 0 0 0 0x22 0 0 0), .st (lf 0 0 0 0x120 83 16 0)], Carries (fenced i [11]) 11 ∧ (fenced i [11]).waitOf 0 = .fence 0
        ∧ ((fenced i [11]).pending 0).isSome = true ∧ (fenced i [2, 11]).fab.fences = [{ id := 0, who := .wave 0, pending := [], links := [2, 11] }]) := by
  refine ⟨?_, by unfold Carries; decide +kernel⟩
  intro m _
  refine ⟨{ id := 3, core := 0, ctx := 0, seq := 1, node := 5, links := [11], win := 0, msg := m, whole := true },
    { ctx := 0, seq := 1, words := List.replicate 8 0, who := none, done := 0, crc := 0, stat := .sent }, ?_⟩
  revert m
  unfold Unanswered FromPeer Carries
  decide +kernel

/-- A message in a slot, and an arming entry that takes it or does not; the unmatched queue with its last place free, and full; the aperture at the
last byte of memory. -/
def msg : Message := { data := List.replicate 64 7, kind := 0, src := 0x060, who := 0, seq := 0, time := 0, entry := none }
def armed (log2 : Nat) (tag : Nat) : State :=
  let s := rendering (descriptor 0) 0
  { s with host := { s.host with
      queued := [msg], umqBase := 0x150000, umqPidx := 15
      arms := [(7, { Arm.reset with v := true, src := 7, tag := tag, mask := 0xFF, desc := 0x1000, ring := 0x1000, log2 := log2, outst := 2 ^ log2 - 1, widx := 2 ^ 32 - 1 })] } }

theorem witness_messages :
    (∀ x ∈ (armed 5 8).host.arms, ¬ Matches x.2 msg) ∧ QueueRoom (armed 5 8) ∧ ¬ QueueRoom { armed 5 8 with host := { (armed 5 8).host with umqPidx := 16 } } ∧ (armed 5 8).mem.canonical
    ∧ Matches ((armed 5 7).arm 7) msg ∧ ((armed 5 7).arm 7).outst < 2 ^ 5 ∧ ArmsListed (armed 5 7) ∧ ((armed 5 7).arm 6).v = false
    ∧ (FromPeer fabric 11 5 0 ∧ fabric.fab.msgLo ≤ 5 ∧ 5 ≤ fabric.fab.msgHi ∧ 3 < fabric.fab.msgLo ∧ fabric.fab.msgHi < 7) ∧ Linked fabric 5 11
    ∧ (Serving bench ∧ bench.mem.reformat = none ∧ bench.mem.flaws = [] ∧ bench.mem.nominal ≤ hostBase ∧ Memory.wf bench.host.slots = true) := by
  unfold Matches QueueRoom ArmsListed Mem.canonical FromPeer Carries Linked Serving
  decide +kernel

/-- The entry fires for the message: its ring on page 1, after the descriptor. -/
def firing : State :=
  let s := armed 5 7
  { s with host := { s.host with arms := s.host.arms.map fun x => (x.1, { x.2 with ring := 0x1800, widx := 31 }) } }
theorem witness_fires : ∃ d u, Fires { firing with host := { firing.host with queued := [], stats := bump firing.host.stats 0 1 } } (firing.arm 7) msg d u := by
  have h : (match State.translatePieces none (firing.arm 7).ctx Access.write (rangePieces 2 (nextSlot (firing.arm 7)) 64)
        { firing with host := { firing.host with queued := [], stats := bump firing.host.stats 0 1 } } with
      | (.ok _, u1) => (match u1.readDesc none (firing.arm 7).ctx (firing.arm 7).desc.toNat with
        | (.ok d, u2) => (match u2.writeVirt none (firing.arm 7).ctx (nextSlot (firing.arm 7)) msg.data Access.write with
          | (.ok (), _) => !d.task
          | _ => false)
        | _ => false)
      | _ => false) = true := by decide +kernel
  split at h
  · rename_i ps u1 h1
    split at h
    · rename_i d u2 h2
      split at h
      · rename_i u h3
        exact ⟨d, u, { state := by decide +kernel, room := by decide +kernel, launch := by simpa using h, reach := ⟨ps, u1, u2, h1, h2, h3⟩ }⟩
      · cases h
    · cases h
  · cases h

/-! ### Contexts, the debugger, graphs, the scheduler -/

/-- Context 0 in a state, with all its bases. -/
def inState (x : CtxState) : State := { bench with ctxs := [(0, { bench.ctx 0 with state := x })] }
theorem witness_contexts :
    Serving bench ∧ CtxsListed (inState .off) ∧ bench.host.boot = 2 ∧ Based (inState .off) ((inState .off).ctx 0) ∧ ¬ Based State.reset (State.reset.ctx 0)
    ∧ Tidy { inState .stopping with gangs := [], waves := [] } ∧ ({ inState .stopping with gangs := [], waves := [] } : State).stopOver 0 = true ∧ ArmsListed bench := by
  unfold Serving CtxsListed Based Tidy ArmsListed; decide +kernel

/-- Invalidations; a wave of the context that waits at fault entry 4 while CIDX is 4 and 5. -/
def faulted (cidx : Nat) : State :=
  let s := benchOf { wave with wait := .fault 4 }
  { s with mem := { s.mem with cells := writeBytes s.mem.cells 0x100008 (toBytes 8 cidx) } }
/-- A wave of the context that waits for room. -/
def roomless : State := benchOf { wave with wait := .faultSpace 0x40 0 0 [(0x5000, false)] }
theorem witness_invalidation :
    bench.xlt.invGo = false ∧ { bench.xlt with invGo := true }.invGo = true ∧ CoresListed bench ∧ (∀ n ∈ [4, 5], (faulted n).fqCidx 0 = n ∧ ∀ x ∈ (faulted n).waves, WaitsForRoom x.2 = false)
    ∧ (roomless.waves = [(0, { wave with wait := .faultSpace 0x40 0 0 [(0x5000, false)] })] ∧ wave.ctx = 0) := by
  unfold CoresListed; decide +kernel

/-- A wave to halt, and a halted one to resume. -/
def halted : State := benchOf { wave with dbgHalt := true }
theorem witness_debugger :
    (bench.ctx 0).attach = false ∧ (attached.ctx 0).attach = true ∧ attached.waves = [(0, wave)] ∧ wave.trapMode = false ∧ wave.dbgHalt = false ∧ wave.heldLanes ≠ [] ∧ wave.busy = false
    ∧ (∃ w ∈ ({ attached with waves := [(0, { wave with wait := .ahead 0x40 [(0x5000, false)] })] } : State).waves, w.2.wait = .ahead 0x40 [(0x5000, false)] ∧ w.2.busy = false)
    ∧ attached.mem.flaws = [] ∧ attached.mem.canonical ∧ CtxsListed attached ∧ attached.liveRecord 0 0 + 24576 ≤ hostBase ∧ halted.liveRecord 0 0 + 24576 ≤ hostBase
    ∧ ((0x13 : W64).getLsbD 2 = false ∧ (0x13 : W64).getLsbD 3 = false ∧ (0x13 : W64).getLsbD 0 = true) := by
  unfold Mem.canonical CtxsListed; decide +kernel

/-- A graph of two nodes, the first of a kind, the second a signal after it. -/
def desc : Desc :=
  { args := 0, doneAddr := 0x1F00, doneVal := 1, total := 1, prio := 3, pre := true, task := false, rend := false, members := [{ entry := 0x1000, named := 8, waves := 1, scratch := 256 }], pipes := [] }
def firstNode (kind : Nat) (a : W64) : GraphNode :=
  { kind := kind, succ := [1], npred := 0, a := a, b := BitVec.ofNat 64 (2 ^ 63 + 2 ^ 56), len := 96, desc := some desc }
def lastNode : GraphNode := { kind := 3, succ := [], npred := 1, a := 0x1F10, b := 7, len := 0, desc := none }
def graph (kind : Nat) (a : W64) (sts : List NodeStat) : Graph :=
  { id := 5, ctx := 0, doneAddr := 0x1F08, doneVal := 2, aborted := false, stats := sts
    nodes := [firstNode kind a, lastNode] }
def graphed (kind : Nat) (a : W64) (sts : List NodeStat) : State := { bench with sched := { bench.sched with graphs := [graph kind a sts] } }

theorem mayStart (kind : Nat) (a : W64) (h : Tidy (graphed kind a [.waits 0, .waits 1])) : Startable (graphed kind a [.waits 0, .waits 1]) 5 0 (graph kind a [.waits 0, .waits 1]) (firstNode kind a) :=
  { tidy := h, graph := rfl, node := rfl, free := rfl, goes := rfl }

/-- An evaluation over memory that gives bytes. -/
theorem read_ok {α : Type} {r : Except (Nat × Nat) α × State} (h : r.1.toBool = true) : ∃ x, r = (.ok x, r.2) := by
  obtain ⟨x | x, u⟩ := r
  · cases h
  · exact ⟨x, rfl⟩

theorem witness_graph_nodes :
    (∃ g x, Startable (graphed 1 0 [.waits 0, .waits 1]) 5 0 g x ∧ x.kind = 1 ∧ x.desc = some desc)
    ∧ (∃ g x, Startable (graphed 2 0x1FA0 [.waits 0, .waits 1]) 5 0 g x ∧ x.kind = 2 ∧ x.b.getLsbD 63 = true ∧ field x.b 57 56 = 1 ∧ (∀ w ∈ bench.waves, w.1 / 128 / 48 ≠ 1)
        ∧ x.len.toNat ≤ 4096 - x.a.toNat % 4096 ∧ 0 < x.len.toNat
        ∧ ∃ data u, (({ graphed 2 0x1FA0 [.waits 0, .waits 1] with
            sched := { bench.sched with graphs := [{ graph 2 0x1FA0 [.waits 0, .waits 1] with stats := [.started, .waits 1] }] } } : State).readVirt none 0 x.a.toNat x.len.toNat Access.engRead
              = (.ok data, u)))
    ∧ ∃ g x, Startable (graphed 3 0x1F10 [.waits 0, .waits 1]) 5 0 g x ∧ x.kind = 3
        ∧ ∃ u, (graphed 3 0x1F10 [.waits 0, .waits 1]).writeVirt none g.ctx x.a.toNat (toBytes 8 x.b.toNat) Access.engWrite = (.ok (), u) := by
  refine ⟨⟨_, _, mayStart 1 0 (by unfold Tidy; decide +kernel), rfl, rfl⟩, ⟨_, _, mayStart 2 0x1FA0 (by unfold Tidy; decide +kernel), rfl, by decide +kernel, by decide +kernel, by decide +kernel, by decide +kernel, by decide +kernel, ?_⟩,
    ⟨_, _, mayStart 3 0x1F10 (by unfold Tidy; decide +kernel), rfl, ?_⟩⟩
  · obtain ⟨x, h⟩ := read_ok (r := ({ graphed 2 0x1FA0 [.waits 0, .waits 1] with
      sched := { bench.sched with graphs := [{ graph 2 0x1FA0 [.waits 0, .waits 1] with stats := [.started, .waits 1] }] } } : State).readVirt none 0 0x1FA0 96 Access.engRead) (by decide +kernel)
    exact ⟨x, _, h⟩
  · obtain ⟨x, h⟩ := read_ok (r := (graphed 3 0x1F10 [.waits 0, .waits 1]).writeVirt none 0 0x1F10 (toBytes 8 (2 ^ 63 + 2 ^ 56)) Access.engWrite) (by decide +kernel)
    exact ⟨_, h⟩

/-- A node over, with its successor to come, and the last. -/
theorem witness_graph_completion :
    (Finished (graphed 3 0 [.ended, .waits 1]) 5 0 (graph 3 0 [.ended, .waits 1]) (firstNode 3 0)
      ∧ countsAfter (graph 3 0 [.ended, .waits 1]) 0 (firstNode 3 0) 1 = some (.waits 0))
    ∧ (Finished (graphed 3 0 [.complete, .ended]) 5 1 (graph 3 0 [.complete, .ended]) lastNode
      ∧ ∀ j, j < 2 → countsAfter (graph 3 0 [.complete, .ended]) 1 lastNode j = some .complete)
    ∧ (bench.sched.gsubGo = false ∧ { bench.sched with gsubGo := true }.gsubGo = true ∧ (bench.ctx bench.sched.gsubCtx).state = .run) :=
  ⟨⟨{ graph := rfl, node := rfl, over_ := rfl, goes := rfl, shape := rfl, other := by decide +kernel }, by decide +kernel⟩,
   ⟨{ graph := rfl, node := rfl, over_ := rfl, goes := rfl, shape := rfl, other := by decide +kernel }, by decide +kernel⟩, by decide +kernel⟩

/-- One launch of one gang to place on a device without waves, whose cores have a way; a save area with two slots. -/
def launchOf (next live : Nat) (saved : List Saved) : Launch := { Launch.of 0 desc 7 3 0x060 with id := 9, nextIdx := next, live := live, saved := saved }
def placing (l : Launch) (r : Option Reserve) : State :=
  { bench with
    waves := [], gangs := []
    cores := [(3, { Core.reset with ways := 1 })]
    mem := { bench.mem with cells := writeBytes bench.mem.cells 0x200008 [2] }
    sched := { bench.sched with launches := [l], reserve := r } }
theorem witness_reserve : ∃ x ps, Tidy (placing (launchOf 0 0 []) none) ∧ CoresListed (placing (launchOf 0 0 []) none) ∧ (placing (launchOf 0 0 []) none).sched.reserve = none
    ∧ (placing (launchOf 0 0 []) none).nextToPlace = some x ∧ x.saved = none ∧ (placing (launchOf 0 0 []) none).slotsLeft x.launch.ctx x.launch.desc.members.length = true
    ∧ (placing (launchOf 0 0 []) none).placeFresh x.launch.desc 3 [] (·.ways) = some ps :=
  ⟨{ launch := launchOf 0 0 [], prio := 3, saved := none, time := 0 }, [(3, 0)], by unfold Tidy; decide +kernel, by unfold CoresListed; decide +kernel, rfl, by decide +kernel, rfl,
    by decide +kernel, by decide +kernel⟩

theorem witness_commit : ∃ m, Committable (placing (launchOf 0 0 []) (some { launch := 9, index := 0, gangs := [(12, 3, 256)] })) { launch := 9, index := 0, gangs := [(12, 3, 256)] }
    (launchOf 0 0 []) m 12 3 256 :=
  ⟨_, { held := rfl, launch := rfl, single := ⟨rfl, rfl⟩, plain := ⟨rfl, rfl⟩, count := by decide, empty := by decide +kernel, open_ := by decide +kernel, cores := by unfold CoresListed; decide +kernel }⟩

/-- The same on die 1, which a copy node waits for. -/
def refused : State :=
  let s := placing (launchOf 0 0 []) (some { launch := 9, index := 0, gangs := [(12, 48, 256)] })
  { s with sched := { s.sched with graphs := [graph 2 0x1FA0 [.waits 0, .waits 1]] } }
theorem witness_held_die : refused.sched.reserve = some { launch := 9, index := 0, gangs := [(12, 48, 256)] } ∧ refused.launch? 9 = some (launchOf 0 0 [])
    ∧ refused.dieHeld (48 / 48) = true := ⟨rfl, rfl, by decide +kernel⟩

theorem witness_completion : Done (placing (launchOf 1 0 []) none) 9 (launchOf 1 0 []) ∧ (launchOf 1 0 []).desc.doneAddr ≠ 0
    ∧ ∃ u, (placing (launchOf 1 0 []) none).writeVirt none 0 0x1F00 (toBytes 8 1) Access.engWrite = (.ok (), u) := by
  refine ⟨{ tidy := by unfold Tidy; decide +kernel, launch := rfl, placed := by decide +kernel, slots := by decide +kernel, quiet := by decide +kernel, mine := rfl }, by decide, ?_⟩
  obtain ⟨x, h⟩ := read_ok (r := (placing (launchOf 1 0 []) none).writeVirt none 0 0x1F00 (toBytes 8 1) Access.engWrite) (by decide +kernel)
  exact ⟨_, h⟩

/-- The bench's gang stopped for its context. -/
def leaving : State :=
  { bench with
    gangs := [(0, { gang with evict := some .stop })]
    mem := { bench.mem with cells := writeBytes bench.mem.cells 0x200008 [1] } }
theorem witness_save : Savable leaving 0 { gang with evict := some .stop } 0 :=
  { tidy := by unfold Tidy; decide +kernel, gang := rfl, leaves := rfl, alone := by decide +kernel, still := by decide +kernel, none_ := by decide +kernel, drained := by decide +kernel
    free := by decide +kernel, small := by decide +kernel, memory := ⟨by unfold Mem.canonical; decide +kernel, by decide +kernel⟩, array := by decide +kernel
    cores := by unfold CoresListed; decide +kernel
    mine := by
      intro k hk w hw
      have : k = 0 := by simpa [gang] using hk
      subst this
      have e : leaving.wave? 0 = some wave := rfl
      rw [e] at hw
      cases hw
      rfl }

/-- A saved gang of one wave in slot 0. -/
def savedGang : Saved :=
  { gang := 12, ens := 12, index := 0, member := 0, slot := 0, core := 3, base := 0, time := 0, mxOwn := none, mxStamps := [], meshes := [], live := [], passed := [] }
def restoring : State :=
  let s := placing (launchOf 1 0 [savedGang]) none
  { s with mem := { s.mem with cells := writeBytes (writeBytes s.mem.cells 0x40200000 (toBytes 8 (2 ^ 63 + 2 ^ 8))) 0x40240000 (toBytes 8 (2 ^ 63)) } }
theorem witness_restore : Restorable restoring { launch := launchOf 1 0 [savedGang], prio := 3, saved := some 12, time := 0 } savedGang 3 :=
  { tidy := by unfold Tidy; decide +kernel, free := rfl, next := by decide +kernel, alone := by decide +kernel, place := by decide +kernel, single := by decide +kernel
    empty := by decide +kernel, plain := by decide +kernel, memory := ⟨by unfold Mem.canonical; decide +kernel, by decide +kernel⟩, record := by decide +kernel
    cores := by unfold CoresListed; decide +kernel }

/-- A quantum used up; nine waves of a partition, eight of them active. -/
def sliced : State := { bench with ctxs := [(0, { bench.ctx 0 with quant := 7 })], cores := [(0, { core with slices := [(0, 100)], quanta := [(0, 100)] })] }
def nine : State := { bench with clocks := [(0, 8)], waves := (List.range 9).map fun j => (j, { wave with idx := j, age := j, since := j, active := decide (j < 8) }) }
theorem witness_quantum_and_rotation :
    (Tidy sliced ∧ CoresListed sliced ∧ Sparse.get 0 (sliced.core 0).quanta 0 ≠ 0 ∧ Sparse.get 0 (sliced.core 0).quanta 0 ≤ Sparse.get 0 (sliced.core 0).slices 0 ∧ Sparse.wf (0 : Nat) (sliced.core 0).slices = true
      ∧ ∀ x ∈ sliced.waves, x.2.dbgHalt = false)
    ∧ (nine.wave? 8 = some { wave with idx := 8, age := 8, since := 8, active := false } ∧ nine.pendReady 8 { wave with idx := 8, age := 8, since := 8, active := false } = true ∧ (nine.waves.map (·.1)).Nodup
      ∧ (∀ x ∈ nine.waves, x.1 / 32 = 0 → nine.pendReady x.1 x.2 = true → x.1 = 8) ∧ (nine.activeOf 0).length = 8 ∧ (∀ x ∈ nine.activeOf 0, nine.mustWait x.1 x.2 = false) ∧ Sparse.get 0 nine.rotated 0 + 8 ≤ nine.partNow 0) := by
  unfold Tidy CoresListed; decide +kernel

/-! ### Tasks, steps of the cores, the copy engine -/

def task (oper : Nat) (key : W32) : TaskRec :=
  { pay := List.replicate 8 1, entry := 0x1008, key := key, orig := true, scr := 0, pre := true, named := 8, nwords := if oper = 11 then 7 else 0, rend := false, prio := 0, oper := oper
    folds := 1, born := 0, doneAddr := 0x1F00, doneVal := 1, arm := none, ctx := 0 }
def record (oper : Nat) (key : W32) : HomeRec := { rec_ := task oper key, sealed_ := false, into := none, arrived := 0 }
/-- Home 3 with records and a spawn, at a time of the reference clock. -/
def homed (recs : List HomeRec) (oper : Nat) (now : Nat) : State :=
  { bench with
    dev := { bench.dev with ref := now }
    ctq := { bench.ctq with homes := [(3, { recs := recs, spawns := [{ rec_ := task oper 5, who := .none, src := 0x100, came := none }], nextGather := 0, nextArrive := 0 })] } }

/-- A spawn that meets no record of its identity, one whose fold fills an append record, and one of an operation that never folds; a full home. -/
theorem witness_spawns :
    OneSpawn (homed [record 1 4] 1 0) 3 (task 1 5) ∧ (∀ w ∈ ((homed [record 1 4] 1 0).home 3).recs, ¬ SameTask w (task 1 5))
    ∧ SameTask (record 11 5) (task 11 5) ∧ (record 11 5).rec_.nwords < 8 ∧ (∀ x ∈ [record 11 4], ¬ SameTask x (task 11 5))
    ∧ ¬ SameTask (record 0 5) (task 0 5) ∧ 2048 ≤ (List.replicate 2048 (record 1 4)).length ∧ ({ bench.ctx 0 with ctqLog2 := 0 } : Ctx).ctqLog2 = 0 := by
  refine ⟨⟨⟨0x100, rfl⟩, ?_⟩, ?_, ?_, by decide, ?_, ?_, Nat.le_of_eq List.length_replicate.symm, by decide +kernel⟩
  · unfold HomesListed HomeReady; decide +kernel
  all_goals unfold SameTask; decide +kernel

/-- The oldest record of a home after its 1,024 cycles; one of a spill ring; a task wave that is over. -/
def spilled : State :=
  { homed [] 1 640 with
    ctxs := [(0, { bench.ctx 0 with ctqLog2 := 4, ctqPidx := 1 })]
    ctq := { bench.ctq with spills := [(0, [0])] } }
def taskLaunch (orig : Bool) : Launch := { launchOf 1 0 [] with tasks := some { home := 3, recs := [{ task 1 5 with orig := orig }] } }
theorem witness_gather :
    ((homed [record 1 4] 1 640).home 3).recs = [record 1 4] ∧ HomesListed (homed [record 1 4] 1 640) ∧ Eligible (homed [record 1 4] 1 640) 3 (record 1 4)
    ∧ (record 1 4).arrived + (homed [record 1 4] 1 640).ctq.wait ≤ (homed [record 1 4] 1 640).plinth ∧ ((homed [record 1 4] 1 640).home 3).nextGather ≤ (homed [record 1 4] 1 640).plinth
    ∧ ¬ HomeReady (homed [record 1 4] 1 640) 3
    ∧ CtxsListed spilled ∧ (spilled.ctx 0).ctqCidx < (spilled.ctx 0).ctqPidx ∧ spilled.uncommitted 16 0 < spilled.ctq.qmax ∧ Sparse.get [] spilled.ctq.spills 0 = [0]
    ∧ 0 + spilled.ctq.wait ≤ spilled.plinth ∧ spilled.ctq.spillNext ≤ spilled.plinth := by
  unfold HomesListed Eligible CtxsListed HomeReady; decide +kernel

theorem done_task (orig : Bool) (h : Tidy (placing (taskLaunch orig) none)) (q : (placing (taskLaunch orig) none).fabQuiet 0 = true) :
    Done (placing (taskLaunch orig) none) 9 (taskLaunch orig) :=
  { tidy := h, launch := rfl, placed := ⟨Nat.le_refl _, rfl, rfl⟩, slots := (by intro f hf; cases hf), quiet := q, mine := rfl }
theorem witness_task_wave :
    (Done (placing (taskLaunch true) none) 9 (taskLaunch true) ∧ (task 1 5).doneAddr ≠ 0
      ∧ ∃ u, (placing (taskLaunch true) none).writeVirt none 0 0x1F00 (toBytes 8 1) Access.engWrite = (.ok (), u))
    ∧ Done (placing (taskLaunch false) none) 9 (taskLaunch false) := by
  refine ⟨⟨done_task true (by unfold Tidy; decide +kernel) (by decide +kernel), by decide +kernel, ?_⟩, done_task false (by unfold Tidy; decide +kernel) (by decide +kernel)⟩
  obtain ⟨x, h⟩ := read_ok (r := (placing (taskLaunch true) none).writeVirt none 0 0x1F00 (toBytes 8 1) Access.engWrite) (by decide +kernel)
  exact ⟨_, h⟩

/-- An operation that waits for its result; a resize that the distributor asked for and one that the wave did; a B-region being zeroed. -/
def resizing (asker : Option (Nat × Nat)) : State :=
  { bench with
    waves := [(0, { wave with ops := [{ id := 0, token := 0, kind := .resize, mem := true }] })]
    cores := [(0, { core with resize := [{ ways := 21, asker := asker }], breg := { core.breg with zeroing := true } })] }
def pendingOp : State := benchOf { wave with ops := [{ id := 4, token := 1, kind := .result, mem := true }], wait := .retry .token }
theorem witness_arrivals :
    Tidy pendingOp ∧ pendingOp.wave? 0 = some { wave with ops := [{ id := 4, token := 1, kind := .result, mem := true }], wait := .retry .token } ∧ wave.heldLanes ≠ []
    ∧ ((resizing none).core 0).resize = [{ ways := 21, asker := none }] ∧ CoresListed (resizing none) ∧ Memory.wf ((resizing none).core 0).scratch = true
    ∧ ((resizing (some (0, 0))).core 0).resize = [{ ways := 21, asker := some (0, 0) }] ∧ Tidy (resizing (some (0, 0))) ∧ ((resizing none).core 0).breg.zeroing = true := by
  unfold Tidy CoresListed; decide +kernel

/-- A result that waits for a bank group which refreshes; a B-region promised to the bench's gang. -/
def banked : State := benchOf { wave with ops := [{ id := 4, token := 1, kind := .result, mem := true, bank := some 0 }] }
def promised : State := { bench with cores := [(0, { core with breg := { core.breg with zeroing := true, holder := none, next := some 0 } })] }
theorem witness_held_results :
    (∃ o ∈ (banked.wave? 0).elim [] (·.ops), o.id = 4 ∧ o.bank.any (groupRefreshes banked.now) = true)
    ∧ (promised.core 0).breg.next = some 0 ∧ promised.gang? 0 = some gang ∧ CoresListed promised := by
  unfold CoresListed; decide +kernel

theorem any_some {α : Type} {o : Option α} {p : α → Bool} (h : o.any p = true) : ∃ j, o = some j ∧ p j = true := by
  cases o with
  | none => cases h
  | some j => exact ⟨j, rfl, h⟩

/-- A wave that sleeps at a word of the alias, in its table and polling; one at an object, with a deadline; one at a pipe. -/
def asleep (wt : Wait) (i : Instr) : State := benchOf { waveOf 0 i wt with k := setAt wave.k 7 { KCell.zero with val := 0xFFFFFFFFFFE00000 } }
def sleeper : Instr := .waddr (lf 0 81 0 0x80 87 80 0)
theorem witness_sleepers :
    (∀ b ∈ [true, false], ∃ j, Sleeps (asleep (.word true 0 (some 0) b) sleeper) 0 j (some 0) b ∧ 0 ≤ (asleep (.word true 0 (some 0) b) sleeper).dev.tsNow.toNat)
    ∧ ((asleep (.object 16 0 (some 0)) (.barwait (lf 0 80 0 0 87 80 13))).waitOf 0 = .object 16 0 (some 0) ∧ ((asleep (.object 16 0 (some 0)) (.barwait (lf 0 80 0 0 87 80 13))).pending 0).isSome = true)
    ∧ ((asleep .pipe (.iadd (lf 0 0 0 0 0 1 0))).waitOf 0 = .pipe ∧ ∃ j, (asleep .pipe (.iadd (lf 0 0 0 0 0 1 0))).pending 0 = some j ∧ j.pipesReady = true) := by
  refine ⟨?_, by decide +kernel, by decide +kernel, ?_⟩
  · intro b hb
    have h : ((asleep (.word true 0 (some 0) b) sleeper).pending 0).any (fun j => j.inAlias && decide ((j.s.core j.core).flaws = [])) = true := by revert b; decide +kernel
    obtain ⟨j, hj, g⟩ := any_some h
    simp only [Bool.and_eq_true, decide_eq_true_eq] at g
    refine ⟨j, ⟨⟨0, rfl, ?_⟩, hj, g.1, sound g.2⟩, Nat.zero_le _⟩
    clear hj g h
    revert b
    decide +kernel
  · have h : ((asleep .pipe (.iadd (lf 0 0 0 0 0 1 0))).pending 0).any Iss.pipesReady = true := by decide +kernel
    obtain ⟨j, hj, g⟩ := any_some h
    exact ⟨j, hj, g⟩

/-- A copy of 600 bytes that begins at byte 200 of a block, between these spaces; one that has moved them all. -/
def entryOf (kind spc src dst len done : Nat) : CopyEntry :=
  { ctx := 0, seq := 1, words := [kind + 2 ^ 12 * spc, src, dst, len, 0, 0, 0, 0].map (BitVec.ofNat 64), who := some (0, 0), done := done, crc := BitVec.allOnes 32, stat := .run }
def copying (e : CopyEntry) : State := { queued 0 with cores := [(0, { core with copies := [e] })] }
theorem noneRotates {s : State} (h : (s.waves.all fun x => x.2.wait = .none) = true) : NoneRotates s := by
  intro k e
  unfold State.waitOf State.wave? at e
  split at e
  · next w hw =>
    have g := List.all_eq_true.mp h _ (find?_mem hw)
    simp [e] at g
  · cases e

/-- Translation has left the core as it was. -/
def undisturbed (e : CopyEntry) (u : State) : Bool :=
  Sparse.wf Core.reset u.cores && decide ((u.core 0).copies = [e]) && decide ((u.core 0).scratch = ((copying e).core 0).scratch)
theorem translated {α : Type} {r : Except (Nat × Nat) α × State} {p : α → State → Bool} (h : (match r with | (.ok x, u) => p x u | _ => false) = true) :
    ∃ x u, r = (.ok x, u) ∧ p x u = true := by
  split at h
  · exact ⟨_, _, rfl, h⟩
  · cases h

theorem witness_copies :
    (∀ x ∈ [(3, 200, 1224), (1, 0x10C8, 456), (2, 200, 0x11C8)], Copying (copying (entryOf 1 x.1 x.2.1 x.2.2 600 0)) 0 (entryOf 1 x.1 x.2.1 x.2.2 600 0)
      ∧ spaces (entryOf 1 x.1 x.2.1 x.2.2 600 0) = x.1 ∧ stepLen (entryOf 1 x.1 x.2.1 x.2.2 600 0) = 56)
    ∧ (Within (copying (entryOf 1 3 200 1224 600 0)) 0 (entryOf 1 3 200 1224 600 0) 200 56 ∧ Within (copying (entryOf 1 3 200 1224 600 0)) 0 (entryOf 1 3 200 1224 600 0) 1224 56)
    ∧ (∃ ps u, State.translatePieces (some 0) 0 Access.engRead (rangePieces 2 0x10C8 56) (copying (entryOf 1 1 0x10C8 456 600 0)) = (.ok ps, u)
        ∧ (decide (u.flawsOf (some 0) false ps = []) && undisturbed (entryOf 1 1 0x10C8 456 600 0) u) = true)
    ∧ (copying (entryOf 1 2 200 0x11C8 600 0)).checks 0 = false
    ∧ ∃ ps u, State.translatePieces (some 0) 0 Access.engWrite [(0x11C8, 56)] (copying (entryOf 1 2 200 0x11C8 600 0)) = (.ok ps, u)
        ∧ (decide (Access.engWrite.rule ps ≠ some 3) && decide (u.mem.flaws = []) && Memory.wf u.mem.cells && Memory.wf u.mem.host && !u.checks 0
          && (ps.all fun p => decide (p.x.pa + p.n ≤ hostBase)) && undisturbed (entryOf 1 2 200 0x11C8 600 0) u) = true := by
  refine ⟨?_, by unfold Within; decide +kernel, translated (by decide +kernel), by decide +kernel, translated (by decide +kernel)⟩
  intro x hx
  refine ⟨{ alone := rfl, runs := rfl, linear := ?_, left := ?_, plain := ?_, intact := ?_, still := noneRotates rfl, cores := ?_, bytes := ?_ }, ?_, ?_⟩ <;>
    (try unfold CoresListed) <;> revert x <;> decide +kernel

/-- An entry at HEAD to take; a put of 300 bytes over link 11 from window 0; an entry that is over, whose token its wave counts. -/
def entryBytes_ : List Byte := ([0x3001, 0, 512, 64, 0, 0, 0, 0] : List Nat).flatMap (toBytes 8)
def startable_ : State := { queued 1 with
  mem := { (queued 1).mem with cells := writeBytes (queued 1).mem.cells 0x20E00 entryBytes_ }, cores := [(0, { core with copyOwners := [{ ctx := 0, seq := 2 ^ 64 - 199, gang := 0, idx := 0, kind := 1 }] })] }
def startsWith (c : Nat) (s : State) : Bool :=
  match s.readEntry 0 c with
  | (.ok ps, u) => u.flawsOf (some 0) false ps = [] && Sparse.wf Core.reset u.cores && decide (u.startCz 0 (u.headEntry 0 c (u.wordsOf ps).1) = 0) && (u.headEntry 0 c (u.wordsOf ps).1).kind = 1
  | _ => false
theorem witness_start : startable_.inFlight 0 < 64 ∧ startable_.nextQueue 0 = some 0 ∧ startsWith 0 startable_ = true ∧ startable_.mem.canonical := by
  unfold Mem.canonical; decide +kernel

def sendingEntry : CopyEntry := entryOf 4 0 3700 (5 * 2 ^ 48) 300 0
def sending : State :=
  { fabric with
    fab := { fabric.fab with windows := (0, BitVec.ofNat 64 (2 ^ 63 + 2 ^ 62 + 2 ^ 61 + 9 * 2 ^ 32)) :: fabric.fab.windows.drop 1 }
    cores := [(0, { core with copies := [sendingEntry] })] }
theorem witness_put : Sending sending 0 sendingEntry 11 :=
  { alone := rfl, runs := rfl, put := by decide +kernel, first := rfl, unsent := ⟨by decide +kernel, by decide +kernel⟩, origin := rfl
    enabled := by decide +kernel, way := by unfold Linked; decide +kernel, plain := by decide +kernel, cores := by unfold CoresListed; decide +kernel
    memory := ⟨by unfold Mem.canonical; decide +kernel, by decide +kernel, by decide +kernel⟩ }

def overEntry : CopyEntry := { entryOf 1 3 0 512 64 64 with seq := 2 ^ 64 - 199 }
def completing : State := { copying overEntry with waves := [(0, { wave with ops := [{ id := 0, token := 2, kind := .copy 0 (2 ^ 64 - 199), mem := true }] })] }
theorem witness_complete : (completing.core 0).copies = [overEntry] ∧ overEntry.kind = 1 ∧ overEntry.len ≤ overEntry.done ∧ overEntry.dg = false ∧ overEntry.ba = false
    ∧ completing.keyOf overEntry.who = some 0 ∧ CoresListed completing ∧ completing.mem.canonical ∧ completing.queueAt 0 0 + 64 ≤ hostBase
    ∧ overEntry.seq = (completing.qProg 0 0 + 1) % 2 ^ 64 ∧ Memory.wf (completing.core 0).scratch = true := by
  unfold CoresListed Mem.canonical; decide +kernel

/-! ### Rays, primitives, the step -/

/-- Page 1: a node with one procedural leaf, the leaf, a task header, an empty node at 0x1180, bytecode that calls routine 0 at 0x1200, and its table at 0x1280. -/
def scene : List Nat :=
  (List.replicate 19 0 ++ [255, 255, 255] ++ List.replicate 18 0 ++ [5] ++ List.replicate 7 0 ++ [0x80, 0x10] ++ List.replicate 78 0)
  ++ ([0x08, 0x11] ++ List.replicate 126 0) ++ ([8, 0, 0, 0x5A] ++ List.replicate 124 0) ++ List.replicate 128 0
  ++ ([7, 0, 3, 0, 0, 0, 1, 0, 2, 3, 4, 0x3C, 0, 0, 0] ++ List.replicate 113 0) ++ [0x08, 0x11]
/-- A ray along z from the origin to t = 10; `a` its bytecode or root, `b` its table or BASE. -/
def rayOf (a b : Nat) : Ray :=
  { ray .run 0 with
    record := List.replicate 24 0 ++ toBytes 4 0x3F800000 ++ toBytes 4 0x41200000 ++ toBytes 8 a ++ List.replicate 16 0 ++ toBytes 8 b, handle := 0, saved := [], result := [] }
def raysAt (r : Ray) (k : UnitKind) : State :=
  let s := rendering scene 0
  { s with cores := [(0, { core with rays := if k = .march then [r] else [], travRays := if k = .march then [] else [r] })] }

/-- What a ray comes to: 0 its result, a cause, 1000 and the kind of a fault, 2000 a call. -/
def cls : Except Stop (List Byte) → Nat
  | .ok _ => 0
  | .error (.fail c) => c
  | .error (.fault k _ _) => 1000 + k
  | .error (.call ..) => 2000
  | .error _ => 3000
def walkOf (s : State) (k : UnitKind) (r : Ray) : Except Stop (List Byte) × Walker := r.walk (match k with | .march => marchRay 0 r | .trace => traceRay 0 r) s

theorem comes {s : State} {k : UnitKind} {r : Ray} {n : Nat} (h : (s.ray? 0 k r.id = some r ∧ r.stat = .run ∧ Sparse.wf Core.reset (walkOf s k r).2.s.cores = true
      ∧ (∀ u ∈ [UnitKind.march, .trace], (walkOf s k r).2.s.raysOf 0 u = s.raysOf 0 u) ∧ (((walkOf s k r).2.s.raysOf 0 k).map (·.id)).Nodup) ∧ cls (walkOf s k r).1 = n) :
    ∃ res w, ComesTo s 0 k r res w ∧ cls res = n := by
  obtain ⟨⟨h1, h2, h3, h4, h5⟩, h6⟩ := h
  refine ⟨_, _, ⟨h1, h2, rfl, h3, ?_, h5⟩, h6⟩
  intro u
  apply h4
  cases u <;> simp

/-- Rays of both units that come to a result, to a cause, to a page that is not present and to a call. -/
theorem witness_rays :
    (∃ res w, ComesTo (raysAt { rayOf 0 0 with record := List.replicate 64 0 } .march) 0 .march { rayOf 0 0 with record := List.replicate 64 0 } res w ∧ cls res = 0)
    ∧ (∃ res w, ComesTo (raysAt (rayOf 0x1180 0x1000) .trace) 0 .trace (rayOf 0x1180 0x1000) res w ∧ cls res = 0)
    ∧ (∃ res w, ComesTo (raysAt (rayOf 0x1201 0) .march) 0 .march (rayOf 0x1201 0) res w ∧ cls res = 0xA4)
    ∧ (∃ res w, ComesTo (raysAt (rayOf 0x1001 0x1000) .trace) 0 .trace (rayOf 0x1001 0x1000) res w ∧ cls res = 0xAA)
    ∧ (∃ res w, ComesTo (raysAt (rayOf 0x5000 0) .march) 0 .march (rayOf 0x5000 0) res w ∧ cls res = 1000)
    ∧ (∃ res w, ComesTo (raysAt (rayOf 0x5000 0x1000) .trace) 0 .trace (rayOf 0x5000 0x1000) res w ∧ cls res = 1000) :=
  ⟨comes (by decide +kernel), comes (by decide +kernel), comes (by decide +kernel), comes (by decide +kernel), comes (by decide +kernel), comes (by decide +kernel)⟩
theorem witness_march_call : ∃ res w, ComesTo (raysAt (rayOf 0x1200 0x1280) .march) 0 .march (rayOf 0x1200 0x1280) res w ∧ cls res = 2000 := comes (by decide +kernel)
theorem witness_trace_call : ∃ res w, ComesTo (raysAt (rayOf 0x1000 0x1000) .trace) 0 .trace (rayOf 0x1000 0x1000) res w ∧ cls res = 2000 := comes (by decide +kernel)

/-- A batch to post; a posted one whose index CIDX has passed; calls to gather; a payload slot to free, and one in use. -/
def batch (posted : Option Nat) : Batch := { unit := unitOf 0 .march, ctx := 0, cause := 0x40, pages := [(0x5000, false)], rays := [0], later := [], posted := posted }
def batched (posted : Option Nat) (cidx : Nat) : State :=
  { bench with batches := [batch posted], mem := { bench.mem with cells := writeBytes bench.mem.cells 0x100000 (toBytes 8 4 ++ toBytes 8 cidx) } }
def callRec : CallRec := { ctx := 0, handle := 64, entry := 0x1108, named := 8, scr := 0, payload := List.replicate 8 0, prio := 0, arrived := 0, born := 0 }
def called : State := { bench with cores := [(0, { core with calls := List.replicate 32 callRec })] }
def slotted (waves : Nat) : State := { bench with fes := [(2, { FrontEnd.reset with slots := [(3, { PaySlot.reset with used := true, waves := waves })] })] }
theorem witness_batches_and_slots :
    (openBatch (batched none 4) (unitOf 0 .march) = some (batch none) ∧ (batched none 4).fqFull 0 = false ∧ (batched none 4).mem.canonical ∧ (batched none 4).fqPidx 0 = 4
      ∧ ((batched none 4).ctx 0).engblk + 16 ≤ ((batched none 4).ctx 0).fqBase)
    ∧ (batched none (2 ^ 64 - 12)).fqFull 0 = true
    ∧ (Passed (batched (some 4) 5) (unitOf 0 .march) 0 ∧ ¬ Passed (batched (some 4) 4) (unitOf 0 .march) 0)
    ∧ (called.callGroup 0 = List.replicate 32 callRec ∧ bench.callGroup 0 = [])
    ∧ ((slotted 0).slot 2 3).used = true ∧ ((slotted 0).slot 2 3).waves = 0 ∧ ((slotted 0).slot 2 3).prims = 0 ∧ ((slotted 1).slot 2 3).waves ≠ 0
    ∧ Sparse.wf FrontEnd.reset (slotted 0).fes = true ∧ Sparse.wf PaySlot.reset ((slotted 0).fe 2).slots = true := by
  refine ⟨?_, by decide +kernel, ⟨⟨batch (some 4), by decide +kernel, rfl, by decide +kernel, 4, rfl, by decide +kernel⟩, ?_⟩, by decide +kernel⟩
  · unfold openBatch Mem.canonical; decide +kernel
  · rintro ⟨b, hb, -, -, p, hp, hc⟩
    have e : b = batch (some 4) := by simpa [batched] using hb
    subst e
    have : p = 4 := by simpa [batch] using hp.symm
    subst this
    exact absurd hc (by decide +kernel)

/-- A culled primitive, whose raster state has its matrices at 0x1100: it leaves; with its raster state on no page it parks. -/
def prim (rs : W64) : MeshPrim := { ctx := 0, slot := 3, rstate := rs, prim := 0x1000000, v0 := List.replicate 12 0, v1 := List.replicate 12 0, v2 := List.replicate 12 0, todo := none, killed := false }
def rastering (rs : W64) : State :=
  let s := rendering ([0, 0x11, 0, 0, 0, 0, 0, 0, 1, 0, 0, 0, 1, 0, 1, 0] ++ List.replicate 240 0) 0
  { s with fes := [(2, { FrontEnd.reset with prims := [prim rs], slots := [(3, { PaySlot.reset with used := true, prims := 1 })] })] }
def leavesOf (rs : W64) : Option (Option (Nat × Nat × Bool)) := match (rastering rs).primStep 2 (prim rs) with
  | (_, none, none) => some none
  | (_, some _, some x) => some (some x)
  | _ => none
theorem witness_parked_primitive : ((rastering 0x5000).fe 2).prims = [prim 0x5000] ∧ (rastering 0x5000).batches = [] ∧ leavesOf 0x5000 = some (some (0, 0x5000, false)) := by decide +kernel
theorem witness_leaving_primitive : leavesOf 0x1000 = some none := by decide +kernel

/-- The listed turns; a wave of the probe whose bytes decode; the invariant at reset. -/
def probe : State := State.reset.withFetchWord 32 0x64000900
theorem witness_step : probe.turns = [] ∧ probe.balance.inTick = [0] ∧ probe.balance.dueRotation = none ∧ (match probe.balance.turnOf 0 0 0 with | .run (.faddShort _) _ => true | _ => false) = true
    ∧ ({ probe with turns := [.event .timestampTick] } : State).turns = [.event .timestampTick] ∧ State.reset.balance.inTick = [] := by decide +kernel
theorem witness_canonical : State.reset.Canonical ∧ probe.Canonical := by
  unfold State.Canonical Mem.canonical; decide +kernel
theorem witness_decoding : (Instr.fadd (lf 20 0 0 0 0 82 0)).wf ∧ (Instr.fadd (lf 20 0 0 0 0 82 0)).isWave = true := by decide +kernel


/-! ### Completion -/

/-- States in which instructions on the caches and on the array complete: wsync in its window, the array free and given back, an idle owner, mma and mmas (the others
of the statement stand in the witnesses of their own statements). -/
theorem witness_array_completion :
    (∃ i, Issues rowWsync (lv 0 0 0 0 85 0 0) (atTick 1256) i ∧ windowFits i 64)
    ∧ (∃ i, Issues rowMxacq (sv 0 0) bench i ∧ ArrayFree bench i) ∧ (∃ i, Issues rowMxacq (lv 0 0 0 0 0 0 0) restoredOwner i ∧ ArrayFree restoredOwner i)
    ∧ (∃ i, Issues rowMxrel (sv 0 0) (array (some 0) []) i ∧ ArrayIdle (array (some 0) []) i)
    ∧ (∃ i, Issues rowMma (lv 0 1 10 0 80 85 1) (array (some 0) [mxOp 0]) i ∧ CanStart (lv 0 1 10 0 80 85 1) (mmaSteps (lf 0 1 10 0 80 85 1)) (fun _ => True) (array (some 0) [mxOp 0]) i)
    ∧ (∃ i, Issues rowMmas (lv 16 1 0xC4 0 80 85 0) (array (some 0) []) i
        ∧ CanStart (lv 16 1 0xC4 0 80 85 0) (scaledSteps (lv 16 1 0xC4 0 80 85 0)) (ScalesKnown (lv 16 1 0xC4 0 80 85 0) 0) (array (some 0) []) i)
    ∧ (∃ i, OnTile rowAccst (lv 0 0 10 0 80 0 0) (array (some 0) []) i ∧ TilePlace i ∧ NoneWaits (array (some 0) []) i.core)
    ∧ ∃ i, Issues rowAccrd (lv 16 1 0 0 80 87 0) (array (some 0) []) i ∧ RowNamed (lv 16 1 0 0 80 87 0) i := by
  refine ⟨witness_caches.2.2.2.2.1, ⟨_, (issues (p := fun _ => true) ?_).1, by unfold ArrayFree; decide +kernel⟩, ⟨_, (issues (p := fun _ => true) ?_).1, by unfold ArrayFree; decide +kernel⟩,
    ⟨_, (issues (p := fun _ => true) ?_).1, by unfold ArrayIdle; decide +kernel⟩, ?_, ?_, ?_, ⟨_, (issues (p := fun _ => true) ?_).1, ?_⟩⟩
  any_goals decide +kernel
  · obtain ⟨i, h, g⟩ := witness_mma.1
    exact ⟨i, h, { g with pre := trivial }⟩
  · obtain ⟨i, h, g⟩ := witness_mma.2.2.2.1
    have p := g.pre
    simp only [Bool.and_eq_true, decide_eq_true_eq, Bool.not_eq_true'] at p
    exact ⟨i, h, { g with pre := ⟨fun _ => p.1, fun _ => p.2⟩ }⟩
  · obtain ⟨i, h, g⟩ := witness_tiles.2.1
    simp only [placed, Bool.and_eq_true, decide_eq_true_eq, Bool.not_eq_true'] at g
    exact ⟨i, h, ⟨g.1.1.1, g.1.1.2, g.1.2⟩, noneWaits (by decide +kernel) _⟩
  · exact ⟨by decide +kernel, by decide +kernel, by decide +kernel, 7, by decide +kernel⟩

/-- A tspawn whose spawns are accepted, a launch of gangs, a pipe to close, and a ray, a brick, bytecode and a mesh for the units. -/
theorem witness_unit_completion :
    (∃ i, Issues rowTspawn (off (lf 0 16 0 0 85 16 0)).view (rendering [8, 0, 20, 0x5A] 0x1008) i ∧ AllAccepted (off (lf 0 16 0 0 85 16 0)).view (rendering [8, 0, 20, 0x5A] 0x1008) i)
    ∧ (∃ i, Issues rowLaunch (lv 0 0 0 0 83 0 0) (rendering (descriptor 0) 0) i ∧ LaunchReads (lv 0 0 0 0 83 0 0) (rendering (descriptor 0) 0) i)
    ∧ (∃ i, Issues rowPclose (lv 0 0 0 0 3 0 0) piped i ∧ (piped.pipeEnd i.w.gang (lv 0 0 0 0 3 0 0).aRaw false).isSome = true)
    ∧ (∃ i, Issues rowMch (lv 0 0 0 0 80 16 0) (rendering [] 0) i ∧ CanSubmit .march 0xA9 WindowRoom (rendering [] 0) i)
    ∧ (∃ i, Issues rowRayres (lv 0 0 0 0 80 16 0) (withRays .done) i ∧ CanDeliver .trace (withRays .done) i)
    ∧ (∃ i, Issues rowRaysus (lv 0 16 0 0 85 18 0) (withRays .called) i ∧ CanAnswerTrace (withRays .called) i)
    ∧ (∃ i b u, Issues rowPrune (lv 16 85 0 0 83 80 0) prunable i ∧ CanPrune (lv 16 85 0 0 83 80 0) prunable i b u)
    ∧ ∃ i, Issues rowMemitVert (lv 0 80 0 0 80 16 16) (rendering [] 0) i ∧ CanEmitVertices (rendering [] 0) i := by
  refine ⟨?_, ?_, ?_, witness_rays_submitted.1, witness_rays_delivered.2, ?_, witness_prune, ?_⟩
  · obtain ⟨i, ls, u, h, g, e⟩ := witness_tspawn.2
    exact ⟨i, h.toIssues, of_decide_eq_true e, ls, u, h, g⟩
  · obtain ⟨i, d, u, h, g, e⟩ := witness_launch.1
    exact ⟨i, h, d, u, g, fun t => absurd (e.symm.trans t) (by decide)⟩
  · obtain ⟨i, h, g⟩ := witness_pipes_and_queries.1
    exact ⟨i, h, by rw [g]; rfl⟩
  · obtain ⟨i, h, g, -⟩ := witness_rays_answered.2
    exact ⟨i, h, g⟩
  · obtain ⟨i, h, g, -⟩ := witness_memit.1
    exact ⟨i, h, g⟩

end Sys2Proof.Tests
end

section
/-!
SUPPORT. Registers of BAR 0: where an offset leads, what a write of 64 bits stores, what a read gives and clears, and that
an access of the host is served.
-/
namespace Sys2Proof.Machine
open Sys2Proof.Says

/-! ### Where an offset leads -/

theorem inArray_eq_some {off base stride count i b : Nat} (h : off = base + stride * i + b) (hi : i < count) (hb : b < stride) :
    inArray off base stride count = some (i, b) := by
  have hlt : stride * i + b < stride * count :=
    calc stride * i + b < stride * (i + 1) := by rw [Nat.mul_succ]; omega
      _ ≤ stride * count := Nat.mul_le_mul_left stride hi
  have hsub : off - base = stride * i + b := by omega
  rw [inArray, if_pos (by omega), hsub, Nat.mul_add_div (by omega), Nat.div_eq_of_lt hb, Nat.mul_add_mod,
    Nat.mod_eq_of_lt hb, Nat.add_zero]

theorem inArray_eq_none {off base stride count : Nat} (h : off < base ∨ base + stride * count ≤ off) :
    inArray off base stride count = none := if_neg (by omega)

/-- The read of an offset within a block that takes a MiB of its own (R79). -/
def State.blockRead (s : State) (n o : Nat) : Nat :=
  match n with
  | 2 => s.memRead o
  | 3 => s.fabRead o
  | 4 => s.schRead o
  | 5 => s.ctqRead o
  | 6 => s.xltRead o
  | 12 => s.debugRead o
  | 15 => s.obsRead o
  | _ => 0

theorem State.bar0Read_block (s : State) {n o : Nat} (hn : 2 ≤ n ∧ n < 7 ∨ 12 ≤ n) (ho : o < 0x100000) (h8 : o % 8 = 0) :
    s.bar0Read (0x100000 * n + o) = s.blockRead n o := by
  have hq : (0x100000 * n + o) / 0x100000 = n := by omega
  have hr : (0x100000 * n + o) % 0x100000 = o := by omega
  have h8' : ¬ ((0x100000 * n + o) % 8 != 0) = true := by simp; omega
  rw [State.bar0Read, if_neg h8', if_neg (by omega), if_neg (by omega), if_neg (by omega)]
  simp (disch := omega) only [inArray_eq_none, hq, hr]
  rfl

/-! ### Counters that a read clears (R5) -/

theorem get_clr {m : Sparse W64} (h : Sparse.wf 0 m = true) (i j : Nat) :
    Sparse.get 0 (clr m i) j = if j = i then 0 else Sparse.get 0 m j := Sparse.get_set h i j 0

theorem State.bar0Read_memStats (s : State) {i : Nat} (hi : i < 8) :
    s.bar0Read (0x0200100 + 8 * i) = (Sparse.get 0 s.mem.stats i).toNat := by
  have hoff : 0x0200100 + 8 * i = 0x100000 * 2 + (0x100 + 8 * i) := by omega
  rw [hoff, s.bar0Read_block (by decide) (by omega) (by omega)]
  change s.memRead _ = _
  simp (disch := omega) only [State.memRead, inArray_eq_some (Nat.add_zero _).symm hi, if_neg]
  rfl

theorem State.bar0Clear_memStats (s : State) {i : Nat} (hi : i < 8) :
    s.bar0Clear (0x0200100 + 8 * i) = { s with mem := { s.mem with stats := clr s.mem.stats i } } := by
  have h : inArray (0x0200100 + 8 * i) 0x0200100 8 8 = some (i, 0) := inArray_eq_some (by omega) hi (by decide)
  simp (disch := omega) only [State.bar0Clear, h, inArray_eq_none]

theorem State.bar0Read_errUe (s : State) {i : Nat} (hi : i < 16) :
    s.bar0Read (0x0C01080 + 8 * i) = (Sparse.get 0 s.dev.errUe i).toNat := by
  have hoff : 0x0C01080 + 8 * i = 0x100000 * 12 + (0x1080 + 8 * i) := by omega
  rw [hoff, s.bar0Read_block (by decide) (by omega) (by omega)]
  change s.debugRead _ = _
  simp (disch := omega) only [State.debugRead, inArray_eq_some (Nat.add_zero _).symm hi, inArray_eq_none]
  rfl

theorem State.bar0Clear_errUe (s : State) {i : Nat} (hi : i < 16) :
    s.bar0Clear (0x0C01080 + 8 * i) = { s with dev := { s.dev with errUe := clr s.dev.errUe i } } := by
  have h : inArray (0x0C01080 + 8 * i) 0x0C01080 8 16 = some (i, 0) := inArray_eq_some (by omega) hi (by decide)
  simp (disch := omega) only [State.bar0Clear, h, inArray_eq_none]

theorem State.bar0Clear_polls (s : State) {c : Nat} (hc : c < 192) :
    s.bar0Clear (0x0800120 + 0x4000 * c) = s.onCore c fun x => { x with polls := 0 } := by
  have h : inArray (0x0800120 + 0x4000 * c) 0x0800000 0x4000 192 = some (c, 0x120) := inArray_eq_some (by omega) hc (by decide)
  simp (disch := omega) only [State.bar0Clear, h, inArray_eq_none]
  rfl

/-! ### Registers that a write stores and a read gives -/

theorem alignDown_eq_div_mul (n a : Nat) : alignDown n a = n / a * a := by
  have h := Nat.div_add_mod' n a
  rw [alignDown]; omega

/-- A field that reaches up to bit 63, in its place, is the word with the bits below the field cleared. -/
theorem alignDown_toNat_eq_field (v : W64) {k : Nat} (hk : k ≤ 64) : alignDown v.toNat (2 ^ k) = field v 63 k * 2 ^ k := by
  have hlt : v.toNat / 2 ^ k < 2 ^ (63 + 1 - k) := by
    rw [Nat.div_lt_iff_lt_mul (Nat.two_pow_pos k), ← Nat.pow_add, Nat.sub_add_cancel hk]
    exact v.isLt
  rw [alignDown_eq_div_mul, field, Nat.mod_eq_of_lt hlt]

theorem State.bar0Write_apBase (s : State) (v : W64) : s.bar0Write 0x0100038 v
    = { s with host := { s.host with apBase := field v 56 28 / 2 ^ (s.host.bar4 - 28) * 2 ^ (s.host.bar4 - 28) } } := by
  rw [← alignDown_eq_div_mul]; rfl

theorem State.bar0Write_gsubAddr (s : State) (v : W64) :
    s.bar0Write 0x0400000 v = { s with sched := { s.sched with gsubAddr := BitVec.ofNat 64 (field v 63 6 * 2 ^ 6) } } := by
  rw [← alignDown_toNat_eq_field v (by decide)]; rfl

theorem State.bar0Write_invVa (s : State) (v : W64) :
    s.bar0Write 0x0600008 v = { s with xlt := { s.xlt with invVa := BitVec.ofNat 64 (field v 63 12 * 2 ^ 12) } } := by
  rw [← alignDown_toNat_eq_field v (by decide)]; rfl

/-- Each register is found at its offset; but for the three that align an address, its field is cut out as the tables write it. -/
theorem bar0Write_plainWrites (s : State) (v : W64) : ∀ x ∈ plainWrites s v, s.bar0Write x.1 v = x.2 := by
  simp only [plainWrites, List.forall_mem_cons]
  exact ⟨rfl, rfl, rfl, rfl, s.bar0Write_apBase v, rfl, rfl, rfl, s.bar0Write_gsubAddr v, rfl, s.bar0Write_invVa v, rfl, rfl,
    List.forall_mem_nil _⟩

/-- A register that stands at an offset with a value and that a read leaves as it is. -/
structure ReadsAs (s : State) (off n : Nat) : Prop where
  aligned : off % 8 = 0
  value : s.bar0Read off = n
  kept : s.bar0Clear off = s

theorem readsAs_plainReads (s : State) : ∀ x ∈ plainReads s, ReadsAs s x.1 x.2 := by
  simp only [plainReads, List.forall_mem_cons]
  refine ⟨?_, ?_, ?_, ?_, ?_, ?_, ?_, ?_, ?_, ?_, ?_, ?_, List.forall_mem_nil _⟩ <;> exact ⟨rfl, rfl, rfl⟩

end Sys2Proof.Machine

namespace Sys2Proof.Says
open Sys2Proof.Machine

/-! ### Accesses that are served (R18, R99, R101) -/

theorem Serving.serves {s : State} (h : Serving s) : s.serves = true := by
  obtain ⟨hup, h0, h15⟩ := h
  simp [State.serves, hup, h0, h15]

theorem Serving.readServed {s : State} (h : Serving s) (off : Nat) : s.readServed off = true := by
  obtain ⟨hup, h0, h15⟩ := h
  simp [State.readServed, hup, h0, h15]

theorem Serving.exec_registerWrite {s : State} (h : Serving s) (off : Nat) (v : W64) :
    exec (.registerWrite off v) s = .next (s.bar0Write off v) := by
  change hosted s (fun s => s.bar0Write off v) = _
  rw [hosted, if_pos h.serves]

/-- An aligned read: its data leave the device, and a counter that a read clears is cleared. -/
theorem Serving.exec_counterReadClear {s : State} (h : Serving s) {off : Nat} (h8 : off % 8 = 0) :
    exec (.counterReadClear off) s
      = .next { s.bar0Clear off with host := { (s.bar0Clear off).host with readData := toBytes 8 (s.bar0Read off) } } := by
  have hc : (s.readServed off && decide (off % 8 = 0)) = true := by rw [h.readServed off, decide_eq_true h8]; rfl
  change Host.Outcome.next (s.readClear off) = _
  rw [State.readClear, if_pos (h.readServed off), if_pos hc]

/-- Settles O44: an access that is served does what the register at its offset does. -/
theorem hostRegistersAreReadAndWritten : Obligations.HostRegistersAreReadAndWritten := by
  refine ⟨fun s v hs x hx => ?writes, fun s hs x hx => ?reads, fun s i hs hi hw => ?memStats, fun s i hs hi hw => ?errUe,
    fun s c hs hc hw => ?polls⟩
  case writes => exact ⟨_, hs.exec_registerWrite x.1 v, bar0Write_plainWrites s v x hx⟩
  case reads =>
    obtain ⟨h8, hvalue, hkept⟩ := readsAs_plainReads s x hx
    exact ⟨_, hs.exec_counterReadClear h8, by rw [hkept, hvalue]⟩
  case memStats =>
    refine ⟨_, hs.exec_counterReadClear (by omega), ?_⟩
    rw [s.bar0Clear_memStats hi, s.bar0Read_memStats hi]
    exact ⟨rfl, rfl, get_clr hw i⟩
  case errUe =>
    refine ⟨_, hs.exec_counterReadClear (by omega), ?_⟩
    rw [s.bar0Clear_errUe hi, s.bar0Read_errUe hi]
    exact ⟨rfl, rfl, get_clr hw i⟩
  case polls =>
    refine ⟨_, hs.exec_counterReadClear (by omega), ?_⟩
    rw [s.bar0Clear_polls hc]
    have hget := fun d => Sparse.get_set hw c d { s.core c with polls := 0 }
    exact ⟨rfl, (hget c).trans (if_pos rfl), fun d hd => (hget d).trans (if_neg hd)⟩

end Sys2Proof.Says
end

section
/-!
SUPPORT. Releases at system scope (spec/03 R66, spec/09 R218 to R220): what a release that waits leaves of the machine, and
when an instruction that orders goes on or waits.
-/
namespace Sys2Proof.Machine
open Sys2Proof.Says

/-! ### A release that waits -/

@[simp] theorem State.addFence_mem (s : State) (who : FenceOf) (p : List (Nat × Nat × Nat)) (ls : List Nat) :
    (s.addFence who p ls).mem = s.mem := by unfold State.addFence; split <;> rfl
@[simp] theorem State.addFence_cores (s : State) (who : FenceOf) (p : List (Nat × Nat × Nat)) (ls : List Nat) :
    (s.addFence who p ls).cores = s.cores := by unfold State.addFence; split <;> rfl
@[simp] theorem State.addFence_waves (s : State) (who : FenceOf) (p : List (Nat × Nat × Nat)) (ls : List Nat) :
    (s.addFence who p ls).waves = s.waves := by unfold State.addFence; split <;> rfl
@[simp] theorem State.addFence_fences (s : State) (who : FenceOf) (p : List (Nat × Nat × Nat)) (ls : List Nat) :
    (s.addFence who p ls).fab.fences = s.fab.fences ++ [{ id := s.fab.nextPut, who := who, pending := p, links := ls }] := by
  unfold State.addFence; split <;> rfl

@[simp] theorem State.addFence_wave? (s : State) (who : FenceOf) (p : List (Nat × Nat × Nat)) (ls : List Nat) (k : Nat) :
    (s.addFence who p ls).wave? k = s.wave? k := by
  rw [State.wave?, State.addFence_waves, State.wave?]

/-- The state in which the wave of `i` waits for its release over what it has under way. -/
def Iss.releasing (i : Iss) : State :=
  ((i.s.setWave i.key i.w).setWave i.key { i.w with wait := .fence i.s.fab.nextPut }).addFence (.wave i.key)
    (i.s.unsent i.w.gang i.w.idx) (i.s.usedLinks i.w.gang i.w.idx)

@[simp] theorem Iss.releasing_mem (i : Iss) : i.releasing.mem = i.s.mem := by simp [Iss.releasing]
@[simp] theorem Iss.releasing_cores (i : Iss) : i.releasing.cores = i.s.cores := by simp [Iss.releasing]

theorem Iss.releasing_waitOf (i : Iss) : i.releasing.waitOf i.key = .fence i.s.fab.nextPut := by
  simp [State.waitOf, Iss.releasing]

theorem Iss.releasing_wave?_other (i : Iss) {k : Nat} (h : k ≠ i.key) : i.releasing.wave? k = i.s.wave? k := by
  simp [Iss.releasing, State.wave?_setWave_other _ _ h]

/-- The release counts the entries still to be sent and the links that carried some. -/
theorem Iss.mem_releasing_fences (i : Iss) :
    FabFence.mk i.s.fab.nextPut (.wave i.key) (i.s.unsent i.w.gang i.w.idx) (i.s.usedLinks i.w.gang i.w.idx)
      ∈ i.releasing.fab.fences := by
  simp [Iss.releasing]

/-! ### Instructions that order -/

/-- Storing the wave at issue changes nothing that its release covers, so the release starts unless nothing is under way. -/
theorem Iss.startFence_eq (i : Iss) :
    (i.s.setWave i.key i.w).startFence i.key
      = if (i.s.unsent i.w.gang i.w.idx).isEmpty && (i.s.usedLinks i.w.gang i.w.idx).isEmpty then none
        else some i.releasing := by
  rw [State.startFence, State.wave?_setWave_same]
  rfl

theorem Iss.startFence_of_fabricQuiet {i : Iss} (h : FabricQuiet i) : (i.s.setWave i.key i.w).startFence i.key = none := by
  rw [i.startFence_eq, h.1, h.2]
  rfl

theorem Iss.startFence_of_not_fabricQuiet {i : Iss} (h : ¬ FabricQuiet i) :
    (i.s.setWave i.key i.w).startFence i.key = some i.releasing := by
  rw [i.startFence_eq, if_neg]
  simpa [FabricQuiet] using h

/-- R218: what is no release at system scope, or covers nothing that is under way, is over at once. -/
theorem Iss.ordered_eq_done {i : Iss} {release sys : Bool} (h : (release && sys) = false ∨ FabricQuiet i) :
    i.ordered release sys = i.done := by
  unfold Iss.ordered
  split
  · next hrel =>
    have hquiet : FabricQuiet i := h.resolve_left (by simp [hrel])
    rw [Iss.startFence_of_fabricQuiet hquiet]
  · rfl

theorem Iss.ordered_eq_releasing {i : Iss} {release sys : Bool} (hrel : (release && sys) = true) (h : ¬ FabricQuiet i) :
    i.ordered release sys = i.releasing := by
  rw [Iss.ordered, if_pos hrel, Iss.startFence_of_not_fabricQuiet h]

/-- R155: an instruction that does nothing else moves its lanes to the next instruction. -/
theorem Issues.done_moves {r : Row} {v : View} {s : State} {i : Iss} (h : Issues r v s i) : i.Moves (fun _ => i.nextPc) i.done := by
  obtain ⟨w, hw, hadv, hk, hflags, hlanes⟩ := i.commit_keeps i.s i.w (fun _ => h.lt_of_at) rfl (fun _ => rfl)
  refine ⟨w, hw, hk, hflags, fun j => ?_⟩
  obtain ⟨hshelf, hnamed, hpreds, hret, htask⟩ := hlanes j
  refine ⟨hshelf, hnamed, hpreds, htask, by rw [hret, ite_self], ?_⟩
  rw [hadv j]
  by_cases hj : j ∈ i.ex
  · rw [if_pos hj, if_pos (h.at_of_ex hj)]
  · rw [if_neg hj]

theorem Iss.done_quietly (i : Iss) : i.Quietly i.done := by
  refine fun hcores => ⟨i.commit_local _ _ hcores, fun w hw => ?_⟩
  rw [Iss.done, i.commit_wave] at hw
  cases hw
  exact Wave.SameFrame.committed rfl

theorem Issues.done_goesOn {r : Row} {v : View} {s : State} {i : Iss} (h : Issues r v s i) : i.GoesOn i.done :=
  ⟨h.done_moves, i.done_quietly⟩

end Sys2Proof.Machine

namespace Sys2Proof.Says
open Sys2Proof.Machine

/-! ### Fences -/

/-- An instruction whose effect is its order alone goes on, or waits for its release. -/
theorem fences_of_exec_eq {ins : Instr} {r : Row} {v : View} {release sys : Bool}
    (hexec : ∀ s, exec ins s = issue r v s (fun _ => []) fun i => i.ordered release sys) :
    Fences ins r v (release && sys) := by
  intro s i h
  have hnext : exec ins s = .next (i.ordered release sys) := (hexec s).trans (issue_next h rfl)
  obtain ⟨rfl, -, -, -⟩ := h.view
  refine ⟨fun hdone => ⟨i.done, ?_, h.done_goesOn⟩, fun hrel hbusy => ⟨i.releasing, ?_, i.releasing_waitOf,
    ⟨_, i.mem_releasing_fences, rfl, rfl, rfl⟩, i.releasing_mem, i.releasing_cores, fun _ => i.releasing_wave?_other⟩⟩
  · rw [hnext, Iss.ordered_eq_done hdone]
  · rw [hnext, Iss.ordered_eq_releasing hrel hbusy]

/-- Settles O23: a fence goes on, or waits for the release of what its wave has under way on the fabric. -/
theorem fencesWaitForTheFabricAlone : Obligations.FencesWaitForTheFabricAlone :=
  ⟨fun _ => fences_of_exec_eq fun _ => rfl, fun _ => fences_of_exec_eq (release := true) (sys := true) fun _ => rfl⟩

end Sys2Proof.Says
end
